-- ==== Sys2Proof/Word.lean ====
section
/-! DEFINITION. The word types of synth-core (00_scope.md R9, 10_state.md R48). -/

namespace Sys2Proof

/-- One byte of a message, a frame or a record (30_encoding.md R141, 20_memory.md R100). -/
abbrev Byte := BitVec 8

/-- A 32-bit word of the register space or of a host frame (10_state.md R48, 30_encoding.md R160). -/
abbrev Word := BitVec 32

/-- The bit pattern of an IEEE 754 binary32 value (00_scope.md R9). -/
abbrev F32 := BitVec 32

/-- One audio sample on port A, 16-bit two's complement (20_memory.md R105). -/
abbrev Sample := BitVec 16

end Sys2Proof
end

