-- ==== Sys2Proof/Config.lean ====
section
/-! DEFINITION. The parameters of synth-core (00_scope.md R7, R8) and the free values the spec leaves open. F32 parameters are binary32 bit patterns. -/

namespace Sys2Proof.Config

/-! ## Fixed by the source (00_scope.md R7) -/

/-- NUM_VOICES. -/
abbrev numVoices : Nat := 32
/-- NUM_PATCHES. -/
abbrev numPatches : Nat := 32
/-- TABLE_LEN. -/
abbrev tableLen : Nat := 4096
/-- NOISE_LEN. -/
abbrev noiseLen : Nat := 480000
/-- REVERB_LEN. -/
abbrev reverbLen : Nat := 480000
/-- RECORD_SIZE (PADDR_END). -/
abbrev recordSize : Nat := 154
/-- ENV_TIME_MAX, 10000.0 ms. -/
abbrev envTimeMax : F32 := 0x461C4000#32
/-- LFO_FREQ_MAX, 20.0 Hz. -/
abbrev lfoFreqMax : F32 := 0x41A00000#32
/-- BYTE_SCALE, 127.0. -/
abbrev byteScale : F32 := 0x42FE0000#32
/-- A4_HZ, 440.0. -/
abbrev a4Hz : F32 := 0x43DC0000#32
/-- A4_NOTE. -/
abbrev a4Note : Nat := 69
/-- DETUNE_SCALE, the binary32 value nearest 0.01. -/
abbrev detuneScale : F32 := 0x3C23D70A#32
/-- BEND_SMOOTH, the binary32 value nearest 0.3. -/
abbrev bendSmooth : F32 := 0x3E99999A#32
/-- BEND_DEAD_LO. -/
abbrev bendDeadLo : Nat := 8184
/-- BEND_DEAD_HI. -/
abbrev bendDeadHi : Nat := 8200
/-- OUT_SCALE, 8000.0. -/
abbrev outScale : F32 := 0x45FA0000#32
/-- KNEE1, 20000.0. -/
abbrev knee1 : F32 := 0x469C4000#32
/-- RATIO1, the binary32 value nearest 0.7. -/
abbrev ratio1 : F32 := 0x3F333333#32
/-- KNEE2, 26000.0. -/
abbrev knee2 : F32 := 0x46CB2000#32
/-- RATIO2, the binary32 value nearest 0.2. -/
abbrev ratio2 : F32 := 0x3E4CCCCD#32
/-- MOOG_A, the binary32 value nearest 3.6. -/
abbrev moogA : F32 := 0x40666666#32
/-- MOOG_B, the binary32 value nearest 1.6. -/
abbrev moogB : F32 := 0x3FCCCCCD#32
/-- MOOG_S, the binary32 value nearest 1.386249. -/
abbrev moogS : F32 := 0x3FB1709B#32
/-- LCG_SEED. -/
abbrev lcgSeed : Nat := 5323
/-- LCG_MUL. -/
abbrev lcgMul : Nat := 8253729
/-- LCG_INC. -/
abbrev lcgInc : Nat := 2396403
/-- LCG_MOD. -/
abbrev lcgMod : Nat := 32767
/-- The longest name the record holds (10_state.md R36, 90_conflicts.md C5). -/
abbrev nameMax : Nat := 19

/-! ## Left open by the source, at the spec's values (00_scope.md R8; log 12) -/

/-- SR_MIN, Hz. -/
abbrev srMin : Nat := 1
/-- SR_MAX, Hz. -/
abbrev srMax : Nat := 192000
/-- MAX_FILL, samples. -/
abbrev maxFill : Nat := 4096
/-- CC_MODWHEEL. -/
abbrev ccModwheel : BitVec 7 := 1#7
/-- CC_FILTER. -/
abbrev ccFilter : BitVec 7 := 74#7
/-- CC_REVERB. -/
abbrev ccReverb : BitVec 7 := 91#7
/-- CC_PATCH. -/
abbrev ccPatch : BitVec 7 := 0#7
/-- CUTOFF_CC_MAX_HZ, 20000.0. -/
abbrev cutoffCcMaxHz : F32 := 0x469C4000#32
/-- BEND_RANGE, semitones at full bend. -/
abbrev bendRange : Nat := 2
/-- NOTE_ON_TOLERANCE, the binary32 value nearest 0.001. -/
abbrev noteOnTolerance : F32 := 0x3A83126F#32
/-- The precisions (fraction bits) at which a transcendental is enclosed, tried in turn until its
rounding is decided (00_scope.md R11; log 6). -/
abbrev precisions : List Nat := [96, 192, 384, 768]

/-- The routed controllers are pairwise distinct, but that CC_MODWHEEL may equal CC_FILTER
(30_encoding.md R144): a configuration that breaks this is no synth-core (60_exceptions.md R529). -/
abbrev controllersDistinct : Bool :=
  ccModwheel != ccReverb && ccModwheel != ccPatch && ccFilter != ccReverb && ccFilter != ccPatch
    && ccReverb != ccPatch

/-! ## Free values: nothing constrains them -/

/-- The n-th value of the draw port where none waits on it: any of 0..15 (00_scope.md R15; log 1). -/
opaque freeDraw : Nat → BitVec 4

/-- The sign (bit 22) and the payload (bits 21..0) of the NaN an operation on two operands gives, of which
no rule says anything (00_scope.md R10; log 5). -/
opaque freeNaN : F32 → F32 → BitVec 23

/-- `floor` of an infinity or a NaN, which no rule gives (00_scope.md R12; log 7). -/
opaque freeFloor : F32 → Int

/-- Sample `j` of the table of NONE, which no rule gives and no reachable state reads
(41_waveform.md R230; log 7). -/
opaque freeSample : Nat → F32

end Sys2Proof.Config
end

