-- ==== Sys2Proof/Machine/Fields.lean ====
section
/-! DEFINITION. The bit fields of messages and frames, and the classes of status bytes, controllers and commands (30_encoding.md R141 to R146, 20_memory.md R104). -/

namespace Sys2Proof

/-! ## Reading fields -/

/-- A data byte of a control message, masked to 7 bits (30_encoding.md R143). -/
def data7 (b : Byte) : BitVec 7 := b.extractLsb' 0 7

/-- Two 7-bit groups, low group first (20_memory.md R104). -/
def data14 (lo hi : Byte) : BitVec 14 := data7 hi ++ data7 lo

/-- The high nibble of a status byte (30_encoding.md R141). -/
def statusNibble (b : Byte) : BitVec 4 := b.extractLsb' 4 4

/-- The controllers of CC_CUTOFF (30_encoding.md R144). -/
def isCutoffController (c : BitVec 7) : Bool := c == Config.ccModwheel || c == Config.ccFilter

/-- The controllers a CC message is routed by (30_encoding.md R144). -/
def isRouted (c : BitVec 7) : Bool :=
  isCutoffController c || c == Config.ccReverb || c == Config.ccPatch

/-- The status bytes of 30_encoding.md R142; every other one is unassigned (R146). -/
def isAssignedStatus (b : Byte) : Bool :=
  let s := statusNibble b
  s == 0x8 || s == 0x9 || s == 0xB || s == 0xC || s == 0xE || b == 0xF0

/-- The bulk commands (30_encoding.md R145). -/
def isBulkCommand (b : Byte) : Bool := b == 0x01 || b == 0x02

/-- A little-endian 16-bit field (20_memory.md R104). -/
def le16 (b0 b1 : Byte) : BitVec 16 := b1 ++ b0

/-- A little-endian 32-bit field (20_memory.md R104). -/
def le32 (b0 b1 b2 b3 : Byte) : BitVec 32 := b3 ++ b2 ++ b1 ++ b0

/-! ## Writing fields -/

/-- A status byte of a nibble and a channel (30_encoding.md R141, R164). -/
def status (nibble channel : BitVec 4) : Byte := nibble ++ channel

/-- A 7-bit operand as a data byte. -/
def byte7 (v : BitVec 7) : Byte := v.setWidth 8

/-- The low and the high 7-bit group of a 14-bit operand (20_memory.md R104). -/
def lo7 (v : BitVec 14) : Byte := byte7 (v.extractLsb' 0 7)

def hi7 (v : BitVec 14) : Byte := byte7 (v.extractLsb' 7 7)

/-- Byte `k` of a word (00_scope.md R9). -/
def byteOf {w : Nat} (v : BitVec w) (k : Nat) : Byte := v.extractLsb' (8 * k) 8

/-- The four bytes of a 32-bit field, little-endian. -/
def bytes32 (v : Word) : List Byte := [byteOf v 0, byteOf v 1, byteOf v 2, byteOf v 3]

end Sys2Proof
end

