-- ==== Sys2Proof/Syntax.lean ====
section
/-! DEFINITION. The inputs and the operations of synth-core: one constructor per row of spec/opcode_table.json (30_encoding.md R162). -/

namespace Sys2Proof

/-- One input: a byte tuple on port C or a frame on port H, whole, with its length (30_encoding.md R140). -/
inductive Input where
  | control (bytes : List Byte)
  | host (bytes : List Byte)
  deriving DecidableEq, Repr, Inhabited

/-- The operations. Operands are those of 30_encoding.md R143 and R160. The three rows that stand for
input which performs nothing keep the input's bytes. -/
inductive Instr where
  /-- NOTE_OFF (47_engine.md R450). -/
  | noteOff (note : BitVec 7)
  /-- NOTE_ON (47_engine.md R452). -/
  | noteOn (note velocity : BitVec 7)
  /-- CC_CUTOFF (47_engine.md R457); the controller is CC_MODWHEEL or CC_FILTER. -/
  | ccCutoff (controller value : BitVec 7)
  /-- CC_REVERB (47_engine.md R458). -/
  | ccReverb (value : BitVec 7)
  /-- CC_PATCH (47_engine.md R459). -/
  | ccPatch (value : BitVec 7)
  /-- CC_OTHER (47_engine.md R460). -/
  | ccOther (controller : BitVec 7)
  /-- PATCH_SELECT (47_engine.md R455). -/
  | patchSelect (index : BitVec 7)
  /-- PITCH_BEND (47_engine.md R461). -/
  | pitchBend (bend : BitVec 14)
  /-- BULK_REQUEST (44_patch_record.md R340). -/
  | bulkRequest (addr size : BitVec 14)
  /-- BULK_DELIVER (44_patch_record.md R341); size is the payload's length. -/
  | bulkDeliver (addr : BitVec 14) (payload : List Byte)
  /-- CTRL_UNKNOWN (30_encoding.md R145, R146). -/
  | ctrlUnknown (msg : List Byte)
  /-- MSG_TOO_SHORT (30_encoding.md R142, 60_exceptions.md R523). -/
  | msgTooShort (msg : List Byte)
  /-- FILL (46_mixer.md R400): sample count and sample rate. -/
  | fill (n : BitVec 16) (sr : Word)
  /-- UPDATE (47_engine.md R468); the duration is decoded and not used. -/
  | update (deltaMs : F32)
  /-- STORE (47_engine.md R466). -/
  | store (index : Byte)
  /-- CFG_WRITE (47_engine.md R472). -/
  | cfgWrite (addr : Byte) (d : Word)
  /-- CFG_READ (47_engine.md R473). -/
  | cfgRead (addr : Byte)
  /-- RESET (47_engine.md R470). -/
  | reset
  /-- NOTE_ON_EX (47_engine.md R454); the patch index is signed. -/
  | noteOnEx (patchIndex : Byte) (note velocity : BitVec 7)
  /-- HOST_UNKNOWN (30_encoding.md R161). -/
  | hostUnknown (frame : List Byte)
  deriving DecidableEq, Repr, Inhabited

end Sys2Proof
end

