-- ==== Sys2Proof/WellFormed.lean ====
section
/-! DEFINITION. Which instruction terms stand for an input: the checks of 30_encoding.md R142, R144, R146, R161 and 60_exceptions.md R523. -/

namespace Sys2Proof

/-- A control message that is MSG_UNKNOWN at decoding, CC_OTHER apart (60_exceptions.md R523). -/
def isUnknownMessage : List Byte → Bool
  | [] => false
  | b0 :: rest => !isAssignedStatus b0 || (b0 == 0xF0 && (rest.head?.any fun c => !isBulkCommand c))

/-- A bulk message below its min n (30_encoding.md R142): `rest` follows the status byte. -/
def isShortBulk : List Byte → Bool
  | [] => true
  | c :: more =>
    isBulkCommand c &&
      match more with
      | _ :: _ :: s0 :: s1 :: payload => c == 0x02 && decide (payload.length < (data14 s0 s1).toNat)
      | _ => true

/-- A control message below its min n, or without its selector byte (30_encoding.md R142,
60_exceptions.md R523). -/
def isShortMessage : List Byte → Bool
  | [] => true
  | b0 :: rest =>
    let s := statusNibble b0
    if b0 == 0xF0 then isShortBulk rest
    else if s == 0x8 || s == 0xC then rest.isEmpty
    else if s == 0x9 || s == 0xE then decide (rest.length < 2)
    else if s == 0xB then rest.isEmpty || (rest.length == 1 && rest.any fun b1 => isRouted (data7 b1))
    else false

/-- The min n of a host opcode, none where it is unassigned (30_encoding.md R160, R161). -/
def hostMinLength (b0 : Byte) : Option Nat :=
  if b0 == 0x01 then some 7
  else if b0 == 0x02 then some 5
  else if b0 == 0x03 then some 2
  else if b0 == 0x04 then some 6
  else if b0 == 0x05 then some 2
  else if b0 == 0x06 then some 1
  else if b0 == 0x07 then some 4
  else none

/-- A host frame that performs nothing (30_encoding.md R161). -/
def isBadFrame (frame : List Byte) : Bool :=
  match frame with
  | [] => true
  | b0 :: _ => (hostMinLength b0).all fun n => decide (frame.length < n)

/-- The instruction stands for some input. -/
def Instr.wf : Instr → Bool
  | .noteOff _ => true
  | .noteOn _ _ => true
  | .ccCutoff c _ => isCutoffController c
  | .ccReverb _ => true
  | .ccPatch _ => true
  | .ccOther c => !isRouted c
  | .patchSelect _ => true
  | .pitchBend _ => true
  | .bulkRequest _ _ => true
  | .bulkDeliver _ payload => decide (payload.length < 16384)
  | .ctrlUnknown msg => isUnknownMessage msg
  | .msgTooShort msg => isShortMessage msg
  | .fill _ _ => true
  | .update _ => true
  | .store _ => true
  | .cfgWrite _ _ => true
  | .cfgRead _ => true
  | .reset => true
  | .noteOnEx _ _ _ => true
  | .hostUnknown frame => isBadFrame frame

end Sys2Proof
end

