-- ==== Sys2Proof/Decode.lean ====
section
/-! DEFINITION. The decoder, total on every input (30_encoding.md R141 to R163, 60_exceptions.md R523), and the encoder. -/

namespace Sys2Proof

/-! ## Decoding -/

/-- A routed controller's operation (30_encoding.md R144). -/
def routedController (c v : BitVec 7) : Instr :=
  if isCutoffController c then .ccCutoff c v
  else if c == Config.ccReverb then .ccReverb v
  else .ccPatch v

/-- A CC message: the selector byte first, then the length (60_exceptions.md R523). -/
def decodeController (b0 : Byte) : List Byte → Instr
  | [] => .msgTooShort [b0]
  | b1 :: more =>
    if !isRouted (data7 b1) then .ccOther (data7 b1)
    else
      match more with
      | [] => .msgTooShort [b0, b1]
      | b2 :: _ => routedController (data7 b1) (data7 b2)

/-- A BK message: the command first, then the length (30_encoding.md R145, 60_exceptions.md R523). -/
def decodeBulk (b0 : Byte) : List Byte → Instr
  | [] => .msgTooShort [b0]
  | c :: more =>
    if !isBulkCommand c then .ctrlUnknown (b0 :: c :: more)
    else
      match more with
      | a0 :: a1 :: s0 :: s1 :: payload =>
        if c == 0x01 then .bulkRequest (data14 a0 a1) (data14 s0 s1)
        else if payload.length < (data14 s0 s1).toNat then .msgTooShort (b0 :: c :: more)
        else .bulkDeliver (data14 a0 a1) (payload.take (data14 s0 s1).toNat)
      | _ => .msgTooShort (b0 :: c :: more)

/-- A control message (30_encoding.md R141, R142). -/
def decodeControl : List Byte → Instr
  | [] => .msgTooShort []
  | b0 :: rest =>
    let s := statusNibble b0
    if b0 == 0xF0 then decodeBulk b0 rest
    else if s == 0x8 then
      match rest with
      | b1 :: _ => .noteOff (data7 b1)
      | [] => .msgTooShort [b0]
    else if s == 0x9 then
      match rest with
      | b1 :: b2 :: _ => .noteOn (data7 b1) (data7 b2)
      | short => .msgTooShort (b0 :: short)
    else if s == 0xB then decodeController b0 rest
    else if s == 0xC then
      match rest with
      | b1 :: _ => .patchSelect (data7 b1)
      | [] => .msgTooShort [b0]
    else if s == 0xE then
      match rest with
      | b1 :: b2 :: _ => .pitchBend (data14 b1 b2)
      | short => .msgTooShort (b0 :: short)
    else .ctrlUnknown (b0 :: rest)

/-- A host frame (30_encoding.md R160, R161). -/
def decodeHost : List Byte → Instr
  | [] => .hostUnknown []
  | b0 :: rest =>
    if b0 == 0x01 then
      match rest with
      | n0 :: n1 :: s0 :: s1 :: s2 :: s3 :: _ => .fill (le16 n0 n1) (le32 s0 s1 s2 s3)
      | short => .hostUnknown (b0 :: short)
    else if b0 == 0x02 then
      match rest with
      | d0 :: d1 :: d2 :: d3 :: _ => .update (le32 d0 d1 d2 d3)
      | short => .hostUnknown (b0 :: short)
    else if b0 == 0x03 then
      match rest with
      | i :: _ => .store i
      | [] => .hostUnknown [b0]
    else if b0 == 0x04 then
      match rest with
      | a :: d0 :: d1 :: d2 :: d3 :: _ => .cfgWrite a (le32 d0 d1 d2 d3)
      | short => .hostUnknown (b0 :: short)
    else if b0 == 0x05 then
      match rest with
      | a :: _ => .cfgRead a
      | [] => .hostUnknown [b0]
    else if b0 == 0x06 then .reset
    else if b0 == 0x07 then
      match rest with
      | p :: k :: v :: _ => .noteOnEx p (data7 k) (data7 v)
      | short => .hostUnknown (b0 :: short)
    else .hostUnknown (b0 :: rest)

/-- Every input selects exactly one operation (30_encoding.md R162). -/
def decode : Input → Instr
  | .control bytes => decodeControl bytes
  | .host bytes => decodeHost bytes

/-! ## Encoding -/

/-- The header of a BK message (30_encoding.md R142). -/
def bulkHeader (command : Byte) (addr size : BitVec 14) : List Byte :=
  [0xF0, command, lo7 addr, hi7 addr, lo7 size, hi7 size]

/-- The shortest input of an instruction, a control message being on the given channel
(30_encoding.md R142, R160, R164; log 11). -/
def encodeOn (channel : BitVec 4) : Instr → Input
  | .noteOff note => .control [status 0x8 channel, byte7 note]
  | .noteOn note velocity => .control [status 0x9 channel, byte7 note, byte7 velocity]
  | .ccCutoff c v => .control [status 0xB channel, byte7 c, byte7 v]
  | .ccReverb v => .control [status 0xB channel, byte7 Config.ccReverb, byte7 v]
  | .ccPatch v => .control [status 0xB channel, byte7 Config.ccPatch, byte7 v]
  | .ccOther c => .control [status 0xB channel, byte7 c]
  | .patchSelect index => .control [status 0xC channel, byte7 index]
  | .pitchBend bend => .control [status 0xE channel, lo7 bend, hi7 bend]
  | .bulkRequest addr size => .control (bulkHeader 0x01 addr size)
  | .bulkDeliver addr payload =>
    .control (bulkHeader 0x02 addr (BitVec.ofNat 14 payload.length) ++ payload)
  | .ctrlUnknown msg => .control msg
  | .msgTooShort msg => .control msg
  | .fill n sr => .host ([0x01, byteOf n 0, byteOf n 1] ++ bytes32 sr)
  | .update deltaMs => .host (0x02 :: bytes32 deltaMs)
  | .store index => .host [0x03, index]
  | .cfgWrite addr d => .host (0x04 :: addr :: bytes32 d)
  | .cfgRead addr => .host [0x05, addr]
  | .reset => .host [0x06]
  | .noteOnEx p note velocity => .host [0x07, p, byte7 note, byte7 velocity]
  | .hostUnknown frame => .host frame

/-- The input of an instruction, on channel 0. -/
def encode (i : Instr) : Input := encodeOn 0 i

/-! ## Words of the opcode table -/

/-- The longest input a word of the opcode table is padded to: a BK message with a whole record. -/
def longestInput : Nat := 6 + Config.recordSize

/-- The input of the bits `w`, the first byte in bits 7..0, zeros above `nbits` (log 10). -/
def tableInput (nbits w : Nat) : Input :=
  let bits := w % 2 ^ nbits
  let bytes := (List.range (max longestInput (nbits / 8))).map fun k => BitVec.ofNat 8 (bits >>> (8 * k))
  if bits % 256 < 0x80 then .host bytes else .control bytes

/-- What the decoder reads from the bits `w` of a row of spec/opcode_table.json. -/
def decodeTableWord (nbits w : Nat) : Option Instr := some (decode (tableInput nbits w))

end Sys2Proof
end

