-- ==== Sys2Proof/Machine/F32.lean ====
section
/-! DEFINITION. IEEE 754 binary32 arithmetic, round to nearest even (00_scope.md R9, R10, R12). Every finite binary32 value is a whole number of units of 2^-149, so each operation is exact arithmetic on units followed by the one rounding `roundUnits`. -/

namespace Sys2Proof.F32

/-- One, in units of 2^-149. -/
def one149 : Nat := 713623846352979940529142984724747568191373312

/-- The bit pattern of +infinity, as a number. -/
def infBits : Nat := 0x7F800000

/-- The quiet NaN an invalid operation on `x` and `y` gives: its sign and payload are free, since the spec fixes
no NaN pattern (log 5). -/
def nan (x y : F32) : F32 :=
  let free := Config.freeNaN x y
  free.extractLsb' 22 1 ++ 0x1FF#9 ++ free.extractLsb' 0 22

/-- +0.0. -/
def zero : F32 := 0#32

/-- 1.0. -/
def one : F32 := 0x3F800000#32

/-- The sign bit. -/
def sign (x : F32) : Bool := x.msb

/-- The pattern without its sign bit. -/
def magBits (x : F32) : Nat := x.toNat % 0x80000000

/-- `x` is a NaN. -/
def isNaN (x : F32) : Bool := infBits < magBits x

/-- `x` is an infinity. -/
def isInf (x : F32) : Bool := magBits x == infBits

/-- `x` is neither a NaN nor an infinity. -/
def isFinite (x : F32) : Bool := magBits x < infBits

/-- The magnitude of a finite `x` in units of 2^-149. -/
def units (x : F32) : Nat :=
  let e := magBits x / 0x800000
  let f := magBits x % 0x800000
  if e = 0 then f else (f + 0x800000) <<< (e - 1)

/-- A finite `x` in units of 2^-149, signed. -/
def toUnits (x : F32) : Int :=
  if sign x then -(units x : Int) else units x

/-- The pattern with the given sign and magnitude bits, an overflowing magnitude being infinity. -/
def pack (neg : Bool) (mag : Nat) : F32 :=
  let m := if infBits ≤ mag then infBits else mag
  BitVec.ofNat 32 (if neg then m + 0x80000000 else m)

/-- `num / den` rounded to the nearest natural number, ties to even. -/
def roundEven (num den : Nat) : Nat :=
  let q := num / den
  let r := num % den
  if den < 2 * r then q + 1
  else if 2 * r = den && q % 2 == 1 then q + 1
  else q

/-- The binary32 value nearest `±num/den` units of 2^-149, ties to even (00_scope.md R10).
The quotient is scaled to 24 significant bits (fewer for a subnormal), rounded, and packed. -/
def roundUnits (neg : Bool) (num den : Nat) : F32 :=
  let shift := (num / den).log2 + 1 - 24
  pack neg (shift * 0x800000 + roundEven num (den <<< shift))

/-- The binary32 value nearest a whole number of units. -/
def ofUnits (u : Int) : F32 := roundUnits (decide (u < 0)) u.natAbs 1

/-- `toF32(n)` (00_scope.md R12). -/
def ofNat (n : Nat) : F32 := roundUnits false (n * one149) 1

/-- Negation (IEEE 754: the sign bit). -/
def neg (x : F32) : F32 := x ^^^ 0x80000000#32

/-- Addition. -/
def add (x y : F32) : F32 :=
  if isNaN x || isNaN y then nan x y
  else if isInf x then (if isInf y && sign x != sign y then nan x y else x)
  else if isInf y then y
  else
    let u := toUnits x + toUnits y
    if u = 0 then pack (sign x && sign y) 0 else ofUnits u

/-- Subtraction. -/
def sub (x y : F32) : F32 := if isNaN y then nan x y else add x (neg y)

/-- Multiplication. -/
def mul (x y : F32) : F32 :=
  let s := sign x != sign y
  if isNaN x || isNaN y then nan x y
  else if isInf x then (if magBits y = 0 then nan x y else pack s infBits)
  else if isInf y then (if magBits x = 0 then nan x y else pack s infBits)
  else roundUnits s (units x * units y) one149

/-- Division. -/
def div (x y : F32) : F32 :=
  let s := sign x != sign y
  if isNaN x || isNaN y then nan x y
  else if isInf x then (if isInf y then nan x y else pack s infBits)
  else if isInf y then pack s 0
  else if magBits y = 0 then (if magBits x = 0 then nan x y else pack s infBits)
  else roundUnits s (units x * one149) (units y)

/-- The number a pattern that is no NaN is ordered by: both zeros give 0. -/
def key (x : F32) : Int := if sign x then -(magBits x : Int) else magBits x

/-- `x < y`; false with a NaN operand (00_scope.md R10). -/
def lt (x y : F32) : Bool := !isNaN x && !isNaN y && decide (key x < key y)

/-- `x ≤ y`; false with a NaN operand. -/
def le (x y : F32) : Bool := !isNaN x && !isNaN y && decide (key x ≤ key y)

/-- `clamp(x, lo, hi)` (00_scope.md R12). -/
def clamp (x lo hi : F32) : F32 := if lt x lo then lo else if lt hi x then hi else x

/-- `floor(x)` (00_scope.md R12: x finite; log 7 otherwise). -/
def floor (x : F32) : Int :=
  if isFinite x then toUnits x / (one149 : Int) else Config.freeFloor x

/-- The integer part of a finite `x`, toward zero (46_mixer.md R421). -/
def trunc (x : F32) : Int :=
  if sign x then -((units x / one149 : Nat) : Int) else ((units x / one149 : Nat) : Int)

/-- `fmod(x, m)` (00_scope.md R12): the exact remainder, with the sign of `x`. -/
def fmod (x m : F32) : F32 :=
  if isNaN x || isNaN m || isInf x || magBits m = 0 then nan x m
  else if isInf m then x
  else roundUnits (sign x) (units x % units m) 1

/-- `roundHA(x)` (00_scope.md R12): round half away from zero, exactly. -/
def roundHA (x : F32) : Int :=
  if isFinite x then
    let r := ((2 * units x + one149) / (2 * one149) : Nat)
    if sign x then -(r : Int) else r
  else Config.freeFloor x

end Sys2Proof.F32
end

