-- ==== Sys2Proof/Machine/State.lean ====
section
/-! DEFINITION. The state of synth-core, the tuple of 10_state.md R30 with the ports of 30_encoding.md R140, as plain data, and its reset value (70_reset_and_hazards.md R560). -/

namespace Sys2Proof.Machine

/-! ## Parameter records -/

/-- An envelope: six F32 fields in the record's order (10_state.md R31). -/
structure Envelope where
  delay : F32
  attack : F32
  peak : F32
  decay : F32
  sustain : F32
  release : F32
  deriving DecidableEq, Repr, Inhabited

/-- The wave types, in the order of their codes 0..7 (10_state.md R32). -/
inductive Wave where
  | none | square | saw1 | saw2 | triangle | sine | noise | custom
  deriving DecidableEq, Repr, Inhabited

/-- Five envelopes by ENVTYPE, in the order of their indices 0..4 (10_state.md R33). -/
structure EnvSet where
  volume : Envelope
  pitch : Envelope
  filter : Envelope
  pwm : Envelope
  mod : Envelope
  deriving DecidableEq, Repr, Inhabited

/-- An oscillator (10_state.md R34). -/
structure Oscillator where
  waveType : Wave
  duty : F32
  detune : F32
  env : EnvSet
  lfoEnv : EnvSet
  deriving DecidableEq, Repr, Inhabited

/-- A modulator: a signed range byte and a raw target code (10_state.md R35). -/
structure Modulator where
  range : Byte
  target : Byte
  deriving DecidableEq, Repr, Inhabited

/-- A patch (10_state.md R36). -/
structure Patch where
  name : List Byte
  mixLevel : F32
  osc0 : Oscillator
  osc1 : Oscillator
  mod0 : Modulator
  mod1 : Modulator
  lfoWave : Wave
  lfoFreq : F32
  lfoDepth : F32
  deriving DecidableEq, Repr, Inhabited

/-! ## Voices -/

/-- Which patch a voice's oscillator is in (10_state.md R38). -/
inductive Sel where
  | work
  | bank (index : Fin 32)
  deriving DecidableEq, Repr, Inhabited

/-- Which oscillator of the patch: `k` of 10_state.md R38. -/
inductive OscIndex where
  | osc0 | osc1
  deriving DecidableEq, Repr, Inhabited

/-- An oscillator reference (10_state.md R38). -/
structure OscRef where
  sel : Sel
  k : OscIndex
  deriving DecidableEq, Repr, Inhabited

/-- A voice (10_state.md R38). `note` is none for the spec's -1. -/
structure Voice where
  active : Bool
  oscRef : OscRef
  cachedType : Wave
  phase : F32
  freq : F32
  volume : F32
  elapsed : F32
  released : Bool
  note : Option (BitVec 7)
  deriving DecidableEq, Repr, Inhabited

/-! ## Mixer, filter, reverb, diagnostics -/

/-- The mixer registers (10_state.md R41). -/
structure Mixer where
  masterVolume : F32
  lfoPhase : F32
  bendCur : F32
  bendTarget : F32
  deriving DecidableEq, Repr, Inhabited

/-- The two filter variants (10_state.md R42). -/
inductive FilterKind where
  | onePole | moog
  deriving DecidableEq, Repr, Inhabited

/-- The filter registers (10_state.md R42). -/
structure Filter where
  kind : FilterKind
  cutoff : F32
  resonance : F32
  prev : F32
  x1 : F32
  y1 : F32
  y2 : F32
  y3 : F32
  y4 : F32
  deriving DecidableEq, Repr, Inhabited

/-- A memory of F32 samples: the cells that differ from what an unlisted index reads as, by rising
index (20_memory.md R100, R111; log 8). -/
abbrev SampleMem := List (Nat × F32)

/-- The reverb registers (10_state.md R43). -/
structure Reverb where
  buf : SampleMem
  wp : Fin 480000
  delayMs : F32
  decay : F32
  mix : F32
  deriving DecidableEq, Repr, Inhabited

/-- The diagnostic registers (10_state.md R46). -/
structure Diag where
  dropCount : Word
  ignoredCount : Word
  clipCount : Word
  unpackStopCount : Word
  lastEvent : Word
  deriving DecidableEq, Repr, Inhabited

/-! ## Faults and refusals -/

/-- The reasons of the model fault (60_exceptions.md R528), which `State.fault` holds. No step stops with one:
the machine is stuck, with free values, until a RESET (log 4; safe). -/
inductive Fault where
  /-- FILL_PARAMS: set by FILL when the sample rate is outside 1..192000 or N above 4096
  (46_mixer.md R400). Safe: nothing is claimed of the state it leaves. -/
  | fillParams
  deriving DecidableEq, Repr, Inhabited

/-- The reasons a step has no meaning. -/
inductive Refusal where
  /-- Raised by `exec` for an instruction without a meaning. None is left. Safe. -/
  | notModelled (mnemonic : String)
  deriving DecidableEq, Repr, Inhabited

/-! ## The state -/

/-- The state of synth-core. The fields to `fault` are the tuple of 10_state.md R30; `position` is the
operation's place in the arrival order (R51). The rest is the model's own: the inputs that have arrived
and wait (log 2), the draw port (log 1), the index of the next free value, and what the last performed
operation emitted on each output port (log 3). -/
structure State where
  bank : Vector Patch 32
  work : Patch
  cur : Fin 32
  voices : Vector Voice 32
  mixer : Mixer
  filter : Filter
  reverb : Reverb
  noise : SampleMem
  diag : Diag
  fault : Option Fault
  position : Nat
  inbox : List Input
  draws : List (BitVec 4)
  fresh : Nat
  portA : List Sample
  portR : List Byte
  portD : Option Word
  deriving DecidableEq, Repr, Inhabited

/-- The state after the `n`-th model fault, of which nothing is known (60_exceptions.md R528; log 4). -/
opaque Config.unspecified : Nat → State

/-! ## Reset -/

/-- An envelope with all six fields 0.0. -/
def Envelope.zero : Envelope := ⟨0#32, 0#32, 0#32, 0#32, 0#32, 0#32⟩

/-- The volume envelope of the default patch: delay 0, attack 0, peak 1.0, decay 0, sustain 1.0,
release 0 (10_state.md R47). -/
def Envelope.flat : Envelope := ⟨0#32, 0#32, 0x3F800000#32, 0#32, 0x3F800000#32, 0#32⟩

/-- An oscillator of the default patch (10_state.md R47). -/
def Oscillator.default (w : Wave) : Oscillator where
  waveType := w
  duty := 0x3F000000#32
  detune := 0#32
  env := ⟨.flat, .zero, .zero, .zero, .zero⟩
  lfoEnv := ⟨.zero, .zero, .zero, .zero, .zero⟩

/-- DEFAULT_PATCH (10_state.md R47). -/
def Patch.default : Patch where
  name := []
  mixLevel := 0x3F800000#32
  osc0 := .default .square
  osc1 := .default .none
  mod0 := ⟨2#8, 1#8⟩
  mod1 := ⟨0#8, 3#8⟩
  lfoWave := .sine
  lfoFreq := 0#32
  lfoDepth := 0#32

/-- A voice at reset (10_state.md R38). -/
def Voice.reset : Voice where
  active := false
  oscRef := ⟨.work, .osc0⟩
  cachedType := .none
  phase := 0#32
  freq := 0#32
  volume := 0#32
  elapsed := 0#32
  released := false
  note := none

/-- The mixer at reset (10_state.md R41): 1.0, 0.0, 1.0, 1.0. -/
def Mixer.reset : Mixer := ⟨0x3F800000#32, 0#32, 0x3F800000#32, 0x3F800000#32⟩

/-- The filter at reset (10_state.md R42): MOOG, cutoff 20000.0. -/
def Filter.reset : Filter := ⟨.moog, 0x469C4000#32, 0#32, 0#32, 0#32, 0#32, 0#32, 0#32, 0#32⟩

/-- The reverb at reset (10_state.md R43): empty, delay 100.0 ms, decay 0.5, mix 0.0. -/
def Reverb.reset : Reverb := ⟨[], 0, 0x42C80000#32, 0x3F000000#32, 0#32⟩

/-- The diagnostic registers at reset (10_state.md R46). -/
def Diag.reset : Diag := ⟨0#32, 0#32, 0#32, 0#32, 0#32⟩

/-- The machine right after reset (70_reset_and_hazards.md R560, R561), with nothing on any port and no
input arrived (log 9). -/
def State.reset : State where
  bank := Vector.replicate 32 Patch.default
  work := Patch.default
  cur := 0
  voices := Vector.replicate 32 Voice.reset
  mixer := Mixer.reset
  filter := Filter.reset
  reverb := Reverb.reset
  noise := []
  diag := Diag.reset
  fault := none
  position := 0
  inbox := []
  draws := []
  fresh := 0
  portA := []
  portR := []
  portD := none

end Sys2Proof.Machine
end

