-- ==== Sys2Proof/Machine/Ops.lean ====
section
/-! DEFINITION. The operations over memory, ports and the diagnostic registers that the meanings share. synth-core has no traps (60_exceptions.md R520): what stands in their place is `event` (R522) and the model fault (R528), each one operation here. -/

namespace Sys2Proof.Machine

/-! ## Sample memories (20_memory.md R100, R111) -/

/-- The sample at index `a`, where `dflt` is what an unlisted index reads as. -/
def SampleMem.read (dflt : Nat → F32) : SampleMem → Nat → F32
  | [], a => dflt a
  | (b, v) :: rest, a => if a = b then v else SampleMem.read dflt rest a

/-- The memory with `v` at index `a`, in canonical form again. -/
def SampleMem.write (dflt : Nat → F32) : SampleMem → Nat → F32 → SampleMem
  | [], a, v => if v = dflt a then [] else [(a, v)]
  | (b, w) :: rest, a, v =>
    if a < b then (if v = dflt a then (b, w) :: rest else (a, v) :: (b, w) :: rest)
    else if a = b then (if v = dflt a then rest else (a, v) :: rest)
    else (b, w) :: SampleMem.write dflt rest a v

/-- The canonical form: indices below `size` and strictly rising, no cell equal to what its index would
read as unlisted. -/
def SampleMem.wf (dflt : Nat → F32) (size : Nat) : SampleMem → Bool
  | [] => true
  | (a, v) :: rest =>
    decide (a < size) && decide (v ≠ dflt a) && rest.all (fun c => decide (a < c.1))
      && SampleMem.wf dflt size rest

/-- What an unlisted index of the reverb RAM reads as: its reset contents (10_state.md R43). -/
def reverbDefault (_ : Nat) : F32 := 0#32

/-! ## Events (60_exceptions.md R521, R522) -/

/-- The events that are raised. -/
inductive Event where
  | msgTooShort | msgUnknown | patchIndexRange | voicePoolExhausted | unpackStopped
  | bulkRange | cfgBadAddress | cfgBadValue | limiterSaturated | hostFrameBad
  deriving DecidableEq, Repr, Inhabited

/-- The code of an event (60_exceptions.md R521). -/
def Event.code : Event → Word
  | .msgTooShort => 1
  | .msgUnknown => 2
  | .patchIndexRange => 3
  | .voicePoolExhausted => 4
  | .unpackStopped => 5
  | .bulkRange => 6
  | .cfgBadAddress => 7
  | .cfgBadValue => 8
  | .limiterSaturated => 9
  | .hostFrameBad => 10

/-- `event(code)` on the diagnostic registers: one counter up, modulo 2^32, and LAST_EVENT
(60_exceptions.md R522). -/
def Diag.record (e : Event) (d : Diag) : Diag :=
  let d := { d with lastEvent := e.code }
  match e with
  | .voicePoolExhausted => { d with dropCount := d.dropCount + 1 }
  | .unpackStopped => { d with unpackStopCount := d.unpackStopCount + 1 }
  | .limiterSaturated => { d with clipCount := d.clipCount + 1 }
  | .msgTooShort | .msgUnknown | .patchIndexRange | .bulkRange | .cfgBadAddress | .cfgBadValue
  | .hostFrameBad => { d with ignoredCount := d.ignoredCount + 1 }

/-- `event(code)` (60_exceptions.md R522). -/
def State.event (e : Event) (s : State) : State := { s with diag := s.diag.record e }

/-! ## The model fault (60_exceptions.md R528; log 4) -/

/-- `raise ModelFault(reason)`: FAULT is set and no other state of the block has a value. The inputs that
wait and the arrival position are the outside world's. -/
def State.raiseFault (r : Fault) (s : State) : State :=
  { Config.unspecified s.fresh with
    fault := some r, position := s.position, inbox := s.inbox, fresh := s.fresh + 1 }

/-- An operation on a faulted block: still no state has a value (93_implementation_defined.md U18). -/
def State.stayStuck (s : State) : State :=
  { Config.unspecified s.fresh with
    fault := s.fault, position := s.position, inbox := s.inbox, fresh := s.fresh + 1 }

/-- The block is as after a model fault. -/
def State.isStuck (s : State) : Bool := s.fault.isSome

/-! ## Ports (30_encoding.md R140) -/

/-- The next input is taken from the arrival queue: the position advances by one (10_state.md R51), and
the output ports carry nothing yet (log 3). -/
def State.accept (rest : List Input) (s : State) : State :=
  { s with inbox := rest, position := s.position + 1, portA := [], portR := [], portD := none }

/-- `emit(A, samples)`. -/
def State.emitA (out : List Sample) (s : State) : State := { s with portA := out }

/-- `emit(R, bytes)`. -/
def State.emitR (out : List Byte) (s : State) : State := { s with portR := out }

/-- `emit(D, word)`. -/
def State.emitD (w : Word) (s : State) : State := { s with portD := some w }

/-- The next value of the draw port: the one that waits there, else a free one (00_scope.md R15; log 1). -/
def State.draw (s : State) : BitVec 4 := s.draws.head?.getD (Config.freeDraw s.fresh)

/-- The draw port after its value was read. -/
def State.dropDraw (s : State) : State :=
  match s.draws with
  | _ :: rest => { s with draws := rest }
  | [] => { s with fresh := s.fresh + 1 }

/-! ## Patches and voices -/

/-- `osc[k]` of a patch. -/
def Patch.osc (p : Patch) : OscIndex → Oscillator
  | .osc0 => p.osc0
  | .osc1 => p.osc1

/-- The patch a selector names: `W` or `P[i]` (10_state.md R38). -/
def State.patch (s : State) : Sel → Patch
  | .work => s.work
  | .bank i => s.bank[i]

/-- The oscillator a reference names (10_state.md R38). -/
def State.osc (s : State) (r : OscRef) : Oscillator := (s.patch r.sel).osc r.k

/-- `V[v] <- x`. -/
def State.setVoice (v : Fin 32) (x : Voice) (s : State) : State :=
  { s with voices := s.voices.set v x }

/-- Every voice changed by `f`. -/
def State.mapVoices (f : Voice → Voice) (s : State) : State :=
  { s with voices := s.voices.map f }

/-- `W <- p`. -/
def State.setWork (p : Patch) (s : State) : State := { s with work := p }

/-- `P[i] <- p`. -/
def State.setBank (i : Fin 32) (p : Patch) (s : State) : State := { s with bank := s.bank.set i p }

/-- The number of voices with `active` (10_state.md R48, ACTIVE_VOICES). -/
def State.activeVoices (s : State) : Nat := s.voices.toList.countP (·.active)

end Sys2Proof.Machine
end

