-- ==== Sys2Proof/Machine/Operands.lean ====
section
/-! DEFINITION. The operand forms of the operations (30_encoding.md R143, R160) and the scaled-byte codec (40_envelope.md R207). -/

namespace Sys2Proof.Machine

/-- `volume = toF32(velocity) / 127.0`; also the value of a controller as a fraction (30_encoding.md R143,
47_engine.md R457, R458). -/
def fraction7 (v : BitVec 7) : F32 := F32.div (F32.ofNat v.toNat) Config.byteScale

/-- A patch index of a control message or a STORE, where it is in range (47_engine.md R456). -/
def patchIndex (n : Nat) : Option (Fin 32) := if h : n < 32 then some ⟨n, h⟩ else none

/-- The selector of NOTE_ON_EX: `sext_8(b1)`, negative for WORK, none from 32 up (47_engine.md R454). -/
def noteOnSel (p : Byte) : Option Sel :=
  if p.toInt < 0 then some .work else (patchIndex p.toInt.toNat).map Sel.bank

/-- `encFrac(x)` (40_envelope.md R207). -/
def encFrac (x : F32) : Byte :=
  BitVec.ofInt 8 (F32.roundHA (F32.mul (F32.clamp x F32.zero F32.one) Config.byteScale))

/-- `decFrac(b)` (40_envelope.md R207): a byte above 127 reads as 127. -/
def decFrac (b : Byte) : F32 := F32.div (F32.ofNat (min b.toNat 127)) Config.byteScale

/-- `encTime(x, MAX)` (40_envelope.md R207). -/
def encTime (x top : F32) : Byte := encFrac (F32.div (F32.clamp x F32.zero top) top)

/-- `decTime(b, MAX)` (40_envelope.md R207). -/
def decTime (b : Byte) (top : F32) : F32 := F32.mul (decFrac b) top

/-- Detune as a byte (44_patch_record.md R324). -/
def encDetune (x : F32) : Byte := encFrac (F32.div (F32.add x F32.one) 0x40000000#32)

/-- A byte as detune (44_patch_record.md R324): `(2.0 * decFrac(b)) - 1.0`. -/
def decDetune (b : Byte) : F32 := F32.sub (F32.mul 0x40000000#32 (decFrac b)) F32.one

/-- The code of a wave type (10_state.md R32). -/
def Wave.code : Wave → Byte
  | .none => 0
  | .square => 1
  | .saw1 => 2
  | .saw2 => 3
  | .triangle => 4
  | .sine => 5
  | .noise => 6
  | .custom => 7

/-- A byte as a wave type: NONE from 8 up (44_patch_record.md R325). -/
def Wave.ofCode (b : Byte) : Wave :=
  if b = 1 then .square
  else if b = 2 then .saw1
  else if b = 3 then .saw2
  else if b = 4 then .triangle
  else if b = 5 then .sine
  else if b = 6 then .noise
  else if b = 7 then .custom
  else .none

/-- `lenOf(type)` (00_scope.md R12). -/
def Wave.len : Wave → Nat
  | .noise => Config.noiseLen
  | .none | .square | .saw1 | .saw2 | .triangle | .sine | .custom => Config.tableLen

end Sys2Proof.Machine
end

