-- ==== Sys2Proof/Machine/Envelope.lean ====
section
/-! DEFINITION. The envelope generator and its six-byte codec (spec/40_envelope.md). -/

namespace Sys2Proof.Machine

/-- `GetLevel(e, t, released)` (40_envelope.md R200). -/
def Envelope.level (e : Envelope) (t : F32) (released : Bool) : F32 :=
  if released then
    if F32.le e.release t then F32.zero
    else F32.clamp (F32.mul e.sustain (F32.sub F32.one (F32.div t e.release))) F32.zero F32.one
  else if F32.lt t e.delay then F32.zero
  else
    let u := F32.sub t e.delay
    if F32.lt u e.attack then F32.clamp (F32.div (F32.mul e.peak u) e.attack) F32.zero F32.one
    else if F32.lt u (F32.add e.attack e.decay) then
      F32.clamp
        (F32.add e.peak (F32.div (F32.mul (F32.sub e.sustain e.peak) (F32.sub u e.attack)) e.decay))
        F32.zero F32.one
    else F32.clamp e.sustain F32.zero F32.one

/-- The stages of an envelope (40_envelope.md R201). -/
inductive Stage where
  | delay | attack | decay | sustain | release | done
  deriving DecidableEq, Repr, Inhabited

/-- The stage of an envelope, a function of the time and the flag (40_envelope.md R201). -/
def Envelope.stage (e : Envelope) (t : F32) (released : Bool) : Stage :=
  let u := F32.sub t e.delay
  if released then (if F32.le e.release t then .done else .release)
  else if F32.lt t e.delay then .delay
  else if F32.lt u e.attack then .attack
  else if F32.lt u (F32.add e.attack e.decay) then .decay
  else .sustain

/-- `PackEnv(e)` (40_envelope.md R208). -/
def Envelope.pack (e : Envelope) : List Byte :=
  [encTime e.delay Config.envTimeMax, encTime e.attack Config.envTimeMax, encFrac e.peak,
   encTime e.decay Config.envTimeMax, encFrac e.sustain, encTime e.release Config.envTimeMax]

/-- `UnpackEnv(b0..b5)` (40_envelope.md R208). -/
def Envelope.unpack (b0 b1 b2 b3 b4 b5 : Byte) : Envelope where
  delay := decTime b0 Config.envTimeMax
  attack := decTime b1 Config.envTimeMax
  peak := decFrac b2
  decay := decTime b3 Config.envTimeMax
  sustain := decFrac b4
  release := decTime b5 Config.envTimeMax

end Sys2Proof.Machine
end

