-- ==== Sys2Proof/Machine/PatchRecord.lean ====
section
/-! DEFINITION. The 154-byte patch record: pack and unpack (spec/44_patch_record.md, spec/20_memory.md R102, R103). -/

namespace Sys2Proof.Machine

/-! ## Pack (44_patch_record.md R330) -/

/-- `n` bytes: the list, then zeros (44_patch_record.md R322). -/
def zeroPad (n : Nat) (bytes : List Byte) : List Byte :=
  bytes.take n ++ List.replicate (n - bytes.length) 0

/-- The four envelopes of a set that the record carries (20_memory.md R103). -/
def EnvSet.pack (s : EnvSet) : List Byte :=
  s.volume.pack ++ s.pitch.pack ++ s.filter.pack ++ s.pwm.pack

/-- The 52-byte oscillator block (20_memory.md R103). -/
def Oscillator.pack (o : Oscillator) : List Byte :=
  [o.waveType.code, encFrac o.duty, encDetune o.detune, 0] ++ o.env.pack ++ o.lfoEnv.pack

/-- A modulator block (44_patch_record.md R327). -/
def Modulator.pack (m : Modulator) : List Byte := [m.range, m.target, 0, 0]

/-- `Pack(p)` (44_patch_record.md R330). -/
def Patch.pack (p : Patch) : List Byte :=
  zeroPad 20 p.name
    ++ [encFrac p.mixLevel, 0]
    ++ p.osc0.pack
    ++ p.osc1.pack
    ++ ([p.lfoWave.code, encTime p.lfoFreq Config.lfoFreqMax, encFrac p.lfoDepth] ++ List.replicate 17 0)
    ++ p.mod0.pack
    ++ p.mod1.pack

/-! ## Unpack (44_patch_record.md R332, R333) -/

/-- The sub-blocks of the record (44_patch_record.md R320). -/
inductive Block where
  | name | mix | osc1 | osc2 | lfo | mod1 | mod2
  deriving DecidableEq, Repr, Inhabited

/-- The start of a sub-block (44_patch_record.md R320). -/
def Block.start : Block → Nat
  | .name => 0
  | .mix => 20
  | .osc1 => 22
  | .osc2 => 74
  | .lfo => 126
  | .mod1 => 146
  | .mod2 => 150

/-- The length of a sub-block (44_patch_record.md R320). -/
def Block.len : Block → Nat
  | .name => 20
  | .mix => 2
  | .osc1 => 52
  | .osc2 => 52
  | .lfo => 20
  | .mod1 => 4
  | .mod2 => 4

/-- SUBBLOCKS, in address order (44_patch_record.md R320). -/
def subBlocks : List Block := [.name, .mix, .osc1, .osc2, .lfo, .mod1, .mod2]

/-- Byte `i` of a block's content. -/
def byteAt (c : List Byte) (i : Nat) : Byte := c.getD i 0

/-- The envelope at offset `i` of a block (40_envelope.md R208). -/
def envAt (c : List Byte) (i : Nat) : Envelope :=
  Envelope.unpack (byteAt c i) (byteAt c (i + 1)) (byteAt c (i + 2)) (byteAt c (i + 3))
    (byteAt c (i + 4)) (byteAt c (i + 5))

/-- The name of a NAME block: the bytes before the first zero of the first 19 (44_patch_record.md R322). -/
def unpackName (c : List Byte) : List Byte := (c.take Config.nameMax).takeWhile (· ≠ 0)

/-- Four envelopes from offset `i`; MOD keeps its value (44_patch_record.md R326, R333). -/
def EnvSet.unpack (s : EnvSet) (c : List Byte) (i : Nat) : EnvSet :=
  { s with
    volume := envAt c i, pitch := envAt c (i + 6), filter := envAt c (i + 12), pwm := envAt c (i + 18) }

/-- An oscillator block (44_patch_record.md R333). -/
def Oscillator.unpack (o : Oscillator) (c : List Byte) : Oscillator where
  waveType := Wave.ofCode (byteAt c 0)
  duty := decFrac (byteAt c 1)
  detune := decDetune (byteAt c 2)
  env := o.env.unpack c 4
  lfoEnv := o.lfoEnv.unpack c 28

/-- `DecodeBlock(blk, c)` on the patch it writes (44_patch_record.md R333). -/
def decodeBlock (b : Block) (c : List Byte) (p : Patch) : Patch :=
  match b with
  | .name => { p with name := unpackName c }
  | .mix => { p with mixLevel := decFrac (byteAt c 0) }
  | .osc1 => { p with osc0 := p.osc0.unpack c }
  | .osc2 => { p with osc1 := p.osc1.unpack c }
  | .lfo =>
    { p with
      lfoWave := Wave.ofCode (byteAt c 0),
      lfoFreq := decTime (byteAt c 1) Config.lfoFreqMax,
      lfoDepth := decFrac (byteAt c 2) }
  | .mod1 => { p with mod0 := ⟨byteAt c 0, byteAt c 1⟩ }
  | .mod2 => { p with mod1 := ⟨byteAt c 0, byteAt c 1⟩ }

/-- The loop of `Unpack` (44_patch_record.md R332): `a` is the running address, `e` the end, `pay` the bytes
from `a` on. The result is the patch and the address the loop ended at. -/
def unpackLoop (e : Nat) : List Block → Nat → List Byte → Patch → Patch × Nat
  | [], a, _, p => (p, a)
  | b :: bs, a, pay, p =>
    if a = e then (p, a)
    else if b.start < a then unpackLoop e bs a pay p
    else if a < b.start then (p, a)
    else if e < a + b.len then (p, a)
    else unpackLoop e bs (a + b.len) (pay.drop b.len) (decodeBlock b (pay.take b.len) p)

/-- `Unpack(pay, address, size)` into `W` (44_patch_record.md R332). -/
def unpackWork (pay : List Byte) (address size : Nat) (s : State) : State :=
  let r := unpackLoop (address + size) subBlocks address pay s.work
  let t := s.setWork r.1
  if r.2 = address + size then t else t.event .unpackStopped

end Sys2Proof.Machine
end

