-- ==== Sys2Proof/Machine/Bulk.lean ====
section
/-! DEFINITION. Bulk transfer of the working patch (44_patch_record.md R340 to R342). -/

namespace Sys2Proof.Machine

/-- The range check of a bulk message (44_patch_record.md R342). -/
def bulkInRange (addr size : Nat) : Bool := decide (addr + size ≤ Config.recordSize)

/-- `MemRead(addr, n)`: bytes of the record view of `W` (20_memory.md R101). -/
def State.recordBytes (addr size : Nat) (s : State) : List Byte := (s.work.pack.drop addr).take size

/-- BULK_REQUEST (44_patch_record.md R340). -/
def execBulkRequest (addr size : BitVec 14) (s : State) : Host.Outcome State Fault Refusal :=
  if bulkInRange addr.toNat size.toNat then
    .next (s.emitR (bulkHeader 0x02 addr size ++ s.recordBytes addr.toNat size.toNat))
  else .next (s.event .bulkRange)

/-- BULK_DELIVER (44_patch_record.md R341). -/
def execBulkDeliver (addr : BitVec 14) (payload : List Byte) (s : State) :
    Host.Outcome State Fault Refusal :=
  if bulkInRange addr.toNat payload.length then
    .next (unpackWork payload addr.toNat payload.length s)
  else .next (s.event .bulkRange)

end Sys2Proof.Machine
end

