-- ==== Sys2Proof/Machine/Numerics.lean ====
section
/-! DEFINITION. The transcendental functions, correctly rounded (00_scope.md R11, NUMERICS). exp2 of a fraction is decided exactly by integer powers; sin, tanh and exp are enclosed by rational intervals at rising precision until both ends round to one binary32 value (log 6). -/

namespace Sys2Proof.Numerics

/-! ## Powers of two with a rational exponent -/

/-- `x ^ n` by repeated squaring (`fuel` bounds the number of binary digits of `n`). -/
def powFuel : Nat → Nat → Nat → Nat
  | 0, _, _ => 1
  | fuel + 1, x, n =>
    if n = 0 then 1
    else
      let h := powFuel fuel (x * x) (n / 2)
      if n % 2 = 1 then x * h else h

/-- `x ^ n`. -/
def pow (x n : Nat) : Nat := powFuel (n.log2 + 1) x n

/-- The largest `m = start + (a number below 2^bits)` with `m ^ q ≤ t`, one bit at a time. -/
def rootBits (q t : Nat) : Nat → Nat → Nat
  | 0, m => m
  | b + 1, m =>
    let m' := m + 1 <<< b
    rootBits q t b (if pow m' q ≤ t then m' else m)

/-- The binary32 value nearest `2^(p/q)`, `q > 0`. With `p = e*q + f`, `0 ≤ f < q`: `n` is the integer part of
`2^(24 + f/q)`, found exactly; an odd `n` is past the midpoint of two neighbours, never on it, unless
`f = 0`, where `n` is even. -/
def exp2Frac (p : Int) (q : Nat) : F32 :=
  let e := p / (q : Int)
  let f := (p % (q : Int)).toNat
  let n := rootBits q (1 <<< (24 * q + f)) 24 (1 <<< 24)
  let r := (n + 1) / 2
  if 0 ≤ e then F32.roundUnits false (r * F32.one149 <<< e.toNat) (1 <<< 23)
  else F32.roundUnits false (r * F32.one149) (1 <<< (23 + (-e).toNat))

/-! ## Enclosures -/

/-- `⟨c, r⟩` at precision `prec` encloses every real `v` with `|v * 2^prec - c| ≤ r`. -/
structure Ball where
  mid : Int
  rad : Nat
  deriving DecidableEq, Repr

namespace Ball

/-- An exact integer. -/
def ofInt (prec : Nat) (z : Int) : Ball := ⟨z * (1 <<< prec : Nat), 0⟩

/-- `num / den`, `den > 0`. -/
def ofRatio (prec : Nat) (num : Int) (den : Nat) : Ball := ⟨num * (1 <<< prec : Nat) / (den : Int), 1⟩

def add (a b : Ball) : Ball := ⟨a.mid + b.mid, a.rad + b.rad⟩

def sub (a b : Ball) : Ball := ⟨a.mid - b.mid, a.rad + b.rad⟩

def mul (prec : Nat) (a b : Ball) : Ball :=
  ⟨a.mid * b.mid / (1 <<< prec : Nat),
   (a.mid.natAbs * b.rad + b.mid.natAbs * a.rad + a.rad * b.rad) / (1 <<< prec) + 2⟩

/-- Times an integer and over a positive one. -/
def scale (a : Ball) (num : Int) (den : Nat) : Ball :=
  ⟨a.mid * num / (den : Int), a.rad * num.natAbs / den + 2⟩

/-- Quotient by an enclosure of positive numbers (`b.rad < b.mid`). -/
def div (prec : Nat) (a b : Ball) : Ball :=
  let m := b.mid.natAbs
  ⟨a.mid * (1 <<< prec : Nat) / (m : Int),
   (a.rad * m + a.mid.natAbs * b.rad) * (1 <<< prec) / (m * (m - b.rad)) + 2⟩

/-- Widened by `k` units, for the rest of a series. -/
def widen (a : Ball) (k : Nat) : Ball := ⟨a.mid, a.rad + k⟩

end Ball

/-- The terms `k, k+1, …` (`fuel` of them) of the alternating series of arctan(1/n), `den = n^(2k+1)`. -/
def atanTerms (prec n : Nat) : Nat → Nat → Nat → Int
  | 0, _, _ => 0
  | fuel + 1, k, den =>
    ((1 <<< prec) / (den * (2 * k + 1)) : Nat) - atanTerms prec n fuel (k + 1) (den * n * n)

/-- arctan(1/n), `n ≥ 2`: each term is off by at most one unit, the rest by at most one. -/
def atanInv (prec n : Nat) : Ball :=
  let terms := prec / (2 * n.log2) + 1
  ⟨atanTerms prec n terms 0 n, terms + 1⟩

/-- pi = 16 arctan(1/5) - 4 arctan(1/239). -/
def pi (prec : Nat) : Ball :=
  let a := atanInv prec 5
  let b := atanInv prec 239
  ⟨16 * a.mid - 4 * b.mid, 16 * a.rad + 4 * b.rad⟩

/-- The nested sum `1 - x2/(2k(2k+1)) * (1 - x2/((2k+2)(2k+3)) * (…))`, innermost first. -/
def sinNest (prec : Nat) (x2 : Ball) : Nat → Ball → Ball
  | 0, acc => acc
  | k + 1, acc =>
    sinNest prec x2 k
      (Ball.sub (Ball.ofInt prec 1) ((Ball.mul prec x2 acc).scale 1 ((2 * k + 2) * (2 * k + 3))))

/-- sin x for an enclosure of numbers in [0, 2]. -/
def sinBall (prec : Nat) (x : Ball) : Ball :=
  (Ball.mul prec x (sinNest prec (Ball.mul prec x x) (prec / 4) (Ball.ofInt prec 1))).widen 1

/-- The nested sum `1 + y/k * (1 + y/(k+1) * (…))`, innermost first. -/
def expNest (prec : Nat) (y : Ball) : Nat → Ball → Ball
  | 0, acc => acc
  | k + 1, acc =>
    expNest prec y k (Ball.add (Ball.ofInt prec 1) ((Ball.mul prec y acc).scale 1 (k + 1)))

/-- Squared `k` times. -/
def squares (prec : Nat) : Nat → Ball → Ball
  | 0, b => b
  | k + 1, b => squares prec k (Ball.mul prec b b)

/-- exp x: the argument is halved until it is below 2^-8, and the result squared back. -/
def expBall (prec : Nat) (x : Ball) : Ball :=
  let halvings := (x.mid.natAbs + x.rad).log2 + 9 - prec
  let y : Ball := ⟨x.mid / (1 <<< halvings : Nat), (x.rad >>> halvings) + 2⟩
  squares prec halvings ((expNest prec y (prec / 8 + 1) (Ball.ofInt prec 1)).widen 1)

/-- tanh x = (exp 2x - 1) / (exp 2x + 1). -/
def tanhBall (prec : Nat) (x : Ball) : Ball :=
  let e := expBall prec ⟨2 * x.mid, 2 * x.rad⟩
  Ball.div prec (e.sub (Ball.ofInt prec 1)) (e.add (Ball.ofInt prec 1))

/-- The binary32 value nearest `z / 2^prec`. -/
def roundFixed (prec : Nat) (z : Int) : F32 :=
  F32.roundUnits (decide (z < 0)) (z.natAbs * F32.one149) (1 <<< prec)

/-- The binary32 value every number of the enclosure rounds to, at the first precision of the list that
decides it (00_scope.md R11; log 6). -/
def nearest (f : Nat → Ball) : List Nat → F32
  | [] => F32.nan F32.zero F32.zero
  | prec :: rest =>
    let b := f prec
    let lo := roundFixed prec (b.mid - b.rad)
    let hi := roundFixed prec (b.mid + b.rad)
    if lo = hi then lo
    else if rest = [] then roundFixed prec b.mid
    else nearest f rest

/-! ## The functions the rules use -/

/-- `exp(x)` of an F32 argument. -/
def expF32 (x : F32) : F32 :=
  if F32.isNaN x then F32.nan x x
  else if F32.lt 0x43000000#32 x then F32.pack false F32.infBits
  else if F32.lt x 0xC3000000#32 then F32.zero
  else nearest (fun prec => expBall prec (Ball.ofRatio prec (F32.toUnits x) F32.one149)) Config.precisions

/-- `exp(-2*pi*fc/sr)`, the argument exact (42_filter.md R262). -/
def expMinusTwoPi (fc : F32) (sr : Nat) : F32 :=
  if !F32.isFinite fc then F32.nan fc fc
  else
    nearest (fun prec => expBall prec ((pi prec).scale (-2 * F32.toUnits fc) (F32.one149 * sr)))
      Config.precisions

/-- sin(2*pi*j/4096) for `j ≤ 1024`. -/
def sinQuarter (prec j : Nat) : Ball := sinBall prec ((pi prec).scale j 2048)

/-- An odd, half-wave-symmetric table of one period of 4096 samples from its first quarter. -/
def fromQuarter (f : Nat → F32) (i : Nat) : F32 :=
  let h := i % 2048
  let j := if h ≤ 1024 then h else 2048 - h
  if j = 0 then F32.zero
  else if i % 4096 < 2048 then f j else F32.neg (f j)

/-- `sin(2*pi*i/4096)`, correctly rounded (41_waveform.md R235). -/
def sinTable (i : Nat) : F32 :=
  fromQuarter (fun j => nearest (fun prec => sinQuarter prec j) Config.precisions) i

/-- `tanh(10*sin(2*pi*i/4096))`, correctly rounded (41_waveform.md R231). -/
def tanhSinTable (i : Nat) : F32 :=
  fromQuarter
    (fun j => nearest (fun prec => tanhBall prec ((sinQuarter prec j).scale 10 1)) Config.precisions) i

end Sys2Proof.Numerics
end

