-- ==== Sys2Proof/Machine/Controllers.lean ====
section
/-! DEFINITION. Controllers, patch selection and pitch bend (47_engine.md R455 to R461). -/

namespace Sys2Proof.Machine

/-- `SelectPatch(i)` (47_engine.md R455). -/
def selectPatch (i : Nat) (s : State) : State :=
  match patchIndex i with
  | some k => { s with work := s.bank[k], cur := k }
  | none => s.event .patchIndexRange

/-- The cutoff of a controller value (47_engine.md R457). -/
def cutoffOf (value : BitVec 7) : F32 := F32.mul (fraction7 value) Config.cutoffCcMaxHz

/-- The bend target of a bend value (47_engine.md R461). -/
def bendTargetOf (bend : BitVec 14) : F32 :=
  if Config.bendDeadLo ≤ bend.toNat ∧ bend.toNat ≤ Config.bendDeadHi then F32.one
  else Numerics.exp2Frac (Config.bendRange * ((bend.toNat : Int) - 8192)) (12 * 8192)

/-- CC_CUTOFF (47_engine.md R457). -/
def execCcCutoff (_controller value : BitVec 7) (s : State) : Host.Outcome State Fault Refusal :=
  .next { s with filter := { s.filter with cutoff := cutoffOf value } }

/-- CC_REVERB (47_engine.md R458). -/
def execCcReverb (value : BitVec 7) (s : State) : Host.Outcome State Fault Refusal :=
  .next { s with reverb := { s.reverb with mix := fraction7 value } }

/-- CC_PATCH (47_engine.md R459). -/
def execCcPatch (value : BitVec 7) (s : State) : Host.Outcome State Fault Refusal :=
  .next (selectPatch value.toNat s)

/-- CC_OTHER (47_engine.md R460). -/
def execCcOther (_controller : BitVec 7) (s : State) : Host.Outcome State Fault Refusal :=
  .next (s.event .msgUnknown)

/-- PATCH_SELECT (47_engine.md R455). -/
def execPatchSelect (index : BitVec 7) (s : State) : Host.Outcome State Fault Refusal :=
  .next (selectPatch index.toNat s)

/-- PITCH_BEND (47_engine.md R461). -/
def execPitchBend (bend : BitVec 14) (s : State) : Host.Outcome State Fault Refusal :=
  .next { s with mixer := { s.mixer with bendTarget := bendTargetOf bend } }

end Sys2Proof.Machine
end

