-- ==== Sys2Proof/Machine/FilterUnit.lean ====
section
/-! DEFINITION. The output filter: one-pole low-pass and four-pole ladder (spec/42_filter.md). -/

namespace Sys2Proof.Machine

/-- The effective cutoff `clamp(FLT.cutoff, 0.0, toF32(sr) / 2.0)` (42_filter.md R261). -/
def Filter.effectiveCutoff (f : Filter) (sr : Nat) : F32 :=
  F32.clamp f.cutoff F32.zero (F32.div (F32.ofNat sr) 0x40000000#32)

/-! ## One-pole (42_filter.md R262, R263) -/

/-- The coefficient `k` (42_filter.md R262). -/
def Filter.onePoleK (f : Filter) (sr : Nat) : F32 := Numerics.expMinusTwoPi (f.effectiveCutoff sr) sr

/-- One sample: the output, which is the new `prev` (42_filter.md R263). -/
def onePoleNext (k x prev : F32) : F32 := F32.add (F32.mul (F32.sub F32.one k) x) (F32.mul k prev)

/-- The recursion over a buffer. -/
def onePoleRun (k : F32) : List F32 → Filter → List F32 × Filter
  | [], f => ([], f)
  | x :: xs, f =>
    let y := onePoleNext k x f.prev
    let out := onePoleRun k xs { f with prev := y }
    (y :: out.1, out.2)

/-! ## Ladder (42_filter.md R265, R266) -/

/-- The ladder's coefficients. -/
structure LadderCoeffs where
  k : F32
  p : F32
  r : F32
  deriving DecidableEq, Repr, Inhabited

/-- The coefficients from the registers and the sample rate (42_filter.md R265). -/
def Filter.ladderCoeffs (flt : Filter) (sr : Nat) : LadderCoeffs :=
  let f := F32.div (F32.mul 0x40000000#32 (flt.effectiveCutoff sr)) (F32.ofNat sr)
  let k := F32.sub (F32.sub (F32.mul Config.moogA f) (F32.mul (F32.mul Config.moogB f) f)) F32.one
  let p := F32.mul (F32.add k F32.one) 0x3F000000#32
  let q := F32.sub F32.one p
  let e := Numerics.expF32 q
  ⟨k, p, F32.mul (F32.mul flt.resonance e) Config.moogS⟩

/-- One stage: new input, previous input, previous output (42_filter.md R266). -/
def ladderStage (c : LadderCoeffs) (x xPrev yPrev : F32) : F32 :=
  F32.sub (F32.add (F32.mul c.p x) (F32.mul c.p xPrev)) (F32.mul c.k yPrev)

/-- The registers after one sample; `y4` is the output (42_filter.md R266). -/
def ladderNext (c : LadderCoeffs) (x : F32) (f : Filter) : Filter :=
  let xin := F32.sub x (F32.mul c.r f.y4)
  let n1 := ladderStage c xin f.x1 f.y1
  let n2 := ladderStage c n1 f.y1 f.y2
  let n3 := ladderStage c n2 f.y2 f.y3
  let n4 := ladderStage c n3 f.y3 f.y4
  { f with x1 := xin, y1 := n1, y2 := n2, y3 := n3, y4 := n4 }

/-- The recursion over a buffer. -/
def ladderRun (c : LadderCoeffs) : List F32 → Filter → List F32 × Filter
  | [], f => ([], f)
  | x :: xs, f =>
    let g := ladderNext c x f
    let out := ladderRun c xs g
    (g.y4 :: out.1, out.2)

/-! ## Selection -/

/-- `FilterApply`: the kind selected runs over the buffer and only its state changes (42_filter.md R260). -/
def Filter.apply (f : Filter) (sr : Nat) (mix : List F32) : List F32 × Filter :=
  match f.kind with
  | .onePole => onePoleRun (f.onePoleK sr) mix f
  | .moog => ladderRun (f.ladderCoeffs sr) mix f

end Sys2Proof.Machine
end

