-- ==== Sys2Proof/Machine/ReverbUnit.lean ====
section
/-! DEFINITION. The reverb (spec/43_reverb.md). -/

namespace Sys2Proof.Machine

/-- `D = floor(delayMs * sr / 1000) mod 480000`, exact on the F32 value (43_reverb.md R290; log 7 for a
delay that is no number). -/
def Reverb.delaySamples (rv : Reverb) (sr : Nat) : Nat :=
  let whole :=
    if F32.isFinite rv.delayMs then F32.toUnits rv.delayMs * sr / (1000 * F32.one149 : Nat)
    else Config.freeFloor rv.delayMs
  (whole % (Config.reverbLen : Int)).toNat

/-- The read position, `d` samples behind the write position (43_reverb.md R291). -/
def Reverb.readPos (rv : Reverb) (d : Nat) : Nat :=
  (rv.wp.val + Config.reverbLen - d % Config.reverbLen) % Config.reverbLen

/-- The write position, one further (43_reverb.md R291). -/
def nextWp (wp : Fin 480000) : Fin 480000 := ⟨(wp.val + 1) % 480000, Nat.mod_lt _ (by decide)⟩

/-- The wet sample: the delayed sample is read before anything is written (43_reverb.md R291, R292). -/
def Reverb.wet (rv : Reverb) (d : Nat) (x : F32) : F32 :=
  F32.add x (F32.mul rv.mix (rv.buf.read reverbDefault (rv.readPos d)))

/-- The registers after one sample (43_reverb.md R291). -/
def Reverb.next (rv : Reverb) (d : Nat) (x : F32) : Reverb :=
  { rv with
    buf := rv.buf.write reverbDefault rv.wp.val (F32.mul (rv.wet d x) rv.decay), wp := nextWp rv.wp }

/-- The recursion over a buffer. -/
def reverbRun (d : Nat) : List F32 → Reverb → List F32 × Reverb
  | [], rv => ([], rv)
  | x :: xs, rv =>
    let out := reverbRun d xs (rv.next d x)
    (rv.wet d x :: out.1, out.2)

/-- `ReverbApply` (43_reverb.md R290, R291). -/
def Reverb.apply (rv : Reverb) (sr : Nat) (mix : List F32) : List F32 × Reverb :=
  reverbRun (rv.delaySamples sr) mix rv

end Sys2Proof.Machine
end

