-- ==== Sys2Proof/Machine/Flags.lean ====
section
/-! DEFINITION. The only flags of synth-core are each voice's `active` and `released` (10_state.md R51): the three voice states, wavePos and the VOICE_STATUS word computed from them. -/

namespace Sys2Proof.Machine

/-- The three states of a voice (10_state.md R40). -/
inductive VoiceState where
  | inactive | playing | releasing
  deriving DecidableEq, Repr, Inhabited

/-- The state of a voice, a function of its flags (10_state.md R40). -/
def Voice.state (v : Voice) : VoiceState :=
  if !v.active then .inactive else if v.released then .releasing else .playing

/-- `wavePos(v)`: -1.0 while inactive, else the phase (10_state.md R39). -/
def Voice.wavePos (v : Voice) : F32 := if v.active then v.phase else 0xBF800000#32

/-- NOTE as a byte: 0xFF for none (10_state.md R50). -/
def noteByte : Option (BitVec 7) → Byte
  | some n => n.setWidth 8
  | none => 0xFF

/-- PATCH_SEL: 0x3F for WORK (10_state.md R50). -/
def selField : Sel → BitVec 6
  | .work => 0x3F
  | .bank i => BitVec.ofNat 6 i.val

/-- OSC_INDEX (10_state.md R50). -/
def oscField : OscIndex → BitVec 1
  | .osc0 => 0
  | .osc1 => 1

/-- VOICE_STATUS (10_state.md R50), the fields from bit 31 down: 0, PATCH_SEL, OSC_INDEX, 0, CACHED_TYPE,
NOTE, 0, RELEASED, ACTIVE. -/
def Voice.status (v : Voice) : Word :=
  0#1 ++ selField v.oscRef.sel ++ oscField v.oscRef.k ++ 0#5 ++ v.cachedType.code.extractLsb' 0 3
    ++ noteByte v.note ++ 0#6 ++ BitVec.ofBool v.released ++ BitVec.ofBool v.active

end Sys2Proof.Machine
end

