-- ==== Sys2Proof/Machine/VoicePool.lean ====
section
/-! DEFINITION. The voice pool: allocation and the transitions of a voice (spec/45_voice.md), and the note routing over them (47_engine.md R450, R451). -/

namespace Sys2Proof.Machine

/-- `Allocate()`: the lowest inactive voice (45_voice.md R360). -/
def State.allocate (s : State) : Option (Fin 32) :=
  (List.finRange 32).find? fun v => !(s.voices[v]).active

/-- `440.0 * exp2((note - 69) / 12)` (45_voice.md R362). -/
def noteFreq (note : BitVec 7) : F32 :=
  F32.mul Config.a4Hz (Numerics.exp2Frac ((note.toNat : Int) - Config.a4Note) 12)

/-- The frequency with the detune applied (45_voice.md R362). -/
def detunedFreq (note : BitVec 7) (detune : F32) : F32 :=
  let f := noteFreq note
  F32.add f (F32.mul (F32.mul f detune) Config.detuneScale)

/-- `VoiceNoteOn` (45_voice.md R362). -/
def Voice.noteOn (v : Voice) (ref : OscRef) (o : Oscillator) (note : BitVec 7) (volume : F32)
    (draw : BitVec 4) : Voice :=
  { v with
    oscRef := ref
    note := some note
    freq := detunedFreq note o.detune
    volume := volume
    cachedType := if o.waveType = v.cachedType then v.cachedType else o.waveType
    elapsed := F32.zero
    released := false
    phase := F32.ofNat draw.toNat
    active := true }

/-- `VoiceNoteOff` (45_voice.md R363). -/
def Voice.noteOff (v : Voice) : Voice :=
  if v.active && !v.released then { v with released := true, elapsed := F32.zero } else v

/-- `VoiceStop` (45_voice.md R365). -/
def Voice.stop (v : Voice) : Voice := { v with active := false, note := none }

/-- `VoiceUpdate`, given the volume release time of the voice's oscillator (45_voice.md R364). -/
def Voice.update (v : Voice) (release : F32) : Voice :=
  if v.active && v.released && F32.lt release v.elapsed then v.stop else v

/-- `EngineNoteOff(note)` (47_engine.md R450). -/
def engineNoteOff (note : BitVec 7) (s : State) : State :=
  s.mapVoices fun v => if v.active && v.note == some note then v.noteOff else v

/-- The body of `EngineNoteOn` for oscillator `k` (47_engine.md R451). -/
def startOsc (sel : Sel) (note : BitVec 7) (volume : F32) (k : OscIndex) (s : State) : State :=
  let o := s.osc ⟨sel, k⟩
  if o.waveType = .none then s
  else
    match s.allocate with
    | none => s.event .voicePoolExhausted
    | some v =>
      (s.dropDraw).setVoice v
        ((s.voices[v]).noteOn ⟨sel, k⟩ o note (F32.mul volume (s.patch sel).mixLevel) s.draw)

/-- `EngineNoteOn(sel, note, volume)` (47_engine.md R451). -/
def engineNoteOn (sel : Sel) (note : BitVec 7) (volume : F32) (s : State) : State :=
  if F32.lt volume Config.noteOnTolerance then engineNoteOff note s
  else startOsc sel note volume .osc1 (startOsc sel note volume .osc0 s)

end Sys2Proof.Machine
end

