-- ==== Sys2Proof/Machine/Waveform.lean ====
section
/-! DEFINITION. The waveform tables, each sample computed from its rule, and the noise ROM (spec/41_waveform.md). -/

namespace Sys2Proof.Machine

/-! ## Periodic tables -/

/-- `num / 2048`, exact in binary32 for the magnitudes the ramps have. -/
def over2048 (num : Int) : F32 := F32.roundUnits (decide (num < 0)) (num.natAbs * F32.one149) 2048

/-- SAW1: `i/2048 - 1` (41_waveform.md R232). -/
def saw1 (i : Nat) : F32 := over2048 ((i : Int) - 2048)

/-- SAW2: `1 - i/2048` (41_waveform.md R233). -/
def saw2 (i : Nat) : F32 := over2048 (2048 - (i : Int))

/-- TRIANGLE (41_waveform.md R234). -/
def triangle (i : Nat) : F32 :=
  if i < 1024 then over2048 (2 * (i : Int))
  else if i < 3072 then over2048 (4096 - 2 * (i : Int))
  else over2048 (2 * (i : Int) - 8192)

/-! ## The noise ROM (41_waveform.md R236) -/

/-- An affine map `s ↦ mul*s + inc` modulo LCG_MOD. -/
structure Affine where
  mul : Nat
  inc : Nat
  deriving DecidableEq, Repr, Inhabited

/-- One step of the generator. -/
def lcgNext (s : Nat) : Nat := (Config.lcgMul * s + Config.lcgInc) % Config.lcgMod

/-- `f` after `g`. -/
def Affine.after (f g : Affine) : Affine :=
  ⟨f.mul * g.mul % Config.lcgMod, (f.mul * g.inc + f.inc) % Config.lcgMod⟩

/-- `f` iterated `n` times, by repeated squaring (`fuel` bounds the binary digits of `n`). -/
def Affine.iterate : Nat → Affine → Nat → Affine
  | 0, _, _ => ⟨1, 0⟩
  | fuel + 1, f, n =>
    if n = 0 then ⟨1, 0⟩
    else
      let h := Affine.iterate fuel (f.after f) (n / 2)
      if n % 2 = 1 then h.after f else h

/-- The generator's state after `n` steps from the seed: `lcgNext` iterated `n` times, in closed form so
that any sample can be computed by itself (log 15). -/
def lcgState (n : Nat) : Nat :=
  let f := Affine.iterate (n.log2 + 1) ⟨Config.lcgMul, Config.lcgInc⟩ n
  (f.mul * Config.lcgSeed + f.inc) % Config.lcgMod

/-- `NOISE[n]` as generated at reset (41_waveform.md R236): what an unlisted index of the ROM reads as. -/
def noiseDefault (n : Nat) : F32 :=
  F32.sub (F32.div (F32.ofNat (2 * lcgState (n + 1))) 0x46FFFE00#32) F32.one

/-! ## Table selection -/

/-- `Table(type)[j]` (41_waveform.md R230); CUSTOM plays the square (R238), NONE has no table (log 7). -/
def tableRead (noise : SampleMem) (w : Wave) (j : Nat) : F32 :=
  match w with
  | .none => Config.freeSample j
  | .square => Numerics.tanhSinTable j
  | .saw1 => saw1 j
  | .saw2 => saw2 j
  | .triangle => triangle j
  | .sine => Numerics.sinTable j
  | .noise => noise.read noiseDefault j
  | .custom => Numerics.tanhSinTable j

end Sys2Proof.Machine
end

