-- ==== Sys2Proof/Machine/MixerUnit.lean ====
section
/-! DEFINITION. The render loop, the LFO, the bend smoother and the output limiter (spec/46_mixer.md). -/

namespace Sys2Proof.Machine

/-! ## Once per FILL -/

/-- `bufMs = (1000.0 * toF32(N)) / toF32(sr)` (46_mixer.md R402). -/
def bufMs (n sr : Nat) : F32 := F32.div (F32.mul 0x447A0000#32 (F32.ofNat n)) (F32.ofNat sr)

/-- The bend ratio 30% nearer its target (46_mixer.md R405). -/
def Mixer.smoothBend (m : Mixer) : Mixer :=
  { m with bendCur := F32.add m.bendCur (F32.mul Config.bendSmooth (F32.sub m.bendTarget m.bendCur)) }

/-- `LfoLevel()` (46_mixer.md R403, R404). -/
def lfoLevel (w : Patch) (noise : SampleMem) (lfoPhase : F32) : F32 :=
  if w.lfoWave = .none then F32.zero
  else
    let idx := (F32.floor lfoPhase % (w.lfoWave.len : Int)).toNat
    F32.mul w.lfoDepth (tableRead noise w.lfoWave idx)

/-- `LfoAdvance(bufMs)` (46_mixer.md R417). -/
def Mixer.advanceLfo (m : Mixer) (w : Patch) (ms : F32) : Mixer :=
  let len := F32.ofNat w.lfoWave.len
  let inc := F32.mul (F32.mul w.lfoFreq (F32.div ms 0x447A0000#32)) len
  { m with lfoPhase := F32.fmod (F32.add m.lfoPhase inc) len }

/-! ## Per voice -/

/-- What a voice's render reads once per FILL besides the voice and its oscillator (46_mixer.md R406). -/
structure RenderCtx where
  sr : Nat
  ms : F32
  lfo : F32
  mixer : Mixer
  noise : SampleMem
  deriving DecidableEq, Repr, Inhabited

/-- `vol` (46_mixer.md R407, R408). -/
def voiceVol (c : RenderCtx) (o : Oscillator) (v : Voice) : F32 :=
  F32.add
    (F32.mul (F32.mul c.mixer.masterVolume v.volume) (o.env.volume.level v.elapsed v.released))
    (F32.mul c.lfo (o.lfoEnv.volume.level v.elapsed v.released))

/-- `outF` (46_mixer.md R407, R409), in cycles per sample. -/
def voiceOutF (c : RenderCtx) (o : Oscillator) (v : Voice) : F32 :=
  F32.mul
    (F32.mul (F32.div v.freq (F32.ofNat c.sr))
      (F32.add (F32.add F32.one (o.env.pitch.level v.elapsed v.released))
        (F32.mul c.lfo (o.lfoEnv.pitch.level v.elapsed v.released))))
    c.mixer.bendCur

/-- `inc` (46_mixer.md R409), in table samples per output sample. -/
def voiceInc (c : RenderCtx) (o : Oscillator) (v : Voice) : F32 :=
  F32.mul (voiceOutF c o v) (F32.ofNat v.cachedType.len)

/-- One advance of the phase: `wrap(ph + inc, L)` (46_mixer.md R410, R412). -/
def phaseNext (len : Nat) (inc ph : F32) : F32 := F32.fmod (F32.add ph inc) (F32.ofNat len)

/-- `warp(i, d, L)` (46_mixer.md R413). -/
def warp (i : Int) (d : F32) (len : Nat) : Nat :=
  let dL := F32.mul d (F32.ofNat len)
  let fi := F32.ofUnits (i * (F32.one149 : Int))
  let half := 0x3F000000#32
  let j :=
    if F32.lt fi dL then F32.floor (F32.mul fi (F32.div half d))
    else
      F32.floor
        (F32.add (F32.ofNat (len / 2))
          (F32.mul (F32.sub fi dL) (F32.div half (F32.sub F32.one d))))
  min j.toNat (len - 1)

/-- The samples a voice adds to the mix, from phase `ph` on (46_mixer.md R410). -/
def renderSamples (noise : SampleMem) (w : Wave) (duty vol inc : F32) : List F32 → F32 → List F32
  | [], _ => []
  | x :: xs, ph =>
    let ph' := phaseNext w.len inc ph
    let j := warp (F32.floor ph') duty w.len
    F32.add x (F32.mul vol (tableRead noise w j)) :: renderSamples noise w duty vol inc xs ph'

/-- The phase after `n` samples (46_mixer.md R410, R416). -/
def phaseAfter (len : Nat) (inc : F32) : Nat → F32 → F32
  | 0, ph => ph
  | n + 1, ph => phaseAfter len inc n (phaseNext len inc ph)

/-- The mix with one voice added, if it is active (46_mixer.md R401 step 4, R411). -/
def renderVoice (c : RenderCtx) (o : Oscillator) (v : Voice) (mix : List F32) : List F32 :=
  if v.active then
    renderSamples c.noise v.cachedType o.duty (voiceVol c o v) (voiceInc c o v) mix v.phase
  else mix

/-- A voice after its render: phase and elapsed time, if it is active (46_mixer.md R416). -/
def advanceVoice (c : RenderCtx) (n : Nat) (o : Oscillator) (v : Voice) : Voice :=
  if v.active then
    { v with
      phase := phaseAfter v.cachedType.len (voiceInc c o v) n v.phase
      elapsed := F32.add v.elapsed c.ms }
  else v

/-! ## Output conversion -/

/-- One soft knee: beyond `±knee` the excess is scaled by `ratio` (46_mixer.md R419). -/
def softKnee (knee ratio s : F32) : F32 :=
  if F32.lt knee s then F32.add knee (F32.mul (F32.sub s knee) ratio)
  else if F32.lt s (F32.neg knee) then F32.add (F32.neg knee) (F32.mul (F32.add s knee) ratio)
  else s

/-- `Compress(x)` (46_mixer.md R419). -/
def compress (x : F32) : F32 :=
  softKnee Config.knee2 Config.ratio2 (softKnee Config.knee1 Config.ratio1 (F32.mul x Config.outScale))

/-- The truncated value of a sample where it is in the 16-bit range, none where the sample is a NaN or
saturates (46_mixer.md R421). -/
def inRange (s : F32) : Option Int :=
  if F32.isFinite s && decide (-32768 ≤ F32.trunc s ∧ F32.trunc s ≤ 32767) then some (F32.trunc s)
  else none

/-- `Convert(s)` (46_mixer.md R421), without its event. -/
def convert (s : F32) : Sample :=
  match inRange s with
  | some t => BitVec.ofInt 16 t
  | none => if F32.isNaN s then 0 else if F32.sign s then 0x8000 else 0x7FFF

/-- The event of one conversion (46_mixer.md R421). -/
def convertEvent (s : F32) (d : Diag) : Diag :=
  if (inRange s).isSome then d else d.record .limiterSaturated

/-! ## FILL -/

/-- The preconditions of FILL (46_mixer.md R400). -/
def fillLegal (n : BitVec 16) (sr : Word) : Bool :=
  decide (Config.srMin ≤ sr.toNat ∧ sr.toNat ≤ Config.srMax ∧ n.toNat ≤ Config.maxFill)

/-- What the voices' render reads: the bend ratio is smoothed and the LFO sampled first
(46_mixer.md R401 steps 1, 2). -/
def fillCtx (n sr : Nat) (s : State) : RenderCtx where
  sr := sr
  ms := bufMs n sr
  lfo := lfoLevel s.work s.noise s.mixer.lfoPhase
  mixer := s.mixer.smoothBend
  noise := s.noise

/-- The mix of the active voices, in ascending order (46_mixer.md R401 steps 3, 4, R411). -/
def fillMix (n sr : Nat) (s : State) : List F32 :=
  s.voices.toList.foldl (fun mix v => renderVoice (fillCtx n sr s) (s.osc v.oscRef) v mix)
    (List.replicate n F32.zero)

/-- FILL with its preconditions met (46_mixer.md R401). -/
def fillLegalBody (n sr : Nat) (s : State) : State :=
  let c := fillCtx n sr s
  let wet := s.reverb.apply sr (fillMix n sr s)
  let filtered := s.filter.apply sr wet.1
  let scaled := filtered.1.map compress
  { s with
    voices := s.voices.map fun v => advanceVoice c n (s.osc v.oscRef) v
    mixer := c.mixer.advanceLfo s.work c.ms
    reverb := wet.2
    filter := filtered.2
    diag := scaled.foldl (fun d x => convertEvent x d) s.diag
    portA := scaled.map convert }

end Sys2Proof.Machine
end

