-- ==== Sys2Proof/Machine/RegisterMap.lean ====
section
/-! DEFINITION. The configuration and status registers (10_state.md R48 to R50). -/

namespace Sys2Proof.Machine

/-- 1 - 2^-24, the greatest reverb decay (10_state.md R43). -/
def decayMax : F32 := 0x3F7FFFFF#32

/-- 96000.0, the greatest cutoff (10_state.md R42). -/
def cutoffMax : F32 := 0x47BB8000#32

/-- The voice of a per-voice register, whose bank starts at `base` (10_state.md R48). -/
def voiceIndex (addr : Byte) (base : Nat) : Option (Fin 32) :=
  if h : base ≤ addr.toNat ∧ addr.toNat < base + 32 then some ⟨addr.toNat - base, by omega⟩ else none

/-- FILTER_KIND as a word (10_state.md R48). -/
def FilterKind.code : FilterKind → Word
  | .onePole => 0
  | .moog => 1

/-- A register below 0x20; 0 where there is none (10_state.md R48). -/
def readGlobal (addr : Byte) (s : State) : Word :=
  if addr = 0x00 then s.mixer.masterVolume
  else if addr = 0x01 then s.filter.kind.code
  else if addr = 0x02 then s.filter.cutoff
  else if addr = 0x03 then s.filter.resonance
  else if addr = 0x04 then s.reverb.delayMs
  else if addr = 0x05 then s.reverb.decay
  else if addr = 0x06 then s.reverb.mix
  else if addr = 0x08 then s.mixer.bendTarget
  else if addr = 0x09 then s.mixer.bendCur
  else if addr = 0x0A then s.mixer.lfoPhase
  else if addr = 0x0B then BitVec.ofNat 32 s.cur.val
  else if addr = 0x0C then BitVec.ofNat 32 s.activeVoices
  else if addr = 0x10 then s.diag.dropCount
  else if addr = 0x11 then s.diag.ignoredCount
  else if addr = 0x12 then s.diag.clipCount
  else if addr = 0x13 then s.diag.unpackStopCount
  else if addr = 0x14 then s.diag.lastEvent
  else 0

/-- The value CFG_READ gives for an address (10_state.md R48, R50; 47_engine.md R473). -/
def State.readReg (addr : Byte) (s : State) : Word :=
  match voiceIndex addr 0x20 with
  | some v => (s.voices[v]).status
  | none =>
    match voiceIndex addr 0x40 with
    | some v => (s.voices[v]).wavePos
    | none =>
      match voiceIndex addr 0x60 with
      | some v => (s.voices[v]).elapsed
      | none =>
        match voiceIndex addr 0x80 with
        | some v => (s.voices[v]).freq
        | none =>
          match voiceIndex addr 0xA0 with
          | some v => (s.voices[v]).volume
          | none => readGlobal addr s

/-- The clamp range of an F32 register that CFG_WRITE may write (10_state.md R48, R49). -/
def writeRange (addr : Byte) : Option (F32 × F32) :=
  if addr = 0x00 then some (F32.zero, F32.one)
  else if addr = 0x02 then some (F32.zero, cutoffMax)
  else if addr = 0x03 then some (F32.zero, F32.one)
  else if addr = 0x04 then some (F32.zero, Config.envTimeMax)
  else if addr = 0x05 then some (F32.zero, decayMax)
  else if addr = 0x06 then some (F32.zero, F32.one)
  else none

/-- `register(a) <- y` for the F32 registers (10_state.md R48). -/
def storeF32Reg (addr : Byte) (y : F32) (s : State) : State :=
  if addr = 0x00 then { s with mixer := { s.mixer with masterVolume := y } }
  else if addr = 0x02 then { s with filter := { s.filter with cutoff := y } }
  else if addr = 0x03 then { s with filter := { s.filter with resonance := y } }
  else if addr = 0x04 then { s with reverb := { s.reverb with delayMs := y } }
  else if addr = 0x05 then { s with reverb := { s.reverb with decay := y } }
  else if addr = 0x06 then { s with reverb := { s.reverb with mix := y } }
  else s

/-- The value stored for a finite `x`: clamped, and -0.0 as +0.0 (10_state.md R49). -/
def legalValue (x lo hi : F32) : F32 :=
  let y := F32.clamp x lo hi
  if y = 0x80000000#32 then F32.zero else y

/-- A CFG_WRITE of word `d` to address `addr` (10_state.md R49). -/
def State.writeReg (addr : Byte) (d : Word) (s : State) : State :=
  if addr = 0x01 then
    if d = 0 then { s with filter := { s.filter with kind := .onePole } }
    else if d = 1 then { s with filter := { s.filter with kind := .moog } }
    else s.event .cfgBadValue
  else
    match writeRange addr with
    | none => s.event .cfgBadAddress
    | some (lo, hi) =>
      if F32.isFinite d then storeF32Reg addr (legalValue d lo hi) s else s.event .cfgBadValue

end Sys2Proof.Machine
end

