-- ==== Sys2Proof/Machine/HostOps.lean ====
section
/-! DEFINITION. The host operations FILL, UPDATE, STORE, CFG_WRITE, CFG_READ and RESET (47_engine.md R465 to R473). -/

namespace Sys2Proof.Machine

/-- FILL (47_engine.md R465): the model fault where its preconditions fail (46_mixer.md R400). -/
def execFill (n : BitVec 16) (sr : Word) (s : State) : Host.Outcome State Fault Refusal :=
  if fillLegal n sr then .next (fillLegalBody n.toNat sr.toNat s)
  else .next (s.raiseFault .fillParams)

/-- UPDATE (47_engine.md R468). -/
def execUpdate (_deltaMs : F32) (s : State) : Host.Outcome State Fault Refusal :=
  .next (s.mapVoices fun v => v.update (s.osc v.oscRef).env.volume.release)

/-- STORE (47_engine.md R466). -/
def execStore (index : Byte) (s : State) : Host.Outcome State Fault Refusal :=
  match patchIndex index.toNat with
  | some i => .next (s.setBank i s.work)
  | none => .next (s.event .patchIndexRange)

/-- CFG_WRITE (47_engine.md R472). -/
def execCfgWrite (addr : Byte) (d : Word) (s : State) : Host.Outcome State Fault Refusal :=
  .next (s.writeReg addr d)

/-- CFG_READ (47_engine.md R473). -/
def execCfgRead (addr : Byte) (s : State) : Host.Outcome State Fault Refusal :=
  .next (s.emitD (s.readReg addr))

/-- RESET (47_engine.md R470): every part of the tuple of 10_state.md R30 as in 70_reset_and_hazards.md
R560; what waits on the ports and the arrival position are no part of it (log 13). -/
def execReset (s : State) : Host.Outcome State Fault Refusal :=
  .next
    { State.reset with
      position := s.position, inbox := s.inbox, draws := s.draws, fresh := s.fresh
      portA := s.portA, portR := s.portR, portD := s.portD }

end Sys2Proof.Machine
end

