-- ==== Sys2Proof/Machine/Ignored.lean ====
section
/-! DEFINITION. The input that performs nothing but its event (47_engine.md R463). -/

namespace Sys2Proof.Machine

/-- CTRL_UNKNOWN (47_engine.md R463). -/
def execCtrlUnknown (_msg : List Byte) (s : State) : Host.Outcome State Fault Refusal :=
  .next (s.event .msgUnknown)

/-- MSG_TOO_SHORT (47_engine.md R463). -/
def execMsgTooShort (_msg : List Byte) (s : State) : Host.Outcome State Fault Refusal :=
  .next (s.event .msgTooShort)

/-- HOST_UNKNOWN (47_engine.md R463). -/
def execHostUnknown (_frame : List Byte) (s : State) : Host.Outcome State Fault Refusal :=
  .next (s.event .hostFrameBad)

end Sys2Proof.Machine
end

