-- ==== Sys2Proof/Machine/Notes.lean ====
section
/-! DEFINITION. The note operations (47_engine.md R450 to R454). -/

namespace Sys2Proof.Machine

/-- NOTE_OFF (47_engine.md R450). -/
def execNoteOff (note : BitVec 7) (s : State) : Host.Outcome State Fault Refusal :=
  .next (engineNoteOff note s)

/-- NOTE_ON: the working patch, the velocity as volume (47_engine.md R452). -/
def execNoteOn (note velocity : BitVec 7) (s : State) : Host.Outcome State Fault Refusal :=
  .next (engineNoteOn .work note (fraction7 velocity) s)

/-- NOTE_ON_EX (47_engine.md R454). -/
def execNoteOnEx (p : Byte) (note velocity : BitVec 7) (s : State) : Host.Outcome State Fault Refusal :=
  match noteOnSel p with
  | some sel => .next (engineNoteOn sel note (fraction7 velocity) s)
  | none => .next (s.event .patchIndexRange)

end Sys2Proof.Machine
end

