-- ==== Sys2Proof/Machine/Dispatch.lean ====
section
/-! DEFINITION. One arm per row of spec/opcode_table.json (30_encoding.md R162). -/

namespace Sys2Proof.Machine

def exec (i : Instr) (s : State) : Host.Outcome State Fault Refusal :=
  match i with
  | .noteOff note => Sys2Proof.Machine.execNoteOff note s
  | .noteOn note velocity => Sys2Proof.Machine.execNoteOn note velocity s
  | .ccCutoff controller value => Sys2Proof.Machine.execCcCutoff controller value s
  | .ccReverb value => Sys2Proof.Machine.execCcReverb value s
  | .ccPatch value => Sys2Proof.Machine.execCcPatch value s
  | .ccOther controller => Sys2Proof.Machine.execCcOther controller s
  | .patchSelect index => Sys2Proof.Machine.execPatchSelect index s
  | .pitchBend bend => Sys2Proof.Machine.execPitchBend bend s
  | .bulkRequest addr size => Sys2Proof.Machine.execBulkRequest addr size s
  | .bulkDeliver addr payload => Sys2Proof.Machine.execBulkDeliver addr payload s
  | .ctrlUnknown msg => Sys2Proof.Machine.execCtrlUnknown msg s
  | .msgTooShort msg => Sys2Proof.Machine.execMsgTooShort msg s
  | .fill n sr => Sys2Proof.Machine.execFill n sr s
  | .update deltaMs => Sys2Proof.Machine.execUpdate deltaMs s
  | .store index => Sys2Proof.Machine.execStore index s
  | .cfgWrite addr d => Sys2Proof.Machine.execCfgWrite addr d s
  | .cfgRead addr => Sys2Proof.Machine.execCfgRead addr s
  | .reset => Sys2Proof.Machine.execReset s
  | .noteOnEx p note velocity => Sys2Proof.Machine.execNoteOnEx p note velocity s
  | .hostUnknown frame => Sys2Proof.Machine.execHostUnknown frame s

end Sys2Proof.Machine
end

