-- ==== Sys2Proof/Machine/Fetch.lean ====
section
/-! DEFINITION. Taking the next input, which stands in the place of a fetch (10_state.md R51, 47_engine.md R474; log 2). -/

namespace Sys2Proof.Machine

/-- The next input in arrival order, and the state with it taken; none where nothing has arrived. -/
def State.nextInput (s : State) : Option (Input × State) :=
  match s.inbox with
  | [] => none
  | m :: rest => some (m, s.accept rest)

/-- The block performs an operation: any, but only RESET while it is faulted (60_exceptions.md R528). -/
def State.performs (s : State) (i : Instr) : Bool := !s.isStuck || i == .reset

/-- The state with `m` first among the inputs that wait. -/
def State.arriveFirst (s : State) (m : Input) : State := { s with inbox := m :: s.inbox }

end Sys2Proof.Machine
end

