-- ==== Sys2Proof/Machine/Step.lean ====
section
/-! DEFINITION. One step: the next input that has arrived is decoded and performed (00_scope.md R5, R6). -/

namespace Sys2Proof.Machine

/-- One step. With no input the state does not change (60_exceptions.md R534). A faulted block performs
nothing but RESET (R528). -/
def step (s : State) : Host.Outcome State Fault Refusal :=
  match s.nextInput with
  | none => .next s
  | some (m, t) => if t.performs (decode m) then exec (decode m) t else .next t.stayStuck

/-- The state with the bits `w` of an opcode-table row as the next input to arrive (log 10). -/
def State.withFetchWord (s : State) (nbits w : Nat) : State := s.arriveFirst (tableInput nbits w)

end Sys2Proof.Machine
end

