-- ==== Sys2Proof/Safety.lean ====
section
/-! DEFINITION. What a safe run of synth-core is: no model fault (60_exceptions.md R528), and every value in the range its rule gives (10_state.md R31 to R43, 45_voice.md R367). -/

namespace Sys2Proof.Machine

/-! ## Ranges -/

/-- `lo ≤ x ≤ hi`, which no NaN meets. -/
def inRangeF32 (x lo hi : F32) : Prop := F32.le lo x = true ∧ F32.le x hi = true

/-- The six fields of an envelope are in range (10_state.md R31). -/
def Envelope.legal (e : Envelope) : Prop :=
  inRangeF32 e.delay F32.zero Config.envTimeMax ∧ inRangeF32 e.attack F32.zero Config.envTimeMax ∧
  inRangeF32 e.peak F32.zero F32.one ∧ inRangeF32 e.decay F32.zero Config.envTimeMax ∧
  inRangeF32 e.sustain F32.zero F32.one ∧ inRangeF32 e.release F32.zero Config.envTimeMax

/-- The four envelopes of a set that the record carries are in range, and MOD has its reset value
(44_patch_record.md R323, R326). -/
def EnvSet.legal (s : EnvSet) : Prop :=
  s.volume.legal ∧ s.pitch.legal ∧ s.filter.legal ∧ s.pwm.legal ∧ s.mod = Envelope.zero

/-- An oscillator's fields are in range (10_state.md R34). -/
def Oscillator.legal (o : Oscillator) : Prop :=
  inRangeF32 o.duty F32.zero F32.one ∧ inRangeF32 o.detune 0xBF800000#32 F32.one ∧
  o.env.legal ∧ o.lfoEnv.legal

/-- A patch's fields are in range (10_state.md R36). -/
def Patch.legal (p : Patch) : Prop :=
  p.name.length ≤ Config.nameMax ∧ (0 : Byte) ∉ p.name ∧
  inRangeF32 p.mixLevel F32.zero F32.one ∧ p.osc0.legal ∧ p.osc1.legal ∧
  inRangeF32 p.lfoFreq F32.zero Config.lfoFreqMax ∧ inRangeF32 p.lfoDepth F32.zero F32.one

/-- The least bend ratio, that of bend 0 (47_engine.md R461). -/
def bendLeast : F32 := 0x3F6411F0#32

/-- The greatest bend ratio, that of bend 16383 (47_engine.md R461). -/
def bendGreatest : F32 := 0x3F8FAC51#32

/-- 2^47 ms: an elapsed time stops growing below it, since a FILL adds at most 4096000 ms
(45_voice.md R367). -/
def elapsedMax : F32 := 0x57000000#32

/-- 13000.0 Hz, above the frequency of note 127 at full detune (45_voice.md R362). -/
def freqMax : F32 := 0x464B2000#32

/-! ## The parts of a legal state -/

/-- Nothing is known of a faulted block; of any other every part below holds. -/
def State.safe (s : State) : Prop := s.fault = none

/-- The sample memories are in canonical form, and the noise ROM holds what reset generated
(20_memory.md R100, R111; 10_state.md R44). -/
def State.memoryLegal (s : State) : Prop :=
  s.safe → s.reverb.buf.wf reverbDefault Config.reverbLen = true ∧ s.noise = []

/-- Every patch is legal. -/
def State.patchesLegal (s : State) : Prop :=
  s.safe → s.work.legal ∧ ∀ i : Fin 32, (s.bank[i]).legal

/-- Every register is in the range of 10_state.md R41 to R43. -/
def State.registersLegal (s : State) : Prop :=
  s.safe →
    inRangeF32 s.mixer.masterVolume F32.zero F32.one ∧
    (inRangeF32 s.mixer.lfoPhase F32.zero (F32.ofNat Config.noiseLen) ∧
      F32.lt s.mixer.lfoPhase (F32.ofNat Config.noiseLen) = true) ∧
    inRangeF32 s.mixer.bendCur bendLeast bendGreatest ∧
    inRangeF32 s.mixer.bendTarget bendLeast bendGreatest ∧
    inRangeF32 s.filter.cutoff F32.zero cutoffMax ∧
    inRangeF32 s.filter.resonance F32.zero F32.one ∧
    inRangeF32 s.reverb.delayMs F32.zero Config.envTimeMax ∧
    inRangeF32 s.reverb.decay F32.zero decayMax ∧
    inRangeF32 s.reverb.mix F32.zero F32.one

/-- A voice meets 45_voice.md R367: an active one has a table, a phase inside it, a note, and a volume,
an elapsed time and a frequency in range; an inactive one has no note. -/
def Voice.legal (v : Voice) : Prop :=
  (v.active = true →
    v.cachedType ≠ .none ∧
    (F32.le F32.zero v.phase = true ∧ F32.lt v.phase (F32.ofNat v.cachedType.len) = true) ∧
    v.note.isSome = true ∧
    inRangeF32 v.volume F32.zero F32.one ∧
    inRangeF32 v.elapsed F32.zero elapsedMax ∧
    (F32.lt F32.zero v.freq = true ∧ F32.le v.freq freqMax = true)) ∧
  (v.active = false → v.note = none)

/-- Every voice is legal. -/
def State.voicesLegal (s : State) : Prop := s.safe → ∀ v : Fin 32, (s.voices[v]).legal

/-- A legal state. -/
structure State.Legal (s : State) : Prop where
  memory : s.memoryLegal
  patches : s.patchesLegal
  registers : s.registersLegal
  voices : s.voicesLegal

end Sys2Proof.Machine
end

