-- ==== Sys2Proof/Certificates/Slice0/Obligations.lean ====
section
/-! DEFINITION. The statements for the provers: rules of spec/ about the model. The words they are said in stand in the namespace Sys2Proof.Claims, written from the rules and apart from the definitions they are compared with. -/

set_option autoImplicit false

namespace Sys2Proof.Claims

open Sys2Proof Sys2Proof.Machine

/-! ## Binary32 (00_scope.md R9, R10): sign, exponent and fraction -/

/-- The biased exponent of a pattern. -/
def exponent (x : F32) : Nat := (x.extractLsb' 23 8).toNat

/-- The fraction of a pattern. -/
def fraction (x : F32) : Nat := (x.extractLsb' 0 23).toNat

/-- The sign bit of a pattern. -/
def negative (x : F32) : Bool := x.getLsbD 31

/-- The pattern stands for a number. -/
abbrev finite (x : F32) : Prop := exponent x ≠ 255

/-- The pattern is a NaN. -/
abbrev nan (x : F32) : Prop := exponent x = 255 ∧ fraction x ≠ 0

/-- The number a finite pattern stands for. -/
def val (x : F32) : ℚ :=
  (if negative x then -1 else 1) *
    (if exponent x = 0 then (fraction x : ℚ) * 2 ^ (-149 : ℤ)
     else ((fraction x : ℚ) + 2 ^ 23) * 2 ^ ((exponent x : ℤ) - 150))

/-- `z` is the binary32 value nearest the real number `r`, ties to even, an infinity from the overflow
threshold on (IEEE 754; 00_scope.md R10, R11). -/
def RoundsTo (z : F32) (r : ℝ) : Prop :=
  if |r| < 2 ^ 128 - 2 ^ 103 then
    finite z ∧ ∀ w : F32, finite w →
      |(val z : ℝ) - r| < |(val w : ℝ) - r| ∨
      (|(val z : ℝ) - r| = |(val w : ℝ) - r| ∧ (val w = val z ∨ z.getLsbD 0 = false))
  else z = if 0 < r then 0x7F800000#32 else 0xFF800000#32

/-- `z` is the binary32 value nearest a number within 2^-600 of `r` (00_scope.md R11; that the nearest of `r`
itself is meant can fail only where `r` is that close to the middle of two neighbours, log 6). -/
def RoundsNear (z : F32) (r : ℝ) : Prop := ∃ r' : ℝ, |r' - r| ≤ 2 ^ (-600 : ℤ) ∧ RoundsTo z r'

/-- The integer part toward zero. -/
def truncate (q : ℚ) : ℤ := if 0 ≤ q then ⌊q⌋ else ⌈q⌉

/-! ## Decode events (60_exceptions.md R523) -/

/-- The event R523 gives a control message. -/
def controlEvent (b : List Byte) : Option Event :=
  match b[0]? with
  | none => some .msgTooShort
  | some b0 =>
    let high := b0.toNat / 16
    if b0.toNat < 0x80 ∨ high = 0xA ∨ high = 0xD ∨ 0xF1 ≤ b0.toNat then some .msgUnknown
    else if high = 0xB then
      match b[1]? with
      | none => some .msgTooShort
      | some b1 =>
        if b1.toNat % 128 ∉ [1, 74, 91, 0] then some .msgUnknown
        else if b.length < 3 then some .msgTooShort
        else none
    else if high = 0xF then
      match b[1]? with
      | none => some .msgTooShort
      | some b1 =>
        if b1.toNat ≠ 1 ∧ b1.toNat ≠ 2 then some .msgUnknown
        else if b.length < 6 then some .msgTooShort
        else if b1.toNat = 2 ∧
            b.length < 6 + ((b.getD 4 0).toNat % 128 + 128 * ((b.getD 5 0).toNat % 128)) then
          some .msgTooShort
        else none
    else if b.length < (if high = 0x8 ∨ high = 0xC then 2 else 3) then some .msgTooShort
    else none

/-- The least length of a host frame by its opcode, none for an unassigned one
(30_encoding.md R160, R161). -/
def hostLeast (b0 : Nat) : Option Nat :=
  [none, some 7, some 5, some 2, some 6, some 2, some 1, some 4].getD b0 none

/-- The event R523 gives a host frame. -/
def hostEvent (b : List Byte) : Option Event :=
  match b[0]? with
  | none => some .hostFrameBad
  | some b0 =>
    match hostLeast b0.toNat with
    | none => some .hostFrameBad
    | some least => if b.length < least then some .hostFrameBad else none

/-- The event R523 gives an input. -/
def inputEvent : Input → Option Event
  | .control b => controlEvent b
  | .host b => hostEvent b

/-- The instruction is one of the rows that perform nothing but a decode event. -/
def performsNothing : Instr → Bool
  | .ccOther _ | .ctrlUnknown _ | .msgTooShort _ | .hostUnknown _ => true
  | .noteOff _ | .noteOn _ _ | .ccCutoff _ _ | .ccReverb _ | .ccPatch _ | .patchSelect _ | .pitchBend _
  | .bulkRequest _ _ | .bulkDeliver _ _ | .fill _ _ | .update _ | .store _ | .cfgWrite _ _ | .cfgRead _
  | .reset | .noteOnEx _ _ _ => false

/-! ## Reset (70_reset_and_hazards.md R560) -/

/-- An envelope of the default patch that is all zero (10_state.md R47). -/
def zeroEnv : Envelope := ⟨0#32, 0#32, 0#32, 0#32, 0#32, 0#32⟩

/-- DEFAULT_PATCH (10_state.md R47). -/
def defaultPatch : Patch where
  name := []
  mixLevel := 0x3F800000#32
  osc0 := {
    waveType := .square, duty := 0x3F000000#32, detune := 0#32
    env := ⟨⟨0#32, 0#32, 0x3F800000#32, 0#32, 0x3F800000#32, 0#32⟩, zeroEnv, zeroEnv, zeroEnv, zeroEnv⟩
    lfoEnv := ⟨zeroEnv, zeroEnv, zeroEnv, zeroEnv, zeroEnv⟩ }
  osc1 := {
    waveType := .none, duty := 0x3F000000#32, detune := 0#32
    env := ⟨⟨0#32, 0#32, 0x3F800000#32, 0#32, 0x3F800000#32, 0#32⟩, zeroEnv, zeroEnv, zeroEnv, zeroEnv⟩
    lfoEnv := ⟨zeroEnv, zeroEnv, zeroEnv, zeroEnv, zeroEnv⟩ }
  mod0 := ⟨2, 1⟩
  mod1 := ⟨0, 3⟩
  lfoWave := .sine
  lfoFreq := 0#32
  lfoDepth := 0#32

/-- The state of the noise generator after `n` steps (41_waveform.md R236). -/
def noiseState (n : Nat) : Nat := (fun s => (8253729 * s + 2396403) % 32767)^[n] 5323

/-- `NOISE[n]` (41_waveform.md R236). -/
def noiseSample (n : Nat) : F32 :=
  F32.sub (F32.div (F32.ofNat (2 * noiseState (n + 1))) (F32.ofNat 32767)) (F32.ofNat 1)

/-- The state R560 establishes. -/
def IsResetState (t : State) : Prop :=
  (∀ i : Fin 32, t.bank[i] = defaultPatch) ∧ t.work = defaultPatch ∧ t.cur = 0 ∧
  (∀ v : Fin 32, t.voices[v] = ⟨false, ⟨.work, .osc0⟩, .none, 0#32, 0#32, 0#32, 0#32, false, none⟩) ∧
  t.mixer = ⟨0x3F800000#32, 0#32, 0x3F800000#32, 0x3F800000#32⟩ ∧
  t.filter = ⟨.moog, 0x469C4000#32, 0#32, 0#32, 0#32, 0#32, 0#32, 0#32, 0#32⟩ ∧
  (∀ a : Nat, a < 480000 → t.reverb.buf.read reverbDefault a = 0#32) ∧
  t.reverb.wp = 0 ∧ t.reverb.delayMs = 0x42C80000#32 ∧ t.reverb.decay = 0x3F000000#32 ∧
  t.reverb.mix = 0#32 ∧
  (∀ n : Nat, n < 480000 → t.noise.read noiseDefault n = noiseSample n) ∧
  t.diag = ⟨0#32, 0#32, 0#32, 0#32, 0#32⟩ ∧ t.fault = none

/-- The word CFG_READ gives for an address after reset (70_reset_and_hazards.md R562). -/
def resetWord (addr : Byte) : Word :=
  if addr = 0x00 ∨ addr = 0x08 ∨ addr = 0x09 then 0x3F800000#32
  else if addr = 0x01 then 1#32
  else if addr = 0x02 then 0x469C4000#32
  else if addr = 0x04 then 0x42C80000#32
  else if addr = 0x05 then 0x3F000000#32
  else if 0x20 ≤ addr.toNat ∧ addr.toNat < 0x40 then 0x7E00FF00#32
  else if 0x40 ≤ addr.toNat ∧ addr.toNat < 0x60 then 0xBF800000#32
  else 0#32

/-- Byte `k` of `Pack(DEFAULT_PATCH)` (44_patch_record.md R331). -/
def defaultRecordByte (k : Nat) : Byte :=
  if k ∈ [20, 28, 30, 80, 82] then 0x7F
  else if k ∈ [23, 24, 75, 76] then 0x40
  else if k ∈ [22, 147] then 0x01
  else if k = 126 then 0x05
  else if k = 146 then 0x02
  else if k = 151 then 0x03
  else 0

/-! ## Notes (45_voice.md R362, 47_engine.md R451) -/

/-- The frequency of a note-on: equal temperament, then the detune (45_voice.md R362). -/
def startFreq (note : BitVec 7) (detune : F32) : F32 :=
  let f := F32.mul (F32.ofNat 440) (Numerics.exp2Frac ((note.toNat : ℤ) - 69) 12)
  F32.add f (F32.mul (F32.mul f detune) 0x3C23D70A#32)

/-- `t` is `s` after the body of R451 for oscillator `k`: nothing for a NONE oscillator; the event where every
voice is active; else the lowest inactive voice starts, with any draw where none waits on the port. -/
def Starts (sel : Sel) (k : OscIndex) (note : BitVec 7) (volume : F32) (s t : State) : Prop :=
  let o := (s.patch sel).osc k
  (o.waveType = .none ∧ t = s) ∨
  (o.waveType ≠ .none ∧ (∀ v : Fin 32, (s.voices[v]).active = true) ∧
    t = { s with diag := { s.diag with dropCount := s.diag.dropCount + 1, lastEvent := 4 } }) ∨
  (o.waveType ≠ .none ∧ ∃ (v : Fin 32) (draw : BitVec 4),
    (s.voices[v]).active = false ∧ (∀ w : Fin 32, w < v → (s.voices[w]).active = true) ∧
    (∀ d ds, s.draws = d :: ds → draw = d) ∧
    t = { s with
      voices := s.voices.set v {
        active := true, oscRef := ⟨sel, k⟩, cachedType := o.waveType, phase := F32.ofNat draw.toNat
        freq := startFreq note o.detune, volume := F32.mul volume (s.patch sel).mixLevel
        elapsed := 0#32, released := false, note := some note }
      draws := s.draws.tail, fresh := t.fresh })

/-- Velocity as volume (30_encoding.md R143). -/
def velocityVolume (velocity : BitVec 7) : F32 := F32.div (F32.ofNat velocity.toNat) (F32.ofNat 127)

/-- `EngineNoteOn` with a volume that is no note-off: osc1 first, then osc2 (47_engine.md R451). -/
def StartsBoth (sel : Sel) (note : BitVec 7) (volume : F32) (s t : State) : Prop :=
  ∃ u, Starts sel .osc0 note volume s u ∧ Starts sel .osc1 note volume u t

/-- One event on the diagnostic registers (60_exceptions.md R521, R522). -/
def ignored (code : Word) (d : Diag) : Diag :=
  { d with ignoredCount := d.ignoredCount + 1, lastEvent := code }

/-- The number of oscillators of a patch that are not NONE. -/
def soundingOscillators (p : Patch) : Nat :=
  (if p.osc0.waveType = .none then 0 else 1) + (if p.osc1.waveType = .none then 0 else 1)

/-! ## Write sets (47_engine.md R475) -/

/-- The parts of the state R475 tells apart. -/
inductive Part where
  | bank | work | cur
  | vActive | vNote | vReleased | vElapsed | vPhase | vRest
  | masterVolume | lfoPhase | bendCur | bendTarget
  | filterKind | cutoff | resonance | filterState
  | reverbBuf | reverbWp | delayMs | decay | mix
  | noise | dropCount | ignoredCount | clipCount | unpackStopCount | lastEvent
  | portA | portR | portD | draws | arrivals
  deriving DecidableEq, Repr

/-- Two states agree on a part. -/
def Part.same : Part → State → State → Prop
  | .bank, s, t => s.bank = t.bank
  | .work, s, t => s.work = t.work
  | .cur, s, t => s.cur = t.cur
  | .vActive, s, t => ∀ v : Fin 32, (s.voices[v]).active = (t.voices[v]).active
  | .vNote, s, t => ∀ v : Fin 32, (s.voices[v]).note = (t.voices[v]).note
  | .vReleased, s, t => ∀ v : Fin 32, (s.voices[v]).released = (t.voices[v]).released
  | .vElapsed, s, t => ∀ v : Fin 32, (s.voices[v]).elapsed = (t.voices[v]).elapsed
  | .vPhase, s, t => ∀ v : Fin 32, (s.voices[v]).phase = (t.voices[v]).phase
  | .vRest, s, t => ∀ v : Fin 32,
      (s.voices[v]).oscRef = (t.voices[v]).oscRef ∧ (s.voices[v]).cachedType = (t.voices[v]).cachedType ∧
      (s.voices[v]).freq = (t.voices[v]).freq ∧ (s.voices[v]).volume = (t.voices[v]).volume
  | .masterVolume, s, t => s.mixer.masterVolume = t.mixer.masterVolume
  | .lfoPhase, s, t => s.mixer.lfoPhase = t.mixer.lfoPhase
  | .bendCur, s, t => s.mixer.bendCur = t.mixer.bendCur
  | .bendTarget, s, t => s.mixer.bendTarget = t.mixer.bendTarget
  | .filterKind, s, t => s.filter.kind = t.filter.kind
  | .cutoff, s, t => s.filter.cutoff = t.filter.cutoff
  | .resonance, s, t => s.filter.resonance = t.filter.resonance
  | .filterState, s, t =>
      s.filter.prev = t.filter.prev ∧ s.filter.x1 = t.filter.x1 ∧ s.filter.y1 = t.filter.y1 ∧
      s.filter.y2 = t.filter.y2 ∧ s.filter.y3 = t.filter.y3 ∧ s.filter.y4 = t.filter.y4
  | .reverbBuf, s, t => s.reverb.buf = t.reverb.buf
  | .reverbWp, s, t => s.reverb.wp = t.reverb.wp
  | .delayMs, s, t => s.reverb.delayMs = t.reverb.delayMs
  | .decay, s, t => s.reverb.decay = t.reverb.decay
  | .mix, s, t => s.reverb.mix = t.reverb.mix
  | .noise, s, t => s.noise = t.noise
  | .dropCount, s, t => s.diag.dropCount = t.diag.dropCount
  | .ignoredCount, s, t => s.diag.ignoredCount = t.diag.ignoredCount
  | .clipCount, s, t => s.diag.clipCount = t.diag.clipCount
  | .unpackStopCount, s, t => s.diag.unpackStopCount = t.diag.unpackStopCount
  | .lastEvent, s, t => s.diag.lastEvent = t.diag.lastEvent
  | .portA, s, t => s.portA = t.portA
  | .portR, s, t => s.portR = t.portR
  | .portD, s, t => s.portD = t.portD
  | .draws, s, t => s.draws = t.draws
  | .arrivals, s, t => s.inbox = t.inbox ∧ s.position = t.position

/-- The parts R475 lets an operation write; none for RESET, which R475 lets write everything and which
is left to the statement about it. -/
def mayWrite : Instr → Option (List Part)
  | .noteOff _ => some [.vReleased, .vElapsed]
  | .noteOn _ _ => some
      [.vActive, .vNote, .vReleased, .vElapsed, .vPhase, .vRest, .draws, .dropCount, .lastEvent]
  | .noteOnEx _ _ _ => some
      [.vActive, .vNote, .vReleased, .vElapsed, .vPhase, .vRest, .draws, .dropCount, .ignoredCount,
       .lastEvent]
  | .ccCutoff _ _ => some [.cutoff]
  | .ccReverb _ => some [.mix]
  | .ccPatch _ => some [.work, .cur, .ignoredCount, .lastEvent]
  | .patchSelect _ => some [.work, .cur, .ignoredCount, .lastEvent]
  | .ccOther _ => some [.ignoredCount, .lastEvent]
  | .ctrlUnknown _ => some [.ignoredCount, .lastEvent]
  | .pitchBend _ => some [.bendTarget]
  | .bulkRequest _ _ => some [.portR, .ignoredCount, .lastEvent]
  | .bulkDeliver _ _ => some [.work, .ignoredCount, .unpackStopCount, .lastEvent]
  | .fill _ _ => some
      [.vPhase, .vElapsed, .bendCur, .lfoPhase, .reverbBuf, .reverbWp, .filterState, .portA, .clipCount,
       .lastEvent]
  | .update _ => some [.vActive, .vNote]
  | .store _ => some [.bank, .ignoredCount, .lastEvent]
  | .cfgWrite addr _ => some
      ((if addr = 0x00 then [.masterVolume]
        else if addr = 0x01 then [.filterKind]
        else if addr = 0x02 then [.cutoff]
        else if addr = 0x03 then [.resonance]
        else if addr = 0x04 then [.delayMs]
        else if addr = 0x05 then [.decay]
        else if addr = 0x06 then [.mix]
        else []) ++ [.ignoredCount, .lastEvent])
  | .cfgRead _ => some [.portD]
  | .reset => none
  | .msgTooShort _ => some [.ignoredCount, .lastEvent]
  | .hostUnknown _ => some [.ignoredCount, .lastEvent]

/-! ## The register map (10_state.md R48, R49) -/

/-- The range of an F32 register that CFG_WRITE may write. -/
def f32Range (addr : Byte) : Option (F32 × F32) :=
  if addr = 0x00 ∨ addr = 0x03 ∨ addr = 0x06 then some (0#32, 0x3F800000#32)
  else if addr = 0x02 then some (0#32, 0x47BB8000#32)
  else if addr = 0x04 then some (0#32, 0x461C4000#32)
  else if addr = 0x05 then some (0#32, 0x3F7FFFFF#32)
  else none

/-- The state with an F32 register set. -/
def withF32 (addr : Byte) (y : F32) (s : State) : State :=
  match addr.toNat with
  | 0 => { s with mixer := { s.mixer with masterVolume := y } }
  | 2 => { s with filter := { s.filter with cutoff := y } }
  | 3 => { s with filter := { s.filter with resonance := y } }
  | 4 => { s with reverb := { s.reverb with delayMs := y } }
  | 5 => { s with reverb := { s.reverb with decay := y } }
  | 6 => { s with reverb := { s.reverb with mix := y } }
  | _ => s

/-- The word of a global register (10_state.md R48). -/
def globalWord (addr : Nat) (s : State) : Word :=
  match addr with
  | 0x00 => s.mixer.masterVolume
  | 0x01 => if s.filter.kind = .moog then 1 else 0
  | 0x02 => s.filter.cutoff
  | 0x03 => s.filter.resonance
  | 0x04 => s.reverb.delayMs
  | 0x05 => s.reverb.decay
  | 0x06 => s.reverb.mix
  | 0x08 => s.mixer.bendTarget
  | 0x09 => s.mixer.bendCur
  | 0x0A => s.mixer.lfoPhase
  | 0x0B => BitVec.ofNat 32 s.cur.val
  | 0x0C => BitVec.ofNat 32 ((Finset.univ : Finset (Fin 32)).filter fun v => (s.voices[v]).active).card
  | 0x10 => s.diag.dropCount
  | 0x11 => s.diag.ignoredCount
  | 0x12 => s.diag.clipCount
  | 0x13 => s.diag.unpackStopCount
  | 0x14 => s.diag.lastEvent
  | _ => 0

/-! ## The record (44_patch_record.md R320, R330) -/

/-- The envelope of a set at index `j` of 10_state.md R33, for the four the record carries. -/
def envOf (e : EnvSet) (j : Nat) : Envelope :=
  match j with
  | 0 => e.volume
  | 1 => e.pitch
  | 2 => e.filter
  | _ => e.pwm

/-- Byte `f` of a packed envelope (40_envelope.md R208). -/
def envByte (e : Envelope) (f : Nat) : Byte :=
  match f with
  | 0 => encTime e.delay 0x461C4000#32
  | 1 => encTime e.attack 0x461C4000#32
  | 2 => encFrac e.peak
  | 3 => encTime e.decay 0x461C4000#32
  | 4 => encFrac e.sustain
  | _ => encTime e.release 0x461C4000#32

/-- The bytes of an oscillator block of the record `B` from `base` on (20_memory.md R103). -/
def OscBytes (B : List Byte) (base : Nat) (o : Oscillator) : Prop :=
  B[base]? = some o.waveType.code ∧ B[base + 1]? = some (encFrac o.duty) ∧
  B[base + 2]? = some (encFrac (F32.div (F32.add o.detune 0x3F800000#32) 0x40000000#32)) ∧
  B[base + 3]? = some 0 ∧
  ∀ j f : Nat, j < 4 → f < 6 →
    B[base + 4 + 6 * j + f]? = some (envByte (envOf o.env j) f) ∧
    B[base + 28 + 6 * j + f]? = some (envByte (envOf o.lfoEnv j) f)

/-- The start and the length of each sub-block, with the block (44_patch_record.md R320). -/
def blocks : List (Block × Nat × Nat) :=
  [(.name, 0, 20), (.mix, 20, 2), (.osc1, 22, 52), (.osc2, 74, 52), (.lfo, 126, 20), (.mod1, 146, 4),
   (.mod2, 150, 4)]

/-- The blocks a deliver of `size` bytes at `a` covers whole, where `a` is a sub-block start; none where it is
not (20_memory.md R106, 44_patch_record.md R332). -/
def covered (a size : Nat) : List (Block × Nat × Nat) :=
  if a ∈ blocks.map (·.2.1) then blocks.filter fun b => a ≤ b.2.1 ∧ b.2.1 + b.2.2 ≤ a + size else []

/-- The envelope of six bytes (40_envelope.md R208). -/
def envFrom (c : List Byte) (i : Nat) : Envelope where
  delay := decTime (c.getD i 0) 0x461C4000#32
  attack := decTime (c.getD (i + 1) 0) 0x461C4000#32
  peak := decFrac (c.getD (i + 2) 0)
  decay := decTime (c.getD (i + 3) 0) 0x461C4000#32
  sustain := decFrac (c.getD (i + 4) 0)
  release := decTime (c.getD (i + 5) 0) 0x461C4000#32

/-- The oscillator of a block, its MOD envelopes kept (44_patch_record.md R326, R333). -/
def oscFrom (o : Oscillator) (c : List Byte) : Oscillator where
  waveType := ([.none, .square, .saw1, .saw2, .triangle, .sine, .noise, .custom] : List Wave).getD
    (c.getD 0 0).toNat .none
  duty := decFrac (c.getD 1 0)
  detune := F32.sub (F32.mul 0x40000000#32 (decFrac (c.getD 2 0))) 0x3F800000#32
  env := ⟨envFrom c 4, envFrom c 10, envFrom c 16, envFrom c 22, o.env.mod⟩
  lfoEnv := ⟨envFrom c 28, envFrom c 34, envFrom c 40, envFrom c 46, o.lfoEnv.mod⟩

/-! ## Rendering (46_mixer.md R407 to R411) -/

/-- `vol` of R408 with the levels of R407. -/
def vol (s : State) (lfo : F32) (v : Voice) : F32 :=
  let o := s.osc v.oscRef
  F32.add
    (F32.mul (F32.mul s.mixer.masterVolume v.volume) (o.env.volume.level v.elapsed v.released))
    (F32.mul lfo (o.lfoEnv.volume.level v.elapsed v.released))

/-- `inc` of R409, with the bend ratio of R405. -/
def inc (s : State) (sr : Nat) (lfo : F32) (v : Voice) : F32 :=
  let o := s.osc v.oscRef
  let bend := F32.add s.mixer.bendCur
    (F32.mul 0x3E99999A#32 (F32.sub s.mixer.bendTarget s.mixer.bendCur))
  let outF := F32.mul
    (F32.mul (F32.div v.freq (F32.ofNat sr))
      (F32.add (F32.add (F32.ofNat 1) (o.env.pitch.level v.elapsed v.released))
        (F32.mul lfo (o.lfoEnv.pitch.level v.elapsed v.released))))
    bend
  F32.mul outF (F32.ofNat v.cachedType.len)

/-- `LfoLevel()` of R403. -/
def lfo (s : State) : F32 :=
  if s.work.lfoWave = .none then F32.ofNat 0
  else
    F32.mul s.work.lfoDepth
      (tableRead s.noise s.work.lfoWave
        ((F32.floor s.mixer.lfoPhase % (s.work.lfoWave.len : ℤ)).toNat))

/-- The phase of a voice after `n` advances (46_mixer.md R410, R412). -/
def phaseAt (s : State) (sr : Nat) (v : Voice) (n : Nat) : F32 :=
  (fun ph => F32.fmod (F32.add ph (inc s sr (lfo s) v)) (F32.ofNat v.cachedType.len))^[n] v.phase

/-- What an active voice adds to `mix[i]` (46_mixer.md R410). -/
def contribution (s : State) (sr : Nat) (v : Voice) (i : Nat) : F32 :=
  F32.mul (vol s (lfo s) v)
    (tableRead s.noise v.cachedType
      (warp (F32.floor (phaseAt s sr v (i + 1))) (s.osc v.oscRef).duty v.cachedType.len))

/-- `bufMs` of R402. -/
def bufferMs (n sr : Nat) : F32 := F32.div (F32.mul (F32.ofNat 1000) (F32.ofNat n)) (F32.ofNat sr)

/-- A sample the last step of a FILL saturates or counts as a NaN (46_mixer.md R421). -/
abbrev Saturates (x : F32) : Prop :=
  ¬ finite x ∨ truncate (val x) < -32768 ∨ 32767 < truncate (val x)

/-! ## The output filter (42_filter.md R261 to R266) -/

/-- `fc` (42_filter.md R261). -/
def cutoff (f : Filter) (sr : Nat) : F32 := F32.clamp f.cutoff 0#32 (F32.div (F32.ofNat sr) (F32.ofNat 2))

/-- `k` of the one-pole (42_filter.md R262). -/
def onePoleCoefficient (f : Filter) (sr : Nat) : F32 := Numerics.expMinusTwoPi (cutoff f sr) sr

/-- `k` of the ladder (42_filter.md R265), with 3.6 and 1.6 the nearest binary32 values. -/
def ladderK (f : Filter) (sr : Nat) : F32 :=
  let fr := F32.div (F32.mul (F32.ofNat 2) (cutoff f sr)) (F32.ofNat sr)
  F32.sub (F32.sub (F32.mul 0x40666666#32 fr) (F32.mul (F32.mul 0x3FCCCCCD#32 fr) fr)) (F32.ofNat 1)

/-- `p` of the ladder (42_filter.md R265). -/
def ladderP (f : Filter) (sr : Nat) : F32 := F32.mul (F32.add (ladderK f sr) (F32.ofNat 1)) 0x3F000000#32

/-- `r` of the ladder (42_filter.md R265), with 1.386249 the nearest binary32 value. -/
def ladderR (f : Filter) (sr : Nat) : F32 :=
  F32.mul (F32.mul f.resonance (Numerics.expF32 (F32.sub (F32.ofNat 1) (ladderP f sr)))) 0x3FB1709B#32

/-- One stage of the ladder: `((p * new) + (p * old)) - (k * y)` (42_filter.md R266). -/
def stage (f : Filter) (sr : Nat) (new old y : F32) : F32 :=
  F32.sub (F32.add (F32.mul (ladderP f sr) new) (F32.mul (ladderP f sr) old)) (F32.mul (ladderK f sr) y)

/-- A legal FILL (46_mixer.md R400). -/
abbrev LegalFill (n : BitVec 16) (sr : Word) : Prop :=
  1 ≤ sr.toNat ∧ sr.toNat ≤ 192000 ∧ n.toNat ≤ 4096

end Sys2Proof.Claims

open Sys2Proof Sys2Proof.Machine Sys2Proof.Claims

/-! # Encoding and decoding -/

/-- Words written out from 30_encoding.md R142 and R160 decode to the instructions they stand for. -/
def Obligations.DecodeSampleWords : Prop :=
  decode (.control [0x83, 0x3C]) = .noteOff 60 ∧
  decode (.control [0x90, 0x45, 0x7F]) = .noteOn 69 127 ∧
  decode (.control [0xB2, 0x4A, 0x40]) = .ccCutoff 74 64 ∧
  decode (.control [0xE0, 0x00, 0x40]) = .pitchBend 8192 ∧
  decode (.control [0xF0, 0x01, 0x14, 0x00, 0x02, 0x00]) = .bulkRequest 20 2 ∧
  decode (.control [0xF0, 0x02, 0x12, 0x01, 0x02, 0x00, 0xFE, 0x01]) = .bulkDeliver 146 [0xFE, 0x01] ∧
  decode (.host [0x01, 0xE0, 0x01, 0x80, 0xBB, 0x00, 0x00]) = .fill 480 48000 ∧
  decode (.host [0x04, 0x05, 0x00, 0x00, 0x80, 0x3F]) = .cfgWrite 0x05 0x3F800000#32 ∧
  decode (.host [0x07, 0xFF, 0x3C, 0x64]) = .noteOnEx 0xFF 60 100 ∧
  decode (.host [0x08]) = .hostUnknown [0x08]

/-- Decoding the encoding of a well-formed instruction, on any channel, gives it back (30_encoding.md R142,
R143, R160, R164). The encoding is the shortest input, which is the model's choice (log 11). -/
def Obligations.DecodeEncodeRoundTrip : Prop :=
  ∀ (channel : BitVec 4) (i : Instr), i.wf = true → decode (encodeOn channel i) = i

/-- Every input decodes to a well-formed instruction (30_encoding.md R162). -/
def Obligations.DecodeGivesWellFormed : Prop := ∀ m : Input, (decode m).wf = true

/-- Operand assembly of control messages and host frames, bytes past the listed ones being ignored
(30_encoding.md R142, R143, R160). -/
def Obligations.DecodeAssemblesOperands : Prop :=
  ∀ (c : BitVec 4) (b1 b2 b3 b4 b5 b6 : Byte) (rest : List Byte),
    let low7 (b : Byte) : BitVec 7 := BitVec.ofNat 7 (b.toNat % 128)
    let pair (lo hi : Byte) : BitVec 14 := BitVec.ofNat 14 (lo.toNat % 128 + 128 * (hi.toNat % 128))
    let word (w x y z : Byte) : Word :=
      BitVec.ofNat 32 (w.toNat + 2 ^ 8 * x.toNat + 2 ^ 16 * y.toNat + 2 ^ 24 * z.toNat)
    decode (.control ((0x8#4 ++ c) :: b1 :: rest)) = .noteOff (low7 b1) ∧
    decode (.control ((0x9#4 ++ c) :: b1 :: b2 :: rest)) = .noteOn (low7 b1) (low7 b2) ∧
    decode (.control ((0xB#4 ++ c) :: b1 :: b2 :: rest)) =
      (if b1.toNat % 128 = 1 ∨ b1.toNat % 128 = 74 then .ccCutoff (low7 b1) (low7 b2)
       else if b1.toNat % 128 = 91 then .ccReverb (low7 b2)
       else if b1.toNat % 128 = 0 then .ccPatch (low7 b2)
       else .ccOther (low7 b1)) ∧
    decode (.control ((0xC#4 ++ c) :: b1 :: rest)) = .patchSelect (low7 b1) ∧
    decode (.control ((0xE#4 ++ c) :: b1 :: b2 :: rest)) = .pitchBend (pair b1 b2) ∧
    decode (.control (0xF0 :: 0x01 :: b2 :: b3 :: b4 :: b5 :: rest)) =
      .bulkRequest (pair b2 b3) (pair b4 b5) ∧
    ((pair b4 b5).toNat ≤ rest.length →
      decode (.control (0xF0 :: 0x02 :: b2 :: b3 :: b4 :: b5 :: rest)) =
        .bulkDeliver (pair b2 b3) (rest.take (pair b4 b5).toNat)) ∧
    decode (.host (0x01 :: b1 :: b2 :: b3 :: b4 :: b5 :: b6 :: rest)) =
      .fill (BitVec.ofNat 16 (b1.toNat + 2 ^ 8 * b2.toNat)) (word b3 b4 b5 b6) ∧
    decode (.host (0x02 :: b1 :: b2 :: b3 :: b4 :: rest)) = .update (word b1 b2 b3 b4) ∧
    decode (.host (0x03 :: b1 :: rest)) = .store b1 ∧
    decode (.host (0x04 :: b1 :: b2 :: b3 :: b4 :: b5 :: rest)) = .cfgWrite b1 (word b2 b3 b4 b5) ∧
    decode (.host (0x05 :: b1 :: rest)) = .cfgRead b1 ∧
    decode (.host (0x06 :: rest)) = .reset ∧
    decode (.host (0x07 :: b1 :: b2 :: b3 :: rest)) = .noteOnEx b1 (low7 b2) (low7 b3)

/-- The low nibble of a status byte selects nothing (30_encoding.md R141). -/
def Obligations.ChannelNibbleSelectsNothing : Prop :=
  ∀ (nibble c d : BitVec 4) (rest : List Byte) (s : State), nibble ≠ 0xF →
    exec (decode (.control ((nibble ++ c) :: rest))) s = exec (decode (.control ((nibble ++ d) :: rest))) s

/-- The decode event of every input, by the precedence of 60_exceptions.md R523, and that an input without
one reaches its operation. -/
def Obligations.DecodePrecedence : Prop :=
  ∀ m : Input,
    (∀ e, inputEvent m = some e →
      performsNothing (decode m) = true ∧
      ∀ s, exec (decode m) s = .next { s with diag := ignored e.code s.diag }) ∧
    (inputEvent m = none → performsNothing (decode m) = false)

/-! # Steps -/

/-- A step performs the decoded next input, and with no input nothing changes (00_scope.md R6, 60_exceptions.md
R534). Three clauses are the model's choice and no rule's: that the inputs wait in a list and one is taken from
it (log 2), that taking it empties the output ports (log 3), and that a faulted block performs only RESET and
keeps FAULT through every other input (log 4, DEDUCED; R528 lets nothing be claimed there). -/
def Obligations.StepRunsDecodedInput : Prop :=
  ∀ s : State,
    (s.inbox = [] → step s = .next s) ∧
    ∀ m rest, s.inbox = m :: rest →
      let taken : State :=
        { s with inbox := rest, position := s.position + 1, portA := [], portR := [], portD := none }
      (s.fault = none ∨ decode m = .reset → step s = exec (decode m) taken) ∧
      (s.fault ≠ none → decode m ≠ .reset → ∃ t, step s = .next t ∧ t.fault = s.fault)

/-- Every step with an input answers a next state, one place further in the arrival order, and what waits then is the
rest of the inputs: no operation changes which comes next (47_engine.md R474, 10_state.md R51). The model's choices,
of which R474 says nothing: the inputs wait in a list (log 2), and they and the position are kept by a faulted
block and by a FILL that faults (log 4, DEDUCED) and by RESET (log 13, DEDUCED). -/
def Obligations.StepTakesInputsInOrder : Prop :=
  ∀ (s : State) (m : Input) (rest : List Input), s.inbox = m :: rest →
    ∃ t, step s = .next t ∧ t.inbox = rest ∧ t.position = s.position + 1

/-! # Reset and the model fault -/

/-- RESET and power-on establish the state of 70_reset_and_hazards.md R560; RESET emits nothing and raises no
event. -/
def Obligations.ResetEstablishesState : Prop :=
  IsResetState State.reset ∧
  ∀ s, ∃ t, exec .reset s = .next t ∧ IsResetState t ∧
    t.portA = s.portA ∧ t.portR = s.portR ∧ t.portD = s.portD

/-- The registers and the record after reset (70_reset_and_hazards.md R562, 44_patch_record.md R331). -/
def Obligations.ResetRegisterReads : Prop :=
  (∀ addr : Byte,
    exec (.cfgRead addr) State.reset = .next { State.reset with portD := some (resetWord addr) }) ∧
  exec (.bulkRequest 0 154) State.reset =
    .next { State.reset with
      portR := [0xF0, 0x02, 0x00, 0x00, 0x1A, 0x01] ++ (List.range 154).map defaultRecordByte }

/-- A FILL with N or the sample rate out of range is the model fault FILL_PARAMS (46_mixer.md R400). That it
answers a next state of which nothing else is known is the model's form of it (log 4). -/
def Obligations.FillParametersOutOfRangeFault : Prop :=
  ∀ (n : BitVec 16) (sr : Word) (s : State),
    sr.toNat < 1 ∨ 192000 < sr.toNat ∨ 4096 < n.toNat →
    ∃ t, exec (.fill n sr) s = .next t ∧ t.fault = some .fillParams ∧
      t.inbox = s.inbox ∧ t.position = s.position

/-- A RESET restores the reset state of a faulted block and clears the fault, and only a FILL out of range raises it
(46_mixer.md R400, 60_exceptions.md R528). That every other input leaves it set is the model's (log 4). -/
def Obligations.FaultHoldsUntilReset : Prop :=
  (∀ (s : State) (m : Input) (rest : List Input), s.inbox = m :: rest → s.fault ≠ none →
    ∃ t, step s = .next t ∧
      (decode m = .reset → IsResetState t) ∧ (decode m ≠ .reset → t.fault = s.fault)) ∧
  ∀ (i : Instr) (s t : State), s.fault = none → exec i s = .next t → t.fault ≠ none →
    ∃ n sr, i = .fill n sr ∧ ¬ LegalFill n sr

/-! # Notes and voices -/

/-- NOTE_OFF releases every playing voice that holds the note, resets its elapsed time, and changes nothing
else (47_engine.md R450, 45_voice.md R363). -/
def Obligations.NoteOffReleasesHeldVoices : Prop :=
  ∀ (note : BitVec 7) (s : State), ∃ t, exec (.noteOff note) s = .next t ∧
    t = { s with voices := t.voices } ∧
    ∀ v : Fin 32, t.voices[v] =
      if (s.voices[v]).active = true ∧ (s.voices[v]).note = some note ∧ (s.voices[v]).released = false then
        { s.voices[v] with released := true, elapsed := 0#32 }
      else s.voices[v]

/-- NOTE_ON starts a voice for each sounding oscillator of the working patch; with velocity 0, and with no
other, it is NOTE_OFF (47_engine.md R451, R452; 45_voice.md R360, R362). -/
def Obligations.NoteOnStartsVoices : Prop :=
  ∀ (note velocity : BitVec 7) (s : State),
    (velocity = 0 → exec (.noteOn note velocity) s = exec (.noteOff note) s) ∧
    (velocity ≠ 0 → ∃ t, exec (.noteOn note velocity) s = .next t ∧
      StartsBoth .work note (velocityVolume velocity) s t)

/-- NOTE_ON_EX plays the working patch for a negative index and bank patch 0..31; from 32 on it is the event
PATCH_INDEX_RANGE whatever the velocity (47_engine.md R454). -/
def Obligations.NoteOnExSelectsPatch : Prop :=
  ∀ (p : Byte) (note velocity : BitVec 7) (s : State),
    (p.toInt < 0 → exec (.noteOnEx p note velocity) s = exec (.noteOn note velocity) s) ∧
    (∀ i : Fin 32, p.toInt = i.val →
      (velocity = 0 → exec (.noteOnEx p note velocity) s = exec (.noteOff note) s) ∧
      (velocity ≠ 0 → ∃ t, exec (.noteOnEx p note velocity) s = .next t ∧
        StartsBoth (.bank i) note (velocityVolume velocity) s t)) ∧
    (32 ≤ p.toInt →
      exec (.noteOnEx p note velocity) s = .next { s with diag := ignored 3 s.diag })

/-- A note-on takes as many voices as oscillators sound and voices are free, counts one drop for each other
one, and leaves every active voice as it was (45_voice.md R360, R366, R368). -/
def Obligations.NoteOnTakesFreeVoicesOnly : Prop :=
  ∀ (note velocity : BitVec 7) (s : State), velocity ≠ 0 →
    ∃ t, exec (.noteOn note velocity) s = .next t ∧
      let wanted := soundingOscillators s.work
      let taken := min wanted (32 - s.activeVoices)
      t.activeVoices = s.activeVoices + taken ∧
      t.diag.dropCount = s.diag.dropCount + BitVec.ofNat 32 (wanted - taken) ∧
      ∀ v : Fin 32, (s.voices[v]).active = true → t.voices[v] = s.voices[v]

/-- UPDATE stops exactly the released voices whose elapsed time is past the volume release time of their
oscillator; its operand has no effect (45_voice.md R364, R365; 47_engine.md R468). -/
def Obligations.UpdateStopsReleasedVoices : Prop :=
  ∀ (deltaMs : F32) (s : State), ∃ t, exec (.update deltaMs) s = .next t ∧
    t = { s with voices := t.voices } ∧
    ∀ v : Fin 32, t.voices[v] =
      if (s.voices[v]).active = true ∧ (s.voices[v]).released = true ∧
          F32.lt (s.osc (s.voices[v]).oscRef).env.volume.release (s.voices[v]).elapsed = true then
        { s.voices[v] with active := false, note := none }
      else s.voices[v]

/-- No voice changes state but by the arcs of 45_voice.md R361, and none is stolen: a voice that stays active keeps
its oscillator, table, note, frequency and volume (R366). -/
def Obligations.VoiceStatesChangeOnlyAsTabled : Prop :=
  ∀ (i : Instr) (s t : State) (v : Fin 32), s.fault = none → exec i s = .next t → t.fault = none →
    let x := s.voices[v]
    let y := t.voices[v]
    (x.state = y.state ∨
     (x.state = .inactive ∧ y.state = .playing ∧
       ((∃ note velocity, velocity ≠ 0 ∧ i = .noteOn note velocity) ∨
        (∃ p note velocity, velocity ≠ 0 ∧ i = .noteOnEx p note velocity))) ∨
     (x.state = .playing ∧ y.state = .releasing ∧
       ∃ note, x.note = some note ∧
         (i = .noteOff note ∨ i = .noteOn note 0 ∨ ∃ p, i = .noteOnEx p note 0)) ∨
     (x.state = .releasing ∧ y.state = .inactive ∧ (∃ deltaMs, i = .update deltaMs) ∧
       F32.lt (s.osc x.oscRef).env.volume.release x.elapsed = true) ∨
     (y.state = .inactive ∧ i = .reset)) ∧
    (x.active = true → y.active = true →
      y.oscRef = x.oscRef ∧ y.cachedType = x.cachedType ∧ y.note = x.note ∧ y.freq = x.freq ∧
      y.volume = x.volume)

/-! # Controllers and patches -/

/-- CC_CUTOFF sets the cutoff to value/127 of 20000 Hz, which never exceeds 20000, and CC_REVERB the reverb mix
to value/127; neither changes anything else (47_engine.md R457, R458). -/
def Obligations.ControllersSetTheirRegister : Prop :=
  ∀ (controller value : BitVec 7) (s : State),
    let part := F32.div (F32.ofNat value.toNat) (F32.ofNat 127)
    let y := F32.mul part (F32.ofNat 20000)
    exec (.ccCutoff controller value) s = .next { s with filter := { s.filter with cutoff := y } } ∧
    F32.le y (F32.ofNat 20000) = true ∧
    exec (.ccReverb value) s = .next { s with reverb := { s.reverb with mix := part } }

/-- PATCH_SELECT and CC_PATCH copy the bank patch into the working patch, STORE the working patch into one bank
slot; an index from 32 on changes nothing but the event (47_engine.md R455, R456, R459, R466). -/
def Obligations.PatchSelectionAndStore : Prop :=
  (∀ (index : BitVec 7) (s : State),
    (∀ i : Fin 32, index.toNat = i.val →
      exec (.patchSelect index) s = .next { s with work := s.bank[i], cur := i } ∧
      exec (.ccPatch index) s = .next { s with work := s.bank[i], cur := i }) ∧
    (32 ≤ index.toNat →
      exec (.patchSelect index) s = .next { s with diag := ignored 3 s.diag } ∧
      exec (.ccPatch index) s = .next { s with diag := ignored 3 s.diag })) ∧
  ∀ (index : Byte) (s : State),
    (∀ i : Fin 32, index.toNat = i.val →
      ∃ t, exec (.store index) s = .next t ∧ t = { s with bank := t.bank } ∧
        t.bank[i] = s.work ∧ ∀ j : Fin 32, j ≠ i → t.bank[j] = s.bank[j]) ∧
    (32 ≤ index.toNat → exec (.store index) s = .next { s with diag := ignored 3 s.diag })

/-- The rows that perform nothing change only the diagnostic registers, by their event
(47_engine.md R460, R463). -/
def Obligations.IgnoredInputOnlyCounts : Prop :=
  ∀ (controller : BitVec 7) (bytes : List Byte) (s : State),
    exec (.ccOther controller) s = .next { s with diag := ignored 2 s.diag } ∧
    exec (.ctrlUnknown bytes) s = .next { s with diag := ignored 2 s.diag } ∧
    exec (.msgTooShort bytes) s = .next { s with diag := ignored 1 s.diag } ∧
    exec (.hostUnknown bytes) s = .next { s with diag := ignored 10 s.diag }

/-- PITCH_BEND sets only the bend target: 1.0 in the dead zone, else the binary32 value nearest
2^(2(bend - 8192)/(12·8192)) (47_engine.md R461). -/
def Obligations.PitchBendSetsTarget : Prop :=
  ∀ (bend : BitVec 14) (s : State), ∃ r : F32,
    exec (.pitchBend bend) s = .next { s with mixer := { s.mixer with bendTarget := r } } ∧
    (8184 ≤ bend.toNat ∧ bend.toNat ≤ 8200 → r = 0x3F800000#32) ∧
    (¬ (8184 ≤ bend.toNat ∧ bend.toNat ≤ 8200) →
      RoundsTo r ((2 : ℝ) ^ ((2 * ((bend.toNat : ℝ) - 8192)) / (12 * 8192))))

/-! # The record -/

/-- BULK_REQUEST replies with the header and the bytes of the record asked for, and changes nothing; a range past
154 is BULK_RANGE (44_patch_record.md R340, R342). -/
def Obligations.BulkRequestReplies : Prop :=
  ∀ (addr size : BitVec 14) (s : State),
    let byte (n : Nat) : Byte := BitVec.ofNat 8 n
    (addr.toNat + size.toNat ≤ 154 →
      exec (.bulkRequest addr size) s =
        .next { s with
          portR :=
            [0xF0, 0x02, byte (addr.toNat % 128), byte (addr.toNat / 128), byte (size.toNat % 128),
             byte (size.toNat / 128)] ++ (s.work.pack.drop addr.toNat).take size.toNat }) ∧
    (154 < addr.toNat + size.toNat →
      exec (.bulkRequest addr size) s = .next { s with diag := ignored 6 s.diag })

/-- The packed record has its 154 bytes where 44_patch_record.md R330 puts them. -/
def Obligations.PackPutsEveryByte : Prop :=
  ∀ p : Patch, p.name.length ≤ 19 →
    let B := p.pack
    B.length = 154 ∧
    (∀ i : Nat, i < 20 → B[i]? = some (p.name.getD i 0)) ∧
    B[20]? = some (encFrac p.mixLevel) ∧ B[21]? = some 0 ∧
    OscBytes B 22 p.osc0 ∧ OscBytes B 74 p.osc1 ∧
    B[126]? = some p.lfoWave.code ∧ B[127]? = some (encTime p.lfoFreq 0x41A00000#32) ∧
    B[128]? = some (encFrac p.lfoDepth) ∧ (∀ i : Nat, 129 ≤ i → i < 146 → B[i]? = some 0) ∧
    B[146]? = some p.mod0.range ∧ B[147]? = some p.mod0.target ∧
    B[150]? = some p.mod1.range ∧ B[151]? = some p.mod1.target ∧
    (∀ i ∈ [148, 149, 152, 153], B[i]? = some 0)

/-- BULK_DELIVER applies, in address order, exactly the sub-blocks it covers whole from a sub-block start, and
counts a stop where bytes are left; a range past 154 is BULK_RANGE (44_patch_record.md R332, R334, R341, R342). -/
def Obligations.BulkDeliverAppliesWholeBlocks : Prop :=
  ∀ (addr : BitVec 14) (payload : List Byte) (s : State),
    let a := addr.toNat
    let size := payload.length
    (a + size ≤ 154 →
      ∃ t, exec (.bulkDeliver addr payload) s = .next t ∧
        t = { s with work := t.work, diag := t.diag } ∧
        t.work = (covered a size).foldl
          (fun p b => decodeBlock b.1 ((payload.drop (b.2.1 - a)).take b.2.2) p) s.work ∧
        t.diag =
          if size = 0 ∨ (a ∈ blocks.map (·.2.1) ∧ a + size ∈ blocks.map (fun b => b.2.1 + b.2.2)) then s.diag
          else { s.diag with unpackStopCount := s.diag.unpackStopCount + 1, lastEvent := 5 }) ∧
    (154 < a + size →
      exec (.bulkDeliver addr payload) s = .next { s with diag := ignored 6 s.diag })

/-- What decoding each sub-block writes (44_patch_record.md R333, with the name rule R322 and the wave codes
of R325). -/
def Obligations.DecodeBlockWritesItsFields : Prop :=
  ∀ (c : List Byte) (p : Patch),
    let wave (b : Byte) : Wave :=
      ([.none, .square, .saw1, .saw2, .triangle, .sine, .noise, .custom] : List Wave).getD b.toNat .none
    (c.length = 20 →
      ∃ m ≤ 19, decodeBlock .name c p = { p with name := c.take m } ∧
        (∀ i : Nat, i < m → c.getD i 0 ≠ 0) ∧ (m < 19 → c.getD m 0 = 0)) ∧
    decodeBlock .mix c p = { p with mixLevel := decFrac (c.getD 0 0) } ∧
    decodeBlock .osc1 c p = { p with osc0 := oscFrom p.osc0 c } ∧
    decodeBlock .osc2 c p = { p with osc1 := oscFrom p.osc1 c } ∧
    decodeBlock .lfo c p =
      { p with lfoWave := wave (c.getD 0 0), lfoFreq := decTime (c.getD 1 0) 0x41A00000#32,
               lfoDepth := decFrac (c.getD 2 0) } ∧
    decodeBlock .mod1 c p = { p with mod0 := ⟨c.getD 0 0, c.getD 1 0⟩ } ∧
    decodeBlock .mod2 c p = { p with mod1 := ⟨c.getD 0 0, c.getD 1 0⟩ }

/-- A delivered record of a legal patch gives back its name, wave codes, ranges and targets; the MOD envelopes stay;
packing again gives the same bytes; no event (44_patch_record.md R336). -/
def Obligations.PackUnpackRoundTrip : Prop :=
  ∀ (p : Patch) (s : State), p.legal →
    ∃ t, exec (.bulkDeliver 0 p.pack) s = .next t ∧ t = { s with work := t.work } ∧
      t.work.name = p.name ∧ t.work.osc0.waveType = p.osc0.waveType ∧
      t.work.osc1.waveType = p.osc1.waveType ∧ t.work.lfoWave = p.lfoWave ∧
      t.work.mod0 = p.mod0 ∧ t.work.mod1 = p.mod1 ∧
      t.work.osc0.env.mod = s.work.osc0.env.mod ∧ t.work.osc0.lfoEnv.mod = s.work.osc0.lfoEnv.mod ∧
      t.work.osc1.env.mod = s.work.osc1.env.mod ∧ t.work.osc1.lfoEnv.mod = s.work.osc1.lfoEnv.mod ∧
      t.work.pack = p.pack

/-- A scaled byte keeps a fraction, and a time, within half a step and the binary32 rounding
(40_envelope.md R207, R209). -/
def Obligations.ScaledByteKeepsHalfStep : Prop :=
  ∀ x : F32, finite x →
    (0 ≤ val x → val x ≤ 1 → |val (decFrac (encFrac x)) - val x| ≤ 1 / 254 + 1 / 2 ^ 21) ∧
    (0 ≤ val x → val x ≤ 10000 →
      |val (decTime (encTime x 0x461C4000#32) 0x461C4000#32) - val x| ≤ 10000 * (1 / 254 + 1 / 2 ^ 21)) ∧
    (0 ≤ val x → val x ≤ 20 →
      |val (decTime (encTime x 0x41A00000#32) 0x41A00000#32) - val x| ≤ 20 * (1 / 254 + 1 / 2 ^ 21))

/-- Repeating a BULK_DELIVER or a CFG_WRITE leaves the state the first one left, but for the event it may count
again (20_memory.md R109, 44_patch_record.md R343). -/
def Obligations.RepeatedWritesAreIdempotent : Prop :=
  ∀ (i : Instr) (s : State),
    ((∃ addr payload, i = .bulkDeliver addr payload) ∨ (∃ addr d, i = .cfgWrite addr d)) →
    ∃ t u, exec i s = .next t ∧ exec i t = .next u ∧ u = { t with diag := u.diag } ∧
      (t.diag = s.diag → u.diag = t.diag)

/-! # Registers -/

/-- CFG_WRITE writes one register, clamped, or raises its event and writes none; a register written reads back a
legal value (10_state.md R49). -/
def Obligations.CfgWriteClampsAndReadsBack : Prop :=
  ∀ (addr : Byte) (d : Word) (s : State),
    (addr = 0x01 →
      exec (.cfgWrite addr d) s =
        (if d = 0 then .next { s with filter := { s.filter with kind := .onePole } }
         else if d = 1 then .next { s with filter := { s.filter with kind := .moog } }
         else .next { s with diag := ignored 8 s.diag })) ∧
    (∀ lo hi, f32Range addr = some (lo, hi) →
      (¬ finite d → exec (.cfgWrite addr d) s = .next { s with diag := ignored 8 s.diag }) ∧
      (finite d → ∃ y : F32, exec (.cfgWrite addr d) s = .next (withF32 addr y s) ∧
        exec (.cfgRead addr) (withF32 addr y s) = .next { withF32 addr y s with portD := some y } ∧
        finite y ∧ y ≠ 0x80000000#32 ∧ val y = max (val lo) (min (val hi) (val d)))) ∧
    (addr ≠ 0x01 → f32Range addr = none →
      exec (.cfgWrite addr d) s = .next { s with diag := ignored 7 s.diag })

/-- CFG_READ delivers the word of the register on port D, 0 for an address without one, and changes nothing
(47_engine.md R473, 10_state.md R48). -/
def Obligations.CfgReadDeliversRegister : Prop :=
  ∀ (addr : Byte) (s : State),
    (addr.toNat < 0x20 ∨ 0xC0 ≤ addr.toNat →
      exec (.cfgRead addr) s = .next { s with portD := some (globalWord addr.toNat s) }) ∧
    ∀ v : Fin 32,
      (addr.toNat = 0x20 + v.val →
        exec (.cfgRead addr) s = .next { s with portD := some (s.voices[v]).status }) ∧
      (addr.toNat = 0x40 + v.val →
        exec (.cfgRead addr) s = .next { s with portD := some (s.voices[v]).wavePos }) ∧
      (addr.toNat = 0x60 + v.val →
        exec (.cfgRead addr) s = .next { s with portD := some (s.voices[v]).elapsed }) ∧
      (addr.toNat = 0x80 + v.val →
        exec (.cfgRead addr) s = .next { s with portD := some (s.voices[v]).freq }) ∧
      (addr.toNat = 0xA0 + v.val →
        exec (.cfgRead addr) s = .next { s with portD := some (s.voices[v]).volume })

/-- The fields of VOICE_STATUS and its word at reset, and wavePos, which is -1 exactly for an inactive voice of
those the invariant admits (10_state.md R39, R50). -/
def Obligations.VoiceStatusAndWavePos : Prop :=
  Voice.reset.status = 0x7E00FF00#32 ∧
  ∀ v : Voice,
    (v.status.getLsbD 0 = v.active ∧ v.status.getLsbD 1 = v.released ∧ v.status.extractLsb' 2 6 = 0 ∧
     (v.status.extractLsb' 8 8).toNat = (match v.note with | some n => n.toNat | none => 0xFF) ∧
     (v.status.extractLsb' 16 3).toNat =
       (match v.cachedType with
        | .none => 0 | .square => 1 | .saw1 => 2 | .saw2 => 3 | .triangle => 4 | .sine => 5 | .noise => 6
        | .custom => 7) ∧
     v.status.extractLsb' 19 5 = 0 ∧ v.status.getLsbD 24 = (v.oscRef.k == .osc1) ∧
     (v.status.extractLsb' 25 6).toNat = (match v.oscRef.sel with | .work => 0x3F | .bank i => i.val) ∧
     v.status.getLsbD 31 = false) ∧
    (v.active = false → v.wavePos = 0xBF800000#32) ∧ (v.active = true → v.wavePos = v.phase) ∧
    (v.legal → (v.wavePos = 0xBF800000#32 ↔ v.active = false))

/-! # What operations write and count -/

/-- No operation but RESET writes a part of the state that 47_engine.md R475 does not let it write; the bank and
the working patch are as R467 says. -/
def Obligations.OperationsWriteOnlyTheirParts : Prop :=
  ∀ (i : Instr) (s t : State) (parts : List Part) (p : Part),
    exec i s = .next t → t.fault = none → mayWrite i = some parts → p ∉ parts → p.same s t

/-- Each event adds one to its counter, modulo 2^32, and is the last event; nothing else changes
(60_exceptions.md R521, R522). -/
def Obligations.EventsCountAndMark : Prop :=
  ∀ s : State,
    s.event .msgTooShort = { s with diag := ignored 1 s.diag } ∧
    s.event .msgUnknown = { s with diag := ignored 2 s.diag } ∧
    s.event .patchIndexRange = { s with diag := ignored 3 s.diag } ∧
    s.event .voicePoolExhausted =
      { s with diag := { s.diag with dropCount := s.diag.dropCount + 1, lastEvent := 4 } } ∧
    s.event .unpackStopped =
      { s with diag := { s.diag with unpackStopCount := s.diag.unpackStopCount + 1, lastEvent := 5 } } ∧
    s.event .bulkRange = { s with diag := ignored 6 s.diag } ∧
    s.event .cfgBadAddress = { s with diag := ignored 7 s.diag } ∧
    s.event .cfgBadValue = { s with diag := ignored 8 s.diag } ∧
    s.event .limiterSaturated =
      { s with diag := { s.diag with clipCount := s.diag.clipCount + 1, lastEvent := 9 } } ∧
    s.event .hostFrameBad = { s with diag := ignored 10 s.diag }

/-- How often one operation can raise each event, and that LAST_EVENT moves only with a count
(60_exceptions.md R524). -/
def Obligations.EventsPerOperationAreBounded : Prop :=
  ∀ (i : Instr) (s t : State), i ≠ .reset → exec i s = .next t → t.fault = none →
    ∃ g d c u : Nat,
      t.diag.ignoredCount = s.diag.ignoredCount + BitVec.ofNat 32 g ∧
      t.diag.dropCount = s.diag.dropCount + BitVec.ofNat 32 d ∧
      t.diag.clipCount = s.diag.clipCount + BitVec.ofNat 32 c ∧
      t.diag.unpackStopCount = s.diag.unpackStopCount + BitVec.ofNat 32 u ∧
      g ≤ 1 ∧ d ≤ 2 ∧ u ≤ 1 ∧ (∀ n sr, i = .fill n sr → c ≤ n.toNat) ∧
      ((∀ n sr, i ≠ .fill n sr) → c = 0) ∧
      (g + d + c + u = 0 → t.diag.lastEvent = s.diag.lastEvent) ∧
      (g + d + c + u ≠ 0 → t.diag.lastEvent ∈
        (if g = 0 then [] else [1, 2, 3, 6, 7, 8, 10]) ++ (if d = 0 then [] else [4]) ++
        (if u = 0 then [] else [5]) ++ (if c = 0 then ([] : List Word) else [9]))

/-! # FILL -/

/-- A legal FILL completes: what each of its steps leaves, CLIP_COUNT by the number of samples that step 7 saturates
or finds to be a NaN among them, and that it writes nothing else
(46_mixer.md R401, R402, R405, R416, R417, R418, R421). -/
def Obligations.FillPerformsItsSteps : Prop :=
  ∀ (n : BitVec 16) (sr : Word) (s : State), LegalFill n sr →
    ∃ t, exec (.fill n sr) s = .next t ∧
      t = { s with voices := t.voices, mixer := t.mixer, filter := t.filter, reverb := t.reverb,
                   diag := t.diag, portA := t.portA } ∧
      let N := n.toNat
      let ms := bufferMs N sr.toNat
      let len := F32.ofNat s.work.lfoWave.len
      let wet := s.reverb.apply sr.toNat (fillMix N sr.toNat s)
      let out := s.filter.apply sr.toNat wet.1
      t.mixer = { s.mixer with
        bendCur := F32.add s.mixer.bendCur
          (F32.mul 0x3E99999A#32 (F32.sub s.mixer.bendTarget s.mixer.bendCur))
        lfoPhase := F32.fmod
          (F32.add s.mixer.lfoPhase
            (F32.mul (F32.mul s.work.lfoFreq (F32.div ms (F32.ofNat 1000))) len)) len } ∧
      (∀ v : Fin 32, t.voices[v] =
        if (s.voices[v]).active = true then
          { s.voices[v] with
            phase := phaseAt s sr.toNat s.voices[v] N
            elapsed := F32.add (s.voices[v]).elapsed ms }
        else s.voices[v]) ∧
      t.reverb = wet.2 ∧ t.filter = out.2 ∧ t.portA = out.1.map (fun x => convert (compress x)) ∧
      t.portA.length = N ∧
      let counted := out.1.countP fun x => Saturates (compress x)
      t.diag =
        if counted = 0 then s.diag
        else { s.diag with clipCount := s.diag.clipCount + BitVec.ofNat 32 counted, lastEvent := 9 }

/-- The mix is the sum of the active voices' samples, added in ascending order to 0.0
(46_mixer.md R407 to R411). -/
def Obligations.MixSumsActiveVoicesInOrder : Prop :=
  ∀ (s : State) (N sr i : Nat), i < N →
    (fillMix N sr s)[i]? = some
      ((s.voices.toList.filter (·.active)).foldl
        (fun acc v => F32.add acc (contribution s sr v i)) (F32.ofNat 0))

/-- A FILL of no samples smooths the bend ratio and changes nothing else, where the LFO phase is inside its
table (46_mixer.md R424). -/
def Obligations.FillOfNoSamplesOnlySmoothsBend : Prop :=
  ∀ (sr : Word) (s : State), LegalFill 0 sr →
    negative s.mixer.lfoPhase = false → F32.lt s.mixer.lfoPhase (F32.ofNat s.work.lfoWave.len) = true →
    finite s.work.lfoFreq →
    (∀ v : Fin 32, (s.voices[v]).active = true →
      finite (s.voices[v]).elapsed ∧ negative (s.voices[v]).elapsed = false) →
    exec (.fill 0 sr) s =
      .next { s with
        mixer := { s.mixer with
          bendCur := F32.add s.mixer.bendCur
            (F32.mul 0x3E99999A#32 (F32.sub s.mixer.bendTarget s.mixer.bendCur)) }
        portA := [] }

/-- The duty warp by its F32 expression, at duty 0, 1/2 and 1, and that it never leaves the table
(46_mixer.md R413). -/
def Obligations.DutyWarpCorners : Prop :=
  ∀ (w : Wave) (i : Nat), i < w.len →
    (∀ d : F32, finite d → 0 ≤ val d → val d ≤ 1 →
      let half := 0x3F000000#32
      let dL := F32.mul d (F32.ofNat w.len)
      warp i d w.len =
        min (w.len - 1)
          (if F32.lt (F32.ofNat i) dL = true then
            F32.floor (F32.mul (F32.ofNat i) (F32.div half d))
          else
            F32.floor (F32.add (F32.ofNat (w.len / 2))
              (F32.mul (F32.sub (F32.ofNat i) dL)
                (F32.div half (F32.sub (F32.ofNat 1) d))))).toNat) ∧
    warp i 0#32 w.len = w.len / 2 + i / 2 ∧
    warp i 0x3F000000#32 w.len = i ∧
    warp i 0x3F800000#32 w.len = i / 2 ∧
    ∀ d : F32, warp i d w.len < w.len

/-- The last step of a sample: 0 for a NaN, else the integer part toward zero, saturated, and one event where it is
a NaN or saturates (46_mixer.md R421). -/
def Obligations.ConvertSaturates : Prop :=
  ∀ (x : F32) (d : Diag),
    let counted : Diag := { d with clipCount := d.clipCount + 1, lastEvent := 9 }
    (nan x → convert x = 0 ∧ convertEvent x d = counted) ∧
    (finite x →
      (convert x).toInt = max (-32768) (min 32767 (truncate (val x))) ∧
      convertEvent x d =
        if -32768 ≤ truncate (val x) ∧ truncate (val x) ≤ 32767 then d else counted) ∧
    (¬ finite x → ¬ nan x →
      (convert x).toInt = (if negative x then -32768 else 32767) ∧ convertEvent x d = counted)

/-- The compressor is the piecewise function of 46_mixer.md R419, in its F32 expressions: 8000 times the sample up to 20000
on either side, 0.7 of the excess beyond, 0.2 of the excess of that beyond 26000 (and 8000 times a NaN for a
NaN); it is odd and does not decrease (R422). -/
def Obligations.CompressIsOddAndMonotone : Prop :=
  (∀ x : F32,
    let s := F32.mul x (F32.ofNat 8000)
    let above := F32.add (F32.ofNat 20000) (F32.mul (F32.sub s (F32.ofNat 20000)) 0x3F333333#32)
    let below :=
      F32.add (F32.neg (F32.ofNat 20000)) (F32.mul (F32.add s (F32.ofNat 20000)) 0x3F333333#32)
    (nan x → compress x = s) ∧
    (F32.le (F32.neg (F32.ofNat 20000)) s = true → F32.le s (F32.ofNat 20000) = true → compress x = s) ∧
    (F32.lt (F32.ofNat 20000) s = true →
      (F32.le above (F32.ofNat 26000) = true → compress x = above) ∧
      (F32.lt (F32.ofNat 26000) above = true →
        compress x =
          F32.add (F32.ofNat 26000) (F32.mul (F32.sub above (F32.ofNat 26000)) 0x3E4CCCCD#32))) ∧
    (F32.lt s (F32.neg (F32.ofNat 20000)) = true →
      (F32.le (F32.neg (F32.ofNat 26000)) below = true → compress x = below) ∧
      (F32.lt below (F32.neg (F32.ofNat 26000)) = true →
        compress x =
          F32.add (F32.neg (F32.ofNat 26000))
            (F32.mul (F32.add below (F32.ofNat 26000)) 0x3E4CCCCD#32)))) ∧
  (∀ x : F32, finite x → compress (F32.neg x) = F32.neg (compress x)) ∧
  ∀ x y : F32, finite x → finite y → val x ≤ val y → F32.le (compress x) (compress y) = true

/-! # Filter and reverb -/

/-- With its cutoff at 0 the one-pole filter holds its output, whatever the input (42_filter.md R264). A held
value that is -0.0 is left out: it becomes +0.0. -/
def Obligations.OnePoleHoldsAtZeroCutoff : Prop :=
  ∀ (f : Filter) (sr : Nat) (mix : List F32), f.kind = .onePole → f.cutoff = 0#32 →
    1 ≤ sr → sr ≤ 192000 → (∀ x ∈ mix, finite x) → finite f.prev → f.prev ≠ 0x80000000#32 →
    f.apply sr mix = (List.replicate mix.length f.prev, f)

/-- A filter run gives one output per input by the recursion of the kind selected, from the coefficients of
42_filter.md R261, R262 and R265, and writes only the state of that kind (R260, R263, R266, R267). In the ladder
`x1` to `y4` are the registers before each sample and after the last, in the one-pole `y` is `prev`. What `exp`
gives, in `onePoleCoefficient` and `ladderR`, is in the statement ExpTwoIsCorrectlyRounded. -/
def Obligations.FilterWritesSelectedStateOnly : Prop :=
  ∀ (f : Filter) (sr : Nat) (mix : List F32),
    let N := mix.length
    let out := (f.apply sr mix).1
    out.length = N ∧
    (f.kind = .onePole →
      ∃ y : Nat → F32,
        let k := onePoleCoefficient f sr
        y 0 = f.prev ∧
        (∀ i : Nat, i < N →
          y (i + 1) = F32.add (F32.mul (F32.sub (F32.ofNat 1) k) (mix.getD i 0)) (F32.mul k (y i)) ∧
          out[i]? = some (y (i + 1))) ∧
        (f.apply sr mix).2 = { f with prev := y N }) ∧
    (f.kind = .moog →
      ∃ x1 y1 y2 y3 y4 : Nat → F32,
        (x1 0 = f.x1 ∧ y1 0 = f.y1 ∧ y2 0 = f.y2 ∧ y3 0 = f.y3 ∧ y4 0 = f.y4) ∧
        (∀ i : Nat, i < N →
          x1 (i + 1) = F32.sub (mix.getD i 0) (F32.mul (ladderR f sr) (y4 i)) ∧
          y1 (i + 1) = stage f sr (x1 (i + 1)) (x1 i) (y1 i) ∧
          y2 (i + 1) = stage f sr (y1 (i + 1)) (y1 i) (y2 i) ∧
          y3 (i + 1) = stage f sr (y2 (i + 1)) (y2 i) (y3 i) ∧
          y4 (i + 1) = stage f sr (y3 (i + 1)) (y3 i) (y4 i) ∧
          out[i]? = some (y4 (i + 1))) ∧
        (f.apply sr mix).2 = { f with x1 := x1 N, y1 := y1 N, y2 := y2 N, y3 := y3 N, y4 := y4 N })

/-- Reverb and filter carry their state from one buffer to the next: two buffers in a row give what one joined buffer
gives (42_filter.md R267, 70_reset_and_hazards.md R570, R576). -/
def Obligations.EffectsStreamAcrossBuffers : Prop :=
  ∀ (f : Filter) (rv : Reverb) (sr : Nat) (xs ys : List F32),
    f.apply sr (xs ++ ys) =
      ((f.apply sr xs).1 ++ ((f.apply sr xs).2.apply sr ys).1, ((f.apply sr xs).2.apply sr ys).2) ∧
    rv.apply sr (xs ++ ys) =
      ((rv.apply sr xs).1 ++ ((rv.apply sr xs).2.apply sr ys).1, ((rv.apply sr xs).2.apply sr ys).2)

/-- Each reverb output is the input and `mix` times what was written `D` samples before, which is `decay` times the
output of that time; the write position advances by one per sample and no other cell changes
(43_reverb.md R290 to R292). -/
def Obligations.ReverbReadsItsDelayedOutput : Prop :=
  ∀ (rv : Reverb) (sr : Nat) (xs : List F32), rv.buf.wf reverbDefault 480000 = true →
    xs.length ≤ 480000 → finite rv.delayMs →
    let D : Nat := (⌊val rv.delayMs * sr / 1000⌋ % 480000).toNat
    let out := (rv.apply sr xs).1
    let after := (rv.apply sr xs).2
    out.length = xs.length ∧
    (∀ i : Nat, i < xs.length →
      out.getD i 0 =
        F32.add (xs.getD i 0)
          (F32.mul rv.mix
            (if 0 < D ∧ D ≤ i then F32.mul (out.getD (i - D) 0) rv.decay
             else rv.buf.read reverbDefault ((rv.wp.val + i + 480000 - D) % 480000)))) ∧
    after = { rv with buf := after.buf, wp := after.wp } ∧
    after.wp.val = (rv.wp.val + xs.length) % 480000 ∧
    (∀ i : Nat, i < xs.length →
      after.buf.read reverbDefault ((rv.wp.val + i) % 480000) = F32.mul (out.getD i 0) rv.decay) ∧
    ∀ a : Nat, a < 480000 → (∀ i : Nat, i < xs.length → a ≠ (rv.wp.val + i) % 480000) →
      after.buf.read reverbDefault a = rv.buf.read reverbDefault a

/-! # Envelopes and tables -/

/-- The level of a legal envelope at a time from 0 on is a number in [0, 1] (40_envelope.md R200, R203). -/
def Obligations.EnvelopeLevelStaysInUnit : Prop :=
  ∀ (e : Envelope) (t : F32) (released : Bool), e.legal → finite t → 0 ≤ val t →
    finite (e.level t released) ∧ 0 ≤ val (e.level t released) ∧ val (e.level t released) ≤ 1

/-- The level in each stage, by the F32 expression of 40_envelope.md R200, and its value at the boundaries of the stages
(R202, R204). -/
def Obligations.EnvelopeCornerLevels : Prop :=
  ∀ (e : Envelope) (t : F32), e.legal → finite t → 0 ≤ val t →
    let u := F32.sub t e.delay
    let unit (x : F32) : F32 := F32.clamp x (F32.ofNat 0) (F32.ofNat 1)
    (val t < val e.delay → e.level t false = 0#32) ∧
    (val e.delay ≤ val t → val u < val e.attack →
      e.level t false = unit (F32.div (F32.mul e.peak u) e.attack)) ∧
    (val e.delay ≤ val t → val e.attack ≤ val u → val u < val (F32.add e.attack e.decay) →
      e.level t false =
        unit (F32.add e.peak
          (F32.div (F32.mul (F32.sub e.sustain e.peak) (F32.sub u e.attack)) e.decay))) ∧
    (val e.delay ≤ val t → val e.attack ≤ val u → val (F32.add e.attack e.decay) ≤ val u →
      e.level t false = unit e.sustain) ∧
    (val t < val e.release →
      e.level t true = unit (F32.mul e.sustain (F32.sub (F32.ofNat 1) (F32.div t e.release)))) ∧
    (val t = val e.delay → 0 < val e.attack → val (e.level t false) = 0) ∧
    (val e.delay ≤ val t → val u = val e.attack → val e.attack < val (F32.add e.attack e.decay) →
      val (e.level t false) = val e.peak) ∧
    (val e.delay ≤ val t → val e.attack ≤ val u → val (F32.add e.attack e.decay) ≤ val u →
      val (e.level t false) = val e.sustain) ∧
    (val e.release ≤ val t → e.level t true = 0#32) ∧
    (0 < val e.release → val (e.level 0#32 true) = val e.sustain)

/-- The stage of an envelope is the one whose condition holds (40_envelope.md R201). -/
def Obligations.EnvelopeStageIsTheTabledOne : Prop :=
  ∀ (e : Envelope) (t : F32), e.legal → finite t → 0 ≤ val t →
    let u := F32.sub t e.delay
    let fall := F32.add e.attack e.decay
    (e.stage t true = .release ↔ val t < val e.release) ∧
    (e.stage t true = .done ↔ val e.release ≤ val t) ∧
    (e.stage t false = .delay ↔ val t < val e.delay) ∧
    (e.stage t false = .attack ↔ val e.delay ≤ val t ∧ 0 ≤ val u ∧ val u < val e.attack) ∧
    (e.stage t false = .decay ↔ val e.delay ≤ val t ∧ val e.attack ≤ val u ∧ val u < val fall) ∧
    (e.stage t false = .sustain ↔ val e.delay ≤ val t ∧ val e.attack ≤ val u ∧ val fall ≤ val u)

/-- The ramp tables are exact (41_waveform.md R232, R233, R234). -/
def Obligations.RampTablesAreExact : Prop :=
  ∀ i : Nat, i < 4096 →
    (finite (saw1 i) ∧ val (saw1 i) = (i : ℚ) / 2048 - 1) ∧
    (finite (saw2 i) ∧ val (saw2 i) = 1 - (i : ℚ) / 2048) ∧
    (finite (triangle i) ∧ val (triangle i) =
      if i < 1024 then (i : ℚ) / 1024 else if i < 3072 then 2 - (i : ℚ) / 1024 else (i : ℚ) / 1024 - 4)

/-- The noise table is that of the generator, repeats every 525 samples and stays inside (-1, 1)
(41_waveform.md R236, R237). -/
def Obligations.NoiseTableIsTheGenerators : Prop :=
  ∀ n : Nat,
    noiseDefault n = noiseSample n ∧ noiseDefault (n + 525) = noiseDefault n ∧
    finite (noiseDefault n) ∧ -1 < val (noiseDefault n) ∧ val (noiseDefault n) < 1

/-- Values, corner samples and half-wave symmetry of the sine and square tables, and the table of each code but NONE, where
CUSTOM plays the square (41_waveform.md R230, R231, R235, R238). That a sample is the binary32 value nearest the
exact one holds but for what lies within 2^-600 of it (log 6, DEDUCED). -/
def Obligations.SineAndSquareTableShape : Prop :=
  (∀ i : Nat, i < 4096 →
    RoundsNear (Numerics.sinTable i) (Real.sin (2 * Real.pi * i / 4096)) ∧
    RoundsNear (Numerics.tanhSinTable i) (Real.tanh (10 * Real.sin (2 * Real.pi * i / 4096)))) ∧
  (∀ f ∈ [Numerics.sinTable, Numerics.tanhSinTable],
    f 0 = 0#32 ∧ f 2048 = 0#32 ∧ f 1024 = 0x3F800000#32 ∧ f 3072 = 0xBF800000#32 ∧
    ∀ i : Nat, 1 ≤ i → i < 4096 → i ≠ 2048 → f i = F32.neg (f (4096 - i))) ∧
  Numerics.sinTable 512 = 0x3F3504F3#32 ∧ Numerics.tanhSinTable 1 = 0x3C7B4EBF#32 ∧
  ∀ (noise : SampleMem) (j : Nat),
    tableRead noise .square j = Numerics.tanhSinTable j ∧ tableRead noise .saw1 j = saw1 j ∧
    tableRead noise .saw2 j = saw2 j ∧ tableRead noise .triangle j = triangle j ∧
    tableRead noise .sine j = Numerics.sinTable j ∧
    tableRead noise .noise j = noise.read noiseDefault j ∧
    tableRead noise .custom j = tableRead noise .square j

/-- Every sample of every table is a number in [-1, 1] (41_waveform.md R241). -/
def Obligations.TableSamplesStayInUnit : Prop :=
  ∀ (w : Wave) (j : Nat), w ≠ .none → j < w.len →
    finite (tableRead [] w j) ∧ -1 ≤ val (tableRead [] w j) ∧ val (tableRead [] w j) ≤ 1

/-! # Arithmetic -/

/-- The binary32 operations are correctly rounded, and a comparison with a NaN is false
(00_scope.md R10). -/
def Obligations.ArithmeticIsCorrectlyRounded : Prop :=
  (∀ x y : F32, finite x → finite y →
    RoundsTo (F32.add x y) (val x + val y : ℚ) ∧ RoundsTo (F32.sub x y) (val x - val y : ℚ) ∧
    RoundsTo (F32.mul x y) (val x * val y : ℚ) ∧
    (val y ≠ 0 → RoundsTo (F32.div x y) (val x / val y : ℚ)) ∧
    (F32.lt x y = true ↔ val x < val y) ∧ (F32.le x y = true ↔ val x ≤ val y)) ∧
  (∀ n : Nat, RoundsTo (F32.ofNat n) n) ∧
  ∀ x y : F32, nan x ∨ nan y → F32.lt x y = false ∧ F32.le x y = false

/-- The helper functions are exact (00_scope.md R12). -/
def Obligations.HelperFunctionsAreExact : Prop :=
  ∀ x m : F32, finite x → finite m →
    F32.floor x = ⌊val x⌋ ∧
    F32.roundHA x = (if 0 ≤ val x then ⌊val x + 1 / 2⌋ else -⌊-val x + 1 / 2⌋) ∧
    (val m ≠ 0 →
      finite (F32.fmod x m) ∧ val (F32.fmod x m) = val x - val m * truncate (val x / val m)) ∧
    ∀ hi : F32, finite hi → val m ≤ val hi →
      F32.clamp x m hi = if val x < val m then m else if val hi < val x then hi else x

/-- 2 to a rational power, of a size no operation exceeds, is correctly rounded; so is `exp` at the arguments the
output filter gives it, but for what lies within 2^-600 of the exact result (00_scope.md R11, 42_filter.md R262,
R265; log 6, DEDUCED). -/
def Obligations.ExpTwoIsCorrectlyRounded : Prop :=
  (∀ (p : ℤ) (q : ℕ), 0 < q → |p| ≤ 100 * q →
    RoundsTo (Numerics.exp2Frac p q) ((2 : ℝ) ^ ((p : ℝ) / (q : ℝ)))) ∧
  (∀ x : F32, finite x → |val x| ≤ 1 → RoundsNear (Numerics.expF32 x) (Real.exp (val x : ℝ))) ∧
  ∀ (fc : F32) (sr : Nat), finite fc → 1 ≤ sr → sr ≤ 192000 → 0 ≤ val fc → val fc ≤ sr / 2 →
    RoundsNear (Numerics.expMinusTwoPi fc sr) (Real.exp (-2 * Real.pi * (val fc : ℝ) / (sr : ℝ)))

/-! # Invariants -/

/-- The machine right after reset is a legal state. -/
def Obligations.ResetIsLegal : Prop := State.reset.Legal

/-- Every step keeps the reverb RAM in canonical form and the noise ROM as generated
(20_memory.md R100, R111; 10_state.md R44). -/
def Obligations.StepKeepsMemories : Prop :=
  ∀ s t : State, s.memoryLegal → step s = .next t → t.memoryLegal

/-- Every step keeps every patch in range, its name bounded and its MOD envelopes at zero
(44_patch_record.md R323, R326). -/
def Obligations.StepKeepsPatchesLegal : Prop :=
  ∀ s t : State, s.patchesLegal → step s = .next t → t.patchesLegal

/-- Every step keeps every register in its range (10_state.md R41 to R43). -/
def Obligations.StepKeepsRegistersLegal : Prop :=
  ∀ s t : State, s.patchesLegal → s.registersLegal → step s = .next t → t.registersLegal

/-- Every step from a legal state keeps the invariants of the voices (45_voice.md R367). -/
def Obligations.StepKeepsVoicesLegal : Prop :=
  ∀ s t : State, s.Legal → step s = .next t → t.voicesLegal
end

