-- ==== Sys2Proof/Laws/Enclosures.lean ====
section
/-! SUPPORT. The rational intervals of Machine/Numerics.lean enclose what they stand for: ring operations, pi, exp. -/

set_option autoImplicit false

namespace Sys2Proof.Numerics

/-- The real number `v` lies in the interval `b` at precision `prec`. -/
def Ball.Encloses (prec : Nat) (b : Ball) (v : ℝ) : Prop := |v * 2 ^ prec - b.mid| ≤ b.rad

/-! ## Integer quotients against real ones -/

theorem ediv_near (z : ℤ) (d : ℕ) : |(z : ℝ) / d - ((z / (d : ℤ) : ℤ) : ℝ)| ≤ 1 := by
  have h : ((z / (d : ℤ) : ℤ) : ℝ) = ⌊(z : ℝ) / d⌋ := by
    rw [Int.cast_inj, show (z : ℝ) / d = ((z / d : ℚ) : ℝ) by push_cast; rfl, Rat.floor_cast,
      Rat.floor_intCast_div_natCast]
  rw [h, abs_le]
  constructor <;> linarith [Int.floor_le ((z : ℝ) / d), Int.lt_floor_add_one ((z : ℝ) / d)]

theorem div_le_succ (a d : ℕ) : (a : ℝ) / d ≤ ((a / d : ℕ) : ℝ) + 1 := by
  rcases Nat.eq_zero_or_pos d with rfl | hd
  · simp
  · rw [div_le_iff₀ (by exact_mod_cast hd)]
    have := Nat.lt_div_mul_add (a := a) hd
    have h2 : a ≤ (a / d + 1) * d := by rw [Nat.add_mul, Nat.one_mul]; omega
    exact_mod_cast h2

/-! ## The operations -/

namespace Ball

theorem encloses_ofInt (prec : Nat) (z : ℤ) : (ofInt prec z).Encloses prec z := by
  simp [Encloses, ofInt, Nat.one_shiftLeft]

theorem encloses_ofRatio (prec : Nat) (num : ℤ) (den : Nat) :
    (ofRatio prec num den).Encloses prec ((num : ℝ) / den) := by
  have h := ediv_near (num * ((1 <<< prec : Nat) : ℤ)) den
  simp only [Encloses, ofRatio, Nat.one_shiftLeft] at h ⊢
  push_cast at h ⊢
  rwa [div_mul_eq_mul_div]

theorem Encloses.add {prec : Nat} {a b : Ball} {v w : ℝ} (ha : a.Encloses prec v) (hb : b.Encloses prec w) :
    (Ball.add a b).Encloses prec (v + w) := by
  simp only [Encloses, Ball.add] at *
  push_cast
  calc |(v + w) * 2 ^ prec - (a.mid + b.mid : ℝ)|
      = |(v * 2 ^ prec - a.mid) + (w * 2 ^ prec - b.mid)| := by ring_nf
    _ ≤ _ := (abs_add_le _ _).trans (add_le_add ha hb)

theorem Encloses.sub {prec : Nat} {a b : Ball} {v w : ℝ} (ha : a.Encloses prec v) (hb : b.Encloses prec w) :
    (Ball.sub a b).Encloses prec (v - w) := by
  simp only [Encloses, Ball.sub] at *
  push_cast
  calc |(v - w) * 2 ^ prec - (a.mid - b.mid : ℝ)|
      = |(v * 2 ^ prec - a.mid) - (w * 2 ^ prec - b.mid)| := by ring_nf
    _ ≤ _ := (abs_sub _ _).trans (add_le_add ha hb)

theorem Encloses.double {prec : Nat} {a : Ball} {v : ℝ} (ha : a.Encloses prec v) :
    Encloses prec ⟨2 * a.mid, 2 * a.rad⟩ (2 * v) := by
  simp only [Encloses] at *
  push_cast
  rw [mul_assoc, ← mul_sub, abs_mul, abs_two]
  linarith

theorem Encloses.widen {prec : Nat} {a : Ball} {v w : ℝ} (ha : a.Encloses prec v) (k : Nat)
    (h : |w - v| * 2 ^ prec ≤ k) : (a.widen k).Encloses prec w := by
  simp only [Encloses, Ball.widen] at *
  push_cast
  have hp : (0 : ℝ) < 2 ^ prec := by positivity
  calc |w * 2 ^ prec - a.mid| = |(v * 2 ^ prec - a.mid) + (w - v) * 2 ^ prec| := by ring_nf
    _ ≤ |v * 2 ^ prec - a.mid| + |(w - v) * 2 ^ prec| := abs_add_le _ _
    _ ≤ _ := by rw [abs_mul, abs_of_pos hp]; exact add_le_add ha h

theorem Encloses.scale {prec : Nat} {a : Ball} {v : ℝ} (ha : a.Encloses prec v) (num : ℤ) (den : Nat)
    (hd : 0 < den) : (a.scale num den).Encloses prec (v * (num / den)) := by
  simp only [Encloses, Ball.scale] at *
  have h1 := ediv_near (a.mid * num) den
  have h2 := div_le_succ (a.rad * num.natAbs) den
  push_cast [Nat.cast_natAbs] at h1 h2 ⊢
  have hd' : (0 : ℝ) < den := by exact_mod_cast hd
  have h3 : |v * 2 ^ prec - a.mid| * |(num : ℝ) / den| ≤ a.rad * |(num : ℝ)| / den := by
    rw [abs_div, abs_of_pos hd', mul_div_assoc]
    exact mul_le_mul_of_nonneg_right ha (by positivity)
  calc |v * ((num : ℝ) / den) * 2 ^ prec - ((a.mid * num / (den : ℤ) : ℤ) : ℝ)|
      = |(v * 2 ^ prec - a.mid) * ((num : ℝ) / den) +
          ((a.mid : ℝ) * num / den - ((a.mid * num / (den : ℤ) : ℤ) : ℝ))| := by ring_nf
    _ ≤ |(v * 2 ^ prec - a.mid) * ((num : ℝ) / den)| + 1 := (abs_add_le _ _).trans (by linarith)
    _ ≤ _ := by rw [abs_mul]; linarith

/-- The size of the centre of an interval, by that of a number inside. -/
theorem Encloses.mid_le {prec : Nat} {a : Ball} {v : ℝ} (ha : a.Encloses prec v) :
    |(a.mid : ℝ)| ≤ |v| * 2 ^ prec + a.rad := by
  have hp : (0 : ℝ) < 2 ^ prec := by positivity
  have h : |(a.mid : ℝ)| ≤ |v * 2 ^ prec| + |v * 2 ^ prec - a.mid| := by
    have := abs_sub (v * 2 ^ prec) (v * 2 ^ prec - a.mid)
    rwa [sub_sub_cancel] at this
  rw [abs_mul, abs_of_pos hp] at h
  exact h.trans (by unfold Encloses at ha; linarith)

theorem Encloses.mul {prec : Nat} {a b : Ball} {v w : ℝ} (ha : a.Encloses prec v) (hb : b.Encloses prec w) :
    (Ball.mul prec a b).Encloses prec (v * w) := by
  have h1 := ediv_near (a.mid * b.mid) (1 <<< prec)
  have h2 := div_le_succ (a.mid.natAbs * b.rad + b.mid.natAbs * a.rad + a.rad * b.rad) (1 <<< prec)
  simp only [Encloses, Ball.mul, Nat.one_shiftLeft] at *
  have hp : (0 : ℝ) < 2 ^ prec := by positivity
  push_cast [Nat.cast_natAbs] at h1 h2 ⊢
  set δ := v * 2 ^ prec - a.mid with hδ
  set ε := w * 2 ^ prec - b.mid with hε
  have h3 : |a.mid * ε + b.mid * δ + δ * ε| ≤
      |(a.mid : ℝ)| * b.rad + |(b.mid : ℝ)| * a.rad + a.rad * b.rad := by
    refine (abs_add_le _ _).trans (add_le_add ((abs_add_le _ _).trans (add_le_add ?_ ?_)) ?_) <;> rw [abs_mul]
    · exact mul_le_mul_of_nonneg_left hb (abs_nonneg _)
    · exact mul_le_mul_of_nonneg_left ha (abs_nonneg _)
    · exact mul_le_mul ha hb (abs_nonneg _) (by positivity)
  calc |v * w * 2 ^ prec - ((a.mid * b.mid / (2 ^ prec : ℤ) : ℤ) : ℝ)|
      = |(a.mid * ε + b.mid * δ + δ * ε) / 2 ^ prec +
          ((a.mid : ℝ) * b.mid / 2 ^ prec - ((a.mid * b.mid / (2 ^ prec : ℤ) : ℤ) : ℝ))| := by
        congr 1; rw [hδ, hε]; field_simp; ring
    _ ≤ |(a.mid * ε + b.mid * δ + δ * ε) / 2 ^ prec| + 1 := (abs_add_le _ _).trans (by linarith)
    _ ≤ _ := by
        rw [abs_div, abs_of_pos hp]
        have := div_le_div_of_nonneg_right h3 hp.le
        linarith

/-! ## How wide the results are -/

theorem Encloses.mul_rad_le {prec : Nat} {a b : Ball} {v w : ℝ} (ha : a.Encloses prec v)
    (hb : b.Encloses prec w) (h : 3 * a.rad * b.rad ≤ 2 ^ prec) :
    ((Ball.mul prec a b).rad : ℝ) ≤ |v| * b.rad + |w| * a.rad + 3 := by
  have hp : (0 : ℝ) < 2 ^ prec := by positivity
  have h1 : (((a.mid.natAbs * b.rad + b.mid.natAbs * a.rad + a.rad * b.rad) / 2 ^ prec : ℕ) : ℝ) ≤
      (|(a.mid : ℝ)| * b.rad + |(b.mid : ℝ)| * a.rad + a.rad * b.rad) / 2 ^ prec := by
    refine Nat.cast_div_le.trans (le_of_eq ?_)
    push_cast [Nat.cast_natAbs]
    rfl
  have h2 : (3 * a.rad * b.rad : ℝ) ≤ 2 ^ prec := by exact_mod_cast h
  have h3 : (|(a.mid : ℝ)| * b.rad + |(b.mid : ℝ)| * a.rad + a.rad * b.rad) / 2 ^ prec ≤
      |v| * b.rad + |w| * a.rad + 1 := by
    rw [div_le_iff₀ hp]
    have hx := mul_le_mul_of_nonneg_right ha.mid_le (Nat.cast_nonneg (α := ℝ) b.rad)
    have hy := mul_le_mul_of_nonneg_right hb.mid_le (Nat.cast_nonneg (α := ℝ) a.rad)
    nlinarith
  simp only [Ball.mul, Nat.one_shiftLeft]
  push_cast at h1 ⊢
  linarith

/-- The square of an interval that is narrow beside 1. -/
theorem Encloses.sq_rad_le {prec : Nat} {a : Ball} {v w r : ℝ} (ha : a.Encloses prec v) (hv : |v| ≤ w)
    (hw : 1 ≤ w) (hr : (a.rad : ℝ) ≤ r) (h2 : 2 ≤ r) (h : 3 * r ≤ 2 ^ prec) :
    ((Ball.mul prec a a).rad : ℝ) ≤ 4 * w * r := by
  have hp : (0 : ℝ) < 2 ^ prec := by positivity
  have h1 : (((a.mid.natAbs * a.rad + a.mid.natAbs * a.rad + a.rad * a.rad) / 2 ^ prec : ℕ) : ℝ) ≤
      (2 * |(a.mid : ℝ)| * a.rad + a.rad * a.rad) / 2 ^ prec := by
    refine Nat.cast_div_le.trans (le_of_eq ?_)
    push_cast [Nat.cast_natAbs]
    ring
  have h0 : (0 : ℝ) ≤ a.rad := Nat.cast_nonneg _
  have h3 : (2 * |(a.mid : ℝ)| * a.rad + a.rad * a.rad) / 2 ^ prec ≤ 2 * w * r + r := by
    rw [div_le_iff₀ hp]
    have hm : |(a.mid : ℝ)| ≤ w * 2 ^ prec + r :=
      ha.mid_le.trans (add_le_add (mul_le_mul_of_nonneg_right hv hp.le) hr)
    have hx : 2 * |(a.mid : ℝ)| * a.rad ≤ 2 * (w * 2 ^ prec + r) * r :=
      mul_le_mul (by linarith) hr h0 (by positivity)
    have hy : (a.rad : ℝ) * a.rad ≤ r * r := mul_le_mul hr hr h0 (by linarith)
    have hz : 3 * r * r ≤ 2 ^ prec * r := mul_le_mul_of_nonneg_right h (by linarith)
    linarith
  simp only [Ball.mul, Nat.one_shiftLeft]
  push_cast at h1 ⊢
  nlinarith

theorem scale_rad_le (a : Ball) (num : ℤ) (den : Nat) :
    ((a.scale num den).rad : ℝ) ≤ a.rad * |(num : ℝ)| / den + 2 := by
  have h : (((a.rad * num.natAbs / den : ℕ)) : ℝ) ≤ a.rad * |(num : ℝ)| / den := by
    refine Nat.cast_div_le.trans (le_of_eq ?_)
    push_cast [Nat.cast_natAbs]
    rfl
  simp only [Ball.scale]
  push_cast at h ⊢
  linarith

end Ball

/-! ## The exponential (00_scope.md R11) -/

/-- `expNest` encloses the first `k` terms of the series and the `k`-th times what the rest encloses. -/
theorem encloses_expNest {prec : Nat} {y : Ball} {Y : ℝ} (hy : y.Encloses prec Y) (k : Nat) {acc : Ball}
    {A : ℝ} (ha : acc.Encloses prec A) :
    (expNest prec y k acc).Encloses prec
      ((∑ m ∈ Finset.range k, Y ^ m / m.factorial) + Y ^ k / k.factorial * A) := by
  induction k generalizing acc A with
  | zero => simpa [expNest] using ha
  | succ k ih =>
    have h := ih ((Ball.encloses_ofInt prec 1).add ((hy.mul ha).scale 1 (k + 1) (by omega)))
    have e : (∑ m ∈ Finset.range (k + 1), Y ^ m / m.factorial) + Y ^ (k + 1) / (k + 1).factorial * A =
        (∑ m ∈ Finset.range k, Y ^ m / m.factorial) +
          Y ^ k / k.factorial * (((1 : ℤ) : ℝ) + Y * A * (((1 : ℤ) : ℝ) / ((k + 1 : ℕ) : ℝ))) := by
      rw [Finset.sum_range_succ, Nat.factorial_succ]
      push_cast
      field_simp
      ring
    rw [e]
    exact h

theorem encloses_squares {prec : Nat} (k : Nat) {b : Ball} {v : ℝ} (hb : b.Encloses prec v) :
    (squares prec k b).Encloses prec (v ^ 2 ^ k) := by
  induction k generalizing b v with
  | zero => simpa [squares] using hb
  | succ k ih =>
    have h := ih (hb.mul hb)
    rwa [← pow_two, ← pow_mul, ← pow_succ'] at h

/-- The argument of the exponential series is the given one, halved `h` times. -/
theorem encloses_halved {prec : Nat} {x : Ball} {X : ℝ} (hx : x.Encloses prec X) (h : Nat) :
    Ball.Encloses prec ⟨x.mid / (1 <<< h : Nat), (x.rad >>> h) + 2⟩ (X / 2 ^ h) := by
  have hp : (0 : ℝ) < 2 ^ h := by positivity
  have h1 := ediv_near x.mid (1 <<< h)
  have h2 := div_le_succ x.rad (2 ^ h)
  simp only [Ball.Encloses, Nat.one_shiftLeft, Nat.shiftRight_eq_div_pow] at *
  push_cast at h1 h2 ⊢
  have h3 : |X * 2 ^ prec - x.mid| / 2 ^ h ≤ x.rad / 2 ^ h := div_le_div_of_nonneg_right hx hp.le
  calc |X / 2 ^ h * 2 ^ prec - ((x.mid / (2 ^ h : ℤ) : ℤ) : ℝ)|
      = |(X * 2 ^ prec - x.mid) / 2 ^ h + ((x.mid : ℝ) / 2 ^ h - ((x.mid / (2 ^ h : ℤ) : ℤ) : ℝ))| := by
        ring_nf
    _ ≤ |X * 2 ^ prec - x.mid| / 2 ^ h + 1 := by
        refine (abs_add_le _ _).trans ?_
        rw [abs_div, abs_of_pos hp]
        linarith
    _ ≤ _ := by linarith

/-- The halved argument is below 2^-8. -/
theorem halved_small {prec : Nat} {x : Ball} {X : ℝ} (hx : x.Encloses prec X) :
    |X / 2 ^ ((x.mid.natAbs + x.rad).log2 + 9 - prec)| ≤ 1 / 2 ^ 8 := by
  set n := x.mid.natAbs + x.rad with hn
  set h := n.log2 + 9 - prec with hh
  have hp : (0 : ℝ) < 2 ^ prec := by positivity
  have h1 : |X| * 2 ^ prec ≤ n := by
    have h2 : |X * 2 ^ prec| ≤ |(x.mid : ℝ)| + |X * 2 ^ prec - x.mid| := by
      have := abs_add_le (x.mid : ℝ) (X * 2 ^ prec - x.mid)
      rwa [add_sub_cancel] at this
    rw [abs_mul, abs_of_pos hp] at h2
    have h3 : (n : ℝ) = |(x.mid : ℝ)| + x.rad := by rw [hn]; push_cast [Nat.cast_natAbs]; rfl
    rw [h3]
    exact h2.trans (by unfold Ball.Encloses at hx; linarith)
  have h4 : (n : ℝ) ≤ 2 ^ (n.log2 + 1) := by exact_mod_cast Nat.lt_log2_self.le
  have h5 : (2 : ℝ) ^ (n.log2 + 1) * 2 ^ 8 ≤ 2 ^ h * 2 ^ prec := by
    rw [← pow_add, ← pow_add]
    exact pow_le_pow_right₀ (by norm_num) (by omega)
  rw [abs_div, abs_of_pos (by positivity : (0 : ℝ) < 2 ^ h), div_le_div_iff₀ (by positivity) (by positivity)]
  have h6 : |X| * 2 ^ prec * 2 ^ 8 ≤ 2 ^ h * 2 ^ prec := by
    calc |X| * 2 ^ prec * 2 ^ 8 ≤ 2 ^ (n.log2 + 1) * 2 ^ 8 := by
          exact mul_le_mul_of_nonneg_right (h1.trans h4) (by positivity)
      _ ≤ _ := h5
  have : |X| * 2 ^ 8 * 2 ^ prec ≤ 2 ^ h * 2 ^ prec := by linarith
  have := le_of_mul_le_mul_right this hp
  linarith

/-- The series of `expBall` is off by less than one unit. -/
theorem expSeries_near (prec : Nat) (Y : ℝ) (hY : |Y| ≤ 1 / 2 ^ 8) :
    |Real.exp Y - ∑ m ∈ Finset.range (prec / 8 + 2), Y ^ m / m.factorial| * 2 ^ prec ≤ 1 := by
  have h := Real.exp_bound (x := Y) (hY.trans (by norm_num)) (n := prec / 8 + 2) (by omega)
  set n := prec / 8 + 2 with hn
  have h1 : |Y| ^ n ≤ (1 / 2 ^ 8) ^ n := pow_le_pow_left₀ (abs_nonneg _) hY n
  have h2 : ((n.succ : ℝ) / (n.factorial * n)) ≤ 2 := by
    rw [div_le_iff₀ (by positivity)]
    have hf : (1 : ℝ) ≤ n.factorial := by exact_mod_cast Nat.one_le_iff_ne_zero.2 (Nat.factorial_ne_zero n)
    have hn1 : (2 : ℝ) ≤ n := by exact_mod_cast (by omega : 2 ≤ n)
    push_cast
    nlinarith
  have h3 : |Y| ^ n * ((n.succ : ℝ) / (n.factorial * n)) ≤ (1 / 2 ^ 8) ^ n * 2 :=
    mul_le_mul h1 h2 (by positivity) (by positivity)
  have h4 : ((1 : ℝ) / 2 ^ 8) ^ n * 2 * 2 ^ prec ≤ 1 := by
    rw [div_pow, one_pow, ← pow_mul, mul_assoc, one_div, inv_mul_le_iff₀ (by positivity), mul_one, ← pow_succ']
    exact pow_le_pow_right₀ (by norm_num) (by omega)
  exact (mul_le_mul_of_nonneg_right (h.trans h3) (by positivity)).trans h4

/-- `expBall` encloses the exponential. -/
theorem encloses_expBall {prec : Nat} {x : Ball} {X : ℝ} (hx : x.Encloses prec X) :
    (expBall prec x).Encloses prec (Real.exp X) := by
  unfold expBall
  set h := (x.mid.natAbs + x.rad).log2 + 9 - prec with hh
  have h1 := encloses_expNest (encloses_halved hx h) (prec / 8 + 1) (Ball.encloses_ofInt prec 1)
  rw [Int.cast_one, mul_one, ← Finset.sum_range_succ] at h1
  have h2 := h1.widen (w := Real.exp (X / 2 ^ h)) 1 (by
    push_cast
    exact expSeries_near prec _ (halved_small hx))
  have h3 := encloses_squares h h2
  rw [← Real.exp_nat_mul] at h3
  push_cast at h3
  rwa [mul_div_cancel₀ _ (by positivity)] at h3

/-! ## Alternating series -/

/-- What is left of an alternating series of falling terms is at most its next term. -/
theorem alternating_rest {f : ℕ → ℝ} {l : ℝ} (hf : Antitone f)
    (hl : Filter.Tendsto (fun n => ∑ i ∈ Finset.range n, (-1) ^ i * f i) Filter.atTop (nhds l)) (k : ℕ) :
    |(-1) ^ k * (l - ∑ i ∈ Finset.range k, (-1) ^ i * f i)| ≤ f k := by
  rw [abs_mul, abs_pow, abs_neg, abs_one, one_pow, one_mul, abs_le]
  rcases Nat.even_or_odd' k with ⟨m, rfl | rfl⟩
  · have h1 := hf.alternating_series_le_tendsto hl m
    have h2 := hf.tendsto_le_alternating_series hl m
    have h3 := Finset.sum_range_succ (fun i => (-1) ^ i * f i) (2 * m)
    simp only [pow_mul, neg_one_sq, one_pow, one_mul] at h3
    constructor <;> linarith
  · have h1 := hf.alternating_series_le_tendsto hl (m + 1)
    have h2 := hf.tendsto_le_alternating_series hl m
    have h3 := Finset.sum_range_succ (fun i => (-1) ^ i * f i) (2 * m + 1)
    have hs : (-1 : ℝ) ^ (2 * m + 1) = -1 := by rw [pow_succ, pow_mul]; norm_num
    simp only [hs] at h3
    rw [show 2 * (m + 1) = 2 * m + 1 + 1 by ring] at h1
    constructor <;> linarith

/-! ## pi -/

/-- The terms of arctan(1/n). -/
theorem arctan_terms (n : ℕ) (hn : 2 ≤ n) :
    Antitone (fun k : ℕ => ((n : ℝ) ^ (2 * k + 1) * (2 * k + 1))⁻¹) ∧
      Filter.Tendsto
        (fun m => ∑ i ∈ Finset.range m, (-1) ^ i * ((n : ℝ) ^ (2 * i + 1) * (2 * i + 1))⁻¹)
        Filter.atTop (nhds (Real.arctan (n : ℝ)⁻¹)) := by
  have hn' : (2 : ℝ) ≤ n := by exact_mod_cast hn
  constructor
  · refine antitone_nat_of_succ_le fun k => inv_anti₀ (by positivity) ?_
    refine mul_le_mul (pow_le_pow_right₀ (by linarith) (by omega)) ?_ (by positivity) (by positivity)
    push_cast
    linarith
  · have h := (Real.hasSum_arctan (x := (n : ℝ)⁻¹) (by
      rw [norm_inv, Real.norm_natCast]
      exact inv_lt_one_of_one_lt₀ (by linarith))).tendsto_sum_nat
    refine h.congr fun m => Finset.sum_congr rfl fun i _ => ?_
    rw [inv_pow, mul_inv]
    push_cast
    field_simp

theorem atanTerms_near (prec n : ℕ) (hn : 2 ≤ n) (fuel k : ℕ) :
    |(atanTerms prec n fuel k (n ^ (2 * k + 1)) : ℝ) -
        (-1) ^ k * (Real.arctan (n : ℝ)⁻¹ -
          ∑ i ∈ Finset.range k, (-1) ^ i * ((n : ℝ) ^ (2 * i + 1) * (2 * i + 1))⁻¹) * 2 ^ prec| ≤
      fuel + 2 ^ prec * ((n : ℝ) ^ (2 * (k + fuel) + 1) * (2 * (k + fuel) + 1))⁻¹ := by
  induction fuel generalizing k with
  | zero =>
    have h := alternating_rest (arctan_terms n hn).1 (arctan_terms n hn).2 k
    simp only [atanTerms, Int.cast_zero, zero_sub, abs_neg, abs_mul, abs_pow, abs_two, Nat.cast_zero, zero_add,
      add_zero] at h ⊢
    rw [mul_comm (2 ^ prec : ℝ)]
    exact mul_le_mul_of_nonneg_right h (by positivity)
  | succ fuel ih =>
    have h := ih (k + 1)
    rw [Finset.sum_range_succ] at h
    have hd := ediv_near ((2 ^ prec : ℕ) : ℤ) (n ^ (2 * k + 1) * (2 * k + 1))
    have e1 : n ^ (2 * k + 1) * n * n = n ^ (2 * (k + 1) + 1) := by ring
    simp only [atanTerms, Nat.one_shiftLeft, e1]
    push_cast at hd h ⊢
    rw [show 2 * (k + (fuel + 1)) + 1 = 2 * (k + 1 + fuel) + 1 by ring]
    rw [show (2 * ((k : ℝ) + (fuel + 1)) + 1) = 2 * (k + 1 + fuel) + 1 by ring]
    set S := ∑ i ∈ Finset.range k, (-1 : ℝ) ^ i * ((n : ℝ) ^ (2 * i + 1) * (2 * i + 1))⁻¹
    set t := ((n : ℝ) ^ (2 * k + 1) * (2 * k + 1))⁻¹ with ht
    set B := (atanTerms prec n fuel (k + 1) (n ^ (2 * (k + 1) + 1)) : ℝ)
    set q := (((2 : ℤ) ^ prec / ((n : ℤ) ^ (2 * k + 1) * (2 * k + 1)) : ℤ) : ℝ)
    have e2 : (2 : ℝ) ^ prec / (n ^ (2 * k + 1) * (2 * k + 1)) = t * 2 ^ prec := by rw [ht]; field_simp
    rw [e2] at hd
    have hs : ((-1 : ℝ) ^ k) * (-1) ^ k = 1 := by rw [← mul_pow]; norm_num
    have e3 : q - B - (-1) ^ k * (Real.arctan (n : ℝ)⁻¹ - S) * 2 ^ prec =
        -(t * 2 ^ prec - q) - (B - (-1) ^ (k + 1) * (Real.arctan (n : ℝ)⁻¹ - (S + (-1) ^ k * t)) * 2 ^ prec) := by
      rw [pow_succ]
      linear_combination (-(t * 2 ^ prec)) * hs
    rw [e3]
    refine (abs_sub _ _).trans ?_
    rw [abs_neg]
    linarith

theorem encloses_atanInv (prec n : ℕ) (hn : 2 ≤ n) : (atanInv prec n).Encloses prec (Real.arctan (n : ℝ)⁻¹) := by
  have h := atanTerms_near prec n hn (prec / (2 * n.log2) + 1) 0
  simp only [atanInv, Ball.Encloses]
  rw [abs_sub_comm]
  push_cast at h ⊢
  simp only [zero_add, pow_one, pow_zero, one_mul, Finset.range_zero, Finset.sum_empty,
    sub_zero] at h
  refine h.trans (add_le_add_right ?_ _)
  set m := prec / (2 * n.log2) + 1 with hm
  have hlog : 1 ≤ n.log2 := (Nat.le_log2 (by omega)).2 (by simpa using hn)
  have h1 : prec ≤ n.log2 * (2 * m) := by
    have := Nat.lt_div_mul_add (a := prec) (b := 2 * n.log2) (by omega)
    rw [hm]
    nlinarith
  have h2 : 2 ^ prec ≤ n ^ (2 * m + 1) := by
    calc 2 ^ prec ≤ 2 ^ (n.log2 * (2 * m)) := Nat.pow_le_pow_right (by omega) h1
      _ = (2 ^ n.log2) ^ (2 * m) := by rw [pow_mul]
      _ ≤ n ^ (2 * m) := Nat.pow_le_pow_left (Nat.log2_self_le (by omega)) _
      _ ≤ n ^ (2 * m + 1) := Nat.pow_le_pow_right (by omega) (by omega)
  have h3 : (2 : ℝ) ^ prec ≤ (n : ℝ) ^ (2 * m + 1) := by exact_mod_cast h2
  have hn' : (0 : ℝ) < n := by exact_mod_cast (by omega : 0 < n)
  have h4 : (1 : ℝ) ≤ 2 * ((prec / (2 * n.log2) : ℕ) + 1) + 1 := by
    have : (0 : ℝ) ≤ ((prec / (2 * n.log2) : ℕ) : ℝ) := Nat.cast_nonneg _
    linarith
  rw [← div_eq_mul_inv, div_le_one (by positivity)]
  have h5 : (n : ℝ) ^ (2 * m + 1) * 1 ≤ (n : ℝ) ^ (2 * m + 1) * (2 * ((prec / (2 * n.log2) : ℕ) + 1) + 1) :=
    mul_le_mul_of_nonneg_left h4 (by positivity)
  linarith

/-- The enclosure of pi. -/
theorem encloses_pi (prec : Nat) : (pi prec).Encloses prec Real.pi := by
  have h1 := encloses_atanInv prec 5 (by omega)
  have h2 := encloses_atanInv prec 239 (by omega)
  have e := Real.four_mul_arctan_inv_5_sub_arctan_inv_239
  simp only [Ball.Encloses, pi] at *
  push_cast at *
  have e1 : Real.pi * 2 ^ prec =
      16 * (Real.arctan 5⁻¹ * 2 ^ prec) - 4 * (Real.arctan 239⁻¹ * 2 ^ prec) := by
    linear_combination (-(4 * 2 ^ prec)) * e
  rw [abs_le] at *
  constructor <;> linarith

/-! ## The width of the last enclosure of the exponential -/

theorem expNest_rad_le {prec : Nat} {y : Ball} {Y : ℝ} (hy : y.Encloses prec Y) (hY : |Y| ≤ 1 / 2 ^ 8)
    (hp : 3 * y.rad * (4 * y.rad + 10) ≤ 2 ^ prec) (k : Nat) {acc : Ball} {A : ℝ} (ha : acc.Encloses prec A)
    (hA : |A| ≤ 2) (hr : acc.rad ≤ 4 * y.rad + 10) : (expNest prec y k acc).rad ≤ 4 * y.rad + 10 := by
  induction k generalizing acc A with
  | zero => exact hr
  | succ k ih =>
    have hk : (1 : ℝ) ≤ ((k + 1 : ℕ) : ℝ) := by push_cast; linarith [Nat.cast_nonneg (α := ℝ) k]
    have hYA : |Y * A| ≤ 1 := by
      rw [abs_mul]
      calc |Y| * |A| ≤ 1 / 2 ^ 8 * 2 := mul_le_mul hY hA (abs_nonneg _) (by norm_num)
        _ ≤ 1 := by norm_num
    refine ih ((Ball.encloses_ofInt prec 1).add ((hy.mul ha).scale 1 (k + 1) (by omega))) ?_ ?_
    · have h1 : |Y * A * (((1 : ℤ) : ℝ) / ((k + 1 : ℕ) : ℝ))| ≤ 1 := by
        rw [abs_mul, abs_div, Int.cast_one, abs_one, Nat.abs_cast]
        exact mul_le_one₀ hYA (by positivity) (by rw [div_le_one (by linarith)]; exact hk)
      exact (abs_add_le _ _).trans (by rw [Int.cast_one, abs_one]; linarith)
    · have h1 := hy.mul_rad_le ha ((Nat.mul_le_mul_left _ hr).trans hp)
      have h2 := Ball.scale_rad_le (Ball.mul prec y acc) 1 (k + 1)
      have h3 : ((Ball.mul prec y acc).rad : ℝ) * |((1 : ℤ) : ℝ)| / ((k + 1 : ℕ) : ℝ) ≤
          (Ball.mul prec y acc).rad := by
        rw [Int.cast_one, abs_one, mul_one]
        exact div_le_self (by positivity) hk
      have hr' : (acc.rad : ℝ) ≤ 4 * y.rad + 10 := by exact_mod_cast hr
      have h4 : |Y| * acc.rad ≤ 1 / 2 ^ 8 * (4 * y.rad + 10) :=
        mul_le_mul hY hr' (by positivity) (by norm_num)
      have h5 : |A| * y.rad ≤ 2 * y.rad := mul_le_mul_of_nonneg_right hA (by positivity)
      have h6 : (((Ball.mul prec y acc).scale 1 (k + 1)).rad : ℝ) ≤ 4 * y.rad + 10 := by
        have : (0 : ℝ) ≤ y.rad := Nat.cast_nonneg _
        norm_num at h4 h1 h2 h3 ⊢
        linarith
      have h7 : ((Ball.mul prec y acc).scale 1 (k + 1)).rad ≤ 4 * y.rad + 10 := by exact_mod_cast h6
      simpa [Ball.add, Ball.ofInt] using h7

theorem squares_rad_le {prec : Nat} (k : Nat) {b : Ball} {v w r : ℝ} (hb : b.Encloses prec v) (hv : |v| ≤ w)
    (hw : 1 ≤ w) (hr : (b.rad : ℝ) ≤ r) (h2 : 2 ≤ r) (hp : 3 * (4 ^ k * w ^ (2 ^ k - 1) * r) ≤ 2 ^ prec) :
    ((squares prec k b).rad : ℝ) ≤ 4 ^ k * w ^ (2 ^ k - 1) * r := by
  induction k generalizing b v w r with
  | zero => simpa [squares] using hr
  | succ k ih =>
    have e : (4 : ℝ) ^ (k + 1) * w ^ (2 ^ (k + 1) - 1) * r = 4 ^ k * (w ^ 2) ^ (2 ^ k - 1) * (4 * w * r) := by
      have h1 : 2 ^ (k + 1) - 1 = 2 * (2 ^ k - 1) + 1 := by
        have := Nat.one_le_two_pow (n := k)
        omega
      rw [h1, ← pow_mul]
      ring
    have hw2 : 1 ≤ w ^ 2 := one_le_pow₀ hw
    have h4 : (1 : ℝ) ≤ 4 ^ k * (w ^ 2) ^ (2 ^ k - 1) :=
      one_le_mul_of_one_le_of_one_le (one_le_pow₀ (by norm_num)) (one_le_pow₀ hw2)
    have h5 : r ≤ 4 * w * r := by nlinarith
    rw [e] at hp ⊢
    have h6 : 4 * w * r ≤ 4 ^ k * (w ^ 2) ^ (2 ^ k - 1) * (4 * w * r) :=
      le_mul_of_one_le_left (by linarith) h4
    exact ih (hb.mul hb) (by rw [abs_mul, pow_two]; exact mul_le_mul hv hv (abs_nonneg _) (by linarith)) hw2
      (hb.sq_rad_le hv hw hr h2 (by linarith)) (by linarith) hp

/-- An exponential of at most e^20 is known to 2^82 units, if its argument is to 2^22. -/
theorem expBall_rad_le {prec : Nat} (hprec : 96 ≤ prec) {x : Ball} {X : ℝ} (hx : x.Encloses prec X)
    (hr : x.rad ≤ 2 ^ 22) (hX : |X| ≤ 32) (hX1 : X ≤ 20) : (expBall prec x).rad ≤ 2 ^ 82 := by
  have hbig : 2 ^ 96 ≤ 2 ^ prec := Nat.pow_le_pow_right Nat.zero_lt_two hprec
  have hbig' : (2 : ℝ) ^ 96 ≤ 2 ^ prec := by exact_mod_cast hbig
  unfold expBall
  set h := (x.mid.natAbs + x.rad).log2 + 9 - prec with hh
  have hh14 : h ≤ 14 := by
    have h1 := hx.mid_le
    have hr' : (x.rad : ℝ) ≤ 2 ^ 22 := by exact_mod_cast hr
    have h2 : |(x.mid : ℝ)| + x.rad < 2 ^ (prec + 6) := by
      have h4 := mul_le_mul_of_nonneg_right hX (by positivity : (0 : ℝ) ≤ 2 ^ prec)
      rw [pow_add]
      norm_num at hbig' ⊢
      linarith
    have h3 : x.mid.natAbs + x.rad < 2 ^ (prec + 6) := by
      have : ((x.mid.natAbs + x.rad : ℕ) : ℝ) < ((2 ^ (prec + 6) : ℕ) : ℝ) := by
        push_cast [Nat.cast_natAbs]
        exact h2
      exact_mod_cast this
    have h4 : (x.mid.natAbs + x.rad).log2 < prec + 6 := by
      rcases Nat.eq_zero_or_pos (x.mid.natAbs + x.rad) with h0 | h0
      · rw [h0, Nat.log2_zero]; omega
      · exact (Nat.log2_lt (by omega)).2 h3
    omega
  have hy := encloses_halved hx h
  set y : Ball := ⟨x.mid / (1 <<< h : Nat), (x.rad >>> h) + 2⟩ with hyd
  have hyr : y.rad ≤ 2 ^ 22 + 2 := by
    have : x.rad >>> h ≤ x.rad := Nat.shiftRight_le _ _
    simp only [hyd]
    omega
  have hsm := halved_small hx
  rw [← hh] at hsm
  have hn := expNest_rad_le hy hsm
    (le_trans (Nat.mul_le_mul (Nat.mul_le_mul_left 3 hyr)
      (Nat.add_le_add_right (Nat.mul_le_mul_left 4 hyr) 10)) (le_trans (by norm_num) hbig))
    (prec / 8 + 1) (Ball.encloses_ofInt prec 1) (by norm_num) (by simp [Ball.ofInt])
  have h1 := encloses_expNest hy (prec / 8 + 1) (Ball.encloses_ofInt prec 1)
  rw [Int.cast_one, mul_one, ← Finset.sum_range_succ] at h1
  have h2 := h1.widen (w := Real.exp (X / 2 ^ h)) 1 (by
    push_cast
    exact expSeries_near prec _ hsm)
  set W := Real.exp (max X 0 / 2 ^ h) with hW
  have hpow : (0 : ℝ) < 2 ^ h := by positivity
  have hWh : W ^ (2 ^ h - 1) ≤ 2 ^ 29 := by
    have h3 : W ^ (2 ^ h - 1) ≤ W ^ 2 ^ h :=
      pow_le_pow_right₀ (Real.one_le_exp (div_nonneg (le_max_right _ _) hpow.le)) (Nat.sub_le _ _)
    have h4 : W ^ 2 ^ h = Real.exp (max X 0) := by
      rw [hW, ← Real.exp_nat_mul]
      push_cast
      rw [mul_div_cancel₀ _ hpow.ne']
    rw [h4] at h3
    refine h3.trans ((Real.exp_le_exp.2 (?_ : _ ≤ ((20 : ℕ) : ℝ) * 1)).trans ?_)
    · push_cast
      exact max_le (by linarith) (by norm_num)
    · rw [Real.exp_nat_mul]
      exact (pow_le_pow_left₀ (Real.exp_pos 1).le Real.exp_one_lt_d9.le 20).trans (by norm_num)
  have h4h : (4 : ℝ) ^ h ≤ 2 ^ 28 := (pow_le_pow_right₀ (by norm_num) hh14).trans (by norm_num)
  have hle : (4 : ℝ) ^ h * W ^ (2 ^ h - 1) * 2 ^ 25 ≤ 2 ^ 82 := by
    calc (4 : ℝ) ^ h * W ^ (2 ^ h - 1) * 2 ^ 25 ≤ 2 ^ 28 * 2 ^ 29 * 2 ^ 25 :=
          mul_le_mul_of_nonneg_right (mul_le_mul h4h hWh (by positivity) (by positivity)) (by positivity)
      _ = 2 ^ 82 := by norm_num
  have h3 := squares_rad_le (w := W) (r := 2 ^ 25) h h2
    (by rw [Real.abs_exp]; exact Real.exp_le_exp.2 (div_le_div_of_nonneg_right (le_max_left _ _) hpow.le))
    (Real.one_le_exp (div_nonneg (le_max_right _ _) hpow.le))
    (by
      have : ((expNest prec y (prec / 8 + 1) (Ball.ofInt prec 1)).widen 1).rad ≤ 2 ^ 25 := by
        simp only [Ball.widen]; omega
      exact_mod_cast this)
    (by norm_num) (by norm_num at hle hbig' ⊢; linarith)
  exact_mod_cast h3.trans hle

/-- How wide the enclosure of pi is. -/
theorem pi_rad_le : ∀ prec ∈ Config.precisions, 96 ≤ prec ∧ (pi prec).rad ≤ 3328 := by decide +kernel

/-! ## Sine and hyperbolic tangent -/

/-- One term of the series of sin x / x, taken in at the inner end of the nested sum. -/
theorem sinSum_succ (X A : ℝ) (k : Nat) :
    (∑ m ∈ Finset.range (k + 1), (-1) ^ m * (X ^ (2 * m) / (2 * m + 1).factorial)) +
        (-1) ^ (k + 1) * (X ^ (2 * (k + 1)) / (2 * (k + 1) + 1).factorial) * A =
      (∑ m ∈ Finset.range k, (-1) ^ m * (X ^ (2 * m) / (2 * m + 1).factorial)) +
        (-1) ^ k * (X ^ (2 * k) / (2 * k + 1).factorial) *
          (((1 : ℤ) : ℝ) - X ^ 2 * A * (((1 : ℤ) : ℝ) / (((2 * k + 2) * (2 * k + 3) : ℕ) : ℝ))) := by
  rw [Finset.sum_range_succ, show 2 * (k + 1) + 1 = (2 * k + 1 + 1) + 1 by ring,
    Nat.factorial_succ (2 * k + 1 + 1), Nat.factorial_succ (2 * k + 1)]
  push_cast
  field_simp
  ring

/-- `sinNest` encloses the first `k` terms of the series of sin x / x and the `k`-th times what the rest encloses. -/
theorem encloses_sinNest {prec : Nat} {x2 : Ball} {X : ℝ} (hx : x2.Encloses prec (X ^ 2)) (k : Nat)
    {acc : Ball} {A : ℝ} (ha : acc.Encloses prec A) :
    (sinNest prec x2 k acc).Encloses prec
      ((∑ m ∈ Finset.range k, (-1) ^ m * (X ^ (2 * m) / (2 * m + 1).factorial)) +
        (-1) ^ k * (X ^ (2 * k) / (2 * k + 1).factorial) * A) := by
  induction k generalizing acc A with
  | zero => simpa [sinNest] using ha
  | succ k ih =>
    have h := ih ((Ball.encloses_ofInt prec 1).sub
      ((hx.mul ha).scale 1 ((2 * k + 2) * (2 * k + 3)) (by positivity)))
    rw [sinSum_succ]
    exact h

/-- The series of `sinBall` is off by less than one unit. -/
theorem sinSeries_near (prec : Nat) (hprec : 28 ≤ prec) (X : ℝ) (h0 : 0 ≤ X) (h2 : X ≤ 2) :
    |Real.sin X - X * ∑ m ∈ Finset.range (prec / 4 + 1), (-1) ^ m * (X ^ (2 * m) / (2 * m + 1).factorial)| *
      2 ^ prec ≤ 1 := by
  set f : ℕ → ℝ := fun k => X ^ (2 * k + 1) / (2 * k + 1).factorial with hf
  have hanti : Antitone f := by
    refine antitone_nat_of_succ_le fun k => ?_
    simp only [hf]
    rw [show 2 * (k + 1) + 1 = (2 * k + 1 + 1) + 1 by ring, Nat.factorial_succ, Nat.factorial_succ (2 * k + 1),
      div_le_div_iff₀ (by positivity) (by positivity), pow_succ, pow_succ X (2 * k + 1)]
    push_cast
    have h3 : X * X ≤ (2 * k + 1 + 1 + 1) * (2 * (k : ℝ) + 1 + 1) := by
      have hk : (0 : ℝ) ≤ k := Nat.cast_nonneg k
      nlinarith
    have h4 : 0 ≤ X ^ (2 * k + 1) * ((2 * k + 1).factorial : ℝ) := by positivity
    nlinarith [mul_le_mul_of_nonneg_left h3 h4]
  have hsum : Filter.Tendsto (fun n => ∑ i ∈ Finset.range n, (-1) ^ i * f i) Filter.atTop (nhds (Real.sin X)) := by
    refine (Real.hasSum_sin X).tendsto_sum_nat.congr fun n => Finset.sum_congr rfl fun i _ => ?_
    simp only [hf]
    ring
  have h := alternating_rest hanti hsum (prec / 4 + 1)
  rw [abs_mul, abs_pow, abs_neg, abs_one, one_pow, one_mul] at h
  have e : X * ∑ m ∈ Finset.range (prec / 4 + 1), (-1) ^ m * (X ^ (2 * m) / (2 * m + 1).factorial) =
      ∑ i ∈ Finset.range (prec / 4 + 1), (-1) ^ i * f i := by
    rw [Finset.mul_sum]
    refine Finset.sum_congr rfl fun i _ => ?_
    simp only [hf]
    ring
  rw [e]
  refine (mul_le_mul_of_nonneg_right h (by positivity)).trans ?_
  have hfac : ∀ k : ℕ, 7 ≤ k → 2 ^ (6 * k + 6) ≤ (2 * k + 3).factorial := by
    intro k hk
    induction k, hk using Nat.le_induction with
    | base => decide
    | succ k hk ih =>
      rw [show 2 * (k + 1) + 3 = (2 * k + 3 + 1) + 1 by ring, Nat.factorial_succ, Nat.factorial_succ (2 * k + 3),
        show 6 * (k + 1) + 6 = (6 * k + 6) + 6 by ring, pow_add]
      calc 2 ^ (6 * k + 6) * 2 ^ 6 ≤ (2 * k + 3).factorial * 64 := Nat.mul_le_mul ih (by norm_num)
        _ ≤ (2 * k + 3).factorial * ((2 * k + 3 + 1 + 1) * (2 * k + 3 + 1)) :=
          Nat.mul_le_mul_left _ (by nlinarith)
        _ = _ := by ring
  have h5 := hfac (prec / 4) (by omega)
  simp only [hf]
  rw [show 2 * (prec / 4 + 1) + 1 = 2 * (prec / 4) + 3 by ring, div_mul_eq_mul_div, div_le_one (by positivity)]
  calc X ^ (2 * (prec / 4) + 3) * 2 ^ prec ≤ 2 ^ (2 * (prec / 4) + 3) * 2 ^ prec :=
        mul_le_mul_of_nonneg_right (pow_le_pow_left₀ h0 h2 _) (by positivity)
    _ = 2 ^ (2 * (prec / 4) + 3 + prec) := by rw [← pow_add]
    _ ≤ 2 ^ (6 * (prec / 4) + 6) := pow_le_pow_right₀ (by norm_num) (by omega)
    _ ≤ _ := by exact_mod_cast h5

/-- `sinBall` encloses the sine of a number in [0, 2]. -/
theorem encloses_sinBall {prec : Nat} (hprec : 28 ≤ prec) {x : Ball} {X : ℝ} (hx : x.Encloses prec X)
    (h0 : 0 ≤ X) (h2 : X ≤ 2) : (sinBall prec x).Encloses prec (Real.sin X) := by
  have h1 := hx.mul hx
  rw [← pow_two] at h1
  have h3 := hx.mul (encloses_sinNest h1 (prec / 4) (Ball.encloses_ofInt prec 1))
  rw [Int.cast_one, mul_one, ← Finset.sum_range_succ] at h3
  exact h3.widen 1 (by
    push_cast
    exact sinSeries_near prec hprec X h0 h2)

theorem Ball.Encloses.div {prec : Nat} {a b : Ball} {v w : ℝ} (ha : a.Encloses prec v) (hb : b.Encloses prec w)
    (hpos : (b.rad : ℤ) < b.mid) : (Ball.div prec a b).Encloses prec (v / w) := by
  have hm : b.mid = (b.mid.natAbs : ℤ) := by omega
  have hlt : b.rad < b.mid.natAbs := by omega
  have h1 := ediv_near (a.mid * ((1 <<< prec : Nat) : ℤ)) b.mid.natAbs
  have h2 := div_le_succ ((a.rad * b.mid.natAbs + a.mid.natAbs * b.rad) * (1 <<< prec))
    (b.mid.natAbs * (b.mid.natAbs - b.rad))
  have hsub : ((b.mid.natAbs - b.rad : ℕ) : ℝ) = (b.mid.natAbs : ℝ) - b.rad := Nat.cast_sub hlt.le
  simp only [Encloses, Ball.div, Nat.one_shiftLeft] at *
  have hmr : (b.mid : ℝ) = (b.mid.natAbs : ℝ) := by
    conv_lhs => rw [hm]
    exact Int.cast_natCast _
  rw [hmr] at hb
  have hlt' : (b.rad : ℝ) < b.mid.natAbs := by exact_mod_cast hlt
  generalize b.mid.natAbs = m at *
  have hp : (0 : ℝ) < 2 ^ prec := by positivity
  push_cast at h1 h2 ⊢
  rw [hsub] at h2
  rw [Nat.cast_natAbs, Int.cast_abs] at h2
  set A := (a.mid : ℝ)
  set δ := v * 2 ^ prec - A with hδ
  set ε := w * 2 ^ prec - m with hε
  have hm0 : (0 : ℝ) < m := lt_of_le_of_lt (Nat.cast_nonneg _) hlt'
  have hε1 := (abs_le.1 hb).1
  have hw : 0 < (m : ℝ) + ε := by linarith
  have hwv : w = (m + ε) / 2 ^ prec := by rw [hε]; field_simp; ring
  have hvv : v = (A + δ) / 2 ^ prec := by rw [hδ]; field_simp; ring
  have e : v / w * 2 ^ prec - A * 2 ^ prec / m = (m * δ - A * ε) * 2 ^ prec / (m * (m + ε)) := by
    rw [hwv, hvv]
    field_simp
    ring
  have h3 : |m * δ - A * ε| ≤ a.rad * m + |A| * b.rad := by
    refine (abs_sub _ _).trans ?_
    rw [abs_mul, abs_mul, abs_of_pos hm0, mul_comm (m : ℝ)]
    exact add_le_add (mul_le_mul_of_nonneg_right ha hm0.le) (mul_le_mul_of_nonneg_left hb (abs_nonneg _))
  have h4 : |(m * δ - A * ε) * 2 ^ prec / (m * (m + ε))| ≤
      (a.rad * m + |A| * b.rad) * 2 ^ prec / (m * (m - b.rad)) := by
    rw [abs_div, abs_mul, abs_of_pos hp, abs_of_pos (mul_pos hm0 hw)]
    exact div_le_div₀ (by positivity) (mul_le_mul_of_nonneg_right h3 hp.le)
      (mul_pos hm0 (by linarith)) (mul_le_mul_of_nonneg_left (by linarith) hm0.le)
  have h5 := abs_add_le (v / w * 2 ^ prec - A * 2 ^ prec / m)
    (A * 2 ^ prec / m - ((a.mid * 2 ^ prec / (m : ℤ) : ℤ) : ℝ))
  rw [sub_add_sub_cancel, e] at h5
  linarith

theorem Ball.div_rad_le (prec : Nat) (a b : Ball) (hab : a.mid.natAbs ≤ b.mid.natAbs)
    (hb : 2 ^ prec ≤ b.mid.natAbs - b.rad) : (Ball.div prec a b).rad ≤ a.rad + b.rad + 2 := by
  simp only [Ball.div, Nat.one_shiftLeft]
  generalize b.mid.natAbs = m at *
  have h1 : (a.rad * m + a.mid.natAbs * b.rad) * 2 ^ prec ≤ (a.rad + b.rad) * (m * (m - b.rad)) := by
    calc (a.rad * m + a.mid.natAbs * b.rad) * 2 ^ prec ≤ (a.rad * m + m * b.rad) * (m - b.rad) :=
          Nat.mul_le_mul (Nat.add_le_add_left (Nat.mul_le_mul_right _ hab) _) hb
      _ = _ := by ring
  have h2 := Nat.div_le_of_le_mul (h1.trans_eq (Nat.mul_comm _ _))
  omega

/-- How `tanhBall` finds its value from an exponential. -/
theorem tanh_eq_exp (x : ℝ) : Real.tanh x = (Real.exp (2 * x) - 1) / (Real.exp (2 * x) + 1) := by
  rw [Real.tanh_eq_sinh_div_cosh, Real.sinh_eq, Real.cosh_eq, two_mul, Real.exp_add, Real.exp_neg]
  have := Real.exp_pos x
  field_simp

/-- `tanhBall` encloses the hyperbolic tangent of a number from 0 on where its exponential is narrow, and how wide
it is then. -/
theorem encloses_tanhBall {prec : Nat} {x : Ball} {X : ℝ} (hx : x.Encloses prec X) (h0 : 0 ≤ X)
    (hr : 2 * (expBall prec ⟨2 * x.mid, 2 * x.rad⟩).rad ≤ 2 ^ prec) :
    (tanhBall prec x).Encloses prec (Real.tanh X) ∧
      (tanhBall prec x).rad ≤ 2 * (expBall prec ⟨2 * x.mid, 2 * x.rad⟩).rad + 2 := by
  have hx2 : Ball.Encloses prec ⟨2 * x.mid, 2 * x.rad⟩ (2 * X) := hx.double
  have he := encloses_expBall hx2
  unfold tanhBall
  simp only
  set e := expBall prec ⟨2 * x.mid, 2 * x.rad⟩
  have h1 : (2 ^ prec : ℤ) - e.rad ≤ e.mid := by
    have h2 := (abs_le.1 he).2
    have h3 : (1 : ℝ) ≤ Real.exp (2 * X) := Real.one_le_exp (by linarith)
    have hp : (0 : ℝ) < 2 ^ prec := by positivity
    have h4 : (2 : ℝ) ^ prec - e.rad ≤ e.mid := by nlinarith
    exact_mod_cast h4
  have hp : (0 : ℤ) < 2 ^ prec := by positivity
  have hr' : 2 * (e.rad : ℤ) ≤ 2 ^ prec := by exact_mod_cast hr
  have hone := Ball.encloses_ofInt prec 1
  rw [Int.cast_one] at hone
  have hb := he.add hone
  have hmid : (e.add (Ball.ofInt prec 1)).mid = e.mid + 2 ^ prec := by
    simp [Ball.add, Ball.ofInt, Nat.one_shiftLeft]
  have hrad : (e.add (Ball.ofInt prec 1)).rad = e.rad := by simp [Ball.add, Ball.ofInt]
  have hamid : (e.sub (Ball.ofInt prec 1)).mid = e.mid - 2 ^ prec := by
    simp [Ball.sub, Ball.ofInt, Nat.one_shiftLeft]
  have harad : (e.sub (Ball.ofInt prec 1)).rad = e.rad := by simp [Ball.sub, Ball.ofInt]
  have hcast : ((2 ^ prec : ℕ) : ℤ) = 2 ^ prec := by push_cast; rfl
  constructor
  · rw [tanh_eq_exp]
    exact (he.sub hone).div hb (by rw [hmid, hrad]; omega)
  · have h := Ball.div_rad_le prec (e.sub (Ball.ofInt prec 1)) (e.add (Ball.ofInt prec 1))
      (by rw [hmid, hamid]; omega) (by rw [hmid, hrad]; omega)
    rw [harad, hrad] at h
    omega

/-! ## The width of the enclosures of the sine -/

/-- The inner sums of the series stay small. -/
theorem sinStep_le {X2 A : ℝ} (hX : |X2| ≤ 4) (hA : |A| ≤ 3) (k : Nat) :
    |((1 : ℤ) : ℝ) - X2 * A * (((1 : ℤ) : ℝ) / (((2 * k + 2) * (2 * k + 3) : ℕ) : ℝ))| ≤ 3 := by
  have hd : (6 : ℝ) ≤ (((2 * k + 2) * (2 * k + 3) : ℕ) : ℝ) := by
    exact_mod_cast (by nlinarith : 6 ≤ (2 * k + 2) * (2 * k + 3))
  have hinv : 1 / (((2 * k + 2) * (2 * k + 3) : ℕ) : ℝ) ≤ 1 / 6 :=
    one_div_le_one_div_of_le (by norm_num) hd
  have h1 : |X2 * A * (((1 : ℤ) : ℝ) / (((2 * k + 2) * (2 * k + 3) : ℕ) : ℝ))| ≤ 2 := by
    rw [abs_mul, abs_div, Int.cast_one, abs_one, Nat.abs_cast, abs_mul]
    calc |X2| * |A| * (1 / (((2 * k + 2) * (2 * k + 3) : ℕ) : ℝ)) ≤ 4 * 3 * (1 / 6) :=
          mul_le_mul (mul_le_mul hX hA (abs_nonneg _) (by norm_num)) hinv (by positivity) (by norm_num)
      _ = 2 := by norm_num
  exact (abs_sub _ _).trans (by rw [Int.cast_one, abs_one]; linarith)

theorem sinSum_le {X A : ℝ} (hX : |X ^ 2| ≤ 4) (hA : |A| ≤ 3) (k : Nat) :
    |(∑ m ∈ Finset.range k, (-1) ^ m * (X ^ (2 * m) / (2 * m + 1).factorial)) +
      (-1) ^ k * (X ^ (2 * k) / (2 * k + 1).factorial) * A| ≤ 3 := by
  induction k generalizing A with
  | zero => simpa using hA
  | succ k ih =>
    rw [sinSum_succ]
    exact ih (sinStep_le hX hA k)

theorem sinNest_rad_le {prec : Nat} {x2 : Ball} {X2 : ℝ} (hx : x2.Encloses prec X2) (hX : |X2| ≤ 4)
    (hp : 3 * x2.rad * (2 * x2.rad + 8) ≤ 2 ^ prec) (k : Nat) {acc : Ball} {A : ℝ} (ha : acc.Encloses prec A)
    (hA : |A| ≤ 3) (hr : acc.rad ≤ 2 * x2.rad + 8) : (sinNest prec x2 k acc).rad ≤ 2 * x2.rad + 8 := by
  induction k generalizing acc A with
  | zero => exact hr
  | succ k ih =>
    have hd : (6 : ℝ) ≤ (((2 * k + 2) * (2 * k + 3) : ℕ) : ℝ) := by
      exact_mod_cast (by nlinarith : 6 ≤ (2 * k + 2) * (2 * k + 3))
    have hinv : 1 / (((2 * k + 2) * (2 * k + 3) : ℕ) : ℝ) ≤ 1 / 6 :=
      one_div_le_one_div_of_le (by norm_num) hd
    refine ih ((Ball.encloses_ofInt prec 1).sub
      ((hx.mul ha).scale 1 ((2 * k + 2) * (2 * k + 3)) (by positivity))) ?_ ?_
    · exact sinStep_le hX hA k
    · have h1 := hx.mul_rad_le ha ((Nat.mul_le_mul_left _ hr).trans hp)
      have h2 := Ball.scale_rad_le (Ball.mul prec x2 acc) 1 ((2 * k + 2) * (2 * k + 3))
      have h3 : ((Ball.mul prec x2 acc).rad : ℝ) * |((1 : ℤ) : ℝ)| /
          (((2 * k + 2) * (2 * k + 3) : ℕ) : ℝ) ≤ (Ball.mul prec x2 acc).rad * (1 / 6) := by
        rw [Int.cast_one, abs_one, mul_one, div_eq_mul_one_div]
        exact mul_le_mul_of_nonneg_left hinv (Nat.cast_nonneg _)
      have hr' : (acc.rad : ℝ) ≤ 2 * x2.rad + 8 := by exact_mod_cast hr
      have h4 : |X2| * acc.rad ≤ 4 * (2 * x2.rad + 8) := mul_le_mul hX hr' (by positivity) (by norm_num)
      have h5 : |A| * x2.rad ≤ 3 * x2.rad := mul_le_mul_of_nonneg_right hA (by positivity)
      have h0 : (0 : ℝ) ≤ x2.rad := Nat.cast_nonneg _
      have h6 : (((Ball.mul prec x2 acc).scale 1 ((2 * k + 2) * (2 * k + 3))).rad : ℝ) ≤ 2 * x2.rad + 8 := by
        linarith
      have h7 : ((Ball.mul prec x2 acc).scale 1 ((2 * k + 2) * (2 * k + 3))).rad ≤ 2 * x2.rad + 8 := by
        exact_mod_cast h6
      simpa [Ball.sub, Ball.ofInt] using h7

/-- How wide `sinBall` is at 64 fraction bits or more, if its argument is known to 2^12 units. -/
theorem sinBall_rad_le {prec : Nat} (hprec : 64 ≤ prec) {x : Ball} {X : ℝ} (hx : x.Encloses prec X)
    (h0 : 0 ≤ X) (h2 : X ≤ 2) (hr : x.rad ≤ 2 ^ 12) : (sinBall prec x).rad ≤ 2 ^ 17 := by
  have hbig : 2 ^ 64 ≤ 2 ^ prec := Nat.pow_le_pow_right Nat.zero_lt_two hprec
  have hXa : |X| ≤ 2 := abs_le.2 ⟨by linarith, h2⟩
  have hr' : (x.rad : ℝ) ≤ 2 ^ 12 := by exact_mod_cast hr
  have h1 := hx.mul_rad_le hx
    (le_trans (Nat.mul_le_mul (Nat.mul_le_mul_left 3 hr) hr) (le_trans (by norm_num) hbig))
  have h1r : (Ball.mul prec x x).rad ≤ 16387 := by
    have h3 : |X| * x.rad ≤ 2 * 2 ^ 12 := mul_le_mul hXa hr' (by positivity) (by norm_num)
    have h4 : ((Ball.mul prec x x).rad : ℝ) ≤ 16387 := by linarith
    exact_mod_cast h4
  have hx2 := hx.mul hx
  rw [← pow_two] at hx2
  have hX2 : |X ^ 2| ≤ 4 := by rw [abs_of_nonneg (sq_nonneg X)]; nlinarith
  have hone := Ball.encloses_ofInt prec 1
  have hn := sinNest_rad_le hx2 hX2
    (le_trans (Nat.mul_le_mul (Nat.mul_le_mul_left 3 h1r)
      (Nat.add_le_add_right (Nat.mul_le_mul_left 2 h1r) 8)) (le_trans (by norm_num) hbig))
    (prec / 4) hone (by norm_num) (by simp [Ball.ofInt])
  have hs := encloses_sinNest hx2 (prec / 4) hone
  have hS := sinSum_le hX2 (A := ((1 : ℤ) : ℝ)) (by norm_num) (prec / 4)
  have hnr : (sinNest prec (Ball.mul prec x x) (prec / 4) (Ball.ofInt prec 1)).rad ≤ 32782 := by omega
  have h5 := hx.mul_rad_le hs
    (le_trans (Nat.mul_le_mul (Nat.mul_le_mul_left 3 hr) hnr) (le_trans (by norm_num) hbig))
  set n := sinNest prec (Ball.mul prec x x) (prec / 4) (Ball.ofInt prec 1)
  have h6 : |X| * n.rad ≤ 2 * 32782 :=
    mul_le_mul hXa (by exact_mod_cast hnr) (Nat.cast_nonneg _) (by norm_num)
  have h7 := mul_le_mul hS hr' (Nat.cast_nonneg _) (by norm_num)
  have h8 : ((Ball.mul prec x n).rad : ℝ) ≤ 98304 := by linarith
  have h9 : (Ball.mul prec x n).rad ≤ 98304 := by exact_mod_cast h8
  show (Ball.mul prec x n).rad + 1 ≤ 2 ^ 17
  omega

/-! ## The arguments the rules use, at every precision of the list -/

/-- Times a fraction of at most 1, pi is known to 2^12 units. -/
theorem pi_scale_rad_le {prec : Nat} (hprec : prec ∈ Config.precisions) (num : ℤ) (den : Nat)
    (h : |(num : ℝ)| / den ≤ 1) : ((pi prec).scale num den).rad ≤ 2 ^ 12 := by
  have h1 := Ball.scale_rad_le (pi prec) num den
  have h2 : ((pi prec).rad : ℝ) ≤ 3328 := by exact_mod_cast (pi_rad_le prec hprec).2
  have h3 : ((pi prec).rad : ℝ) * |(num : ℝ)| / den ≤ 3328 := by
    rw [mul_div_assoc]
    exact (mul_le_of_le_one_right (Nat.cast_nonneg _) h).trans h2
  have h4 : (((pi prec).scale num den).rad : ℝ) ≤ 4096 := by linarith
  have h5 : ((pi prec).scale num den).rad ≤ 4096 := by exact_mod_cast h4
  omega

/-- The sine of the first quarter of the tables (41_waveform.md R235). -/
theorem encloses_sinQuarter {prec j : Nat} (hprec : prec ∈ Config.precisions) (hj : j ≤ 1024) :
    (sinQuarter prec j).Encloses prec (Real.sin (Real.pi * j / 2048)) ∧
      (sinQuarter prec j).rad ≤ 2 ^ 17 := by
  have hp := (pi_rad_le prec hprec).1
  have hj' : (j : ℝ) ≤ 1024 := by exact_mod_cast hj
  have hx := (encloses_pi prec).scale (j : ℤ) 2048 (by norm_num)
  have e : Real.pi * (((j : ℤ) : ℝ) / ((2048 : ℕ) : ℝ)) = Real.pi * j / 2048 := by push_cast; ring
  rw [e] at hx
  have h0 : 0 ≤ Real.pi * j / 2048 := by positivity
  have h2 : Real.pi * j / 2048 ≤ 2 := by
    rw [div_le_iff₀ (by norm_num)]
    nlinarith [Real.pi_le_four, Real.pi_pos]
  refine ⟨encloses_sinBall (by omega) hx h0 h2, sinBall_rad_le (by omega) hx h0 h2 ?_⟩
  refine pi_scale_rad_le hprec _ _ ?_
  rw [Int.cast_natCast, Nat.abs_cast, div_le_one (by norm_num)]
  push_cast
  linarith

/-- The square table's first quarter (41_waveform.md R231). -/
theorem encloses_tanhQuarter {prec j : Nat} (hprec : prec ∈ Config.precisions) (hj : j ≤ 1024) :
    (tanhBall prec ((sinQuarter prec j).scale 10 1)).Encloses prec
        (Real.tanh (10 * Real.sin (Real.pi * j / 2048))) ∧
      (tanhBall prec ((sinQuarter prec j).scale 10 1)).rad ≤ 2 ^ 84 := by
  have hp := (pi_rad_le prec hprec).1
  obtain ⟨hs, hsr⟩ := encloses_sinQuarter hprec hj
  have hj' : (j : ℝ) ≤ 1024 := by exact_mod_cast hj
  have hs0 : 0 ≤ Real.sin (Real.pi * j / 2048) := by
    refine Real.sin_nonneg_of_nonneg_of_le_pi (by positivity) ?_
    rw [div_le_iff₀ (by norm_num)]
    nlinarith [Real.pi_pos]
  have hx := hs.scale 10 1 (by norm_num)
  have e : Real.sin (Real.pi * j / 2048) * (((10 : ℤ) : ℝ) / ((1 : ℕ) : ℝ)) =
      10 * Real.sin (Real.pi * j / 2048) := by push_cast; ring
  rw [e] at hx
  set b := (sinQuarter prec j).scale 10 1
  set X := 10 * Real.sin (Real.pi * j / 2048)
  have hX0 : 0 ≤ X := by positivity
  have hX1 : X ≤ 10 := by
    have := Real.sin_le_one (Real.pi * j / 2048)
    simp only [X]
    linarith
  have hbr : b.rad ≤ 2 ^ 17 * 10 + 2 := by
    simp only [b, Ball.scale, Nat.div_one]
    exact Nat.add_le_add_right (Nat.mul_le_mul hsr (by norm_num)) 2
  have hx2 : Ball.Encloses prec ⟨2 * b.mid, 2 * b.rad⟩ (2 * X) := hx.double
  have hr := expBall_rad_le hp hx2 (by simp only; omega) (by rw [abs_of_nonneg (by linarith)]; linarith)
    (by linarith)
  have hbig : 2 ^ 96 ≤ 2 ^ prec := Nat.pow_le_pow_right Nat.zero_lt_two hp
  have h := encloses_tanhBall hx hX0 (by omega)
  exact ⟨h.1, by omega⟩

/-- `exp` of a number of [-1, 1] (42_filter.md R265). -/
theorem encloses_expRatio {prec : Nat} (hprec : prec ∈ Config.precisions) (num : ℤ) (den : Nat)
    (h : |(num : ℝ) / den| ≤ 1) :
    (expBall prec (Ball.ofRatio prec num den)).Encloses prec (Real.exp ((num : ℝ) / den)) ∧
      (expBall prec (Ball.ofRatio prec num den)).rad ≤ 2 ^ 84 := by
  have hx := Ball.encloses_ofRatio prec num den
  have hr := expBall_rad_le (pi_rad_le prec hprec).1 hx (by simp [Ball.ofRatio]) (by linarith)
    (by linarith [(abs_le.1 h).2])
  exact ⟨encloses_expBall hx, by omega⟩

/-- `exp` of pi times a fraction of [-1, 0] (42_filter.md R262). -/
theorem encloses_expPi {prec : Nat} (hprec : prec ∈ Config.precisions) (num : ℤ) (den : Nat) (hd : 0 < den)
    (h : |(num : ℝ)| / den ≤ 1) :
    (expBall prec ((pi prec).scale num den)).Encloses prec (Real.exp (Real.pi * (num / den))) ∧
      (expBall prec ((pi prec).scale num den)).rad ≤ 2 ^ 84 := by
  have hx := (encloses_pi prec).scale num den hd
  have hX : |Real.pi * ((num : ℝ) / den)| ≤ 4 := by
    rw [abs_mul, abs_div, Nat.abs_cast, abs_of_pos Real.pi_pos]
    exact (mul_le_of_le_one_right Real.pi_pos.le h).trans Real.pi_le_four
  have hr := expBall_rad_le (pi_rad_le prec hprec).1 hx
    ((pi_scale_rad_le hprec num den h).trans (by norm_num)) (by linarith) (by linarith [(abs_le.1 hX).2])
  exact ⟨encloses_expBall hx, by omega⟩

/-! ## The choice of a precision -/

/-- What `nearest` answers: the value to which both ends of an enclosure of the list round, or the centre of the last
one, rounded (log 6). -/
theorem nearest_cases (f : Nat → Ball) (ps : List Nat) (hps : ps ≠ []) :
    (∃ p ∈ ps, nearest f ps = roundFixed p ((f p).mid - (f p).rad) ∧
      nearest f ps = roundFixed p ((f p).mid + (f p).rad)) ∨
    nearest f ps = roundFixed (ps.getLast hps) (f (ps.getLast hps)).mid := by
  induction ps with
  | nil => exact absurd rfl hps
  | cons p ps ih =>
    unfold nearest
    simp only
    split
    · rename_i h
      exact .inl ⟨p, List.mem_cons_self, rfl, h⟩
    · split
      · rename_i h
        subst h
        exact .inr rfl
      · rename_i h
        rcases ih h with ⟨q, hq, h1, h2⟩ | h1
        · exact .inl ⟨q, List.mem_cons_of_mem _ hq, h1, h2⟩
        · rw [List.getLast_cons h]
          exact .inr h1

end Sys2Proof.Numerics
end

