-- ==== Sys2Proof/Laws/F32.lean ====
section
/-! SUPPORT. What holds of the binary32 operations whatever the free values are. -/

namespace Sys2Proof.F32

/-- The free NaN is a NaN, whatever its sign and payload (00_scope.md R10). -/
theorem isNaN_nan (x y : F32) : isNaN (nan x y) = true := by
  unfold nan
  generalize Config.freeNaN x y = free
  have h0 : (free.extractLsb' 0 22).toNat < 2 ^ 22 := (free.extractLsb' 0 22).isLt
  have h1 : (free.extractLsb' 22 1).toNat < 2 ^ 1 := (free.extractLsb' 22 1).isLt
  have h : magBits (free.extractLsb' 22 1 ++ 0x1FF#9 ++ free.extractLsb' 0 22) =
      0x7FC00000 + (free.extractLsb' 0 22).toNat := by
    simp only [magBits, BitVec.toNat_append]
    rw [← Nat.shiftLeft_add_eq_or_of_lt h0, ← Nat.shiftLeft_add_eq_or_of_lt (by decide)]
    simp only [Nat.shiftLeft_eq, BitVec.toNat_ofNat]
    omega
  simp only [isNaN, h, infBits, decide_eq_true_eq]
  omega

/-- A comparison with a NaN is false (00_scope.md R10). -/
theorem lt_nan_left (x y z : F32) : lt (nan x y) z = false := by simp [lt, isNaN_nan]

theorem lt_nan_right (x y z : F32) : lt z (nan x y) = false := by simp [lt, isNaN_nan]

theorem le_nan_left (x y z : F32) : le (nan x y) z = false := by simp [le, isNaN_nan]

theorem le_nan_right (x y z : F32) : le z (nan x y) = false := by simp [le, isNaN_nan]

end Sys2Proof.F32
end

