-- ==== Sys2Proof/Laws/Memory.lean ====
section
/-! SUPPORT. The laws of the sample memories (20_memory.md R100, R111): what a read gives after a write, and that every write keeps the canonical form. -/

namespace Sys2Proof.Machine

theorem SampleMem.read_nil (d : Nat → F32) (a : Nat) : SampleMem.read d [] a = d a := rfl

/-- The parts of the canonical form of a nonempty memory. -/
theorem SampleMem.wf_cons (d : Nat → F32) (size a : Nat) (v : F32) (rest : SampleMem) :
    SampleMem.wf d size ((a, v) :: rest) = true ↔
      a < size ∧ v ≠ d a ∧ (∀ c ∈ rest, a < c.1) ∧ SampleMem.wf d size rest = true := by
  simp [SampleMem.wf, List.all_eq_true, and_assoc]

/-- An index below every cell reads as unlisted. -/
theorem SampleMem.read_of_lt (d : Nat → F32) (m : SampleMem) (a : Nat) (h : ∀ c ∈ m, a < c.1) :
    m.read d a = d a := by
  induction m with
  | nil => rfl
  | cons c rest ih =>
    obtain ⟨b, v⟩ := c
    have hb : a < b := h (b, v) (by simp)
    simp only [SampleMem.read, if_neg (by omega : ¬ a = b)]
    exact ih fun c hc => h c (by simp [hc])

/-- A read after a write to the same index gives the value written, and to another index what it gave. -/
theorem SampleMem.read_write (d : Nat → F32) (size : Nat) (m : SampleMem) (a b : Nat) (v : F32)
    (h : m.wf d size = true) :
    (m.write d a v).read d b = if b = a then v else m.read d b := by
  induction m with
  | nil =>
    by_cases hv : v = d a <;> by_cases hb : b = a <;> simp [SampleMem.write, SampleMem.read, hv, hb]
  | cons c rest ih =>
    obtain ⟨x, w⟩ := c
    obtain ⟨_, _, hlt, hrest⟩ := (SampleMem.wf_cons d size x w rest).1 h
    simp only [SampleMem.write]
    split
    · rename_i hax
      split
      · rename_i hv
        by_cases hb : b = a
        · subst hb
          simp only [if_true, hv]
          exact SampleMem.read_of_lt d _ b fun c hc => by
            rcases List.mem_cons.1 hc with rfl | hc
            · exact hax
            · exact Nat.lt_trans hax (hlt c hc)
        · simp [hb]
      · by_cases hb : b = a <;> simp [SampleMem.read, hb]
    · split
      · rename_i hax
        subst hax
        split
        · rename_i hv
          by_cases hb : b = a
          · subst hb
            simp only [if_true, hv]
            exact SampleMem.read_of_lt d _ b hlt
          · simp [SampleMem.read, hb]
        · by_cases hb : b = a <;> simp [SampleMem.read, hb]
      · rename_i hxa hne
        simp only [SampleMem.read, ih hrest]
        by_cases hb : b = x
        · simp [hb, Ne.symm hne]
        · simp [hb]

/-- The cells of a memory after a write are its cells and the one written. -/
theorem SampleMem.mem_write (d : Nat → F32) (m : SampleMem) (a : Nat) (v : F32) (c : Nat × F32)
    (h : c ∈ m.write d a v) : c.1 = a ∨ c ∈ m := by
  induction m with
  | nil =>
    by_cases hv : v = d a <;> simp [SampleMem.write, hv] at h
    exact .inl (by simp [h])
  | cons x rest ih =>
    obtain ⟨b, w⟩ := x
    simp only [SampleMem.write] at h
    split at h
    · split at h
      · exact .inr h
      · rcases List.mem_cons.1 h with rfl | h
        · exact .inl rfl
        · exact .inr h
    · split at h
      · split at h
        · exact .inr (by simp [h])
        · rcases List.mem_cons.1 h with rfl | h
          · exact .inl rfl
          · exact .inr (by simp [h])
      · rcases List.mem_cons.1 h with rfl | h
        · exact .inr (by simp)
        · rcases ih h with h | h
          · exact .inl h
          · exact .inr (by simp [h])

/-- A write below the size keeps the canonical form. -/
theorem SampleMem.write_wf (d : Nat → F32) (size : Nat) (m : SampleMem) (a : Nat) (v : F32)
    (ha : a < size) (h : m.wf d size = true) : (m.write d a v).wf d size = true := by
  induction m with
  | nil => by_cases hv : v = d a <;> simp [SampleMem.write, SampleMem.wf, hv, ha]
  | cons x rest ih =>
    obtain ⟨b, w⟩ := x
    have hx := h
    obtain ⟨hb, hw, hlt, hrest⟩ := (SampleMem.wf_cons d size b w rest).1 h
    simp only [SampleMem.write]
    split
    · rename_i hab
      split
      · exact hx
      · rename_i hv
        refine (SampleMem.wf_cons d size a v _).2 ⟨ha, hv, ?_, hx⟩
        intro c hc
        rcases List.mem_cons.1 hc with rfl | hc
        · exact hab
        · exact Nat.lt_trans hab (hlt c hc)
    · split
      · rename_i hab
        subst hab
        split
        · exact hrest
        · rename_i hv
          exact (SampleMem.wf_cons d size a v _).2 ⟨ha, hv, hlt, hrest⟩
      · rename_i hnlt hne
        refine (SampleMem.wf_cons d size b w _).2 ⟨hb, hw, ?_, ih hrest⟩
        intro c hc
        rcases SampleMem.mem_write d rest a v c hc with hc | hc
        · omega
        · exact hlt c hc

/-! ## The reverb RAM -/

/-- One reverb sample keeps the RAM's canonical form (43_reverb.md R291). -/
theorem Reverb.next_wf (rv : Reverb) (n : Nat) (x : F32)
    (h : rv.buf.wf reverbDefault Config.reverbLen = true) :
    (rv.next n x).buf.wf reverbDefault Config.reverbLen = true :=
  SampleMem.write_wf _ _ _ _ _ rv.wp.isLt h

/-- A reverb run keeps the RAM's canonical form. -/
theorem reverbRun_wf (n : Nat) (xs : List F32) (rv : Reverb)
    (h : rv.buf.wf reverbDefault Config.reverbLen = true) :
    (reverbRun n xs rv).2.buf.wf reverbDefault Config.reverbLen = true := by
  induction xs generalizing rv with
  | nil => exact h
  | cons x xs ih => exact ih (rv.next n x) (Reverb.next_wf rv n x h)

/-- The empty memory is canonical. -/
theorem SampleMem.wf_nil (d : Nat → F32) (size : Nat) : SampleMem.wf d size [] = true := rfl

end Sys2Proof.Machine
end

