-- ==== Sys2Proof/Laws/State.lean ====
section
/-! SUPPORT. One lemma per field per update of State, so that no proof unfolds a record update. -/

namespace Sys2Proof.Machine

/-! ## event: An event writes DG only (60_exceptions.md R522). -/

@[simp] theorem State.event_bank (e : Event) (s : State) : (s.event e).bank = s.bank := rfl

@[simp] theorem State.event_work (e : Event) (s : State) : (s.event e).work = s.work := rfl

@[simp] theorem State.event_cur (e : Event) (s : State) : (s.event e).cur = s.cur := rfl

@[simp] theorem State.event_voices (e : Event) (s : State) : (s.event e).voices = s.voices := rfl

@[simp] theorem State.event_mixer (e : Event) (s : State) : (s.event e).mixer = s.mixer := rfl

@[simp] theorem State.event_filter (e : Event) (s : State) : (s.event e).filter = s.filter := rfl

@[simp] theorem State.event_reverb (e : Event) (s : State) : (s.event e).reverb = s.reverb := rfl

@[simp] theorem State.event_noise (e : Event) (s : State) : (s.event e).noise = s.noise := rfl

@[simp] theorem State.event_diag (e : Event) (s : State) : (s.event e).diag = s.diag.record e := rfl

@[simp] theorem State.event_fault (e : Event) (s : State) : (s.event e).fault = s.fault := rfl

@[simp] theorem State.event_position (e : Event) (s : State) : (s.event e).position = s.position := rfl

@[simp] theorem State.event_inbox (e : Event) (s : State) : (s.event e).inbox = s.inbox := rfl

@[simp] theorem State.event_draws (e : Event) (s : State) : (s.event e).draws = s.draws := rfl

@[simp] theorem State.event_fresh (e : Event) (s : State) : (s.event e).fresh = s.fresh := rfl

@[simp] theorem State.event_portA (e : Event) (s : State) : (s.event e).portA = s.portA := rfl

@[simp] theorem State.event_portR (e : Event) (s : State) : (s.event e).portR = s.portR := rfl

@[simp] theorem State.event_portD (e : Event) (s : State) : (s.event e).portD = s.portD := rfl

/-! ## accept: Taking an input moves the queue, the position and the ports only. -/

@[simp] theorem State.accept_bank (rest : List Input) (s : State) : (s.accept rest).bank = s.bank := rfl

@[simp] theorem State.accept_work (rest : List Input) (s : State) : (s.accept rest).work = s.work := rfl

@[simp] theorem State.accept_cur (rest : List Input) (s : State) : (s.accept rest).cur = s.cur := rfl

@[simp] theorem State.accept_voices (rest : List Input) (s : State) : (s.accept rest).voices = s.voices := rfl

@[simp] theorem State.accept_mixer (rest : List Input) (s : State) : (s.accept rest).mixer = s.mixer := rfl

@[simp] theorem State.accept_filter (rest : List Input) (s : State) : (s.accept rest).filter = s.filter := rfl

@[simp] theorem State.accept_reverb (rest : List Input) (s : State) : (s.accept rest).reverb = s.reverb := rfl

@[simp] theorem State.accept_noise (rest : List Input) (s : State) : (s.accept rest).noise = s.noise := rfl

@[simp] theorem State.accept_diag (rest : List Input) (s : State) : (s.accept rest).diag = s.diag := rfl

@[simp] theorem State.accept_fault (rest : List Input) (s : State) : (s.accept rest).fault = s.fault := rfl

@[simp] theorem State.accept_position (rest : List Input) (s : State) : (s.accept rest).position = s.position + 1 := rfl

@[simp] theorem State.accept_inbox (rest : List Input) (s : State) : (s.accept rest).inbox = rest := rfl

@[simp] theorem State.accept_draws (rest : List Input) (s : State) : (s.accept rest).draws = s.draws := rfl

@[simp] theorem State.accept_fresh (rest : List Input) (s : State) : (s.accept rest).fresh = s.fresh := rfl

@[simp] theorem State.accept_portA (rest : List Input) (s : State) : (s.accept rest).portA = [] := rfl

@[simp] theorem State.accept_portR (rest : List Input) (s : State) : (s.accept rest).portR = [] := rfl

@[simp] theorem State.accept_portD (rest : List Input) (s : State) : (s.accept rest).portD = none := rfl

/-! ## emitA: Port A. -/

@[simp] theorem State.emitA_bank (out : List Sample) (s : State) : (s.emitA out).bank = s.bank := rfl

@[simp] theorem State.emitA_work (out : List Sample) (s : State) : (s.emitA out).work = s.work := rfl

@[simp] theorem State.emitA_cur (out : List Sample) (s : State) : (s.emitA out).cur = s.cur := rfl

@[simp] theorem State.emitA_voices (out : List Sample) (s : State) : (s.emitA out).voices = s.voices := rfl

@[simp] theorem State.emitA_mixer (out : List Sample) (s : State) : (s.emitA out).mixer = s.mixer := rfl

@[simp] theorem State.emitA_filter (out : List Sample) (s : State) : (s.emitA out).filter = s.filter := rfl

@[simp] theorem State.emitA_reverb (out : List Sample) (s : State) : (s.emitA out).reverb = s.reverb := rfl

@[simp] theorem State.emitA_noise (out : List Sample) (s : State) : (s.emitA out).noise = s.noise := rfl

@[simp] theorem State.emitA_diag (out : List Sample) (s : State) : (s.emitA out).diag = s.diag := rfl

@[simp] theorem State.emitA_fault (out : List Sample) (s : State) : (s.emitA out).fault = s.fault := rfl

@[simp] theorem State.emitA_position (out : List Sample) (s : State) : (s.emitA out).position = s.position := rfl

@[simp] theorem State.emitA_inbox (out : List Sample) (s : State) : (s.emitA out).inbox = s.inbox := rfl

@[simp] theorem State.emitA_draws (out : List Sample) (s : State) : (s.emitA out).draws = s.draws := rfl

@[simp] theorem State.emitA_fresh (out : List Sample) (s : State) : (s.emitA out).fresh = s.fresh := rfl

@[simp] theorem State.emitA_portA (out : List Sample) (s : State) : (s.emitA out).portA = out := rfl

@[simp] theorem State.emitA_portR (out : List Sample) (s : State) : (s.emitA out).portR = s.portR := rfl

@[simp] theorem State.emitA_portD (out : List Sample) (s : State) : (s.emitA out).portD = s.portD := rfl

/-! ## emitR: Port R. -/

@[simp] theorem State.emitR_bank (out : List Byte) (s : State) : (s.emitR out).bank = s.bank := rfl

@[simp] theorem State.emitR_work (out : List Byte) (s : State) : (s.emitR out).work = s.work := rfl

@[simp] theorem State.emitR_cur (out : List Byte) (s : State) : (s.emitR out).cur = s.cur := rfl

@[simp] theorem State.emitR_voices (out : List Byte) (s : State) : (s.emitR out).voices = s.voices := rfl

@[simp] theorem State.emitR_mixer (out : List Byte) (s : State) : (s.emitR out).mixer = s.mixer := rfl

@[simp] theorem State.emitR_filter (out : List Byte) (s : State) : (s.emitR out).filter = s.filter := rfl

@[simp] theorem State.emitR_reverb (out : List Byte) (s : State) : (s.emitR out).reverb = s.reverb := rfl

@[simp] theorem State.emitR_noise (out : List Byte) (s : State) : (s.emitR out).noise = s.noise := rfl

@[simp] theorem State.emitR_diag (out : List Byte) (s : State) : (s.emitR out).diag = s.diag := rfl

@[simp] theorem State.emitR_fault (out : List Byte) (s : State) : (s.emitR out).fault = s.fault := rfl

@[simp] theorem State.emitR_position (out : List Byte) (s : State) : (s.emitR out).position = s.position := rfl

@[simp] theorem State.emitR_inbox (out : List Byte) (s : State) : (s.emitR out).inbox = s.inbox := rfl

@[simp] theorem State.emitR_draws (out : List Byte) (s : State) : (s.emitR out).draws = s.draws := rfl

@[simp] theorem State.emitR_fresh (out : List Byte) (s : State) : (s.emitR out).fresh = s.fresh := rfl

@[simp] theorem State.emitR_portA (out : List Byte) (s : State) : (s.emitR out).portA = s.portA := rfl

@[simp] theorem State.emitR_portR (out : List Byte) (s : State) : (s.emitR out).portR = out := rfl

@[simp] theorem State.emitR_portD (out : List Byte) (s : State) : (s.emitR out).portD = s.portD := rfl

/-! ## emitD: Port D. -/

@[simp] theorem State.emitD_bank (w : Word) (s : State) : (s.emitD w).bank = s.bank := rfl

@[simp] theorem State.emitD_work (w : Word) (s : State) : (s.emitD w).work = s.work := rfl

@[simp] theorem State.emitD_cur (w : Word) (s : State) : (s.emitD w).cur = s.cur := rfl

@[simp] theorem State.emitD_voices (w : Word) (s : State) : (s.emitD w).voices = s.voices := rfl

@[simp] theorem State.emitD_mixer (w : Word) (s : State) : (s.emitD w).mixer = s.mixer := rfl

@[simp] theorem State.emitD_filter (w : Word) (s : State) : (s.emitD w).filter = s.filter := rfl

@[simp] theorem State.emitD_reverb (w : Word) (s : State) : (s.emitD w).reverb = s.reverb := rfl

@[simp] theorem State.emitD_noise (w : Word) (s : State) : (s.emitD w).noise = s.noise := rfl

@[simp] theorem State.emitD_diag (w : Word) (s : State) : (s.emitD w).diag = s.diag := rfl

@[simp] theorem State.emitD_fault (w : Word) (s : State) : (s.emitD w).fault = s.fault := rfl

@[simp] theorem State.emitD_position (w : Word) (s : State) : (s.emitD w).position = s.position := rfl

@[simp] theorem State.emitD_inbox (w : Word) (s : State) : (s.emitD w).inbox = s.inbox := rfl

@[simp] theorem State.emitD_draws (w : Word) (s : State) : (s.emitD w).draws = s.draws := rfl

@[simp] theorem State.emitD_fresh (w : Word) (s : State) : (s.emitD w).fresh = s.fresh := rfl

@[simp] theorem State.emitD_portA (w : Word) (s : State) : (s.emitD w).portA = s.portA := rfl

@[simp] theorem State.emitD_portR (w : Word) (s : State) : (s.emitD w).portR = s.portR := rfl

@[simp] theorem State.emitD_portD (w : Word) (s : State) : (s.emitD w).portD = some w := rfl

/-! ## setVoice: One voice. -/

@[simp] theorem State.setVoice_bank (v : Fin 32) (x : Voice) (s : State) : (s.setVoice v x).bank = s.bank := rfl

@[simp] theorem State.setVoice_work (v : Fin 32) (x : Voice) (s : State) : (s.setVoice v x).work = s.work := rfl

@[simp] theorem State.setVoice_cur (v : Fin 32) (x : Voice) (s : State) : (s.setVoice v x).cur = s.cur := rfl

@[simp] theorem State.setVoice_voices (v : Fin 32) (x : Voice) (s : State) : (s.setVoice v x).voices = s.voices.set v x := rfl

@[simp] theorem State.setVoice_mixer (v : Fin 32) (x : Voice) (s : State) : (s.setVoice v x).mixer = s.mixer := rfl

@[simp] theorem State.setVoice_filter (v : Fin 32) (x : Voice) (s : State) : (s.setVoice v x).filter = s.filter := rfl

@[simp] theorem State.setVoice_reverb (v : Fin 32) (x : Voice) (s : State) : (s.setVoice v x).reverb = s.reverb := rfl

@[simp] theorem State.setVoice_noise (v : Fin 32) (x : Voice) (s : State) : (s.setVoice v x).noise = s.noise := rfl

@[simp] theorem State.setVoice_diag (v : Fin 32) (x : Voice) (s : State) : (s.setVoice v x).diag = s.diag := rfl

@[simp] theorem State.setVoice_fault (v : Fin 32) (x : Voice) (s : State) : (s.setVoice v x).fault = s.fault := rfl

@[simp] theorem State.setVoice_position (v : Fin 32) (x : Voice) (s : State) : (s.setVoice v x).position = s.position := rfl

@[simp] theorem State.setVoice_inbox (v : Fin 32) (x : Voice) (s : State) : (s.setVoice v x).inbox = s.inbox := rfl

@[simp] theorem State.setVoice_draws (v : Fin 32) (x : Voice) (s : State) : (s.setVoice v x).draws = s.draws := rfl

@[simp] theorem State.setVoice_fresh (v : Fin 32) (x : Voice) (s : State) : (s.setVoice v x).fresh = s.fresh := rfl

@[simp] theorem State.setVoice_portA (v : Fin 32) (x : Voice) (s : State) : (s.setVoice v x).portA = s.portA := rfl

@[simp] theorem State.setVoice_portR (v : Fin 32) (x : Voice) (s : State) : (s.setVoice v x).portR = s.portR := rfl

@[simp] theorem State.setVoice_portD (v : Fin 32) (x : Voice) (s : State) : (s.setVoice v x).portD = s.portD := rfl

/-! ## mapVoices: All voices. -/

@[simp] theorem State.mapVoices_bank (f : Voice → Voice) (s : State) : (s.mapVoices f).bank = s.bank := rfl

@[simp] theorem State.mapVoices_work (f : Voice → Voice) (s : State) : (s.mapVoices f).work = s.work := rfl

@[simp] theorem State.mapVoices_cur (f : Voice → Voice) (s : State) : (s.mapVoices f).cur = s.cur := rfl

@[simp] theorem State.mapVoices_voices (f : Voice → Voice) (s : State) : (s.mapVoices f).voices = s.voices.map f := rfl

@[simp] theorem State.mapVoices_mixer (f : Voice → Voice) (s : State) : (s.mapVoices f).mixer = s.mixer := rfl

@[simp] theorem State.mapVoices_filter (f : Voice → Voice) (s : State) : (s.mapVoices f).filter = s.filter := rfl

@[simp] theorem State.mapVoices_reverb (f : Voice → Voice) (s : State) : (s.mapVoices f).reverb = s.reverb := rfl

@[simp] theorem State.mapVoices_noise (f : Voice → Voice) (s : State) : (s.mapVoices f).noise = s.noise := rfl

@[simp] theorem State.mapVoices_diag (f : Voice → Voice) (s : State) : (s.mapVoices f).diag = s.diag := rfl

@[simp] theorem State.mapVoices_fault (f : Voice → Voice) (s : State) : (s.mapVoices f).fault = s.fault := rfl

@[simp] theorem State.mapVoices_position (f : Voice → Voice) (s : State) : (s.mapVoices f).position = s.position := rfl

@[simp] theorem State.mapVoices_inbox (f : Voice → Voice) (s : State) : (s.mapVoices f).inbox = s.inbox := rfl

@[simp] theorem State.mapVoices_draws (f : Voice → Voice) (s : State) : (s.mapVoices f).draws = s.draws := rfl

@[simp] theorem State.mapVoices_fresh (f : Voice → Voice) (s : State) : (s.mapVoices f).fresh = s.fresh := rfl

@[simp] theorem State.mapVoices_portA (f : Voice → Voice) (s : State) : (s.mapVoices f).portA = s.portA := rfl

@[simp] theorem State.mapVoices_portR (f : Voice → Voice) (s : State) : (s.mapVoices f).portR = s.portR := rfl

@[simp] theorem State.mapVoices_portD (f : Voice → Voice) (s : State) : (s.mapVoices f).portD = s.portD := rfl

/-! ## setWork: The working patch. -/

@[simp] theorem State.setWork_bank (p : Patch) (s : State) : (s.setWork p).bank = s.bank := rfl

@[simp] theorem State.setWork_work (p : Patch) (s : State) : (s.setWork p).work = p := rfl

@[simp] theorem State.setWork_cur (p : Patch) (s : State) : (s.setWork p).cur = s.cur := rfl

@[simp] theorem State.setWork_voices (p : Patch) (s : State) : (s.setWork p).voices = s.voices := rfl

@[simp] theorem State.setWork_mixer (p : Patch) (s : State) : (s.setWork p).mixer = s.mixer := rfl

@[simp] theorem State.setWork_filter (p : Patch) (s : State) : (s.setWork p).filter = s.filter := rfl

@[simp] theorem State.setWork_reverb (p : Patch) (s : State) : (s.setWork p).reverb = s.reverb := rfl

@[simp] theorem State.setWork_noise (p : Patch) (s : State) : (s.setWork p).noise = s.noise := rfl

@[simp] theorem State.setWork_diag (p : Patch) (s : State) : (s.setWork p).diag = s.diag := rfl

@[simp] theorem State.setWork_fault (p : Patch) (s : State) : (s.setWork p).fault = s.fault := rfl

@[simp] theorem State.setWork_position (p : Patch) (s : State) : (s.setWork p).position = s.position := rfl

@[simp] theorem State.setWork_inbox (p : Patch) (s : State) : (s.setWork p).inbox = s.inbox := rfl

@[simp] theorem State.setWork_draws (p : Patch) (s : State) : (s.setWork p).draws = s.draws := rfl

@[simp] theorem State.setWork_fresh (p : Patch) (s : State) : (s.setWork p).fresh = s.fresh := rfl

@[simp] theorem State.setWork_portA (p : Patch) (s : State) : (s.setWork p).portA = s.portA := rfl

@[simp] theorem State.setWork_portR (p : Patch) (s : State) : (s.setWork p).portR = s.portR := rfl

@[simp] theorem State.setWork_portD (p : Patch) (s : State) : (s.setWork p).portD = s.portD := rfl

/-! ## setBank: One bank patch. -/

@[simp] theorem State.setBank_bank (i : Fin 32) (p : Patch) (s : State) : (s.setBank i p).bank = s.bank.set i p := rfl

@[simp] theorem State.setBank_work (i : Fin 32) (p : Patch) (s : State) : (s.setBank i p).work = s.work := rfl

@[simp] theorem State.setBank_cur (i : Fin 32) (p : Patch) (s : State) : (s.setBank i p).cur = s.cur := rfl

@[simp] theorem State.setBank_voices (i : Fin 32) (p : Patch) (s : State) : (s.setBank i p).voices = s.voices := rfl

@[simp] theorem State.setBank_mixer (i : Fin 32) (p : Patch) (s : State) : (s.setBank i p).mixer = s.mixer := rfl

@[simp] theorem State.setBank_filter (i : Fin 32) (p : Patch) (s : State) : (s.setBank i p).filter = s.filter := rfl

@[simp] theorem State.setBank_reverb (i : Fin 32) (p : Patch) (s : State) : (s.setBank i p).reverb = s.reverb := rfl

@[simp] theorem State.setBank_noise (i : Fin 32) (p : Patch) (s : State) : (s.setBank i p).noise = s.noise := rfl

@[simp] theorem State.setBank_diag (i : Fin 32) (p : Patch) (s : State) : (s.setBank i p).diag = s.diag := rfl

@[simp] theorem State.setBank_fault (i : Fin 32) (p : Patch) (s : State) : (s.setBank i p).fault = s.fault := rfl

@[simp] theorem State.setBank_position (i : Fin 32) (p : Patch) (s : State) : (s.setBank i p).position = s.position := rfl

@[simp] theorem State.setBank_inbox (i : Fin 32) (p : Patch) (s : State) : (s.setBank i p).inbox = s.inbox := rfl

@[simp] theorem State.setBank_draws (i : Fin 32) (p : Patch) (s : State) : (s.setBank i p).draws = s.draws := rfl

@[simp] theorem State.setBank_fresh (i : Fin 32) (p : Patch) (s : State) : (s.setBank i p).fresh = s.fresh := rfl

@[simp] theorem State.setBank_portA (i : Fin 32) (p : Patch) (s : State) : (s.setBank i p).portA = s.portA := rfl

@[simp] theorem State.setBank_portR (i : Fin 32) (p : Patch) (s : State) : (s.setBank i p).portR = s.portR := rfl

@[simp] theorem State.setBank_portD (i : Fin 32) (p : Patch) (s : State) : (s.setBank i p).portD = s.portD := rfl

/-! ## arriveFirst: An arrival. -/

@[simp] theorem State.arriveFirst_bank (m : Input) (s : State) : (s.arriveFirst m).bank = s.bank := rfl

@[simp] theorem State.arriveFirst_work (m : Input) (s : State) : (s.arriveFirst m).work = s.work := rfl

@[simp] theorem State.arriveFirst_cur (m : Input) (s : State) : (s.arriveFirst m).cur = s.cur := rfl

@[simp] theorem State.arriveFirst_voices (m : Input) (s : State) : (s.arriveFirst m).voices = s.voices := rfl

@[simp] theorem State.arriveFirst_mixer (m : Input) (s : State) : (s.arriveFirst m).mixer = s.mixer := rfl

@[simp] theorem State.arriveFirst_filter (m : Input) (s : State) : (s.arriveFirst m).filter = s.filter := rfl

@[simp] theorem State.arriveFirst_reverb (m : Input) (s : State) : (s.arriveFirst m).reverb = s.reverb := rfl

@[simp] theorem State.arriveFirst_noise (m : Input) (s : State) : (s.arriveFirst m).noise = s.noise := rfl

@[simp] theorem State.arriveFirst_diag (m : Input) (s : State) : (s.arriveFirst m).diag = s.diag := rfl

@[simp] theorem State.arriveFirst_fault (m : Input) (s : State) : (s.arriveFirst m).fault = s.fault := rfl

@[simp] theorem State.arriveFirst_position (m : Input) (s : State) : (s.arriveFirst m).position = s.position := rfl

@[simp] theorem State.arriveFirst_inbox (m : Input) (s : State) : (s.arriveFirst m).inbox = m :: s.inbox := rfl

@[simp] theorem State.arriveFirst_draws (m : Input) (s : State) : (s.arriveFirst m).draws = s.draws := rfl

@[simp] theorem State.arriveFirst_fresh (m : Input) (s : State) : (s.arriveFirst m).fresh = s.fresh := rfl

@[simp] theorem State.arriveFirst_portA (m : Input) (s : State) : (s.arriveFirst m).portA = s.portA := rfl

@[simp] theorem State.arriveFirst_portR (m : Input) (s : State) : (s.arriveFirst m).portR = s.portR := rfl

@[simp] theorem State.arriveFirst_portD (m : Input) (s : State) : (s.arriveFirst m).portD = s.portD := rfl

/-! ## dropDraw: the draw port only. -/

@[simp] theorem State.dropDraw_bank (s : State) : s.dropDraw.bank = s.bank := by
  unfold State.dropDraw; split <;> rfl

@[simp] theorem State.dropDraw_work (s : State) : s.dropDraw.work = s.work := by
  unfold State.dropDraw; split <;> rfl

@[simp] theorem State.dropDraw_cur (s : State) : s.dropDraw.cur = s.cur := by
  unfold State.dropDraw; split <;> rfl

@[simp] theorem State.dropDraw_voices (s : State) : s.dropDraw.voices = s.voices := by
  unfold State.dropDraw; split <;> rfl

@[simp] theorem State.dropDraw_mixer (s : State) : s.dropDraw.mixer = s.mixer := by
  unfold State.dropDraw; split <;> rfl

@[simp] theorem State.dropDraw_filter (s : State) : s.dropDraw.filter = s.filter := by
  unfold State.dropDraw; split <;> rfl

@[simp] theorem State.dropDraw_reverb (s : State) : s.dropDraw.reverb = s.reverb := by
  unfold State.dropDraw; split <;> rfl

@[simp] theorem State.dropDraw_noise (s : State) : s.dropDraw.noise = s.noise := by
  unfold State.dropDraw; split <;> rfl

@[simp] theorem State.dropDraw_diag (s : State) : s.dropDraw.diag = s.diag := by
  unfold State.dropDraw; split <;> rfl

@[simp] theorem State.dropDraw_fault (s : State) : s.dropDraw.fault = s.fault := by
  unfold State.dropDraw; split <;> rfl

@[simp] theorem State.dropDraw_position (s : State) : s.dropDraw.position = s.position := by
  unfold State.dropDraw; split <;> rfl

@[simp] theorem State.dropDraw_inbox (s : State) : s.dropDraw.inbox = s.inbox := by
  unfold State.dropDraw; split <;> rfl

@[simp] theorem State.dropDraw_portA (s : State) : s.dropDraw.portA = s.portA := by
  unfold State.dropDraw; split <;> rfl

@[simp] theorem State.dropDraw_portR (s : State) : s.dropDraw.portR = s.portR := by
  unfold State.dropDraw; split <;> rfl

@[simp] theorem State.dropDraw_portD (s : State) : s.dropDraw.portD = s.portD := by
  unfold State.dropDraw; split <;> rfl

@[simp] theorem State.dropDraw_draws (s : State) : s.dropDraw.draws = s.draws.tail := by
  cases h : s.draws <;> simp [State.dropDraw, h]

@[simp] theorem State.dropDraw_fresh (s : State) :
    s.dropDraw.fresh = if s.draws = [] then s.fresh + 1 else s.fresh := by
  cases h : s.draws <;> simp [State.dropDraw, h]

/-! ## raiseFault and stayStuck: the fields that have a value (60_exceptions.md R528). -/

@[simp] theorem State.raiseFault_fault (r : Fault) (s : State) : (s.raiseFault r).fault = some r := rfl

@[simp] theorem State.raiseFault_position (r : Fault) (s : State) : (s.raiseFault r).position = s.position := rfl

@[simp] theorem State.raiseFault_inbox (r : Fault) (s : State) : (s.raiseFault r).inbox = s.inbox := rfl

@[simp] theorem State.raiseFault_fresh (r : Fault) (s : State) : (s.raiseFault r).fresh = s.fresh + 1 := rfl

@[simp] theorem State.stayStuck_fault (s : State) : (s.stayStuck).fault = s.fault := rfl

@[simp] theorem State.stayStuck_position (s : State) : (s.stayStuck).position = s.position := rfl

@[simp] theorem State.stayStuck_inbox (s : State) : (s.stayStuck).inbox = s.inbox := rfl

@[simp] theorem State.stayStuck_fresh (s : State) : (s.stayStuck).fresh = s.fresh + 1 := rfl

/-! ## Patches and oscillators see no other field. -/

@[simp] theorem State.event_patch (e : Event) (s : State) (i : Sel) : (s.event e).patch i = s.patch i := by
  cases i <;> rfl

@[simp] theorem State.accept_patch (rest : List Input) (s : State) (i : Sel) :
    (s.accept rest).patch i = s.patch i := by
  cases i <;> rfl

@[simp] theorem State.setVoice_patch (v : Fin 32) (x : Voice) (s : State) (i : Sel) :
    (s.setVoice v x).patch i = s.patch i := by
  cases i <;> rfl

@[simp] theorem State.mapVoices_patch (f : Voice → Voice) (s : State) (i : Sel) :
    (s.mapVoices f).patch i = s.patch i := by
  cases i <;> rfl

@[simp] theorem State.dropDraw_patch (s : State) (i : Sel) : s.dropDraw.patch i = s.patch i := by
  cases i <;> simp [State.patch]

theorem State.osc_eq (s : State) (r : OscRef) : s.osc r = (s.patch r.sel).osc r.k := rfl

/-! ## Voices by index. -/

@[simp] theorem State.setVoice_get (v w : Fin 32) (x : Voice) (s : State) :
    (s.setVoice v x).voices[w] = if v = w then x else s.voices[w] := by
  simp [Vector.getElem_set, Fin.ext_iff]

@[simp] theorem State.mapVoices_get (f : Voice → Voice) (w : Fin 32) (s : State) :
    (s.mapVoices f).voices[w] = f s.voices[w] := by
  simp

@[simp] theorem State.setBank_get (i j : Fin 32) (p : Patch) (s : State) :
    (s.setBank i p).bank[j] = if i = j then p else s.bank[j] := by
  simp [Vector.getElem_set, Fin.ext_iff]

end Sys2Proof.Machine
end

