-- ==== Sys2Proof/Laws/Shared.lean ====
section
/-! SUPPORT. For each shared operation, one lemma that says what it can do. -/

namespace Sys2Proof.Machine

/-! ## One step -/

/-- With no input, a step changes nothing (60_exceptions.md R534). -/
theorem step_idle (s : State) (h : s.inbox = []) : step s = .next s := by
  simp [step, State.nextInput, h]

/-- With an input, a step performs it, or leaves a faulted block stuck. -/
theorem step_input (s : State) (m : Input) (rest : List Input) (h : s.inbox = m :: rest) :
    step s =
      if s.fault = none ∨ decode m = .reset then exec (decode m) (s.accept rest)
      else .next (s.accept rest).stayStuck := by
  by_cases hf : s.fault = none <;> by_cases hr : decode m = .reset <;>
    simp [step, State.nextInput, h, State.performs, State.isStuck, hf, hr]

/-- Everything a step that gives a next state can have done. -/
theorem step_cases (s t : State) (h : step s = .next t) :
    (s.inbox = [] ∧ t = s) ∨
    ∃ m rest, s.inbox = m :: rest ∧
      ((s.fault = none ∨ decode m = .reset) ∧ exec (decode m) (s.accept rest) = .next t ∨
       s.fault ≠ none ∧ decode m ≠ .reset ∧ t = (s.accept rest).stayStuck) := by
  cases hi : s.inbox with
  | nil =>
    rw [step_idle s hi] at h
    exact .inl ⟨rfl, (Host.Outcome.next.inj h).symm⟩
  | cons m rest =>
    rw [step_input s m rest hi] at h
    refine .inr ⟨m, rest, rfl, ?_⟩
    split at h
    · exact .inl ⟨‹_›, h⟩
    · rename_i hn
      simp only [not_or] at hn
      exact .inr ⟨hn.1, hn.2, (Host.Outcome.next.inj h).symm⟩

/-! ## Allocation (45_voice.md R360) -/

/-- The voice allocated is inactive, and every lower one is active. -/
theorem State.allocate_some (s : State) (v : Fin 32) (h : s.allocate = some v) :
    (s.voices[v]).active = false ∧ ∀ w : Fin 32, w < v → (s.voices[w]).active = true := by
  unfold State.allocate at h
  rw [List.find?_eq_some_iff_getElem] at h
  obtain ⟨hv, i, hi, hget, hlow⟩ := h
  simp only [List.length_finRange] at hi
  simp only [List.getElem_finRange] at hget
  have hvi : v.val = i := by rw [← hget]; simp
  refine ⟨by simpa using hv, fun w hw => ?_⟩
  have hwi : w.val < i := by rw [← hvi]; exact hw
  have := hlow w.val hwi
  simpa using this

/-- No voice is allocated exactly when all are active. -/
theorem State.allocate_none (s : State) :
    s.allocate = none ↔ ∀ w : Fin 32, (s.voices[w]).active = true := by
  simp [State.allocate, List.find?_eq_none]

/-! ## Starting one oscillator (47_engine.md R451) -/

theorem startOsc_none (sel : Sel) (note : BitVec 7) (volume : F32) (k : OscIndex) (s : State)
    (h : (s.osc ⟨sel, k⟩).waveType = .none) : startOsc sel note volume k s = s := by
  simp [startOsc, h]

theorem startOsc_full (sel : Sel) (note : BitVec 7) (volume : F32) (k : OscIndex) (s : State)
    (h : (s.osc ⟨sel, k⟩).waveType ≠ .none) (ha : s.allocate = none) :
    startOsc sel note volume k s = s.event .voicePoolExhausted := by
  simp [startOsc, h, ha]

theorem startOsc_some (sel : Sel) (note : BitVec 7) (volume : F32) (k : OscIndex) (s : State)
    (v : Fin 32) (h : (s.osc ⟨sel, k⟩).waveType ≠ .none) (ha : s.allocate = some v) :
    startOsc sel note volume k s =
      (s.dropDraw).setVoice v ((s.voices[v]).noteOn ⟨sel, k⟩ (s.osc ⟨sel, k⟩) note
        (F32.mul volume (s.patch sel).mixLevel) s.draw) := by
  simp only [startOsc, if_neg h, ha]

/-- A note-on changes no patch. -/
@[simp] theorem startOsc_patch (sel : Sel) (note : BitVec 7) (volume : F32) (k : OscIndex) (s : State)
    (i : Sel) : (startOsc sel note volume k s).patch i = s.patch i := by
  by_cases h : (s.osc ⟨sel, k⟩).waveType = .none
  · rw [startOsc_none sel note volume k s h]
  · cases ha : s.allocate with
    | none => rw [startOsc_full sel note volume k s h ha, State.event_patch]
    | some v =>
      rw [startOsc_some sel note volume k s v h ha, State.setVoice_patch, State.dropDraw_patch]

/-! ## Run lengths -/

theorem onePoleRun_length (k : F32) (xs : List F32) (f : Filter) :
    (onePoleRun k xs f).1.length = xs.length := by
  induction xs generalizing f with
  | nil => rfl
  | cons x xs ih => simp [onePoleRun, ih]

theorem ladderRun_length (c : LadderCoeffs) (xs : List F32) (f : Filter) :
    (ladderRun c xs f).1.length = xs.length := by
  induction xs generalizing f with
  | nil => rfl
  | cons x xs ih => simp [ladderRun, ih]

/-- The filter gives as many samples as it takes. -/
theorem Filter.apply_length (f : Filter) (sr : Nat) (xs : List F32) :
    (f.apply sr xs).1.length = xs.length := by
  unfold Filter.apply
  split
  · exact onePoleRun_length _ _ _
  · exact ladderRun_length _ _ _

theorem reverbRun_length (d : Nat) (xs : List F32) (rv : Reverb) :
    (reverbRun d xs rv).1.length = xs.length := by
  induction xs generalizing rv with
  | nil => rfl
  | cons x xs ih => simp [reverbRun, ih]

theorem renderSamples_length (noise : SampleMem) (w : Wave) (duty vol inc : F32) (xs : List F32)
    (ph : F32) : (renderSamples noise w duty vol inc xs ph).length = xs.length := by
  induction xs generalizing ph with
  | nil => rfl
  | cons x xs ih => simp [renderSamples, ih]

theorem renderVoice_length (c : RenderCtx) (o : Oscillator) (v : Voice) (mix : List F32) :
    (renderVoice c o v mix).length = mix.length := by
  unfold renderVoice
  split
  · exact renderSamples_length _ _ _ _ _ _ _
  · rfl

/-- A run of FILL has one mix sample per sample asked for. -/
theorem fillMix_length (n sr : Nat) (s : State) : (fillMix n sr s).length = n := by
  unfold fillMix
  generalize s.voices.toList = vs
  have h : ∀ (mix : List F32), (vs.foldl (fun mix v =>
      renderVoice (fillCtx n sr s) (s.osc v.oscRef) v mix) mix).length = mix.length := by
    induction vs with
    | nil => intro mix; rfl
    | cons v vs ih => intro mix; simp only [List.foldl_cons, ih, renderVoice_length]
  rw [h]; simp

/-! ## The record -/

theorem zeroPad_length (n : Nat) (bytes : List Byte) : (zeroPad n bytes).length = n := by
  simp [zeroPad]; omega

/-- A packed patch is 154 bytes (44_patch_record.md R330). -/
theorem Patch.pack_length (p : Patch) : p.pack.length = Config.recordSize := by
  simp [Patch.pack, Oscillator.pack, EnvSet.pack, Envelope.pack, Modulator.pack, zeroPad_length]

/-- An unpack writes W, and DG where it stops (44_patch_record.md R332). -/
theorem unpackWork_frame (pay : List Byte) (address size : Nat) (s : State) :
    ∃ d, unpackWork pay address size s =
      { s with work := (unpackLoop (address + size) subBlocks address pay s.work).1, diag := d } := by
  by_cases h : (unpackLoop (address + size) subBlocks address pay s.work).2 = address + size
  · exact ⟨s.diag, by simp [unpackWork, h, State.setWork]⟩
  · exact ⟨s.diag.record .unpackStopped, by simp [unpackWork, h, State.setWork, State.event]⟩

/-! ## Registers -/

/-- A register write changes the mixer, the filter, the reverb or DG (10_state.md R49). -/
theorem State.writeReg_frame (addr : Byte) (d : Word) (s : State) :
    ∃ m f r g, s.writeReg addr d = { s with mixer := m, filter := f, reverb := r, diag := g } := by
  have h : ∀ y : F32, ∃ m f r g,
      storeF32Reg addr y s = { s with mixer := m, filter := f, reverb := r, diag := g } := by
    intro y
    unfold storeF32Reg
    repeat' split
    all_goals exact ⟨_, _, _, _, rfl⟩
  unfold State.writeReg
  split
  · repeat' split
    all_goals exact ⟨_, _, _, _, rfl⟩
  · split
    · exact ⟨_, _, _, _, rfl⟩
    · split
      · exact h _
      · exact ⟨_, _, _, _, rfl⟩

end Sys2Proof.Machine
end

