-- ==== Sys2Proof/Laws/Operations.lean ====
section
/-! SUPPORT. What the operand forms, the voice transitions and the note routing can give, one lemma each. -/

namespace Sys2Proof.Machine

/-! ## Operand forms -/

theorem patchIndex_lt (n : Nat) (h : n < 32) : patchIndex n = some ⟨n, h⟩ := by
  simp [patchIndex, h]

theorem patchIndex_ge (n : Nat) (h : 32 ≤ n) : patchIndex n = none := by
  simp [patchIndex, Nat.not_lt.2 h]

/-- The selector of NOTE_ON_EX by the sign and the size of its index (47_engine.md R454). -/
theorem noteOnSel_neg (p : Byte) (h : p.toInt < 0) : noteOnSel p = some .work := by
  simp [noteOnSel, h]

theorem noteOnSel_bank (p : Byte) (i : Fin 32) (h : p.toInt = i.val) : noteOnSel p = some (.bank i) := by
  have h0 : ¬ p.toInt < 0 := by omega
  have h1 : p.toInt.toNat = i.val := by omega
  simp [noteOnSel, h0, h1, patchIndex_lt i.val i.isLt]

theorem noteOnSel_range (p : Byte) (h : 32 ≤ p.toInt) : noteOnSel p = none := by
  have h0 : ¬ p.toInt < 0 := by omega
  have h1 : 32 ≤ p.toInt.toNat := by omega
  simp [noteOnSel, h0, patchIndex_ge _ h1]

/-! ## Voice transitions (45_voice.md R361) -/

theorem Voice.noteOff_active (v : Voice) : v.noteOff.active = v.active := by
  unfold Voice.noteOff; split <;> rfl

theorem Voice.noteOff_note (v : Voice) : v.noteOff.note = v.note := by
  unfold Voice.noteOff; split <;> rfl

/-- VoiceNoteOff writes the flag and the elapsed time only (45_voice.md R363). -/
theorem Voice.noteOff_frame (v : Voice) :
    v.noteOff = { v with released := v.noteOff.released, elapsed := v.noteOff.elapsed } := by
  unfold Voice.noteOff; split <;> rfl

/-- VoiceUpdate stops the voice or leaves it (45_voice.md R364). -/
theorem Voice.update_cases (v : Voice) (release : F32) :
    v.update release = v ∨
      (v.active = true ∧ v.released = true ∧ F32.lt release v.elapsed = true ∧
        v.update release = v.stop) := by
  unfold Voice.update
  split
  · rename_i h
    simp only [Bool.and_eq_true] at h
    exact .inr ⟨h.1.1, h.1.2, h.2, rfl⟩
  · exact .inl rfl

/-- A render moves the phase and the elapsed time of an active voice only (46_mixer.md R416). -/
theorem advanceVoice_frame (c : RenderCtx) (n : Nat) (o : Oscillator) (v : Voice) :
    advanceVoice c n o v =
      { v with phase := (advanceVoice c n o v).phase, elapsed := (advanceVoice c n o v).elapsed } := by
  unfold advanceVoice; split <;> rfl

theorem advanceVoice_inactive (c : RenderCtx) (n : Nat) (o : Oscillator) (v : Voice)
    (h : v.active = false) : advanceVoice c n o v = v := by
  simp [advanceVoice, h]

/-! ## Note routing (47_engine.md R450, R451) -/

theorem engineNoteOff_get (note : BitVec 7) (s : State) (v : Fin 32) :
    (engineNoteOff note s).voices[v] =
      if (s.voices[v]).active && (s.voices[v]).note == some note then (s.voices[v]).noteOff
      else s.voices[v] := by
  unfold engineNoteOff
  exact State.mapVoices_get _ v s

/-- One oscillator of a note-on writes voices, the draw port and DG only. -/
theorem startOsc_frame (sel : Sel) (note : BitVec 7) (volume : F32) (k : OscIndex) (s : State) :
    ∃ vs ds n d, startOsc sel note volume k s =
      { s with voices := vs, draws := ds, fresh := n, diag := d } := by
  by_cases h : (s.osc ⟨sel, k⟩).waveType = .none
  · exact ⟨_, _, _, _, startOsc_none sel note volume k s h⟩
  · cases ha : s.allocate with
    | none => exact ⟨_, _, _, _, startOsc_full sel note volume k s h ha⟩
    | some v =>
      rw [startOsc_some sel note volume k s v h ha]
      unfold State.setVoice State.dropDraw
      cases s.draws <;> exact ⟨_, _, _, _, rfl⟩

/-! ## Output (46_mixer.md R421) -/

/-- A conversion counts at most one saturated sample. -/
theorem convertEvent_cases (x : F32) (d : Diag) :
    convertEvent x d = d ∨
      convertEvent x d = { d with clipCount := d.clipCount + 1, lastEvent := 9 } := by
  unfold convertEvent
  split
  · exact .inl rfl
  · exact .inr rfl

/-- A run of conversions changes no counter but CLIP_COUNT. -/
theorem convertEvents_frame (xs : List F32) (d : Diag) :
    xs.foldl (fun d x => convertEvent x d) d =
      { d with
        clipCount := (xs.foldl (fun d x => convertEvent x d) d).clipCount
        lastEvent := (xs.foldl (fun d x => convertEvent x d) d).lastEvent } := by
  induction xs generalizing d with
  | nil => rfl
  | cons x xs ih =>
    simp only [List.foldl_cons]
    rcases convertEvent_cases x d with h | h <;> rw [h] <;> rw [ih]

/-- A run of conversions counts each sample that is a NaN or saturates. -/
theorem convertEvents_count (xs : List F32) (d : Diag) :
    xs.foldl (fun d x => convertEvent x d) d =
      if xs.countP (fun x => (inRange x).isNone) = 0 then d
      else
        { d with
          clipCount := d.clipCount + BitVec.ofNat 32 (xs.countP fun x => (inRange x).isNone), lastEvent := 9 } := by
  induction xs generalizing d with
  | nil => rfl
  | cons x xs ih =>
    rw [List.foldl_cons, ih, List.countP_cons]
    unfold convertEvent
    cases inRange x with
    | some t => rfl
    | none =>
      generalize xs.countP (fun x => (inRange x).isNone) = n
      have e : (1 : Word) + BitVec.ofNat 32 n = BitVec.ofNat 32 (n + 1) := by
        rw [Nat.add_comm, BitVec.ofNat_add]; rfl
      cases n with
      | zero => rfl
      | succ n =>
        simp only [Diag.record, Event.code, Option.isNone_none, Option.isSome_none, if_true, Bool.false_eq_true,
          if_false, Nat.succ_ne_zero, BitVec.add_assoc, e]

/-! ## Reverb (43_reverb.md R291) -/

/-- A reverb run writes the RAM and the write position only. -/
theorem reverbRun_frame (d : Nat) (xs : List F32) (rv : Reverb) :
    (reverbRun d xs rv).2 =
      { rv with buf := (reverbRun d xs rv).2.buf, wp := (reverbRun d xs rv).2.wp } := by
  induction xs generalizing rv with
  | nil => rfl
  | cons x xs ih =>
    simp only [reverbRun]
    rw [ih (rv.next d x)]
    rfl

end Sys2Proof.Machine
end

