-- ==== Sys2Proof/Laws/PerInstr.lean ====
section
/-! SUPPORT. Laws stated per instruction, about its encoding as syntax (30_encoding.md R142, R160). -/

namespace Sys2Proof.Laws.EncodedForm

/-- The least number of bytes of an instruction's input (30_encoding.md R142, R160); 0 where any does. -/
def least : Instr → Nat
  | .noteOff _ => 2
  | .noteOn _ _ => 3
  | .ccCutoff _ _ => 3
  | .ccReverb _ => 3
  | .ccPatch _ => 3
  | .ccOther _ => 2
  | .patchSelect _ => 2
  | .pitchBend _ => 3
  | .bulkRequest _ _ => 6
  | .bulkDeliver _ payload => 6 + payload.length
  | .ctrlUnknown _ => 0
  | .msgTooShort _ => 0
  | .fill _ _ => 7
  | .update _ => 5
  | .store _ => 2
  | .cfgWrite _ _ => 6
  | .cfgRead _ => 2
  | .reset => 1
  | .noteOnEx _ _ _ => 4
  | .hostUnknown _ => 0

/-- The input of an instruction is on the control port. -/
def onControl : Instr → Bool
  | .noteOff _ => true
  | .noteOn _ _ => true
  | .ccCutoff _ _ => true
  | .ccReverb _ => true
  | .ccPatch _ => true
  | .ccOther _ => true
  | .patchSelect _ => true
  | .pitchBend _ => true
  | .bulkRequest _ _ => true
  | .bulkDeliver _ _ => true
  | .ctrlUnknown _ => true
  | .msgTooShort _ => true
  | .fill _ _ => false
  | .update _ => false
  | .store _ => false
  | .cfgWrite _ _ => false
  | .cfgRead _ => false
  | .reset => false
  | .noteOnEx _ _ _ => false
  | .hostUnknown _ => false

/-- The encoding of `i` is on its row's port and as long as its row's min n asks. -/
def Statement (i : Instr) : Prop :=
  ∀ channel : BitVec 4, ∃ bytes : List Byte,
    encodeOn channel i = (if onControl i then .control bytes else .host bytes) ∧ least i ≤ bytes.length

theorem noteOff (note : BitVec 7) : Statement (.noteOff note) :=
  fun _ => ⟨_, rfl, by simp [least]⟩

theorem noteOn (note : BitVec 7) (velocity : BitVec 7) : Statement (.noteOn note velocity) :=
  fun _ => ⟨_, rfl, by simp [least]⟩

theorem ccCutoff (c : BitVec 7) (v : BitVec 7) : Statement (.ccCutoff c v) :=
  fun _ => ⟨_, rfl, by simp [least]⟩

theorem ccReverb (v : BitVec 7) : Statement (.ccReverb v) :=
  fun _ => ⟨_, rfl, by simp [least]⟩

theorem ccPatch (v : BitVec 7) : Statement (.ccPatch v) :=
  fun _ => ⟨_, rfl, by simp [least]⟩

theorem ccOther (c : BitVec 7) : Statement (.ccOther c) :=
  fun _ => ⟨_, rfl, by simp [least]⟩

theorem patchSelect (index : BitVec 7) : Statement (.patchSelect index) :=
  fun _ => ⟨_, rfl, by simp [least]⟩

theorem pitchBend (bend : BitVec 14) : Statement (.pitchBend bend) :=
  fun _ => ⟨_, rfl, by simp [least]⟩

theorem bulkRequest (addr : BitVec 14) (size : BitVec 14) : Statement (.bulkRequest addr size) :=
  fun _ => ⟨_, rfl, by simp [least, bulkHeader]⟩

theorem bulkDeliver (addr : BitVec 14) (payload : List Byte) : Statement (.bulkDeliver addr payload) :=
  fun _ => ⟨_, rfl, by simp [least, bulkHeader]; omega⟩

theorem ctrlUnknown (msg : List Byte) : Statement (.ctrlUnknown msg) :=
  fun _ => ⟨_, rfl, by simp [least]⟩

theorem msgTooShort (msg : List Byte) : Statement (.msgTooShort msg) :=
  fun _ => ⟨_, rfl, by simp [least]⟩

theorem fill (n : BitVec 16) (sr : Word) : Statement (.fill n sr) :=
  fun _ => ⟨_, rfl, by simp [least, bytes32]⟩

theorem update (deltaMs : F32) : Statement (.update deltaMs) :=
  fun _ => ⟨_, rfl, by simp [least, bytes32]⟩

theorem store (index : Byte) : Statement (.store index) :=
  fun _ => ⟨_, rfl, by simp [least]⟩

theorem cfgWrite (addr : Byte) (d : Word) : Statement (.cfgWrite addr d) :=
  fun _ => ⟨_, rfl, by simp [least, bytes32]⟩

theorem cfgRead (addr : Byte) : Statement (.cfgRead addr) :=
  fun _ => ⟨_, rfl, by simp [least]⟩

theorem reset : Statement (.reset) :=
  fun _ => ⟨_, rfl, by simp [least]⟩

theorem noteOnEx (p : Byte) (note : BitVec 7) (velocity : BitVec 7) : Statement (.noteOnEx p note velocity) :=
  fun _ => ⟨_, rfl, by simp [least]⟩

theorem hostUnknown (frame : List Byte) : Statement (.hostUnknown frame) :=
  fun _ => ⟨_, rfl, by simp [least]⟩

end Sys2Proof.Laws.EncodedForm
end

