-- ==== Sys2Proof/Tests/Slice0.lean ====
section
/-! SUPPORT. Small tests of the model, with expected values from spec/95_test_vectors.md, and for each statement with hypotheses a witness that meets them. -/

namespace Sys2Proof.Tests

set_option maxRecDepth 8000
set_option Elab.async false

open Sys2Proof Sys2Proof.Machine Sys2Proof.Claims

/-! ## Helpers -/

/-- A part of the next state, none where there is none. -/
def got {α : Type} (o : Host.Outcome State Fault Refusal) (f : State → α) : Option α :=
  match o with
  | .next t => some (f t)
  | .fault _ => none
  | .refused _ => none

/-- The next state, the given one where there is none. -/
def after (i : Instr) (s : State) : State := (got (exec i s) id).getD s

/-- The state after reset with draw 0 on the port. -/
def start : State := { State.reset with draws := [0, 0] }

/-- Voice 0 playing note 69 (95_test_vectors.md P1, after 2). -/
def playing : State := after (.noteOn 69 127) start

/-- Voice 0 released (95_test_vectors.md P1, after 4). -/
def releasing : State := after (.noteOff 69) playing

/-- Every voice active. -/
def full : State := State.reset.mapVoices fun v => { v with active := true, cachedType := .square, note := some 1 }

/-! ## The configuration (30_encoding.md R144) -/

theorem test_controllers_distinct : Config.controllersDistinct = true := by decide

/-! ## WellFormed refuses ill-formed terms, one for each check -/

theorem test_wf_cutoff_controller : (Instr.ccCutoff 3 0).wf = false := by decide
theorem test_wf_other_controller : (Instr.ccOther 74).wf = false := by decide
theorem test_wf_payload : (Instr.bulkDeliver 0 (List.replicate 16384 0)).wf = false := by
  simp only [Instr.wf, List.length_replicate]; decide
theorem test_wf_unknown_status : (Instr.ctrlUnknown [0x80, 0x01]).wf = false := by decide
theorem test_wf_unknown_command : (Instr.ctrlUnknown [0xF0, 0x02]).wf = false := by decide
theorem test_wf_unknown_empty : (Instr.ctrlUnknown []).wf = false := by decide
theorem test_wf_short_note : (Instr.msgTooShort [0x80, 0x01]).wf = false := by decide
theorem test_wf_short_unknown : (Instr.msgTooShort [0xA0]).wf = false := by decide
theorem test_wf_short_bulk : (Instr.msgTooShort [0xF0, 0x02, 0, 0, 1, 0, 9]).wf = false := by decide
theorem test_wf_host : (Instr.hostUnknown [0x06]).wf = false := by decide
theorem test_wf_host_long : (Instr.hostUnknown [0x03, 0x03]).wf = false := by decide

/-! ## Decoding: the words of 95_test_vectors.md, Encoding -/

theorem test_decode_noteOff : decode (.control [0x80, 0x45, 0x40]) = .noteOff 69 := by decide
theorem test_decode_noteOn : decode (.control [0x9F, 0x45, 0x7F]) = .noteOn 69 127 := by decide
theorem test_decode_ccCutoff : decode (.control [0xB0, 0x01, 0x7F]) = .ccCutoff 1 127 := by decide
theorem test_decode_ccReverb : decode (.control [0xB0, 0x5B, 0x7F]) = .ccReverb 127 := by decide
theorem test_decode_ccPatch : decode (.control [0xB0, 0x00, 0x05]) = .ccPatch 5 := by decide
theorem test_decode_ccOther : decode (.control [0xB0, 0x07]) = .ccOther 7 := by decide
theorem test_decode_patchSelect : decode (.control [0xC0, 0x03]) = .patchSelect 3 := by decide
theorem test_decode_pitchBend : decode (.control [0xE0, 0xFF, 0xFF]) = .pitchBend 16383 := by decide
theorem test_decode_bulkRequest :
    decode (.control [0xF0, 0x01, 0x14, 0x00, 0x02, 0x00]) = .bulkRequest 20 2 := by decide
theorem test_decode_bulkDeliver :
    decode (.control [0xF0, 0x02, 0x12, 0x01, 0x02, 0x00, 0xFE, 0x01, 0x33]) =
      .bulkDeliver 146 [0xFE, 0x01] := by decide
theorem test_decode_ctrlUnknown : decode (.control [0xF0, 0x09]) = .ctrlUnknown [0xF0, 0x09] := by decide
theorem test_decode_msgTooShort :
    decode (.control [0xF0, 0x02, 0, 0, 5, 0, 1, 2]) = .msgTooShort [0xF0, 0x02, 0, 0, 5, 0, 1, 2] := by
  decide
theorem test_decode_fill :
    decode (.host [0x01, 0xE0, 0x01, 0x80, 0xBB, 0x00, 0x00]) = .fill 480 48000 := by decide
theorem test_decode_update : decode (.host [0x02, 0, 0, 0, 0]) = .update 0 := by decide
theorem test_decode_store : decode (.host [0x03, 0x03]) = .store 3 := by decide
theorem test_decode_cfgWrite :
    decode (.host [0x04, 0x05, 0x00, 0x00, 0x80, 0x3F]) = .cfgWrite 5 0x3F800000#32 := by decide
theorem test_decode_cfgRead : decode (.host [0x05, 0x20]) = .cfgRead 0x20 := by decide
theorem test_decode_reset : decode (.host [0x06]) = .reset := by decide
theorem test_decode_noteOnEx : decode (.host [0x07, 0xFF, 0x3C, 0x64]) = .noteOnEx 0xFF 60 100 := by decide
theorem test_decode_hostUnknown :
    decode (.host [0x01, 0xE0, 0x01, 0x80, 0xBB]) = .hostUnknown [0x01, 0xE0, 0x01, 0x80, 0xBB] := by
  decide

/-! ## Operations -/

/-- P1 after 2: VOICE_STATUS 0x7E014501, frequency 440.0. -/
theorem test_noteOn_voice :
    ((playing.voices[(0 : Fin 32)]).status, (playing.voices[(0 : Fin 32)]).freq) =
      (0x7E014501#32, 0x43DC0000#32) := by decide +kernel

/-- E4: a 33rd note-on counts one drop. -/
theorem test_noteOn_dropped :
    got (exec (.noteOn 60 100) full) (fun t => (t.diag.dropCount, t.diag.lastEvent, t.activeVoices)) =
      some (1, 4, 32) := by decide +kernel

/-- P1 after 4: VOICE_STATUS 0x7E014503. -/
theorem test_noteOff_status : (releasing.voices[(0 : Fin 32)]).status = 0x7E014503#32 := by
  decide +kernel

/-- NOTE_ON with velocity 0 releases. -/
theorem test_noteOn_zero :
    got (exec (.noteOn 69 0) playing) (fun t => (t.voices[(0 : Fin 32)]).released) = some true := by
  decide +kernel

theorem test_noteOnEx_bank :
    got (exec (.noteOnEx 3 60 100) start) (fun t => (t.voices[(0 : Fin 32)]).status.extractLsb' 25 6) =
      some 3 := by decide +kernel

theorem test_noteOnEx_range :
    got (exec (.noteOnEx 40 60 0) start) (fun t => (t.diag.ignoredCount, t.diag.lastEvent)) =
      some (1, 3) := by decide +kernel

theorem test_ccCutoff_half :
    got (exec (.ccCutoff 74 64) State.reset) (·.filter.cutoff) = some 0x461D7AF6#32 := by decide +kernel

theorem test_ccReverb_half :
    got (exec (.ccReverb 64) State.reset) (·.reverb.mix) = some 0x3F010204#32 := by decide +kernel

theorem test_ccPatch_selects : got (exec (.ccPatch 5) State.reset) (·.cur) = some 5 := by decide +kernel

theorem test_ccPatch_range :
    got (exec (.ccPatch 100) State.reset) (·.diag.lastEvent) = some 3 := by decide +kernel

theorem test_patchSelect_copies :
    got (exec (.patchSelect 7) (State.reset.setBank 7 { Patch.default with mixLevel := 0 }))
      (fun t => (t.cur, t.work.mixLevel)) = some (7, 0) := by decide +kernel

theorem test_ccOther_counts : got (exec (.ccOther 7) State.reset) (·.diag.lastEvent) = some 2 := by
  decide +kernel

theorem test_pitchBend_low :
    got (exec (.pitchBend 8183) State.reset) (·.mixer.bendTarget) = some 0x3F7FF7AF#32 := by
  decide +kernel

theorem test_pitchBend_high :
    got (exec (.pitchBend 16383) State.reset) (·.mixer.bendTarget) = some 0x3F8FAC51#32 := by
  decide +kernel

theorem test_bulkRequest_mix :
    got (exec (.bulkRequest 20 2) State.reset) (·.portR) =
      some [0xF0, 0x02, 0x14, 0x00, 0x02, 0x00, 0x7F, 0x00] := by decide +kernel

theorem test_bulkRequest_range :
    got (exec (.bulkRequest 155 0) State.reset) (·.diag.lastEvent) = some 6 := by decide +kernel

theorem test_bulkDeliver_stop :
    got (exec (.bulkDeliver 146 [0xFE, 1, 0, 0, 9, 9]) State.reset)
      (fun t => (t.work.mod0.range, t.work.mod1.range, t.diag.unpackStopCount, t.diag.lastEvent)) =
      some (0xFE, 0, 1, 5) := by decide +kernel

theorem test_bulkDeliver_name :
    got (exec (.bulkDeliver 0 ([0x41, 0x42, 0, 0x58] ++ List.replicate 16 0)) State.reset)
      (·.work.name) = some [0x41, 0x42] := by decide +kernel

theorem test_ctrlUnknown_counts :
    got (exec (.ctrlUnknown [0xF8]) State.reset) (·.diag.ignoredCount) = some 1 := by decide +kernel

theorem test_msgTooShort_counts :
    got (exec (.msgTooShort []) State.reset) (·.diag.lastEvent) = some 1 := by decide +kernel

theorem test_hostUnknown_counts :
    got (exec (.hostUnknown []) State.reset) (·.diag.lastEvent) = some 10 := by decide +kernel

/-- P1 after 3: the first samples of the A4 square wave. -/
theorem test_fill_first_samples :
    got (exec (.fill 4 48000) playing) (·.portA) = some [3267, 6652, 7224, 7948] := by decide +kernel

/-- A sample rate of 0 is the model fault. -/
theorem test_fill_fault : got (exec (.fill 16 0) State.reset) (·.fault) = some (some .fillParams) := by
  decide +kernel

/-- Release 0 and elapsed 0 stay releasing; elapsed 10 go inactive. -/
theorem test_update_strict :
    got (exec (.update 0) releasing) (fun t => (t.voices[(0 : Fin 32)]).active) = some true := by
  decide +kernel

theorem test_update_stops :
    got (exec (.update 0)
        (releasing.mapVoices fun v => { v with elapsed := 0x41200000#32 }))
      (fun t => ((t.voices[(0 : Fin 32)]).status, (t.voices[(0 : Fin 32)]).wavePos)) =
      some (0x7E01FF02#32, 0xBF800000#32) := by decide +kernel

theorem test_store_slot :
    got (exec (.store 3) (State.reset.setWork { Patch.default with mixLevel := 0 }))
      (fun t => ((t.bank[(3 : Fin 32)]).mixLevel, (t.bank[(2 : Fin 32)]).mixLevel)) =
      some (0, 0x3F800000#32) := by decide +kernel

theorem test_store_range : got (exec (.store 32) State.reset) (·.diag.lastEvent) = some 3 := by
  decide +kernel

theorem test_cfgWrite_decay :
    got (exec (.cfgWrite 0x05 0x3F800000#32) State.reset) (fun t => (t.reverb.decay, t.diag.lastEvent)) =
      some (0x3F7FFFFF#32, 0) := by decide +kernel

theorem test_cfgWrite_nan :
    got (exec (.cfgWrite 0x03 0x7FC00000#32) State.reset)
      (fun t => (t.filter.resonance, t.diag.lastEvent)) = some (0, 8) := by decide +kernel

theorem test_cfgRead_status :
    got (exec (.cfgRead 0x20) State.reset) (·.portD) = some (some 0x7E00FF00#32) := by decide +kernel

theorem test_reset_clears :
    got (exec .reset { playing with fault := some .fillParams })
      (fun t => (t.fault, (t.voices[(0 : Fin 32)]).active)) = some (none, false) := by decide +kernel

/-- A frame that has arrived is performed by the next step. -/
theorem test_step_runs :
    got (step (State.reset.withFetchWord 16 0x2005)) (fun t => (t.portD, t.position)) =
      some (some 0x7E00FF00#32, 1) := by decide +kernel

/-! ## Shared computations -/

theorem test_level_decay :
    Envelope.level ⟨0, 0x42C80000#32, 0x3F666666#32, 0x42C80000#32, 0x3F333333#32, 0x43480000#32⟩
      0x43160000#32 false = 0x3F4CCCCC#32 := by decide +kernel

theorem test_encFrac_tie : encFrac 0x3EFBF7F0#32 = 63 := by decide +kernel

theorem test_noise_first : [noiseDefault 0, noiseDefault 1, noiseDefault 479999] =
    [0x3E7F9A00#32, 0x3F670FCE#32, 0x3EEF7DE0#32] := by decide +kernel

theorem test_square_sample : Numerics.tanhSinTable 100 = 0x3F68FACC#32 := by decide +kernel

theorem test_onePole_coefficient :
    Filter.onePoleK { Filter.reset with cutoff := 0x447A0000#32 } 48000 = 0x3F60971C#32 := by
  decide +kernel

theorem test_ladder_coefficients :
    Filter.ladderCoeffs { Filter.reset with cutoff := 0x461C4000#32, resonance := 0x3F666666#32 } 44100 =
      ⟨0x3E9B6DCC#32, 0x3F26DB73#32, 0x3FE23700#32⟩ := by decide +kernel

theorem test_reverb_delay :
    Reverb.delaySamples { Reverb.reset with delayMs := 0x461C3F9A#32 } 48000 = 479995 := by
  decide +kernel

theorem test_warp_quarter : (warp 2047 0x3E800000#32 4096, warp 3000 0x3E800000#32 4096) = (2730, 3365) := by
  decide +kernel

theorem test_compress_knee : compress 0x40800000#32 = 0x46CEE000#32 := by decide +kernel

/-! ## Witnesses: a state and operands that meet the hypotheses of each statement, at the bounds of its clauses -/

theorem witness_encode_round_trip : (Instr.fill 480 48000).wf = true := by decide

theorem witness_channel : (0x9#4) ≠ 0xF := by decide

theorem witness_payload_long_enough : (0x0001#14).toNat ≤ ([0x05] : List Byte).length := by decide

theorem witness_decode_events :
    (inputEvent (.control []), inputEvent (.control [0xA0]), inputEvent (.control [0xB0, 0x07]),
      inputEvent (.control [0xB0, 0x4A]), inputEvent (.host [0x08]), inputEvent (.host [0x06])) =
      (some .msgTooShort, some .msgUnknown, some .msgUnknown, some .msgTooShort, some .hostFrameBad, none) := by
  decide

theorem witness_step_idle : State.reset.inbox = [] := by decide

theorem witness_step_input :
    (State.reset.arriveFirst (.host [0x06])).inbox = .host [0x06] :: [] ∧
      (State.reset.arriveFirst (.host [0x06])).fault = none := by decide

theorem witness_step_stuck :
    ({ State.reset with fault := some .fillParams } : State).fault ≠ none ∧
      decode (.host [0x06]) = .reset ∧ decode (.host [0x05, 0x00]) ≠ .reset := by decide

theorem witness_fill_out_of_range :
    (0#32).toNat < 1 ∧ 192000 < (192001#32).toNat ∧ 4096 < (4097#16).toNat := by decide

theorem witness_fault_raised :
    ∃ t, exec (.fill 16 0) State.reset = .next t ∧ t.fault ≠ none ∧ State.reset.fault = none :=
  ⟨State.reset.raiseFault .fillParams, rfl, by simp [State.raiseFault], rfl⟩

theorem witness_velocity : (1#7) ≠ 0 ∧ (127#7) ≠ 0 ∧ (0#7) = 0 := by decide

theorem witness_patch_index :
    (0xFF#8).toInt < 0 ∧ (0x80#8).toInt < 0 ∧ (0x00#8).toInt = (0 : Fin 32).val ∧
      (0x1F#8).toInt = (31 : Fin 32).val ∧ 32 ≤ (0x20#8).toInt ∧ 32 ≤ (0x7F#8).toInt := by decide

theorem witness_voice_changes :
    ∃ t, exec (.noteOff 69) playing = .next t ∧ t.fault = none ∧ playing.fault = none ∧
      (playing.voices[(0 : Fin 32)]).state ≠ (t.voices[(0 : Fin 32)]).state :=
  ⟨_, rfl, by decide +kernel, by decide +kernel, by decide +kernel⟩

theorem witness_patch_selection :
    (0#7).toNat = (0 : Fin 32).val ∧ (31#7).toNat = (31 : Fin 32).val ∧ 32 ≤ (32#7).toNat ∧
      (31#8).toNat = (31 : Fin 32).val ∧ 32 ≤ (32#8).toNat := by decide

theorem witness_bend :
    ¬ (8184 ≤ (8183#14).toNat ∧ (8183#14).toNat ≤ 8200) ∧
      (8184 ≤ (8184#14).toNat ∧ (8184#14).toNat ≤ 8200) ∧
      (8184 ≤ (8200#14).toNat ∧ (8200#14).toNat ≤ 8200) ∧
      ¬ (8184 ≤ (8201#14).toNat ∧ (8201#14).toNat ≤ 8200) := by decide

theorem witness_bulk_range :
    (154#14).toNat + (0#14).toNat ≤ 154 ∧ (0#14).toNat + (154#14).toNat ≤ 154 ∧
      154 < (155#14).toNat + (0#14).toNat ∧ (150#14).toNat + ([1, 2, 3, 4] : List Byte).length ≤ 154 ∧
      154 < (150#14).toNat + ([1, 2, 3, 4, 5] : List Byte).length := by decide

theorem witness_name_length :
    ({ Patch.default with name := List.replicate 19 0x41 } : Patch).name.length ≤ 19 := by decide

theorem witness_name_block :
    (List.replicate 20 (0x41 : Byte)).length = 20 ∧ decodeBlock .name (List.replicate 20 0x41) Patch.default =
      { Patch.default with name := List.replicate 19 0x41 } := by decide +kernel

theorem witness_envelope_legal : Envelope.legal .flat ∧ Envelope.legal .zero := by
  simp only [Envelope.legal, inRangeF32]
  decide +kernel

theorem witness_patch_legal : Patch.default.legal := by
  have hf := witness_envelope_legal.1
  have hz := witness_envelope_legal.2
  have ho : ∀ w, (Oscillator.default w).legal := fun w =>
    ⟨by simp only [Oscillator.default, inRangeF32]; decide +kernel,
      by simp only [Oscillator.default, inRangeF32]; decide +kernel,
      ⟨hf, hz, hz, hz, rfl⟩, ⟨hz, hz, hz, hz, rfl⟩⟩
  exact ⟨by decide, by decide, by unfold inRangeF32; decide +kernel, ho _, ho _,
    by unfold inRangeF32; decide +kernel, by unfold inRangeF32; decide +kernel⟩

theorem witness_state_legal : State.reset.Legal where
  memory := fun _ => ⟨rfl, rfl⟩
  patches := fun _ => ⟨witness_patch_legal, fun i => by
    have : State.reset.bank[i] = Patch.default := by simp [State.reset]
    rw [this]; exact witness_patch_legal⟩
  registers := fun _ => by simp only [inRangeF32]; decide +kernel
  voices := fun _ v => by
    have : State.reset.voices[v] = Voice.reset := by simp [State.reset]
    rw [this]
    exact ⟨fun h => by simp [Voice.reset] at h, fun _ => rfl⟩

theorem witness_legal_step :
    step (State.reset.arriveFirst (.host [0x05, 0x00])) =
      .next { State.reset with position := 1, portD := some 0x3F800000#32 } := rfl

theorem witness_scaled_fraction :
    finite 0#32 ∧ finite 0x3F800000#32 ∧ 0 ≤ val 0#32 ∧ val 0x3F800000#32 ≤ 1 ∧
      finite 0x461C4000#32 ∧ 0 ≤ val 0x461C4000#32 ∧ val 0x461C4000#32 ≤ 10000 ∧
      finite 0x41A00000#32 ∧ 0 ≤ val 0x41A00000#32 ∧ val 0x41A00000#32 ≤ 20 := by decide +kernel

theorem witness_repeated_write :
    (∃ addr payload, Instr.bulkDeliver 0 [] = .bulkDeliver addr payload) ∧
      (∃ addr d, Instr.cfgWrite 0 0 = .cfgWrite addr d) := ⟨⟨_, _, rfl⟩, ⟨_, _, rfl⟩⟩

theorem witness_register_ranges :
    f32Range 0x00 = some (0#32, 0x3F800000#32) ∧ f32Range 0x06 = some (0#32, 0x3F800000#32) ∧
      f32Range 0x01 = none ∧ f32Range 0x07 = none ∧ finite 0x80000000#32 ∧ ¬ finite 0x7F800000#32 ∧
      ¬ finite 0x7FC00000#32 := by decide +kernel

theorem witness_register_addresses :
    (0x1F#8).toNat < 0x20 ∧ (0x20#8).toNat = 0x20 + (0 : Fin 32).val ∧
      (0x3F#8).toNat = 0x20 + (31 : Fin 32).val ∧ (0x40#8).toNat = 0x40 + (0 : Fin 32).val ∧
      (0x5F#8).toNat = 0x40 + (31 : Fin 32).val ∧ (0x60#8).toNat = 0x60 + (0 : Fin 32).val ∧
      (0x9F#8).toNat = 0x80 + (31 : Fin 32).val ∧ (0xA0#8).toNat = 0xA0 + (0 : Fin 32).val ∧
      (0xBF#8).toNat = 0xA0 + (31 : Fin 32).val ∧ 0xC0 ≤ (0xC0#8).toNat := by decide

theorem witness_voice_legal : (playing.voices[(0 : Fin 32)]).legal ∧ Voice.reset.legal := by
  constructor
  · simp only [Voice.legal, inRangeF32]; decide +kernel
  · simp only [Voice.legal, inRangeF32]; decide +kernel

theorem witness_write_sets :
    ∃ t, exec (.store 3) State.reset = .next t ∧ t.fault = none ∧
      mayWrite (.store 3) = some [.bank, .ignoredCount, .lastEvent] ∧
      Part.work ∉ [Part.bank, .ignoredCount, .lastEvent] :=
  ⟨_, rfl, by decide +kernel, rfl, by decide⟩

theorem witness_events_bounded :
    Instr.noteOn 60 100 ≠ .reset ∧ ∃ t, exec (.noteOn 60 100) full = .next t ∧ t.fault = none :=
  ⟨by decide, _, rfl, by decide +kernel⟩

theorem witness_fill_legal : LegalFill 0 1 ∧ LegalFill 4096 192000 := by decide

/-- A NaN and the 33200.0 of 46_mixer.md R421, which is what 10.0 compresses to, are counted; 1.0 is not. -/
theorem witness_saturates :
    Saturates 0x7FC00000#32 ∧ compress 0x41200000#32 = 0x4701B000#32 ∧
      Saturates 0x4701B000#32 ∧ ¬ Saturates (compress 0x3F800000#32) := by decide +kernel

theorem witness_mix_index : (0 : Nat) < 1 := by decide

theorem witness_fill_of_none :
    LegalFill 0 48000 ∧ negative playing.mixer.lfoPhase = false ∧
      F32.lt playing.mixer.lfoPhase (F32.ofNat playing.work.lfoWave.len) = true ∧
      finite playing.work.lfoFreq ∧
      ∀ v : Fin 32, (playing.voices[v]).active = true →
        finite (playing.voices[v]).elapsed ∧ negative (playing.voices[v]).elapsed = false := by
  decide +kernel

theorem witness_warp_index : (4095 : Nat) < Wave.sine.len ∧ (479999 : Nat) < Wave.noise.len := by decide

theorem witness_warp_duty :
    finite 0#32 ∧ 0 ≤ val 0#32 ∧ finite 0x3F800000#32 ∧ val 0x3F800000#32 ≤ 1 := by decide +kernel

theorem witness_convert :
    nan 0x7FC00000#32 ∧ finite 0x46FFFE00#32 ∧ finite 0x47000000#32 ∧ finite 0xC7000000#32 ∧
      ¬ finite 0x7F800000#32 ∧ ¬ nan 0x7F800000#32 ∧ ¬ finite 0xFF800000#32 ∧ ¬ nan 0xFF800000#32 ∧
      truncate (val 0x46FFFE00#32) = 32767 ∧ truncate (val 0x47000000#32) = 32768 ∧
      truncate (val 0xC7000000#32) = -32768 := by decide +kernel

theorem witness_compress_pair :
    finite 0x40200000#32 ∧ finite 0x40800000#32 ∧ val 0x40200000#32 ≤ val 0x40800000#32 := by
  decide +kernel

/-- A sample at 2.5 ends the first piece of the compressor, 3.0 lies in the second and 4.0 in the third, and so on
the other side. -/
theorem witness_compress_pieces :
    let s (x : F32) : F32 := F32.mul x (F32.ofNat 8000)
    let first (x : F32) : F32 := F32.add (F32.ofNat 20000)
      (F32.mul (F32.sub (s x) (F32.ofNat 20000)) 0x3F333333#32)
    s 0x40200000#32 = F32.ofNat 20000 ∧ F32.lt (F32.ofNat 20000) (s 0x40400000#32) = true ∧
      F32.le (first 0x40400000#32) (F32.ofNat 26000) = true ∧
      F32.lt (F32.ofNat 26000) (first 0x40800000#32) = true ∧
      s 0xC0200000#32 = F32.neg (F32.ofNat 20000) ∧
      F32.lt (s 0xC0400000#32) (F32.neg (F32.ofNat 20000)) = true ∧
      F32.lt (s 0xC0800000#32) (F32.neg (F32.ofNat 20000)) = true := by decide +kernel

theorem witness_filter_kinds :
    Filter.reset.kind = .moog ∧ ({ Filter.reset with kind := .onePole } : Filter).kind = .onePole ∧
      0 < ([0x3F800000#32] : List F32).length := by decide

theorem witness_one_pole :
    let f : Filter := { Filter.reset with kind := .onePole, cutoff := 0#32, prev := 0x3F800000#32 }
    f.kind = .onePole ∧ f.cutoff = 0#32 ∧ finite f.prev ∧ f.prev ≠ 0x80000000#32 ∧
      ∀ x ∈ [0x3F800000#32], finite x :=
  ⟨rfl, rfl, by decide, by decide, fun x hx => by rw [List.mem_singleton.1 hx]; decide⟩

theorem witness_reverb :
    Reverb.reset.buf.wf reverbDefault 480000 = true ∧ finite Reverb.reset.delayMs ∧
      ([0x3F800000#32] : List F32).length ≤ 480000 := by decide +kernel

/-- An envelope with every stage: delay 10, attack 20, peak 1, decay 40, sustain 0.5, release 80. -/
def staged : Envelope :=
  ⟨0x41200000#32, 0x41A00000#32, 0x3F800000#32, 0x42200000#32, 0x3F000000#32, 0x42A00000#32⟩

/-- The times 0, 10, 30, 70, 80 and 100 meet the clauses about the boundaries of its stages. -/
theorem witness_envelope_times :
    staged.legal ∧ finite 0#32 ∧ val 0#32 < val staged.delay ∧
      (val 0x41200000#32 = val staged.delay ∧ 0 < val staged.attack) ∧
      (val (F32.sub 0x41F00000#32 staged.delay) = val staged.attack ∧
        val staged.attack < val (F32.add staged.attack staged.decay)) ∧
      val (F32.add staged.attack staged.decay) ≤ val (F32.sub 0x428C0000#32 staged.delay) ∧
      val staged.release ≤ val 0x42A00000#32 ∧ 0 < val staged.release := by
  simp only [Envelope.legal, inRangeF32]
  decide +kernel

/-- The times 20, 50 and 80 lie in its attack, decay and sustain, and 40 in its release. -/
theorem witness_envelope_inside :
    (val staged.delay ≤ val 0x41A00000#32 ∧
        val (F32.sub 0x41A00000#32 staged.delay) < val staged.attack) ∧
      (val staged.attack ≤ val (F32.sub 0x42480000#32 staged.delay) ∧
        val (F32.sub 0x42480000#32 staged.delay) < val (F32.add staged.attack staged.decay)) ∧
      val (F32.add staged.attack staged.decay) ≤ val (F32.sub 0x42A00000#32 staged.delay) ∧
      val 0x42200000#32 < val staged.release := by decide +kernel

/-- Each of the six stages is reached. -/
theorem witness_envelope_stages :
    (staged.stage 0#32 false, staged.stage 0x41200000#32 false, staged.stage 0x41F00000#32 false,
      staged.stage 0x428C0000#32 false, staged.stage 0#32 true, staged.stage 0x42A00000#32 true) =
      (.delay, .attack, .decay, .sustain, .release, .done) := by decide +kernel

theorem witness_table_index :
    Wave.noise ≠ .none ∧ 479999 < Wave.noise.len ∧ 4095 < Wave.triangle.len := by decide

theorem witness_arithmetic :
    finite 0x3F800000#32 ∧ finite 0x3DCCCCCD#32 ∧ val 0x3DCCCCCD#32 ≠ 0 ∧ nan 0xFFC00000#32 ∧
      ¬ nan 0x3F800000#32 := by decide +kernel

theorem witness_helpers :
    finite 0xC0200000#32 ∧ finite 0x3F000000#32 ∧ val 0x3F000000#32 ≠ 0 ∧
      val 0x3F000000#32 ≤ val 0x3F800000#32 := by decide +kernel

theorem witness_exp_two : (0 : ℕ) < 12 ∧ |(-69 : ℤ)| ≤ 100 * (12 : ℕ) := by decide

theorem witness_exp :
    finite 0x3F800000#32 ∧ |val 0x3F800000#32| ≤ 1 ∧ |val 0xBF800000#32| ≤ 1 := by decide +kernel

/-- Half of a sample rate of 192000 is a cutoff, and so is 0. -/
theorem witness_exp_pi :
    finite 0x47BB8000#32 ∧ 0 ≤ val 0#32 ∧ val 0x47BB8000#32 ≤ (192000 : ℕ) / 2 := by decide +kernel

end Sys2Proof.Tests
end

section
/-! A step and the input it takes. -/

namespace Sys2Proof.Machine

/-- Settles O7: `step_idle` with no input, `step_input` with one. -/
theorem stepRunsDecodedInput : Obligations.StepRunsDecodedInput := by
  intro s
  refine ⟨step_idle s, fun m rest h => ⟨fun hperf => ?_, fun hfault hreset => ?_⟩⟩
  · rw [step_input s m rest h, if_pos hperf]
    rfl
  · refine ⟨(s.accept rest).stayStuck, ?_, rfl⟩
    rw [step_input s m rest h, if_neg (by simp [hfault, hreset])]

end Sys2Proof.Machine
end

section
/-! The grid of binary32 magnitudes, and what a pattern stands for. -/

set_option autoImplicit false

namespace Sys2Proof.F32

open Sys2Proof.Claims (exponent fraction negative finite val RoundsTo)

/-! ## The grid of magnitudes

The magnitude bits of a finite pattern, read as a number `b`, stand for `gridUnits b` units of 2^-149. The grid goes
on past the greatest finite pattern, as if the exponent had no bound, so that rounding needs no case for overflow. -/

/-- The units of 2^-149 that magnitude bits stand for. -/
def gridUnits (b : ℕ) : ℕ :=
  if b / 2 ^ 23 = 0 then b % 2 ^ 23 else (b % 2 ^ 23 + 2 ^ 23) * 2 ^ (b / 2 ^ 23 - 1)

theorem units_eq_gridUnits (x : F32) : units x = gridUnits (magBits x) := by
  simp [units, gridUnits, Nat.shiftLeft_eq]

/-- The grid point of a significand and a binary shift; only the least shift takes a short significand. -/
theorem gridUnits_scaled {s m : ℕ} (hm : m ≤ 2 ^ 24) (hs : s = 0 ∨ 2 ^ 23 ≤ m) :
    gridUnits (s * 2 ^ 23 + m) = m * 2 ^ s := by
  rcases hm.lt_or_eq with hlt | rfl
  · rcases lt_or_ge m (2 ^ 23) with hshort | hlong
    · obtain rfl : s = 0 := hs.resolve_right (by omega)
      rw [gridUnits, if_pos (by omega)]
      omega
    · rw [gridUnits, if_neg (by omega), show (s * 2 ^ 23 + m) % 2 ^ 23 + 2 ^ 23 = m by omega,
        show (s * 2 ^ 23 + m) / 2 ^ 23 - 1 = s by omega]
  · rw [gridUnits, if_neg (by omega), show (s * 2 ^ 23 + 2 ^ 24) % 2 ^ 23 + 2 ^ 23 = 2 ^ 23 by omega,
      show (s * 2 ^ 23 + 2 ^ 24) / 2 ^ 23 - 1 = s + 1 by omega]
    ring

/-- Magnitude bits are a binary shift and a significand below 2^24. -/
theorem exists_significand (b : ℕ) :
    ∃ s m, b = s * 2 ^ 23 + m ∧ m < 2 ^ 24 ∧ (s = 0 ∨ 2 ^ 23 ≤ m) := by
  rcases lt_or_ge b (2 ^ 23) with h | h
  · exact ⟨0, b, by omega, by omega, .inl rfl⟩
  · exact ⟨b / 2 ^ 23 - 1, b % 2 ^ 23 + 2 ^ 23, by omega, by omega, .inr (by omega)⟩

theorem gridUnits_strictMono : StrictMono gridUnits := by
  refine strictMono_nat_of_lt_succ fun b => ?_
  obtain ⟨s, m, rfl, hm, hs⟩ := exists_significand b
  rw [add_assoc, gridUnits_scaled hm.le hs, gridUnits_scaled (by omega) (by omega)]
  exact Nat.mul_lt_mul_of_pos_right m.lt_succ_self (by positivity)

@[simp] theorem gridUnits_zero : gridUnits 0 = 0 := rfl

/-- From 2^(23+s) units on, the grid holds multiples of 2^s only. -/
theorem two_pow_dvd_gridUnits {s b : ℕ} (h : 2 ^ (23 + s) ≤ gridUnits b) : 2 ^ s ∣ gridUnits b := by
  obtain ⟨t, m, rfl, hm, ht⟩ := exists_significand b
  rw [gridUnits_scaled hm.le ht] at h ⊢
  have hlt : 2 ^ (23 + s) < 2 ^ (24 + t) := by
    rw [pow_add 2 24 t]
    exact h.trans_lt (Nat.mul_lt_mul_of_pos_right hm (by positivity))
  have hst : s ≤ t := by
    have := (Nat.pow_lt_pow_iff_right (by norm_num)).1 hlt
    omega
  exact (pow_dvd_pow 2 hst).mul_left m

/-- Every significand of at most 24 bits, shifted, is on the grid. -/
theorem exists_gridUnits_eq (s k : ℕ) (hk : k ≤ 2 ^ 24) : ∃ b, gridUnits b = k * 2 ^ s := by
  induction s generalizing k with
  | zero => exact ⟨0 * 2 ^ 23 + k, gridUnits_scaled hk (.inl rfl)⟩
  | succ s ih =>
    rcases lt_or_ge k (2 ^ 23) with h | h
    · obtain ⟨b, hb⟩ := ih (2 * k) (by omega)
      exact ⟨b, by rw [hb]; ring⟩
    · exact ⟨_, gridUnits_scaled hk (.inr h)⟩

/-! ## What a pattern stands for -/

theorem one149_eq : one149 = 2 ^ 149 := by norm_num [one149]

theorem infBits_eq : infBits = 0x7F800000 := rfl

theorem exponent_eq (x : F32) : exponent x = magBits x / 2 ^ 23 := by
  have := x.isLt
  simp only [exponent, magBits, BitVec.extractLsb'_toNat, Nat.shiftRight_eq_div_pow]
  omega

theorem fraction_eq (x : F32) : fraction x = magBits x % 2 ^ 23 := by
  simp only [fraction, magBits, BitVec.extractLsb'_toNat, Nat.shiftRight_eq_div_pow]
  omega

theorem negative_eq_sign (x : F32) : negative x = sign x := by
  simp [negative, sign, BitVec.msb_eq_getLsbD_last]

theorem magBits_lt (x : F32) : magBits x < 2 ^ 31 := Nat.mod_lt _ (by norm_num)

theorem finite_iff_magBits_lt (x : F32) : finite x ↔ magBits x < infBits := by
  have := magBits_lt x
  rw [finite, exponent_eq, infBits_eq]
  omega

theorem nan_iff_isNaN (x : F32) : Claims.nan x ↔ isNaN x = true := by
  have := magBits_lt x
  rw [Claims.nan, exponent_eq, fraction_eq, isNaN, decide_eq_true_eq, infBits_eq]
  omega

/-- The sign of a pattern as a number. -/
def signOf (neg : Bool) : ℤ := if neg then -1 else 1

@[simp] theorem signOf_true : signOf true = -1 := rfl

@[simp] theorem signOf_false : signOf false = 1 := rfl

theorem toUnits_eq (x : F32) : toUnits x = signOf (sign x) * gridUnits (magBits x) := by
  rw [toUnits, ← units_eq_gridUnits]
  cases sign x <;> simp

/-- The number a pattern stands for is its units of 2^-149. -/
theorem val_eq_toUnits (x : F32) : val x = toUnits x / 2 ^ 149 := by
  have hmag : (if exponent x = 0 then (fraction x : ℚ) * 2 ^ (-149 : ℤ)
      else ((fraction x : ℚ) + 2 ^ 23) * 2 ^ ((exponent x : ℤ) - 150)) = gridUnits (magBits x) / 2 ^ 149 := by
    rw [exponent_eq, fraction_eq, gridUnits]
    split
    · rw [zpow_neg, div_eq_mul_inv]
      norm_cast
    · rename_i h
      rw [show ((magBits x / 2 ^ 23 : ℕ) : ℤ) - 150 = ((magBits x / 2 ^ 23 - 1 : ℕ) : ℤ) - (149 : ℕ) by omega,
        zpow_sub₀ (by norm_num), zpow_natCast, zpow_natCast]
      push_cast
      ring
  rw [val, hmag, toUnits_eq, negative_eq_sign]
  cases sign x <;> simp [neg_div]

theorem val_eq_gridUnits (x : F32) : val x = signOf (sign x) * (gridUnits (magBits x) / 2 ^ 149) := by
  rw [val_eq_toUnits, toUnits_eq]
  push_cast
  ring

/-! ## Packed patterns -/

theorem toNat_pack (neg : Bool) (b : ℕ) :
    (pack neg b).toNat = min b infBits + if neg then 2 ^ 31 else 0 := by
  have hmin : (if infBits ≤ b then infBits else b) = min b infBits := by
    rw [min_comm, min_def]
  rw [pack, hmin, BitVec.toNat_ofNat, infBits_eq]
  split <;> omega

@[simp] theorem magBits_pack (neg : Bool) (b : ℕ) : magBits (pack neg b) = min b infBits := by
  rw [magBits, toNat_pack, infBits_eq]
  cases neg <;> simp

@[simp] theorem sign_pack (neg : Bool) (b : ℕ) : sign (pack neg b) = neg := by
  rw [sign, BitVec.msb_eq_decide, toNat_pack, infBits_eq]
  cases neg <;> simp

theorem finite_pack_iff (neg : Bool) (b : ℕ) : finite (pack neg b) ↔ b < infBits := by
  rw [finite_iff_magBits_lt, magBits_pack]
  omega

theorem val_pack (neg : Bool) {b : ℕ} (hb : b < infBits) :
    val (pack neg b) = signOf neg * (gridUnits b / 2 ^ 149) := by
  rw [val_eq_gridUnits, sign_pack, magBits_pack, min_eq_left hb.le]

theorem pack_overflow (neg : Bool) {b : ℕ} (hb : infBits ≤ b) :
    pack neg b = if neg then 0xFF800000#32 else 0x7F800000#32 := by
  apply BitVec.eq_of_toNat_eq
  rw [toNat_pack, min_eq_right hb]
  cases neg <;> rfl

/-- The last bit of a finite pattern tells whether its magnitude bits are even. -/
theorem pack_lastBit {neg : Bool} {b : ℕ} (hb : b < infBits) (heven : b % 2 = 0) :
    (pack neg b).getLsbD 0 = false := by
  rw [BitVec.getLsbD, toNat_pack, Nat.testBit_zero, min_eq_left hb.le]
  cases neg <;> simp [Nat.add_mod, heven]

end Sys2Proof.F32
end

section
/-! Rounding to nearest, ties to even: the one rounding of the model meets the reading of IEEE 754. -/

set_option autoImplicit false

namespace Sys2Proof.F32

open Sys2Proof.Claims (finite val RoundsTo)

/-! ## Nearest on the grid -/

/-- `b` is the grid point nearest `x` units, ties to the even pattern. -/
def IsNearest (b : ℕ) (x : ℝ) : Prop :=
  ∀ c : ℕ, |(gridUnits b : ℝ) - x| < |(gridUnits c : ℝ) - x| ∨
    (|(gridUnits b : ℝ) - x| = |(gridUnits c : ℝ) - x| ∧ (c = b ∨ b % 2 = 0))

theorem IsNearest.le {b : ℕ} {x : ℝ} (h : IsNearest b x) (c : ℕ) :
    |(gridUnits b : ℝ) - x| ≤ |(gridUnits c : ℝ) - x| :=
  (h c).elim le_of_lt fun h => h.1.le

/-- What is nearest a grid point is that point. -/
theorem IsNearest.eq_of_grid {b c : ℕ} (h : IsNearest b (gridUnits c)) : b = c := by
  have h0 := h.le c
  rw [sub_self, abs_zero, abs_nonpos_iff, sub_eq_zero] at h0
  exact gridUnits_strictMono.injective (by exact_mod_cast h0)

/-- No whole number is nearer `y` than one within a half, and none is as near but at a tie. -/
theorem nearest_natCast {m : ℕ} {y : ℝ} (hd : |y - m| ≤ 1 / 2) (htie : |y - m| = 1 / 2 → m % 2 = 0) (k : ℕ) :
    |(m : ℝ) - y| < |(k : ℝ) - y| ∨ (|(m : ℝ) - y| = |(k : ℝ) - y| ∧ (k = m ∨ m % 2 = 0)) := by
  rcases eq_or_ne k m with rfl | hne
  · exact .inr ⟨rfl, .inl rfl⟩
  · have hgap : (1 : ℝ) ≤ |(k : ℝ) - m| := by
      exact_mod_cast Int.one_le_abs (sub_ne_zero.2 (Int.ofNat_inj.not.2 hne))
    have htri : |(k : ℝ) - m| ≤ |(k : ℝ) - y| + |y - m| := abs_sub_le _ _ _
    rw [abs_sub_comm (m : ℝ) y]
    rcases lt_or_eq_of_le hd with hlt | heq
    · exact .inl (by linarith)
    · rcases lt_or_eq_of_le (show |y - m| ≤ |(k : ℝ) - y| by linarith) with h | h
      · exact .inl h
      · exact .inr ⟨h, .inr (htie heq)⟩

/-- A significand within half a place of `x / 2^s` gives the grid point nearest `x`, if `x` has no shorter shift. -/
theorem isNearest_scaled {s m : ℕ} {x : ℝ} (hm : m ≤ 2 ^ 24) (hx : s = 0 ∨ (2 : ℝ) ^ (23 + s) ≤ x)
    (hd : |x / 2 ^ s - m| ≤ 1 / 2) (htie : |x / 2 ^ s - m| = 1 / 2 → m % 2 = 0) :
    IsNearest (s * 2 ^ 23 + m) x := by
  have hp : (0 : ℝ) < 2 ^ s := by positivity
  have hlong : s = 0 ∨ 2 ^ 23 ≤ m := by
    refine hx.imp_right fun hx => ?_
    have hy : (2 : ℝ) ^ 23 ≤ x / 2 ^ s := by rwa [le_div_iff₀ hp, ← pow_add]
    have hlt : (2 ^ 23 : ℝ) < ((m + 1 : ℕ) : ℝ) := by
      push_cast
      linarith [(abs_le.1 hd).2]
    exact Nat.lt_succ_iff.1 (by exact_mod_cast hlt)
  have hscale (k : ℝ) : |k * 2 ^ s - x| = |k - x / 2 ^ s| * 2 ^ s := by
    rw [← abs_of_pos hp, ← abs_mul, abs_of_pos hp, sub_mul, div_mul_cancel₀ _ hp.ne']
  have hmul (k : ℕ) := nearest_natCast hd htie k
  intro c
  rw [gridUnits_scaled hm hlong]
  push_cast
  rw [hscale]
  by_cases hdvd : 2 ^ s ∣ gridUnits c
  · obtain ⟨k, hk⟩ := exists_eq_mul_left_of_dvd hdvd
    rw [hk]
    push_cast
    rw [hscale]
    rcases hmul k with h | ⟨h, hpar⟩
    · exact .inl (by gcongr)
    · refine .inr ⟨by rw [h], hpar.imp (fun hkm => gridUnits_strictMono.injective ?_) fun hm => by omega⟩
      exact (hk.trans (by rw [hkm])).trans (gridUnits_scaled hm hlong).symm
  · have hbelow : gridUnits c < 2 ^ (23 + s) := by
      by_contra hge
      exact hdvd (two_pow_dvd_gridUnits (not_lt.1 hge))
    have hbelow' : (gridUnits c : ℝ) < 2 ^ (23 + s) := by exact_mod_cast hbelow
    have hle : (2 : ℝ) ^ (23 + s) ≤ x := hx.resolve_left (by rintro rfl; exact hdvd (one_dvd _))
    have hend : |(m : ℝ) - x / 2 ^ s| ≤ |(2 : ℝ) ^ 23 - x / 2 ^ s| := by
      exact_mod_cast (hmul (2 ^ 23)).elim le_of_lt fun h => h.1.le
    left
    calc |(m : ℝ) - x / 2 ^ s| * 2 ^ s ≤ |(2 : ℝ) ^ 23 - x / 2 ^ s| * 2 ^ s := by gcongr
      _ = x - 2 ^ (23 + s) := by rw [← hscale, ← pow_add, abs_of_nonpos (by linarith), neg_sub]
      _ < x - gridUnits c := by linarith
      _ = |(gridUnits c : ℝ) - x| := by rw [abs_of_neg (by linarith), neg_sub]

/-! ## The model's rounding -/

/-- Twice the error of `roundEven` is at most the divisor, and the result is even where it is the divisor. -/
theorem roundEven_error (num : ℕ) {den : ℕ} (hden : 0 < den) :
    |2 * (num : ℤ) - 2 * (den * roundEven num den)| ≤ den ∧
      (|2 * (num : ℤ) - 2 * (den * roundEven num den)| = den → roundEven num den % 2 = 0) := by
  have hr : num % den < den := Nat.mod_lt _ hden
  have hnum : (den : ℤ) * (num / den : ℕ) + (num % den : ℕ) = num := by exact_mod_cast Nat.div_add_mod num den
  simp only [roundEven, Bool.and_eq_true, decide_eq_true_eq, beq_iff_eq]
  split
  · push_cast [mul_add] at hnum ⊢
    rw [abs_eq_max_neg]
    omega
  · split
    · push_cast [mul_add] at hnum ⊢
      rw [abs_eq_max_neg]
      omega
    · rw [abs_eq_max_neg]
      omega

/-- `roundEven` is within a half of the quotient, and even at a tie. -/
theorem roundEven_near (num : ℕ) {den : ℕ} (hden : 0 < den) :
    |(num : ℝ) / den - roundEven num den| ≤ 1 / 2 ∧
      (|(num : ℝ) / den - roundEven num den| = 1 / 2 → roundEven num den % 2 = 0) := by
  obtain ⟨hle, htie⟩ := roundEven_error num hden
  have hd : (0 : ℝ) < den := by exact_mod_cast hden
  have herr : |(num : ℝ) / den - roundEven num den| * (2 * den) =
      (|2 * (num : ℤ) - 2 * (den * roundEven num den)| : ℤ) := by
    rw [← abs_of_pos (by positivity : (0 : ℝ) < 2 * den), ← abs_mul]
    push_cast
    congr 1
    field_simp
  constructor
  · rw [← mul_le_mul_iff_left₀ (by positivity : (0 : ℝ) < 2 * den), herr]
    have h : ((|2 * (num : ℤ) - 2 * (den * roundEven num den)| : ℤ) : ℝ) ≤ den := by exact_mod_cast hle
    linarith
  · intro h
    rw [h] at herr
    refine htie ?_
    have : ((|2 * (num : ℤ) - 2 * (den * roundEven num den)| : ℤ) : ℝ) = den := by
      rw [← herr]
      ring
    exact_mod_cast this

/-- The magnitude bits `roundUnits` packs, an overflowing magnitude kept as it is. -/
def roundMag (num den : ℕ) : ℕ :=
  ((num / den).log2 + 1 - 24) * 2 ^ 23 + roundEven num (den <<< ((num / den).log2 + 1 - 24))

theorem roundUnits_eq_pack (neg : Bool) (num den : ℕ) : roundUnits neg num den = pack neg (roundMag num den) := rfl

theorem isNearest_roundMag (num : ℕ) {den : ℕ} (hden : 0 < den) :
    IsNearest (roundMag num den) ((num : ℝ) / den) := by
  unfold roundMag
  set s := (num / den).log2 + 1 - 24 with hs
  have hd : (0 : ℝ) < den := by exact_mod_cast hden
  have hshift : 0 < den <<< s := by rw [Nat.shiftLeft_eq]; positivity
  have hquot : (num : ℝ) / den / 2 ^ s = (num : ℝ) / (den <<< s : ℕ) := by
    rw [div_div, Nat.shiftLeft_eq]
    push_cast
    rfl
  obtain ⟨hle, htie⟩ := roundEven_near num hshift
  refine isNearest_scaled ?_ ?_ (by rwa [hquot]) (by rwa [hquot])
  · have hlt : num / (den <<< s) < 2 ^ 24 := by
      rw [Nat.shiftLeft_eq, ← Nat.div_div_eq_div_mul, Nat.div_lt_iff_lt_mul (by positivity), ← pow_add]
      exact Nat.lt_log2_self.trans_le (Nat.pow_le_pow_right (by norm_num) (by omega))
    unfold roundEven
    simp only
    split_ifs <;> omega
  · rcases Nat.eq_zero_or_pos s with h | h
    · exact .inl h
    · have hlog : 2 ^ (23 + s) ≤ num / den := by
        rw [show 23 + s = (num / den).log2 by omega]
        exact Nat.log2_self_le (by rintro h0; rw [h0] at hs; simp at hs; omega)
      refine .inr (le_trans ?_ Nat.cast_div_le)
      exact_mod_cast hlog

/-- A quotient on the grid is not rounded. -/
theorem roundUnits_of_grid (neg : Bool) {num den b : ℕ} (hden : 0 < den) (h : num = gridUnits b * den) :
    roundUnits neg num den = pack neg b := by
  have hd : (den : ℝ) ≠ 0 := by exact_mod_cast hden.ne'
  have hn := isNearest_roundMag num hden
  rw [h] at hn
  push_cast at hn
  rw [mul_div_cancel_right₀ _ hd] at hn
  rw [roundUnits_eq_pack, h, hn.eq_of_grid]

/-! ## Overflow and the reading of patterns -/

theorem gridUnits_infBits : gridUnits infBits = 2 ^ 128 * 2 ^ 149 := by
  rw [show infBits = 254 * 2 ^ 23 + 2 ^ 23 from rfl, gridUnits_scaled (by norm_num) (.inr le_rfl), ← pow_add,
    ← pow_add]

theorem gridUnits_greatest : gridUnits (infBits - 1) = (2 ^ 128 - 2 ^ 104) * 2 ^ 149 := by
  rw [show infBits - 1 = 253 * 2 ^ 23 + (2 ^ 24 - 1) from rfl, gridUnits_scaled (by norm_num) (by norm_num),
    show 2 ^ 128 - 2 ^ 104 = (2 ^ 24 - 1) * 2 ^ 104 by norm_num, mul_assoc, ← pow_add]

/-- The overflow threshold is halfway from the greatest finite grid point to the next, and that point is odd. -/
theorem IsNearest.lt_infBits_iff {b : ℕ} {x : ℝ} (h : IsNearest b x) :
    b < infBits ↔ x < (2 ^ 128 - 2 ^ 103) * 2 ^ 149 := by
  have hinf : (gridUnits infBits : ℝ) = 2 ^ 128 * 2 ^ 149 := by
    rw [gridUnits_infBits]
    norm_num
  have hmax : (gridUnits (infBits - 1) : ℝ) = (2 ^ 128 - 2 ^ 104) * 2 ^ 149 := by
    rw [gridUnits_greatest, Nat.cast_mul, Nat.cast_sub (by norm_num)]
    norm_num
  have hmono {c d : ℕ} (hcd : c ≤ d) : (gridUnits c : ℝ) ≤ gridUnits d := by
    exact_mod_cast gridUnits_strictMono.monotone hcd
  have hinf_near := h infBits
  have hmax_near := h.le (infBits - 1)
  rw [hinf] at hinf_near
  rw [hmax] at hmax_near
  constructor
  · intro hb
    by_contra hx
    have hle : |2 ^ 128 * 2 ^ 149 - x| ≤ x - (2 ^ 128 - 2 ^ 104) * 2 ^ 149 := abs_le.2 ⟨by linarith, by linarith⟩
    have hself := neg_abs_le ((gridUnits b : ℝ) - x)
    rcases (Nat.le_sub_one_of_lt hb).lt_or_eq with hlt | hlast
    · have hbmax : (gridUnits b : ℝ) < (2 ^ 128 - 2 ^ 104) * 2 ^ 149 := by
        rw [← hmax]
        exact_mod_cast gridUnits_strictMono hlt
      rcases hinf_near with hnear | ⟨hnear, -⟩ <;> linarith
    · rw [hlast, hmax] at hinf_near hself
      rcases hinf_near with hnear | ⟨-, heq | heven⟩
      · linarith
      · exact absurd heq (by decide)
      · exact absurd heven (by decide)
  · intro hx
    by_contra hb
    have hge := hmono (not_lt.1 hb)
    rw [hinf] at hge
    have hself := le_abs_self ((gridUnits b : ℝ) - x)
    rcases abs_cases ((2 ^ 128 - 2 ^ 104) * 2 ^ 149 - x) with ⟨heq, -⟩ | ⟨heq, -⟩ <;> linarith

/-- How far a pattern is from a signed number, in units: the signs agree or the magnitudes add up. -/
theorem abs_val_sub (w : F32) (neg : Bool) {x : ℝ} (hx : 0 ≤ x) :
    |(val w : ℝ) - signOf neg * (x / 2 ^ 149)| =
      (if sign w = neg then |(gridUnits (magBits w) : ℝ) - x| else gridUnits (magBits w) + x) / 2 ^ 149 := by
  have hu : (0 : ℝ) < 2 ^ 149 := by positivity
  have hg : (0 : ℝ) ≤ gridUnits (magBits w) := Nat.cast_nonneg _
  have hval : (val w : ℝ) = signOf (sign w) * (gridUnits (magBits w) / 2 ^ 149) := by
    rw [val_eq_gridUnits]
    push_cast
    rfl
  have hfactor : (val w : ℝ) - signOf neg * (x / 2 ^ 149) =
      (signOf (sign w) * gridUnits (magBits w) - signOf neg * x) / 2 ^ 149 := by
    rw [hval]
    ring
  rw [hfactor, abs_div, abs_of_pos hu]
  congr 1
  generalize (gridUnits (magBits w) : ℝ) = g at *
  cases sign w <;> cases neg <;> simp
  · linarith
  · rw [abs_of_nonpos (by linarith)]
    ring
  · rw [neg_add_eq_sub, abs_sub_comm]

/-- A packed nearest grid point is the binary32 value nearest the signed number, infinite from the threshold on. -/
theorem IsNearest.roundsTo_pack {b : ℕ} {x : ℝ} (h : IsNearest b x) (hx : 0 ≤ x) (neg : Bool) :
    RoundsTo (pack neg b) (signOf neg * (x / 2 ^ 149)) := by
  have hsign : |((signOf neg : ℤ) : ℝ)| = 1 := by cases neg <;> simp
  have hu : (0 : ℝ) < 2 ^ 149 := by positivity
  have hr : |(signOf neg : ℝ) * (x / 2 ^ 149)| = x / 2 ^ 149 := by
    rw [abs_mul, hsign, one_mul, abs_of_nonneg (by positivity)]
  have hiff : |(signOf neg : ℝ) * (x / 2 ^ 149)| < 2 ^ 128 - 2 ^ 103 ↔ b < infBits := by
    rw [hr, div_lt_iff₀ hu, h.lt_infBits_iff]
  unfold RoundsTo
  by_cases hb : b < infBits
  · rw [if_pos (hiff.2 hb)]
    refine ⟨(finite_pack_iff neg b).2 hb, fun w hw => ?_⟩
    have hz := abs_val_sub (pack neg b) neg hx
    rw [sign_pack, if_pos rfl, magBits_pack, min_eq_left hb.le] at hz
    have hz_lastBit := pack_lastBit (neg := neg) hb
    have hw_dist := abs_val_sub w neg hx
    rw [hz, hw_dist, div_lt_div_iff_of_pos_right hu, div_left_inj' hu.ne']
    by_cases hsgn : sign w = neg
    · rw [if_pos hsgn]
      refine (h (magBits w)).imp_right (And.imp_right (Or.imp (fun heq => ?_) hz_lastBit))
      rw [val_eq_gridUnits, val_pack neg hb, hsgn, heq]
    · rw [if_neg hsgn]
      have hzero := h 0
      rw [gridUnits_zero, Nat.cast_zero, zero_sub, abs_neg, abs_of_nonneg hx] at hzero
      rcases Nat.eq_zero_or_pos (magBits w) with hw0 | hwpos
      · rw [hw0, gridUnits_zero, Nat.cast_zero, zero_add]
        refine hzero.imp_right (And.imp_right (Or.imp (fun heq => ?_) hz_lastBit))
        rw [val_eq_gridUnits, val_pack neg hb, hw0, ← heq]
        simp
      · have hgpos : (0 : ℝ) < gridUnits (magBits w) := by exact_mod_cast gridUnits_strictMono hwpos
        have hle := h.le 0
        rw [gridUnits_zero, Nat.cast_zero, zero_sub, abs_neg, abs_of_nonneg hx] at hle
        exact .inl (by linarith)
  · rw [if_neg (hiff.not.2 hb), pack_overflow neg (not_lt.1 hb)]
    have hpos : 0 < x / 2 ^ 149 := by
      rw [h.lt_infBits_iff, not_lt] at hb
      have : (0 : ℝ) < (2 ^ 128 - 2 ^ 103) * 2 ^ 149 := by norm_num
      exact div_pos (by linarith) hu
    cases neg
    · simp [hpos]
    · simp [hpos.le]

/-- The one rounding of the model is correct (00_scope.md R10). -/
theorem roundsTo_roundUnits (neg : Bool) (num : ℕ) {den : ℕ} (hden : 0 < den) :
    RoundsTo (roundUnits neg num den) (signOf neg * ((num : ℝ) / den / 2 ^ 149)) :=
  (isNearest_roundMag num hden).roundsTo_pack (by positivity) neg

end Sys2Proof.F32
end

section
/-! The binary32 operations on finite patterns: correctly rounded results and exact comparisons (00_scope.md R10). -/

set_option autoImplicit false

namespace Sys2Proof.F32

open Sys2Proof.Claims (finite val RoundsTo)

/-! ## Patterns with a number -/

theorem isNaN_eq_false {x : F32} (hx : finite x) : isNaN x = false := by
  rw [finite_iff_magBits_lt] at hx
  rw [isNaN, decide_eq_false_iff_not]
  omega

theorem isInf_eq_false {x : F32} (hx : finite x) : isInf x = false := by
  rw [finite_iff_magBits_lt] at hx
  rw [isInf, beq_eq_false_iff_ne]
  omega

theorem isFinite_eq_true {x : F32} (hx : finite x) : isFinite x = true := by
  rwa [isFinite, decide_eq_true_eq, ← finite_iff_magBits_lt]

theorem signOf_mul (a b : Bool) : signOf (a != b) = signOf a * signOf b := by
  cases a <;> cases b <;> rfl

theorem signOf_mul_self (a : Bool) : signOf a * signOf a = 1 := by cases a <;> rfl

theorem signOf_mul_natAbs (u : ℤ) : (signOf (decide (u < 0)) : ℝ) * (u.natAbs : ℝ) = u := by
  rw [Nat.cast_natAbs]
  rcases lt_or_ge u 0 with hneg | hpos
  · rw [abs_of_neg hneg, decide_eq_true hneg, signOf_true]
    push_cast
    ring
  · rw [abs_of_nonneg hpos, decide_eq_false hpos.not_gt, signOf_false, Int.cast_one, one_mul]

theorem val_cast (x : F32) : (val x : ℝ) = signOf (sign x) * (gridUnits (magBits x) / 2 ^ 149) := by
  rw [val_eq_gridUnits]
  push_cast
  rfl

theorem magBits_eq_zero_iff (x : F32) : magBits x = 0 ↔ val x = 0 := by
  have hgrid : gridUnits (magBits x) = 0 ↔ magBits x = 0 := gridUnits_strictMono.injective.eq_iff' gridUnits_zero
  have hsign : ((signOf (sign x) : ℤ) : ℚ) ≠ 0 := by cases sign x <;> simp
  rw [val_eq_gridUnits, ← hgrid]
  simp [hsign]

/-! ## Negation -/

@[simp] theorem magBits_neg (x : F32) : magBits (neg x) = magBits x := by
  simp only [magBits, neg, BitVec.toNat_xor]
  rw [show (0x80000000 : ℕ) = 2 ^ 31 from rfl, Nat.xor_mod_two_pow]
  simp

@[simp] theorem sign_neg (x : F32) : sign (neg x) = !sign x := by
  simp only [sign, neg, BitVec.msb_xor]
  rw [show (0x80000000#32).msb = true from rfl, Bool.xor_true]

theorem finite_neg {x : F32} (hx : finite x) : finite (neg x) := by
  rwa [finite_iff_magBits_lt, magBits_neg, ← finite_iff_magBits_lt]

@[simp] theorem val_neg (x : F32) : val (neg x) = -val x := by
  rw [val_eq_gridUnits, val_eq_gridUnits x, sign_neg, magBits_neg]
  cases sign x <;> simp

/-! ## Results -/

theorem roundsTo_pack_zero (neg : Bool) : RoundsTo (pack neg 0) 0 := by
  have h := roundsTo_roundUnits neg 0 one_pos
  rwa [roundUnits_of_grid neg (b := 0) one_pos (by simp), Nat.cast_zero, zero_div, zero_div, mul_zero] at h

theorem roundsTo_ofUnits (u : ℤ) : RoundsTo (ofUnits u) ((u : ℝ) / 2 ^ 149) := by
  have h := roundsTo_roundUnits (decide (u < 0)) u.natAbs one_pos
  rwa [Nat.cast_one, div_one, ← mul_div_assoc, signOf_mul_natAbs] at h

theorem roundsTo_add {x y : F32} (hx : finite x) (hy : finite y) :
    RoundsTo (add x y) (val x + val y : ℚ) := by
  have hsum : ((val x + val y : ℚ) : ℝ) = ((toUnits x + toUnits y : ℤ) : ℝ) / 2 ^ 149 := by
    rw [val_eq_toUnits, val_eq_toUnits]
    push_cast
    ring
  rw [hsum]
  simp only [add, isNaN_eq_false hx, isNaN_eq_false hy, isInf_eq_false hx, isInf_eq_false hy, Bool.or_self,
    Bool.false_eq_true, if_false]
  split
  · rename_i hzero
    rw [hzero, Int.cast_zero, zero_div]
    exact roundsTo_pack_zero _
  · exact roundsTo_ofUnits _

theorem roundsTo_sub {x y : F32} (hx : finite x) (hy : finite y) :
    RoundsTo (sub x y) (val x - val y : ℚ) := by
  have h := roundsTo_add hx (finite_neg hy)
  rw [val_neg, ← sub_eq_add_neg] at h
  simpa only [sub, isNaN_eq_false hy, Bool.false_eq_true, if_false] using h

theorem roundsTo_mul {x y : F32} (hx : finite x) (hy : finite y) :
    RoundsTo (mul x y) (val x * val y : ℚ) := by
  have h := roundsTo_roundUnits (sign x != sign y) (units x * units y) (den := one149) (by decide)
  simp only [mul, isNaN_eq_false hx, isNaN_eq_false hy, isInf_eq_false hx, isInf_eq_false hy, Bool.or_self,
    Bool.false_eq_true, if_false]
  convert h using 1
  rw [units_eq_gridUnits, units_eq_gridUnits, one149_eq, signOf_mul, Rat.cast_mul, val_cast, val_cast]
  push_cast
  ring

theorem roundsTo_div {x y : F32} (hx : finite x) (hy : finite y) (hne : val y ≠ 0) :
    RoundsTo (div x y) (val x / val y : ℚ) := by
  have hmag : magBits y ≠ 0 := (magBits_eq_zero_iff y).not.2 hne
  have hgrid : 0 < gridUnits (magBits y) := gridUnits_strictMono (Nat.pos_of_ne_zero hmag)
  have h := roundsTo_roundUnits (sign x != sign y) (units x * one149) (den := units y)
    (by rwa [units_eq_gridUnits])
  simp only [div, isNaN_eq_false hx, isNaN_eq_false hy, isInf_eq_false hx, isInf_eq_false hy, Bool.or_self,
    Bool.false_eq_true, if_false, if_neg hmag]
  convert h using 1
  have hgrid' : (gridUnits (magBits y) : ℝ) ≠ 0 := by exact_mod_cast hgrid.ne'
  have hsign : ((signOf (sign y) : ℤ) : ℝ) * signOf (sign y) = 1 := by exact_mod_cast signOf_mul_self (sign y)
  have hsign' : ((signOf (sign y) : ℤ) : ℝ) ≠ 0 := left_ne_zero_of_mul_eq_one hsign
  rw [units_eq_gridUnits, units_eq_gridUnits, one149_eq, signOf_mul, Rat.cast_div, val_cast, val_cast,
    Nat.cast_mul, Nat.cast_pow, Nat.cast_ofNat, Int.cast_mul]
  field_simp
  rw [pow_two, hsign, mul_one]

theorem roundsTo_ofNat (n : ℕ) : RoundsTo (ofNat n) n := by
  have h := roundsTo_roundUnits false (n * one149) one_pos
  rwa [one149_eq, Nat.cast_mul, Nat.cast_pow, Nat.cast_ofNat, Nat.cast_one, div_one,
    mul_div_cancel_right₀ _ (by positivity), signOf_false, Int.cast_one, one_mul] at h

/-! ## Comparisons -/

theorem key_eq (x : F32) : key x = signOf (sign x) * magBits x := by
  rw [key]
  cases sign x <;> simp

/-- Patterns are ordered by the numbers they stand for. -/
theorem key_lt_key_iff (x y : F32) : key x < key y ↔ val x < val y := by
  have hmono {a b : ℕ} : gridUnits a < gridUnits b ↔ a < b := gridUnits_strictMono.lt_iff_lt
  have hzero {a : ℕ} : 0 < gridUnits a ↔ 0 < a := hmono (a := 0)
  have hunits : val x < val y ↔ toUnits x < toUnits y := by
    rw [val_eq_toUnits, val_eq_toUnits, div_lt_div_iff_of_pos_right (by positivity), Int.cast_lt]
  rw [hunits, key_eq, key_eq, toUnits_eq, toUnits_eq]
  have hxy := hmono (a := magBits x) (b := magBits y)
  have hyx := hmono (a := magBits y) (b := magBits x)
  have hx0 := hzero (a := magBits x)
  have hy0 := hzero (a := magBits y)
  cases sign x <;> cases sign y <;> simp only [signOf_true, signOf_false] <;> omega

theorem key_le_key_iff (x y : F32) : key x ≤ key y ↔ val x ≤ val y := by
  rw [← not_lt, ← not_lt, key_lt_key_iff]

theorem lt_iff {x y : F32} (hx : finite x) (hy : finite y) : lt x y = true ↔ val x < val y := by
  rw [← key_lt_key_iff, lt, isNaN_eq_false hx, isNaN_eq_false hy]
  simp

theorem le_iff {x y : F32} (hx : finite x) (hy : finite y) : le x y = true ↔ val x ≤ val y := by
  rw [← key_le_key_iff, le, isNaN_eq_false hx, isNaN_eq_false hy]
  simp

theorem compare_nan {x y : F32} (h : Claims.nan x ∨ Claims.nan y) : lt x y = false ∧ le x y = false := by
  rw [nan_iff_isNaN, nan_iff_isNaN] at h
  rcases h with h | h <;> simp [lt, le, h]

/-- Settles O53: each operation is exact arithmetic on units and the one rounding, which is correct. -/
theorem arithmeticIsCorrectlyRounded : Obligations.ArithmeticIsCorrectlyRounded :=
  ⟨fun _ _ hx hy => ⟨roundsTo_add hx hy, roundsTo_sub hx hy, roundsTo_mul hx hy, roundsTo_div hx hy,
    lt_iff hx hy, le_iff hx hy⟩, roundsTo_ofNat, fun _ _ => compare_nan⟩

end Sys2Proof.F32
end

section
/-! The helper functions of the pseudocode: floor, rounding half away from zero, remainder, clamp (00_scope.md R12). -/

set_option autoImplicit false

namespace Sys2Proof.F32

open Sys2Proof.Claims (finite val truncate)

/-! ## Whole parts -/

theorem floor_eq_floor_val {x : F32} (hx : finite x) : floor x = ⌊val x⌋ := by
  have h := Rat.floor_intCast_div_natCast (toUnits x) one149
  rw [floor, if_pos (isFinite_eq_true hx), ← h, val_eq_toUnits, one149_eq, Nat.cast_pow, Nat.cast_ofNat]

/-- Half a unit added, then the whole part: the magnitude of `roundHA`. -/
theorem floor_half_up (u : ℕ) :
    (((2 * u + one149) / (2 * one149) : ℕ) : ℤ) = ⌊(u : ℚ) / 2 ^ 149 + 1 / 2⌋ := by
  have h := Rat.floor_intCast_div_natCast ((2 * u + one149 : ℕ) : ℤ) (2 * one149)
  have he : (u : ℚ) / 2 ^ 149 + 1 / 2 = (((2 * u + one149 : ℕ) : ℤ) : ℚ) / ((2 * one149 : ℕ) : ℚ) := by
    rw [one149_eq, Int.cast_natCast, Nat.cast_add, Nat.cast_mul, Nat.cast_mul, Nat.cast_pow, Nat.cast_ofNat]
    field_simp
  rw [he, h, Int.natCast_div]

theorem roundHA_eq {x : F32} (hx : finite x) :
    roundHA x = if 0 ≤ val x then ⌊val x + 1 / 2⌋ else -⌊-val x + 1 / 2⌋ := by
  have hu : (0 : ℚ) ≤ units x / 2 ^ 149 := by positivity
  have hval : val x = signOf (sign x) * (units x / 2 ^ 149) := by rw [units_eq_gridUnits, val_eq_gridUnits]
  rw [roundHA, if_pos (isFinite_eq_true hx)]
  simp only [floor_half_up]
  cases hs : sign x
  · rw [hs, signOf_false, Int.cast_one, one_mul] at hval
    rw [if_neg Bool.false_ne_true, hval, if_pos hu]
  · rw [hs, signOf_true, Int.cast_neg, Int.cast_one, neg_one_mul] at hval
    rw [if_pos rfl, hval, neg_neg]
    split
    · rw [show (units x : ℚ) / 2 ^ 149 = 0 by linarith]
      norm_num
    · rfl

/-! ## The remainder -/

theorem truncate_signOf_mul (neg : Bool) {q : ℚ} (hq : 0 ≤ q) :
    truncate (signOf neg * q) = signOf neg * ⌊q⌋ := by
  cases neg
  · simp [truncate, hq]
  · rcases hq.eq_or_lt with rfl | hpos
    · simp [truncate]
    · simp [truncate, hpos, Int.ceil_neg]

/-- The remainder of two grid points is on the grid: it is a multiple of the divisor's step, below the divisor. -/
theorem exists_gridUnits_mod (a : ℕ) {c : ℕ} (hc : 0 < c) :
    ∃ b ≤ a, gridUnits b = gridUnits a % gridUnits c := by
  rcases lt_or_ge (gridUnits a) (gridUnits c) with hlt | hge
  · exact ⟨a, le_rfl, (Nat.mod_eq_of_lt hlt).symm⟩
  · obtain ⟨t, j, rfl, hj, ht⟩ := exists_significand c
    have hdvd : 2 ^ t ∣ gridUnits a := by
      rcases ht with rfl | hlong
      · exact one_dvd _
      · refine two_pow_dvd_gridUnits (le_trans ?_ hge)
        rw [gridUnits_scaled hj.le (.inr hlong), pow_add]
        exact Nat.mul_le_mul_right _ hlong
    have hpos : 0 < gridUnits (t * 2 ^ 23 + j) := gridUnits_strictMono hc
    have hmod := Nat.mod_lt (gridUnits a) hpos
    rw [gridUnits_scaled hj.le ht] at hmod ⊢
    obtain ⟨k, hk⟩ := exists_eq_mul_left_of_dvd ((Nat.dvd_mod_iff (dvd_mul_left _ j)).2 hdvd)
    rw [hk] at hmod ⊢
    have hkj : k < j := Nat.lt_of_mul_lt_mul_right hmod
    obtain ⟨b, hb⟩ := exists_gridUnits_eq t k (by omega)
    refine ⟨b, gridUnits_strictMono.le_iff_le.1 ?_, hb⟩
    rw [hb, ← hk]
    exact Nat.mod_le _ _

theorem fmod_exact {x m : F32} (hx : finite x) (hm : finite m) (hne : val m ≠ 0) :
    finite (fmod x m) ∧ val (fmod x m) = val x - val m * truncate (val x / val m) := by
  have hmag : magBits m ≠ 0 := (magBits_eq_zero_iff m).not.2 hne
  obtain ⟨b, hb, hrem⟩ := exists_gridUnits_mod (magBits x) (Nat.pos_of_ne_zero hmag)
  have hfin : b < infBits := hb.trans_lt ((finite_iff_magBits_lt x).1 hx)
  have hfmod : fmod x m = pack (sign x) b := by
    simp only [fmod, isNaN_eq_false hx, isNaN_eq_false hm, isInf_eq_false hx, isInf_eq_false hm, hmag, Bool.or_self,
      Bool.false_eq_true, decide_false, if_false]
    refine roundUnits_of_grid _ one_pos ?_
    rw [mul_one, hrem, units_eq_gridUnits, units_eq_gridUnits]
  refine ⟨hfmod ▸ (finite_pack_iff _ b).2 hfin, ?_⟩
  have hsign : ((signOf (sign m) : ℤ) : ℚ) * signOf (sign m) = 1 := by exact_mod_cast signOf_mul_self (sign m)
  have hquot : val x / val m =
      signOf (sign x != sign m) * ((gridUnits (magBits x) : ℚ) / gridUnits (magBits m)) := by
    rw [val_eq_gridUnits, val_eq_gridUnits, signOf_mul, mul_div_mul_comm, div_div_div_cancel_right₀ (by positivity),
      Int.cast_mul, div_eq_of_eq_mul (left_ne_zero_of_mul_eq_one hsign) (by rw [mul_assoc, hsign, mul_one])]
  set q := gridUnits (magBits x) / gridUnits (magBits m) with hq
  have hdivmod : (gridUnits (magBits x) : ℚ) = gridUnits (magBits m) * q + gridUnits b := by
    rw [hrem]
    exact_mod_cast (Nat.div_add_mod _ _).symm
  have hfloor : ⌊(gridUnits (magBits x) : ℚ) / gridUnits (magBits m)⌋ = q := Rat.floor_natCast_div_natCast _ _
  rw [hfmod, val_pack _ hfin, hquot, truncate_signOf_mul _ (by positivity), hfloor, val_eq_gridUnits x,
    val_eq_gridUnits m, signOf_mul, hdivmod]
  push_cast
  linear_combination ((signOf (sign x) : ℚ) * gridUnits (magBits m) * q / 2 ^ 149) * hsign

/-! ## Clamping -/

theorem clamp_eq {x lo hi : F32} (hx : finite x) (hlo : finite lo) (hhi : finite hi) :
    clamp x lo hi = if val x < val lo then lo else if val hi < val x then hi else x := by
  simp only [clamp, lt_iff hx hlo, lt_iff hhi hx]

/-- Settles O54: on finite operands each helper is the whole part, the remainder or the choice it stands for. -/
theorem helperFunctionsAreExact : Obligations.HelperFunctionsAreExact :=
  fun _ _ hx hm => ⟨floor_eq_floor_val hx, roundHA_eq hx, fmod_exact hx hm, fun _ hhi _ => clamp_eq hx hm hhi⟩

end Sys2Proof.F32
end

section
/-! The choice of a precision rounds correctly: exp at the arguments of the output filter (00_scope.md R11; log 6). -/

set_option autoImplicit false

namespace Sys2Proof.F32

open Sys2Proof.Claims (finite val RoundsTo)

/-! ## What rounds to one pattern has no gap -/

/-- Being nearer to `a` than to `b` is a linear condition: the side of the middle, which itself belongs to `a` if it
wins ties. -/
theorem nearer_iff (a b r : ℝ) (P : Prop) [Decidable P] :
    (|a - r| < |b - r| ∨ (|a - r| = |b - r| ∧ P)) ↔
      if P then 0 ≤ (b - a) * (b + a - 2 * r) else 0 < (b - a) * (b + a - 2 * r) := by
  have hprod : (b - a) * (b + a - 2 * r) = (b - r) ^ 2 - (a - r) ^ 2 := by ring
  rw [hprod, sub_nonneg, sub_pos, sq_le_sq, sq_lt_sq, le_iff_lt_or_eq]
  split <;> simp [*]

/-- A product linear in `r` is at least the lesser of its values at the ends of an interval. -/
theorem min_le_mul_sub (d c : ℝ) {r₁ r₂ r : ℝ} (h₁ : r₁ ≤ r) (h₂ : r ≤ r₂) :
    min (d * (c - 2 * r₁)) (d * (c - 2 * r₂)) ≤ d * (c - 2 * r) := by
  rcases le_total 0 d with hd | hd
  · exact (min_le_right _ _).trans (mul_le_mul_of_nonneg_left (by linarith) hd)
  · exact (min_le_left _ _).trans (mul_le_mul_of_nonpos_left (by linarith) hd)

theorem roundsTo_iff_of_finite {z : F32} (hz : finite z) (r : ℝ) :
    RoundsTo z r ↔ |r| < 2 ^ 128 - 2 ^ 103 ∧ ∀ w : F32, finite w →
      |(val z : ℝ) - r| < |(val w : ℝ) - r| ∨
        (|(val z : ℝ) - r| = |(val w : ℝ) - r| ∧ (val w = val z ∨ z.getLsbD 0 = false)) := by
  unfold RoundsTo
  split
  · rename_i hlt
    exact ⟨fun h => ⟨hlt, h.2⟩, fun h => ⟨hz, h.2⟩⟩
  · rename_i hge
    refine ⟨fun h => absurd hz ?_, fun h => absurd h.1 hge⟩
    rw [h]
    split <;> decide

theorem roundsTo_iff_of_not_finite {z : F32} (hz : ¬ finite z) (r : ℝ) :
    RoundsTo z r ↔ (z = 0x7F800000#32 ∧ 2 ^ 128 - 2 ^ 103 ≤ r) ∨
      (z = 0xFF800000#32 ∧ r ≤ -(2 ^ 128 - 2 ^ 103)) := by
  have hT : (0 : ℝ) < 2 ^ 128 - 2 ^ 103 := by norm_num
  unfold RoundsTo
  generalize (2 ^ 128 - 2 ^ 103 : ℝ) = T at *
  split
  · rename_i hlt
    obtain ⟨hlow, hhigh⟩ := abs_lt.1 hlt
    refine ⟨fun h => absurd h.1 hz, ?_⟩
    rintro (⟨-, h⟩ | ⟨-, h⟩) <;> linarith
  · rename_i hge
    rw [not_lt, le_abs] at hge
    split
    · rename_i hpos
      refine ⟨fun h => .inl ⟨h, hge.resolve_right (by linarith)⟩, ?_⟩
      rintro (⟨h, -⟩ | ⟨-, h⟩)
      · exact h
      · linarith
    · rename_i hneg
      refine ⟨fun h => .inr ⟨h, by rcases hge with h | h <;> linarith⟩, ?_⟩
      rintro (⟨-, h⟩ | ⟨h, -⟩)
      · linarith
      · exact h

/-- The numbers that round to one pattern form an interval. -/
theorem roundsTo_between {z : F32} {r₁ r₂ r : ℝ} (h₁ : RoundsTo z r₁) (h₂ : RoundsTo z r₂)
    (hle₁ : r₁ ≤ r) (hle₂ : r ≤ r₂) : RoundsTo z r := by
  by_cases hz : finite z
  · rw [roundsTo_iff_of_finite hz] at *
    obtain ⟨hlt₁, hnear₁⟩ := h₁
    obtain ⟨hlt₂, hnear₂⟩ := h₂
    refine ⟨abs_lt.2 ⟨by linarith [(abs_lt.1 hlt₁).1], by linarith [(abs_lt.1 hlt₂).2]⟩, fun w hw => ?_⟩
    have hmin := min_le_mul_sub ((val w : ℝ) - val z) (val w + val z) hle₁ hle₂
    have hw₁ := hnear₁ w hw
    have hw₂ := hnear₂ w hw
    rw [nearer_iff] at hw₁ hw₂ ⊢
    split at hw₁
    · rename_i hties
      rw [if_pos hties] at hw₂ ⊢
      exact (le_min hw₁ hw₂).trans hmin
    · rename_i hties
      rw [if_neg hties] at hw₂ ⊢
      exact (lt_min hw₁ hw₂).trans_le hmin
  · rw [roundsTo_iff_of_not_finite hz] at *
    rcases h₁ with ⟨hz₁, hr₁⟩ | ⟨hz₁, hr₁⟩
    · exact .inl ⟨hz₁, hr₁.trans hle₁⟩
    · rcases h₂ with ⟨hz₂, -⟩ | ⟨hz₂, hr₂⟩
      · exact absurd (hz₁.symm.trans hz₂) (by decide)
      · exact .inr ⟨hz₂, hle₂.trans hr₂⟩

end Sys2Proof.F32

namespace Sys2Proof.Numerics

open Sys2Proof.Claims (finite val RoundsTo RoundsNear)

theorem roundsTo_roundFixed (prec : ℕ) (z : ℤ) : RoundsTo (roundFixed prec z) ((z : ℝ) / 2 ^ prec) := by
  have h := F32.roundsTo_roundUnits (decide (z < 0)) (z.natAbs * F32.one149) (den := 1 <<< prec)
    (by rw [Nat.one_shiftLeft]; positivity)
  have hr : (F32.signOf (decide (z < 0)) : ℝ) *
      (((z.natAbs * F32.one149 : ℕ) : ℝ) / ((1 <<< prec : ℕ) : ℝ) / 2 ^ 149) = z / 2 ^ prec := by
    rw [← F32.signOf_mul_natAbs z, F32.one149_eq, Nat.one_shiftLeft, Nat.cast_mul, Nat.cast_pow, Nat.cast_pow,
      Nat.cast_ofNat]
    field_simp
  rwa [hr] at h

theorem encloses_mid_near {prec : ℕ} (hprec : 684 ≤ prec) {b : Ball} {v : ℝ} (h : b.Encloses prec v)
    (hrad : b.rad ≤ 2 ^ 84) : |(b.mid : ℝ) / 2 ^ prec - v| ≤ 2 ^ (-600 : ℤ) := by
  have hp : (0 : ℝ) < 2 ^ prec := by positivity
  have hrad' : (b.rad : ℝ) ≤ 2 ^ 84 := by exact_mod_cast hrad
  rw [← mul_le_mul_iff_left₀ hp, ← abs_of_pos hp, ← abs_mul, abs_of_pos hp, sub_mul, div_mul_cancel₀ _ hp.ne',
    abs_sub_comm]
  refine (h.trans hrad').trans ?_
  rw [← zpow_natCast, ← zpow_natCast (2 : ℝ) prec, ← zpow_add₀ two_ne_zero]
  exact zpow_le_zpow_right₀ one_le_two (by omega)

/-- What `nearest` answers is nearest a number as close to the enclosed one as the last precision tells (log 6). -/
theorem roundsNear_nearest {f : ℕ → Ball} {v : ℝ}
    (h : ∀ prec ∈ Config.precisions, (f prec).Encloses prec v ∧ (f prec).rad ≤ 2 ^ 84) :
    RoundsNear (nearest f Config.precisions) v := by
  rcases nearest_cases f Config.precisions (by decide) with ⟨prec, hprec, hlow, hhigh⟩ | hlast
  · have hp : (0 : ℝ) < 2 ^ prec := by positivity
    obtain ⟨hlo, hhi⟩ := abs_le.1 (h prec hprec).1
    have hz₁ := roundsTo_roundFixed prec ((f prec).mid - (f prec).rad)
    have hz₂ := roundsTo_roundFixed prec ((f prec).mid + (f prec).rad)
    rw [← hlow] at hz₁
    rw [← hhigh] at hz₂
    push_cast at hz₁ hz₂
    refine ⟨v, by rw [sub_self, abs_zero]; positivity, F32.roundsTo_between hz₁ hz₂ ?_ ?_⟩
    · rw [div_le_iff₀ hp]
      linarith
    · rw [le_div_iff₀ hp]
      linarith
  · rw [hlast]
    obtain ⟨henc, hrad⟩ := h 768 (by decide)
    exact ⟨_, encloses_mid_near (by norm_num) henc hrad, roundsTo_roundFixed 768 _⟩

theorem toUnits_div_one149 (x : F32) : (F32.toUnits x : ℝ) / (F32.one149 : ℕ) = (val x : ℝ) := by
  rw [F32.val_eq_toUnits, F32.one149_eq, Rat.cast_div, Rat.cast_intCast, Nat.cast_pow, Nat.cast_ofNat]
  push_cast
  rfl

theorem roundsNear_expF32 {x : F32} (hx : finite x) (h : |val x| ≤ 1) :
    RoundsNear (expF32 x) (Real.exp (val x : ℝ)) := by
  obtain ⟨hlow, hhigh⟩ := abs_le.1 h
  have hover : F32.lt 0x43000000#32 x = false := by
    rw [← Bool.not_eq_true, F32.lt_iff (by decide) hx, show val 0x43000000#32 = 128 by decide +kernel]
    linarith
  have hunder : F32.lt x 0xC3000000#32 = false := by
    rw [← Bool.not_eq_true, F32.lt_iff hx (by decide), show val 0xC3000000#32 = -128 by decide +kernel]
    linarith
  simp only [expF32, F32.isNaN_eq_false hx, hover, hunder, Bool.false_eq_true, if_false]
  refine roundsNear_nearest fun prec hprec => ?_
  rw [← toUnits_div_one149]
  refine encloses_expRatio hprec _ _ ?_
  rw [toUnits_div_one149]
  exact_mod_cast h

theorem roundsNear_expMinusTwoPi {fc : F32} {sr : ℕ} (hfc : finite fc) (hsr : 1 ≤ sr) (h0 : 0 ≤ val fc)
    (h : val fc ≤ sr / 2) :
    RoundsNear (expMinusTwoPi fc sr) (Real.exp (-2 * Real.pi * (val fc : ℝ) / (sr : ℝ))) := by
  simp only [expMinusTwoPi, F32.isFinite_eq_true hfc, Bool.not_true, Bool.false_eq_true, if_false]
  refine roundsNear_nearest fun prec hprec => ?_
  have hsr' : (0 : ℝ) < sr := by exact_mod_cast hsr
  have hratio : ((-2 * F32.toUnits fc : ℤ) : ℝ) / (F32.one149 * sr : ℕ) = -2 * (val fc : ℝ) / sr := by
    rw [← toUnits_div_one149]
    push_cast
    ring
  have hle : |((-2 * F32.toUnits fc : ℤ) : ℝ)| / (F32.one149 * sr : ℕ) ≤ 1 := by
    have habs : |((-2 * F32.toUnits fc : ℤ) : ℝ)| / (F32.one149 * sr : ℕ) = |-2 * (val fc : ℝ) / sr| := by
      rw [← hratio, abs_div, Nat.abs_cast]
    have h0' : (0 : ℝ) ≤ val fc := by exact_mod_cast h0
    have h' := (Rat.cast_le (K := ℝ)).2 h
    push_cast at h'
    rw [habs, abs_div, abs_mul, abs_of_pos hsr', abs_of_nonneg h0', div_le_one hsr']
    norm_num
    linarith
  have henc := encloses_expPi hprec (-2 * F32.toUnits fc) (F32.one149 * sr) (Nat.mul_pos (by decide) hsr) hle
  rw [hratio] at henc
  convert henc using 3
  ring

end Sys2Proof.Numerics
end

section
/-! Powers of two with a rational exponent: the integer root is exact, and the rounding is never at a tie. -/

set_option autoImplicit false

namespace Sys2Proof.Numerics

open Sys2Proof.Claims (RoundsTo)

/-! ## The integer root -/

theorem powFuel_eq (fuel x n : ℕ) (h : n < 2 ^ fuel) : powFuel fuel x n = x ^ n := by
  induction fuel generalizing x n with
  | zero =>
    obtain rfl : n = 0 := by omega
    rfl
  | succ fuel ih =>
    have hhalf : powFuel fuel (x * x) (n / 2) = x ^ (2 * (n / 2)) := by
      rw [ih _ _ (by omega), ← pow_two, ← pow_mul]
    simp only [powFuel, hhalf]
    split
    · rename_i hzero
      rw [hzero, pow_zero]
    · split
      · rw [← pow_succ']
        congr 1
        omega
      · congr 1
        omega

theorem pow_eq (x n : ℕ) : pow x n = x ^ n := powFuel_eq _ x n Nat.lt_log2_self

/-- `rootBits` keeps the bracket of the root and halves it at each bit. -/
theorem rootBits_spec {q t : ℕ} (b m : ℕ) (hlow : m ^ q ≤ t) (hhigh : t < (m + 2 ^ b) ^ q) :
    rootBits q t b m ^ q ≤ t ∧ t < (rootBits q t b m + 1) ^ q := by
  induction b generalizing m with
  | zero => exact ⟨hlow, hhigh⟩
  | succ b ih =>
    rw [rootBits]
    simp only [pow_eq, Nat.one_shiftLeft]
    split
    · rename_i hle
      exact ih _ hle (by rwa [add_assoc, ← two_mul, ← pow_succ'])
    · rename_i hgt
      exact ih _ hlow (not_le.1 hgt)

/-- The integer part of `2^(24 + f/q)`. -/
def scaledRoot (q f : ℕ) : ℕ := rootBits q (1 <<< (24 * q + f)) 24 (1 <<< 24)

theorem scaledRoot_spec {q f : ℕ} (hf : f < q) :
    scaledRoot q f ^ q ≤ 2 ^ (24 * q + f) ∧ 2 ^ (24 * q + f) < (scaledRoot q f + 1) ^ q := by
  simp only [scaledRoot, Nat.one_shiftLeft]
  refine rootBits_spec 24 (2 ^ 24) ?_ ?_
  · rw [← pow_mul]
    exact Nat.pow_le_pow_right (by norm_num) (by omega)
  · rw [← two_mul, ← pow_succ', ← pow_mul]
    exact Nat.pow_lt_pow_right (by norm_num) (by omega)

theorem scaledRoot_bounds {q f : ℕ} (hf : f < q) : 2 ^ 24 ≤ scaledRoot q f ∧ scaledRoot q f < 2 ^ 25 := by
  obtain ⟨hlow, hhigh⟩ := scaledRoot_spec hf
  constructor
  · refine Nat.lt_succ_iff.1 (lt_of_pow_lt_pow_left₀ q (Nat.zero_le _) (lt_of_le_of_lt ?_ hhigh))
    rw [← pow_mul]
    exact Nat.pow_le_pow_right (by norm_num) (by omega)
  · refine lt_of_pow_lt_pow_left₀ q (Nat.zero_le _) (hlow.trans_lt ?_)
    rw [← pow_mul]
    exact Nat.pow_lt_pow_right (by norm_num) (by omega)

/-- An exact root is a power of two, so it is even: the power is never halfway between two neighbours. -/
theorem scaledRoot_even_of_exact {q f : ℕ} (hf : f < q) (h : scaledRoot q f ^ q = 2 ^ (24 * q + f)) :
    scaledRoot q f % 2 = 0 := by
  have hdvd : scaledRoot q f ∣ 2 ^ (24 * q + f) := h ▸ dvd_pow_self _ (by omega)
  obtain ⟨k, -, hk⟩ := (Nat.dvd_prime_pow Nat.prime_two).1 hdvd
  have hlarge := (scaledRoot_bounds hf).1
  rw [hk] at hlarge ⊢
  have hpos : k ≠ 0 := by
    rintro rfl
    norm_num at hlarge
  exact Nat.mod_eq_zero_of_dvd (dvd_pow_self 2 hpos)

/-! ## The real power -/

/-- `2^(24 + f/q)`, of which `scaledRoot` is the integer part. -/
noncomputable def scaledPower (q f : ℕ) : ℝ := 2 ^ (24 + (f : ℝ) / q)

theorem scaledPower_pow {q : ℕ} (f : ℕ) (hq : 0 < q) : scaledPower q f ^ q = 2 ^ (24 * q + f) := by
  have hq' : (q : ℝ) ≠ 0 := by exact_mod_cast hq.ne'
  rw [scaledPower, ← Real.rpow_natCast, ← Real.rpow_mul (by norm_num), ← Real.rpow_natCast]
  congr 1
  push_cast
  field_simp

theorem scaledRoot_le_scaledPower {q f : ℕ} (hf : f < q) :
    (scaledRoot q f : ℝ) ≤ scaledPower q f ∧ scaledPower q f < scaledRoot q f + 1 := by
  have hpos : 0 ≤ scaledPower q f := Real.rpow_nonneg (by norm_num) _
  have hq : q ≠ 0 := by omega
  obtain ⟨hlow, hhigh⟩ := scaledRoot_spec hf
  constructor
  · rw [← pow_le_pow_iff_left₀ (Nat.cast_nonneg _) hpos hq, scaledPower_pow f (by omega)]
    exact_mod_cast hlow
  · rw [← pow_lt_pow_iff_left₀ hpos (by positivity) hq, scaledPower_pow f (by omega)]
    exact_mod_cast hhigh

/-- Half the scaled power is strictly within a half of the significand `exp2Frac` takes. -/
theorem significand_near {q f : ℕ} (hf : f < q) :
    |scaledPower q f / 2 - ((scaledRoot q f + 1) / 2 : ℕ)| < 1 / 2 := by
  obtain ⟨hlow, hhigh⟩ := scaledRoot_le_scaledPower hf
  rcases Nat.mod_two_eq_zero_or_one (scaledRoot q f) with heven | hodd
  · have hm : (scaledRoot q f : ℝ) = 2 * ((scaledRoot q f + 1) / 2 : ℕ) := by
      exact_mod_cast (by omega : scaledRoot q f = 2 * ((scaledRoot q f + 1) / 2))
    rw [abs_lt]
    constructor <;> linarith
  · have hm : (scaledRoot q f : ℝ) + 1 = 2 * ((scaledRoot q f + 1) / 2 : ℕ) := by
      exact_mod_cast (by omega : scaledRoot q f + 1 = 2 * ((scaledRoot q f + 1) / 2))
    have hne : (scaledRoot q f : ℝ) ≠ scaledPower q f := by
      intro heq
      have hpow := scaledPower_pow f (by omega : 0 < q)
      rw [← heq] at hpow
      have := scaledRoot_even_of_exact hf (by exact_mod_cast hpow)
      omega
    have := lt_of_le_of_ne hlow hne
    rw [abs_lt]
    constructor <;> linarith

/-! ## The rounded power -/

theorem exp2Frac_eq (p : ℤ) (q : ℕ) :
    exp2Frac p q =
      if 0 ≤ p / (q : ℤ) then
        F32.roundUnits false ((scaledRoot q (p % q).toNat + 1) / 2 * F32.one149 <<< (p / (q : ℤ)).toNat) (1 <<< 23)
      else
        F32.roundUnits false ((scaledRoot q (p % q).toNat + 1) / 2 * F32.one149)
          (1 <<< (23 + (-(p / (q : ℤ))).toNat)) := rfl

theorem emod_toNat_lt (p : ℤ) {q : ℕ} (hq : 0 < q) : (p % q).toNat < q := by
  have := Int.emod_lt_of_pos p (by exact_mod_cast hq : (0 : ℤ) < q)
  omega

/-- The packed pattern of `exp2Frac`: for exponents of a normal number the significand is shifted, not rounded. -/
theorem exp2Frac_eq_pack (p : ℤ) {q : ℕ} (hq : 0 < q) (he : -100 ≤ p / (q : ℤ)) :
    exp2Frac p q =
      F32.pack false ((p / q + 126).toNat * 2 ^ 23 + (scaledRoot q (p % q).toNat + 1) / 2) := by
  obtain ⟨hlow, hhigh⟩ := scaledRoot_bounds (emod_toNat_lt p hq)
  have hgrid := F32.gridUnits_scaled (s := (p / q + 126).toNat) (m := (scaledRoot q (p % q).toNat + 1) / 2)
    (by omega) (.inr (by omega))
  rw [exp2Frac_eq]
  split
  · refine F32.roundUnits_of_grid false (by decide) ?_
    rw [hgrid, Nat.shiftLeft_eq, Nat.one_shiftLeft, F32.one149_eq, mul_assoc, ← pow_add, ← pow_add]
    congr 2
    omega
  · refine F32.roundUnits_of_grid false (by rw [Nat.one_shiftLeft]; positivity) ?_
    rw [hgrid, Nat.one_shiftLeft, F32.one149_eq, mul_assoc, ← pow_add]
    congr 2
    omega

theorem two_rpow_eq_scaledPower (p : ℤ) {q : ℕ} (hq : 0 < q) (he : -100 ≤ p / (q : ℤ)) :
    (2 : ℝ) ^ ((p : ℝ) / q) = scaledPower q (p % q).toNat / 2 * 2 ^ (p / (q : ℤ) + 126).toNat / 2 ^ 149 := by
  have hq' : (q : ℝ) ≠ 0 := by exact_mod_cast hq.ne'
  have hdivmod : (p : ℝ) = q * (p / q : ℤ) + ((p % q).toNat : ℕ) := by
    have hf : (((p % q).toNat : ℕ) : ℤ) = p % q := Int.toNat_of_nonneg (Int.emod_nonneg _ (by omega))
    exact_mod_cast hf ▸ (Int.mul_ediv_add_emod p q).symm
  have hs : (((p / (q : ℤ) + 126).toNat : ℕ) : ℝ) = (p / q : ℤ) + 126 := by
    exact_mod_cast (Int.toNat_of_nonneg (by omega) : (((p / (q : ℤ) + 126).toNat : ℕ) : ℤ) = p / q + 126)
  have hexp : (p : ℝ) / q = 24 + ((p % q).toNat : ℕ) / q + ((p / (q : ℤ) + 126).toNat : ℕ) - (150 : ℕ) := by
    rw [hs, hdivmod, add_div, mul_div_cancel_left₀ _ hq']
    push_cast
    ring
  rw [hexp, Real.rpow_sub two_pos, Real.rpow_add two_pos, Real.rpow_natCast, Real.rpow_natCast, ← scaledPower]
  ring

theorem roundsTo_exp2Frac {p : ℤ} {q : ℕ} (hq : 0 < q) (hp : |p| ≤ 100 * q) :
    RoundsTo (exp2Frac p q) ((2 : ℝ) ^ ((p : ℝ) / (q : ℝ))) := by
  have he : -100 ≤ p / (q : ℤ) := by
    rw [Int.le_ediv_iff_mul_le (by exact_mod_cast hq)]
    linarith [neg_abs_le p]
  have hf := emod_toNat_lt p hq
  rw [exp2Frac_eq_pack p hq he, two_rpow_eq_scaledPower p hq he]
  generalize (p / (q : ℤ) + 126).toNat = s
  generalize (p % (q : ℤ)).toNat = f at *
  have hpos : 0 ≤ scaledPower q f := Real.rpow_nonneg (by norm_num) _
  obtain ⟨hlow, hhigh⟩ := scaledRoot_bounds hf
  have hnear := significand_near hf
  have hscale : scaledPower q f / 2 * 2 ^ s / 2 ^ s = scaledPower q f / 2 := mul_div_cancel_right₀ _ (by positivity)
  have hlarge : (2 : ℝ) ^ 24 ≤ scaledPower q f := le_trans (by exact_mod_cast hlow) (scaledRoot_le_scaledPower hf).1
  have hnormal : (2 : ℝ) ^ (23 + s) ≤ scaledPower q f / 2 * 2 ^ s := by
    rw [pow_add]
    exact mul_le_mul_of_nonneg_right (by linarith) (by positivity)
  have hnearest : F32.IsNearest (s * 2 ^ 23 + (scaledRoot q f + 1) / 2) (scaledPower q f / 2 * 2 ^ s) :=
    F32.isNearest_scaled (by omega) (.inr hnormal) (by rw [hscale]; exact hnear.le)
      (by rw [hscale]; exact fun h => absurd h hnear.ne)
  have h := hnearest.roundsTo_pack (by positivity) false
  rwa [F32.signOf_false, Int.cast_one, one_mul] at h

/-- Settles O55: the root behind a power of two is exact and never at a tie, and the enclosures of exp are narrow. -/
theorem expTwoIsCorrectlyRounded : Obligations.ExpTwoIsCorrectlyRounded :=
  ⟨fun _ _ => roundsTo_exp2Frac, fun _ => roundsNear_expF32,
    fun _ _ hfc hsr _ => roundsNear_expMinusTwoPi hfc hsr⟩

end Sys2Proof.Numerics
end

section
/-! Ranges of binary32 values: what an operation gives stands between bounds its exact result stands between. -/

set_option autoImplicit false

namespace Sys2Proof.F32

open Sys2Proof.Claims (finite val RoundsTo truncate)
open Sys2Proof.Machine (inRangeF32)

/-! ## Constants -/

@[simp] theorem finite_zero : finite zero := by decide

@[simp] theorem val_zero : val zero = 0 := by decide +kernel

@[simp] theorem finite_one : finite one := by decide

@[simp] theorem val_one : val one = 1 := by decide +kernel

/-! ## Ranges with finite ends -/

theorem isFinite_iff (x : F32) : isFinite x = true ↔ finite x := by
  rw [finite_iff_magBits_lt, isFinite, decide_eq_true_eq]

/-- What stands between two finite patterns is finite itself. -/
theorem finite_of_inRangeF32 {x lo hi : F32} (hlo : finite lo) (hhi : finite hi) (h : inRangeF32 x lo hi) :
    finite x := by
  rw [finite_iff_magBits_lt] at *
  obtain ⟨hle_lo, hle_hi⟩ := h
  simp only [le, isNaN, Bool.and_eq_true, Bool.not_eq_true', decide_eq_false_iff_not, decide_eq_true_eq,
    key_eq] at hle_lo hle_hi
  obtain ⟨-, hlow⟩ := hle_lo
  obtain ⟨-, hhigh⟩ := hle_hi
  cases hsx : sign x
  · rw [hsx, signOf_false] at hhigh
    cases hsh : sign hi <;> rw [hsh] at hhigh <;> simp only [signOf_true, signOf_false] at hhigh <;> omega
  · rw [hsx, signOf_true] at hlow
    cases hsl : sign lo <;> rw [hsl] at hlow <;> simp only [signOf_true, signOf_false] at hlow <;> omega

/-- A range with finite ends is the range of the numbers. -/
theorem inRangeF32_iff {x lo hi : F32} (hlo : finite lo) (hhi : finite hi) :
    inRangeF32 x lo hi ↔ finite x ∧ val lo ≤ val x ∧ val x ≤ val hi := by
  constructor
  · intro h
    have hx := finite_of_inRangeF32 hlo hhi h
    exact ⟨hx, (le_iff hlo hx).1 h.1, (le_iff hx hhi).1 h.2⟩
  · rintro ⟨hx, hlow, hhigh⟩
    exact ⟨(le_iff hlo hx).2 hlow, (le_iff hx hhi).2 hhigh⟩

/-! ## Rounding keeps bounds -/

/-- A finite number is below the overflow threshold. -/
theorem abs_val_lt {x : F32} (hx : finite x) : |val x| < 2 ^ 128 - 2 ^ 103 := by
  rw [finite_iff_magBits_lt] at hx
  have hle : gridUnits (magBits x) ≤ (2 ^ 128 - 2 ^ 104) * 2 ^ 149 :=
    gridUnits_greatest ▸ gridUnits_strictMono.monotone (Nat.le_sub_one_of_lt hx)
  have hle' : (gridUnits (magBits x) : ℚ) ≤ (2 ^ 128 - 2 ^ 104) * 2 ^ 149 := by
    have h : ((gridUnits (magBits x) : ℕ) : ℚ) ≤ (((2 ^ 128 - 2 ^ 104) * 2 ^ 149 : ℕ) : ℚ) := by exact_mod_cast hle
    rwa [Nat.cast_mul, Nat.cast_sub (by norm_num), Nat.cast_pow, Nat.cast_pow, Nat.cast_pow, Nat.cast_ofNat] at h
  have hsign : |((signOf (sign x) : ℤ) : ℚ)| = 1 := by cases sign x <;> simp
  rw [val_eq_gridUnits, abs_mul, hsign, one_mul, abs_of_nonneg (by positivity), div_lt_iff₀ (by positivity)]
  exact hle'.trans_lt (by norm_num)

/-- The rounding of a number between two finite ones stands between them. -/
theorem inRangeF32_of_roundsTo {z lo hi : F32} {r : ℝ} (h : RoundsTo z r) (hlo : finite lo) (hhi : finite hi)
    (hlow : (val lo : ℝ) ≤ r) (hhigh : r ≤ (val hi : ℝ)) : inRangeF32 z lo hi := by
  have hlo_lt : -(2 ^ 128 - 2 ^ 103) < (val lo : ℝ) := by exact_mod_cast (abs_lt.1 (abs_val_lt hlo)).1
  have hhi_lt : (val hi : ℝ) < 2 ^ 128 - 2 ^ 103 := by exact_mod_cast (abs_lt.1 (abs_val_lt hhi)).2
  rw [RoundsTo, if_pos (abs_lt.2 ⟨by linarith, by linarith⟩)] at h
  obtain ⟨hz, hnear⟩ := h
  have hnearer (w : F32) (hw : finite w) : |(val z : ℝ) - r| ≤ |(val w : ℝ) - r| :=
    (hnear w hw).elim le_of_lt fun h => h.1.le
  have hlo_near := hnearer lo hlo
  have hhi_near := hnearer hi hhi
  rw [abs_of_nonpos (by linarith : (val lo : ℝ) - r ≤ 0)] at hlo_near
  rw [abs_of_nonneg (by linarith : 0 ≤ (val hi : ℝ) - r)] at hhi_near
  have hz_low : (val lo : ℝ) ≤ val z := by linarith [neg_abs_le ((val z : ℝ) - r)]
  have hz_high : (val z : ℝ) ≤ val hi := by linarith [le_abs_self ((val z : ℝ) - r)]
  exact (inRangeF32_iff hlo hhi).2 ⟨hz, by exact_mod_cast hz_low, by exact_mod_cast hz_high⟩

/-- A finite number is its own rounding. -/
theorem val_eq_of_roundsTo {z w : F32} (hw : finite w) (h : RoundsTo z (val w : ℝ)) : finite z ∧ val z = val w := by
  obtain ⟨hz, hlow, hhigh⟩ := (inRangeF32_iff hw hw).1 (inRangeF32_of_roundsTo h hw hw le_rfl le_rfl)
  exact ⟨hz, le_antisymm hhigh hlow⟩

/-- Of two numbers in order, the roundings are in order. -/
theorem val_le_of_roundsTo {z₁ z₂ : F32} {r₁ r₂ : ℝ} (hz₁ : finite z₁) (hz₂ : finite z₂) (h₁ : RoundsTo z₁ r₁)
    (h₂ : RoundsTo z₂ r₂) (hlt : r₁ < r₂) : val z₁ ≤ val z₂ := by
  obtain ⟨-, hnear₁⟩ := (roundsTo_iff_of_finite hz₁ r₁).1 h₁
  obtain ⟨-, hnear₂⟩ := (roundsTo_iff_of_finite hz₂ r₂).1 h₂
  by_contra hgt
  have hgt' : (val z₂ : ℝ) < val z₁ := by exact_mod_cast not_le.1 hgt
  have hd₁ : |(val z₁ : ℝ) - r₁| ≤ |(val z₂ : ℝ) - r₁| := (hnear₁ z₂ hz₂).elim le_of_lt fun h => h.1.le
  have hd₂ : |(val z₂ : ℝ) - r₂| ≤ |(val z₁ : ℝ) - r₂| := (hnear₂ z₁ hz₁).elim le_of_lt fun h => h.1.le
  rw [← sq_le_sq] at hd₁ hd₂
  nlinarith

theorem add_inRangeF32 {x y lo hi : F32} (hx : finite x) (hy : finite y) (hlo : finite lo) (hhi : finite hi)
    (hlow : val lo ≤ val x + val y) (hhigh : val x + val y ≤ val hi) : inRangeF32 (add x y) lo hi :=
  inRangeF32_of_roundsTo (roundsTo_add hx hy) hlo hhi (Rat.cast_le.2 hlow) (Rat.cast_le.2 hhigh)

theorem mul_inRangeF32 {x y lo hi : F32} (hx : finite x) (hy : finite y) (hlo : finite lo) (hhi : finite hi)
    (hlow : val lo ≤ val x * val y) (hhigh : val x * val y ≤ val hi) : inRangeF32 (mul x y) lo hi :=
  inRangeF32_of_roundsTo (roundsTo_mul hx hy) hlo hhi (Rat.cast_le.2 hlow) (Rat.cast_le.2 hhigh)

theorem div_inRangeF32 {x y lo hi : F32} (hx : finite x) (hy : finite y) (hne : val y ≠ 0) (hlo : finite lo)
    (hhi : finite hi) (hlow : val lo ≤ val x / val y) (hhigh : val x / val y ≤ val hi) :
    inRangeF32 (div x y) lo hi :=
  inRangeF32_of_roundsTo (roundsTo_div hx hy hne) hlo hhi (Rat.cast_le.2 hlow) (Rat.cast_le.2 hhigh)

theorem ofNat_inRangeF32 {n : ℕ} {lo hi : F32} (hlo : finite lo) (hhi : finite hi) (hlow : val lo ≤ n)
    (hhigh : (n : ℚ) ≤ val hi) : inRangeF32 (ofNat n) lo hi :=
  inRangeF32_of_roundsTo (roundsTo_ofNat n) hlo hhi (by exact_mod_cast hlow) (by exact_mod_cast hhigh)

/-- The product of two numbers from 0 on is at most the product of their bounds. -/
theorem mul_inRangeF32_nonneg {x y a b c : F32} (ha : finite a) (hb : finite b) (hc : finite c)
    (hx : inRangeF32 x zero a) (hy : inRangeF32 y zero b) (h : val a * val b ≤ val c) :
    inRangeF32 (mul x y) zero c := by
  obtain ⟨hxf, hx0, hxa⟩ := (inRangeF32_iff finite_zero ha).1 hx
  obtain ⟨hyf, hy0, hyb⟩ := (inRangeF32_iff finite_zero hb).1 hy
  rw [val_zero] at hx0 hy0
  refine mul_inRangeF32 hxf hyf finite_zero hc ?_ (le_trans ?_ h)
  · rw [val_zero]
    positivity
  · exact mul_le_mul hxa hyb hy0 (hx0.trans hxa)

/-- A number from 0 on over one of at least `b`. -/
theorem div_inRangeF32_nonneg {x y a b c d : F32} (ha : finite a) (hb : finite b) (hc : finite c) (hd : finite d)
    (hx : inRangeF32 x zero a) (hy : inRangeF32 y b c) (hpos : 0 < val b) (h : val a / val b ≤ val d) :
    inRangeF32 (div x y) zero d := by
  obtain ⟨hxf, hx0, hxa⟩ := (inRangeF32_iff finite_zero ha).1 hx
  obtain ⟨hyf, hyb, -⟩ := (inRangeF32_iff hb hc).1 hy
  rw [val_zero] at hx0
  have hy0 : 0 < val y := hpos.trans_le hyb
  refine div_inRangeF32 hxf hyf hy0.ne' finite_zero hd ?_ (le_trans ?_ h)
  · rw [val_zero]
    positivity
  · exact div_le_div₀ (hx0.trans hxa) hxa hpos hyb

/-- Clamping gives the middle one of three numbers. -/
theorem clamp_spec {x lo hi : F32} (hx : finite x) (hlo : finite lo) (hhi : finite hi) (hle : val lo ≤ val hi) :
    finite (clamp x lo hi) ∧ val (clamp x lo hi) = max (val lo) (min (val hi) (val x)) := by
  rw [clamp_eq hx hlo hhi]
  split
  · rename_i hlt
    exact ⟨hlo, by rw [min_eq_right (hlt.le.trans hle), max_eq_left hlt.le]⟩
  · rename_i hge
    rw [not_lt] at hge
    split
    · rename_i hgt
      exact ⟨hhi, by rw [min_eq_left hgt.le, max_eq_right hle]⟩
    · rename_i hin
      exact ⟨hx, by rw [min_eq_right (not_lt.1 hin), max_eq_right hge]⟩

/-! ## Exact subtraction -/

/-- The difference of two grid points within a factor of two is on the grid. -/
theorem exists_gridUnits_sub {a b : ℕ} (hle : gridUnits b ≤ gridUnits a) (htwice : gridUnits a ≤ 2 * gridUnits b) :
    ∃ c, gridUnits c + gridUnits b = gridUnits a := by
  obtain ⟨s, m, rfl, hm, hs⟩ := exists_significand b
  have hdvd : 2 ^ s ∣ gridUnits a := by
    rcases hs with rfl | hlong
    · exact one_dvd _
    · refine two_pow_dvd_gridUnits (le_trans ?_ hle)
      rw [gridUnits_scaled hm.le (.inr hlong), pow_add]
      exact Nat.mul_le_mul_right _ hlong
  rw [gridUnits_scaled hm.le hs] at hle htwice ⊢
  obtain ⟨k, hk⟩ := exists_eq_mul_left_of_dvd hdvd
  rw [hk] at hle htwice ⊢
  have hmk : m ≤ k := Nat.le_of_mul_le_mul_right hle (by positivity)
  have hk2 : k ≤ 2 * m := Nat.le_of_mul_le_mul_right (by rwa [mul_assoc]) (by positivity : 0 < 2 ^ s)
  obtain ⟨c, hc⟩ := exists_gridUnits_eq s (k - m) (by omega)
  exact ⟨c, by rw [hc, ← Nat.add_mul, Nat.sub_add_cancel hmk]⟩

theorem val_eq_of_pos {x : F32} (h : 0 < val x) : val x = gridUnits (magBits x) / 2 ^ 149 := by
  rw [val_eq_gridUnits] at h ⊢
  cases hs : sign x
  · rw [signOf_false, Int.cast_one, one_mul]
  · rw [hs, signOf_true, Int.cast_neg, Int.cast_one, neg_one_mul, Left.neg_pos_iff] at h
    exact absurd h (not_lt.2 (by positivity))

/-- Sterbenz: of two positive numbers within a factor of two the difference is exact. -/
theorem sub_exact {x y : F32} (hx : finite x) (hy : finite y) (hpos : 0 < val y) (hlow : val y ≤ 2 * val x)
    (hhigh : val x ≤ 2 * val y) : finite (sub x y) ∧ val (sub x y) = val x - val y := by
  have hx_pos : 0 < val x := by linarith
  have hxv := val_eq_of_pos hx_pos
  have hyv := val_eq_of_pos hpos
  have hround := roundsTo_sub hx hy
  suffices h : ∃ w, finite w ∧ val w = val x - val y by
    obtain ⟨w, hw, hval⟩ := h
    exact hval ▸ val_eq_of_roundsTo hw (hval ▸ hround)
  rw [finite_iff_magBits_lt] at hx hy
  rw [hxv, hyv] at hlow hhigh ⊢
  rw [← mul_div_assoc, div_le_div_iff_of_pos_right (by positivity)] at hlow hhigh
  norm_cast at hlow hhigh
  rcases le_total (gridUnits (magBits y)) (gridUnits (magBits x)) with hle | hle
  · obtain ⟨c, hc⟩ := exists_gridUnits_sub hle hhigh
    have hcx : c ≤ magBits x := gridUnits_strictMono.le_iff_le.1 (by omega)
    refine ⟨pack false c, (finite_pack_iff _ _).2 (by omega), ?_⟩
    rw [val_pack _ (by omega), ← hc, signOf_false]
    push_cast
    ring
  · obtain ⟨c, hc⟩ := exists_gridUnits_sub hle hlow
    have hcy : c ≤ magBits y := gridUnits_strictMono.le_iff_le.1 (by omega)
    refine ⟨pack true c, (finite_pack_iff _ _).2 (by omega), ?_⟩
    rw [val_pack _ (by omega), ← hc, signOf_true]
    push_cast
    ring

/-! ## The remainder of a number from 0 on -/

theorem fmod_of_nonneg {x m : F32} (hx : finite x) (hm : finite m) (h0 : 0 ≤ val x) (hpos : 0 < val m) :
    finite (fmod x m) ∧ 0 ≤ val (fmod x m) ∧ val (fmod x m) < val m := by
  obtain ⟨hfin, hval⟩ := fmod_exact hx hm hpos.ne'
  have hfloor : (⌊val x / val m⌋ : ℚ) ≤ val x / val m := Int.floor_le _
  have hnext : val x / val m < ⌊val x / val m⌋ + 1 := Int.lt_floor_add_one _
  rw [le_div_iff₀ hpos] at hfloor
  rw [div_lt_iff₀ hpos] at hnext
  rw [hval, truncate, if_pos (div_nonneg h0 hpos.le)]
  exact ⟨hfin, by linarith, by linarith⟩

end Sys2Proof.F32
end

section
/-! How a step keeps a property, what a register write does, and what an operation does to the mixer, the filter, the
reverb and the noise ROM. -/

set_option autoImplicit false

namespace Sys2Proof.Machine

/-! ## One step -/

/-- A property of every unfaulted state is kept by a step if taking an input and every operation keep it and a RESET
establishes it. What is known before (`P`) may be more than what is kept (`Q`). -/
theorem step_keeps {P Q : State → Prop} (hidle : ∀ s, P s → Q s)
    (haccept : ∀ (s : State) (rest : List Input), P s → P (s.accept rest))
    (hexec : ∀ (i : Instr) (s t : State), P s → exec i s = .next t → t.safe → Q t)
    (hreset : ∀ s t : State, exec .reset s = .next t → Q t)
    {s t : State} (hs : s.safe → P s) (h : step s = .next t) : t.safe → Q t := by
  intro ht
  rcases step_cases s t h with ⟨-, rfl⟩ | ⟨m, rest, -, ⟨hsafe | hreset', hx⟩ | ⟨hfault, -, rfl⟩⟩
  · exact hidle t (hs ht)
  · exact hexec _ _ t (haccept s rest (hs hsafe)) hx ht
  · exact hreset _ t (hreset' ▸ hx)
  · exact absurd ht hfault

/-! ## Register writes, by address (10_state.md R49) -/

theorem writeReg_filterKind (d : Word) (s : State) :
    s.writeReg 0x01 d =
      if d = 0 then { s with filter := { s.filter with kind := .onePole } }
      else if d = 1 then { s with filter := { s.filter with kind := .moog } }
      else s.event .cfgBadValue := rfl

theorem writeReg_of_range {addr : Byte} {lo hi : F32} (h : writeRange addr = some (lo, hi)) (d : Word) (s : State) :
    s.writeReg addr d =
      if F32.isFinite d then storeF32Reg addr (legalValue d lo hi) s else s.event .cfgBadValue := by
  have hkind : addr ≠ 0x01 := by
    rintro rfl
    cases h
  rw [State.writeReg, if_neg hkind, h]

theorem writeReg_of_no_range {addr : Byte} (hkind : addr ≠ 0x01) (h : writeRange addr = none) (d : Word) (s : State) :
    s.writeReg addr d = s.event .cfgBadAddress := by
  rw [State.writeReg, if_neg hkind, h]

/-- A register write sets the filter's kind, counts an event, or stores a finite word clamped. -/
theorem writeReg_cases (addr : Byte) (d : Word) (s : State) :
    (∃ k, s.writeReg addr d = { s with filter := { s.filter with kind := k } }) ∨
      (∃ e, s.writeReg addr d = s.event e) ∨
      ∃ lo hi, writeRange addr = some (lo, hi) ∧ Claims.finite d ∧
        s.writeReg addr d = storeF32Reg addr (legalValue d lo hi) s := by
  by_cases hkind : addr = 0x01
  · rw [hkind, writeReg_filterKind]
    split
    · exact .inl ⟨_, rfl⟩
    · split
      · exact .inl ⟨_, rfl⟩
      · exact .inr (.inl ⟨_, rfl⟩)
  · cases hrange : writeRange addr with
    | none => exact .inr (.inl ⟨_, writeReg_of_no_range hkind hrange d s⟩)
    | some range =>
      rw [writeReg_of_range hrange]
      split
      · rename_i hfin
        exact .inr (.inr ⟨_, _, rfl, (F32.isFinite_iff d).1 hfin, rfl⟩)
      · exact .inr (.inl ⟨_, rfl⟩)

/-! ## The sound units -/

/-- The mixer, the filter, the reverb and the noise ROM of two states agree. -/
structure SameUnits (s t : State) : Prop where
  mixer : t.mixer = s.mixer
  filter : t.filter = s.filter
  reverb : t.reverb = s.reverb
  noise : t.noise = s.noise

theorem SameUnits.trans {s t u : State} (h : SameUnits s t) (h' : SameUnits t u) : SameUnits s u :=
  ⟨h'.mixer.trans h.mixer, h'.filter.trans h.filter, h'.reverb.trans h.reverb, h'.noise.trans h.noise⟩

theorem event_sameUnits (e : Event) (s : State) : SameUnits s (s.event e) := ⟨rfl, rfl, rfl, rfl⟩

theorem accept_sameUnits (rest : List Input) (s : State) : SameUnits s (s.accept rest) := ⟨rfl, rfl, rfl, rfl⟩

theorem selectPatch_sameUnits (i : Nat) (s : State) : SameUnits s (selectPatch i s) := by
  unfold selectPatch
  split <;> exact ⟨rfl, rfl, rfl, rfl⟩

theorem startOsc_sameUnits (sel : Sel) (note : BitVec 7) (volume : F32) (k : OscIndex) (s : State) :
    SameUnits s (startOsc sel note volume k s) := by
  obtain ⟨_, _, _, _, h⟩ := startOsc_frame sel note volume k s
  rw [h]
  exact ⟨rfl, rfl, rfl, rfl⟩

theorem engineNoteOn_sameUnits (sel : Sel) (note : BitVec 7) (volume : F32) (s : State) :
    SameUnits s (engineNoteOn sel note volume s) := by
  unfold engineNoteOn
  split
  · exact ⟨rfl, rfl, rfl, rfl⟩
  · exact (startOsc_sameUnits ..).trans (startOsc_sameUnits ..)

theorem unpackWork_sameUnits (pay : List Byte) (address size : Nat) (s : State) :
    SameUnits s (unpackWork pay address size s) := by
  obtain ⟨_, h⟩ := unpackWork_frame pay address size s
  rw [h]
  exact ⟨rfl, rfl, rfl, rfl⟩

/-- What an operation can do to the mixer, the filter, the reverb and the noise ROM (47_engine.md R475). -/
inductive UnitsStep (s : State) : State → Prop
  | kept {t : State} (h : SameUnits s t) : UnitsStep s t
  | cutoff (value : BitVec 7) : UnitsStep s { s with filter := { s.filter with cutoff := cutoffOf value } }
  | reverbMix (value : BitVec 7) : UnitsStep s { s with reverb := { s.reverb with mix := fraction7 value } }
  | bendTarget (bend : BitVec 14) : UnitsStep s { s with mixer := { s.mixer with bendTarget := bendTargetOf bend } }
  | registerWrite (addr : Byte) (d : Word) : UnitsStep s (s.writeReg addr d)
  | filled (n : BitVec 16) (sr : Word) (h : fillLegal n sr = true) :
    UnitsStep s (fillLegalBody n.toNat sr.toNat s)
  | reset {t : State} (h : SameUnits State.reset t) : UnitsStep s t
  | faulted {t : State} (h : t.fault ≠ none) : UnitsStep s t

theorem exec_reset_sameUnits {s t : State} (h : exec .reset s = .next t) : SameUnits State.reset t := by
  cases h
  exact ⟨rfl, rfl, rfl, rfl⟩

theorem exec_unitsStep {i : Instr} {s t : State} (h : exec i s = .next t) : UnitsStep s t := by
  cases i with
  | noteOff note =>
    cases h
    exact .kept ⟨rfl, rfl, rfl, rfl⟩
  | noteOn note velocity =>
    cases h
    exact .kept (engineNoteOn_sameUnits ..)
  | noteOnEx p note velocity =>
    simp only [exec, execNoteOnEx] at h
    split at h
    · cases h
      exact .kept (engineNoteOn_sameUnits ..)
    · cases h
      exact .kept (event_sameUnits ..)
  | ccCutoff controller value =>
    cases h
    exact .cutoff value
  | ccReverb value =>
    cases h
    exact .reverbMix value
  | ccPatch index | patchSelect index =>
    cases h
    exact .kept (selectPatch_sameUnits ..)
  | pitchBend bend =>
    cases h
    exact .bendTarget bend
  | bulkRequest addr size =>
    simp only [exec, execBulkRequest] at h
    split at h
    · cases h
      exact .kept ⟨rfl, rfl, rfl, rfl⟩
    · cases h
      exact .kept (event_sameUnits ..)
  | bulkDeliver addr payload =>
    simp only [exec, execBulkDeliver] at h
    split at h
    · cases h
      exact .kept (unpackWork_sameUnits ..)
    · cases h
      exact .kept (event_sameUnits ..)
  | fill n sr =>
    simp only [exec, execFill] at h
    split at h
    · cases h
      exact .filled n sr ‹_›
    · cases h
      exact .faulted (by simp)
  | update deltaMs =>
    cases h
    exact .kept ⟨rfl, rfl, rfl, rfl⟩
  | store index =>
    simp only [exec, execStore] at h
    split at h
    · cases h
      exact .kept ⟨rfl, rfl, rfl, rfl⟩
    · cases h
      exact .kept (event_sameUnits ..)
  | cfgWrite addr d =>
    cases h
    exact .registerWrite addr d
  | cfgRead addr =>
    cases h
    exact .kept ⟨rfl, rfl, rfl, rfl⟩
  | reset => exact .reset (exec_reset_sameUnits h)
  | ccOther _ | ctrlUnknown _ | msgTooShort _ | hostUnknown _ =>
    cases h
    exact .kept (event_sameUnits ..)

end Sys2Proof.Machine
end

section
/-! The sample memories: every operation keeps the reverb RAM canonical and the noise ROM unwritten. -/

set_option autoImplicit false

namespace Sys2Proof.Machine

/-- What `State.memoryLegal` says of an unfaulted state. -/
def State.memoryCanonical (s : State) : Prop :=
  s.reverb.buf.wf reverbDefault Config.reverbLen = true ∧ s.noise = []

/-- The canonical form sees the RAM and the ROM only. -/
theorem State.memoryCanonical.of_eq {s t : State} (hs : s.memoryCanonical) (hbuf : t.reverb.buf = s.reverb.buf)
    (hnoise : t.noise = s.noise) : t.memoryCanonical := by
  rwa [State.memoryCanonical, hbuf, hnoise]

theorem SameUnits.memoryCanonical {s t : State} (h : SameUnits s t) (hs : s.memoryCanonical) :
    t.memoryCanonical := hs.of_eq (congrArg Reverb.buf h.reverb) h.noise

/-- Stated for any value: checking it for a value that is computed would compute it. -/
theorem State.memoryCanonical.setMix {s : State} (hs : s.memoryCanonical) (m : F32) :
    State.memoryCanonical { s with reverb := { s.reverb with mix := m } } := hs.of_eq rfl rfl

theorem memoryCanonical_reset : State.reset.memoryCanonical := ⟨rfl, rfl⟩

theorem storeF32Reg_memory (addr : Byte) (y : F32) (s : State) :
    (storeF32Reg addr y s).reverb.buf = s.reverb.buf ∧ (storeF32Reg addr y s).noise = s.noise := by
  unfold storeF32Reg
  repeat' split
  all_goals exact ⟨rfl, rfl⟩

theorem writeReg_memory (addr : Byte) (d : Word) (s : State) :
    (s.writeReg addr d).reverb.buf = s.reverb.buf ∧ (s.writeReg addr d).noise = s.noise := by
  obtain ⟨_, h⟩ | ⟨_, h⟩ | ⟨_, _, -, -, h⟩ := writeReg_cases addr d s <;> rw [h]
  · exact ⟨rfl, rfl⟩
  · exact ⟨rfl, rfl⟩
  · exact storeF32Reg_memory addr _ s

theorem fillLegalBody_reverb (n sr : Nat) (s : State) :
    (fillLegalBody n sr s).reverb = (reverbRun (s.reverb.delaySamples sr) (fillMix n sr s) s.reverb).2 := rfl

theorem fillLegalBody_noise (n sr : Nat) (s : State) : (fillLegalBody n sr s).noise = s.noise := rfl

theorem fillLegalBody_memoryCanonical (n sr : Nat) {s : State} (hs : s.memoryCanonical) :
    (fillLegalBody n sr s).memoryCanonical := by
  rw [State.memoryCanonical, fillLegalBody_reverb, fillLegalBody_noise]
  exact ⟨reverbRun_wf _ _ _ hs.1, hs.2⟩

/-- An operation keeps the memories, or leaves the block faulted. -/
theorem UnitsStep.memoryCanonical {s t : State} (h : UnitsStep s t) (hs : s.memoryCanonical) (ht : t.safe) :
    t.memoryCanonical := by
  cases h with
  | kept h => exact h.memoryCanonical hs
  | cutoff | bendTarget => exact hs.of_eq rfl rfl
  | reverbMix => exact hs.setMix _
  | registerWrite addr d => exact hs.of_eq (writeReg_memory addr d s).1 (writeReg_memory addr d s).2
  | filled => exact fillLegalBody_memoryCanonical _ _ hs
  | reset h => exact h.memoryCanonical memoryCanonical_reset
  | faulted h => exact absurd ht h

/-- Settles O57: the reverb run is the only writer of the RAM, and it keeps the canonical form; nothing writes the
noise ROM. -/
theorem stepKeepsMemories : Obligations.StepKeepsMemories := fun _ _ hs h =>
  step_keeps (P := State.memoryCanonical) (Q := State.memoryCanonical) (fun _ => id)
    (fun s rest => (accept_sameUnits rest s).memoryCanonical)
    (fun _ _ _ hs h => (exec_unitsStep h).memoryCanonical hs)
    (fun _ _ h => (exec_reset_sameUnits h).memoryCanonical memoryCanonical_reset) hs h

end Sys2Proof.Machine
end

section
/-! The registers: every operation keeps each in its range (10_state.md R41 to R43). -/

set_option autoImplicit false

namespace Sys2Proof.Machine

open Sys2Proof.Claims (finite val)
open Sys2Proof.F32 (inRangeF32_iff finite_zero finite_one val_zero val_one)

/-! ## Legal units -/

/-- The mixer registers are in range (10_state.md R41). -/
structure Mixer.Legal (m : Mixer) : Prop where
  masterVolume : inRangeF32 m.masterVolume F32.zero F32.one
  lfoPhase : inRangeF32 m.lfoPhase F32.zero (F32.ofNat Config.noiseLen) ∧
    F32.lt m.lfoPhase (F32.ofNat Config.noiseLen) = true
  bendCur : inRangeF32 m.bendCur bendLeast bendGreatest
  bendTarget : inRangeF32 m.bendTarget bendLeast bendGreatest

/-- The filter registers with a range are in it (10_state.md R42). -/
structure Filter.Legal (f : Filter) : Prop where
  cutoff : inRangeF32 f.cutoff F32.zero cutoffMax
  resonance : inRangeF32 f.resonance F32.zero F32.one

/-- The reverb registers with a range are in it (10_state.md R43). -/
structure Reverb.Legal (rv : Reverb) : Prop where
  delayMs : inRangeF32 rv.delayMs F32.zero Config.envTimeMax
  decay : inRangeF32 rv.decay F32.zero decayMax
  mix : inRangeF32 rv.mix F32.zero F32.one

/-- What `State.registersLegal` says of an unfaulted state. -/
structure State.UnitsLegal (s : State) : Prop where
  mixer : s.mixer.Legal
  filter : s.filter.Legal
  reverb : s.reverb.Legal

theorem State.registersLegal_iff (s : State) : s.registersLegal ↔ (s.safe → s.UnitsLegal) := by
  constructor
  · intro h hs
    obtain ⟨hvolume, hlfo, hcur, htarget, hcutoff, hresonance, hdelay, hdecay, hmix⟩ := h hs
    exact ⟨⟨hvolume, hlfo, hcur, htarget⟩, ⟨hcutoff, hresonance⟩, ⟨hdelay, hdecay, hmix⟩⟩
  · intro h hs
    obtain ⟨⟨hvolume, hlfo, hcur, htarget⟩, ⟨hcutoff, hresonance⟩, ⟨hdelay, hdecay, hmix⟩⟩ := h hs
    exact ⟨hvolume, hlfo, hcur, htarget, hcutoff, hresonance, hdelay, hdecay, hmix⟩

theorem SameUnits.unitsLegal {s t : State} (h : SameUnits s t) (hs : s.UnitsLegal) : t.UnitsLegal where
  mixer := h.mixer ▸ hs.mixer
  filter := h.filter ▸ hs.filter
  reverb := h.reverb ▸ hs.reverb

theorem unitsLegal_reset : State.reset.UnitsLegal where
  mixer := {
    masterVolume := ⟨by decide, by decide⟩
    lfoPhase := ⟨⟨by decide, by decide +kernel⟩, by decide +kernel⟩
    bendCur := ⟨by decide, by decide⟩
    bendTarget := ⟨by decide, by decide⟩ }
  filter := ⟨⟨by decide, by decide⟩, ⟨by decide, by decide⟩⟩
  reverb := ⟨⟨by decide, by decide⟩, ⟨by decide, by decide⟩, ⟨by decide, by decide⟩⟩

/-! ## Single registers

Stated for any value: checking them for a value that is computed would compute it. -/

theorem State.UnitsLegal.setCutoff {s : State} (hs : s.UnitsLegal) {y : F32}
    (hy : inRangeF32 y F32.zero cutoffMax) :
    State.UnitsLegal { s with filter := { s.filter with cutoff := y } } :=
  ⟨hs.mixer, { hs.filter with cutoff := hy }, hs.reverb⟩

theorem State.UnitsLegal.setMix {s : State} (hs : s.UnitsLegal) {y : F32} (hy : inRangeF32 y F32.zero F32.one) :
    State.UnitsLegal { s with reverb := { s.reverb with mix := y } } :=
  ⟨hs.mixer, hs.filter, { hs.reverb with mix := hy }⟩

theorem State.UnitsLegal.setBendTarget {s : State} (hs : s.UnitsLegal) {y : F32}
    (hy : inRangeF32 y bendLeast bendGreatest) :
    State.UnitsLegal { s with mixer := { s.mixer with bendTarget := y } } :=
  ⟨{ hs.mixer with bendTarget := hy }, hs.filter, hs.reverb⟩

/-! ## Bounds as numbers -/

theorem val_thousand : val 0x447A0000#32 = 1000 := by decide +kernel

theorem val_maxFill : val 0x45800000#32 = 4096 := by decide +kernel

/-- The most milliseconds a FILL can last: 4096 samples at 1 Hz. -/
theorem val_bufMsMax : val 0x4A7A0000#32 = 4096000 := by decide +kernel

theorem val_lfoFreqMax : val Config.lfoFreqMax = 20 := by decide +kernel

theorem finite_noiseLen : finite (F32.ofNat Config.noiseLen) := by decide +kernel

theorem val_noiseLen : val (F32.ofNat Config.noiseLen) = 480000 := by decide +kernel

/-! ## Controllers -/

/-- A 7-bit value over 127.0 is a fraction (30_encoding.md R143). -/
theorem fraction7_inRangeF32 (v : BitVec 7) : inRangeF32 (fraction7 v) F32.zero F32.one := by
  have hv : (v.toNat : ℚ) ≤ 127 := by exact_mod_cast Nat.lt_succ_iff.1 v.isLt
  have hscale : val Config.byteScale = 127 := by decide +kernel
  refine F32.div_inRangeF32_nonneg (a := Config.byteScale) (b := Config.byteScale) (c := Config.byteScale)
    (by decide) (by decide) (by decide) finite_one ?_ ⟨by decide, by decide⟩ (by norm_num [hscale])
    (by norm_num [hscale])
  exact F32.ofNat_inRangeF32 finite_zero (by decide) (by simp) (by rwa [hscale])

theorem cutoffOf_inRangeF32 (value : BitVec 7) : inRangeF32 (cutoffOf value) F32.zero cutoffMax := by
  have htop : val Config.cutoffCcMaxHz = 20000 := by decide +kernel
  have hmax : val cutoffMax = 96000 := by decide +kernel
  exact F32.mul_inRangeF32_nonneg (b := Config.cutoffCcMaxHz) finite_one (by decide) (by decide)
    (fraction7_inRangeF32 value) ⟨by decide, by decide⟩ (by norm_num [htop, hmax])

/-! ## Pitch bend (47_engine.md R461) -/

theorem two_rpow_div_lt {p₁ p₂ : ℤ} {q : ℕ} (hq : 0 < q) (h : p₁ < p₂) :
    (2 : ℝ) ^ ((p₁ : ℝ) / q) < 2 ^ ((p₂ : ℝ) / q) := by
  refine Real.rpow_lt_rpow_of_exponent_lt one_lt_two (div_lt_div_of_pos_right ?_ (by exact_mod_cast hq))
  exact_mod_cast h

/-- A power of two with an exponent of at most 1 is finite. -/
theorem finite_exp2Frac {p : ℤ} {q : ℕ} (hq : 0 < q) (hp : |p| ≤ q) : finite (Numerics.exp2Frac p q) := by
  have htwo : val 0x40000000#32 = 2 := by decide +kernel
  refine F32.finite_of_inRangeF32 finite_zero (by decide : finite 0x40000000#32)
    (F32.inRangeF32_of_roundsTo (Numerics.roundsTo_exp2Frac hq (by omega)) finite_zero (by decide) ?_ ?_)
  · rw [val_zero, Rat.cast_zero]
    positivity
  · rw [htwo, Rat.cast_ofNat]
    refine Real.rpow_le_self_of_one_le one_le_two ?_
    rw [div_le_one (by exact_mod_cast hq)]
    exact_mod_cast (le_abs_self p).trans hp

theorem exp2Frac_le_exp2Frac {p₁ p₂ : ℤ} {q : ℕ} (hq : 0 < q) (h₁ : |p₁| ≤ q) (h₂ : |p₂| ≤ q) (h : p₁ ≤ p₂) :
    val (Numerics.exp2Frac p₁ q) ≤ val (Numerics.exp2Frac p₂ q) := by
  rcases h.eq_or_lt with rfl | hlt
  · exact le_rfl
  · exact F32.val_le_of_roundsTo (finite_exp2Frac hq h₁) (finite_exp2Frac hq h₂)
      (Numerics.roundsTo_exp2Frac hq (by omega)) (Numerics.roundsTo_exp2Frac hq (by omega))
      (two_rpow_div_lt hq hlt)

theorem finite_bendLeast : finite bendLeast := by decide

theorem finite_bendGreatest : finite bendGreatest := by decide

theorem bendLeast_eq : bendLeast = Numerics.exp2Frac (-16384) 98304 := by decide +kernel

theorem bendGreatest_eq : bendGreatest = Numerics.exp2Frac 16382 98304 := by decide +kernel

/-- The target rises with the bend, from its value at 0 to its value at 16383. -/
theorem bendTargetOf_inRangeF32 (bend : BitVec 14) : inRangeF32 (bendTargetOf bend) bendLeast bendGreatest := by
  have hbend : bend.toNat < 16384 := bend.isLt
  unfold bendTargetOf
  split
  · exact ⟨by decide, by decide⟩
  · have hp : |(2 : ℤ) * (bend.toNat - 8192)| ≤ (12 * 8192 : ℕ) := by rw [abs_le]; omega
    rw [show ((Config.bendRange : ℕ) : ℤ) = 2 from rfl,
      inRangeF32_iff finite_bendLeast finite_bendGreatest, bendLeast_eq, bendGreatest_eq]
    exact ⟨finite_exp2Frac (by decide) hp,
      exp2Frac_le_exp2Frac (by decide) (by decide) hp (by omega),
      exp2Frac_le_exp2Frac (by decide) hp (by decide) (by omega)⟩

/-! ## Register writes (10_state.md R49) -/

/-- The registers a word may be written to, with their ranges. -/
theorem writeRange_cases {addr : Byte} {lo hi : F32} (h : writeRange addr = some (lo, hi)) :
    lo = F32.zero ∧
      (addr = 0x00 ∧ hi = F32.one ∨ addr = 0x02 ∧ hi = cutoffMax ∨ addr = 0x03 ∧ hi = F32.one ∨
        addr = 0x04 ∧ hi = Config.envTimeMax ∨ addr = 0x05 ∧ hi = decayMax ∨ addr = 0x06 ∧ hi = F32.one) := by
  unfold writeRange at h
  split_ifs at h <;> simp_all

/-- Both ends of a register's range are finite, the low one being 0. -/
theorem writeRange_ends {addr : Byte} {lo hi : F32} (h : writeRange addr = some (lo, hi)) :
    finite lo ∧ finite hi ∧ val lo ≤ val hi := by
  obtain ⟨rfl, ⟨-, rfl⟩ | ⟨-, rfl⟩ | ⟨-, rfl⟩ | ⟨-, rfl⟩ | ⟨-, rfl⟩ | ⟨-, rfl⟩⟩ := writeRange_cases h <;>
    exact ⟨finite_zero, by decide, by decide +kernel⟩

/-- The value stored for a finite word is the clamped number, never -0.0. -/
theorem legalValue_spec {x lo hi : F32} (hx : finite x) (hlo : finite lo) (hhi : finite hi) (hle : val lo ≤ val hi) :
    finite (legalValue x lo hi) ∧ legalValue x lo hi ≠ 0x80000000#32 ∧
      val (legalValue x lo hi) = max (val lo) (min (val hi) (val x)) := by
  obtain ⟨hfin, hval⟩ := F32.clamp_spec hx hlo hhi hle
  unfold legalValue
  simp only
  split
  · rename_i hzero
    refine ⟨finite_zero, by decide, ?_⟩
    rw [← hval, hzero]
    decide +kernel
  · exact ⟨hfin, ‹_›, hval⟩

theorem legalValue_inRangeF32 {x lo hi : F32} (hx : finite x) (hlo : finite lo) (hhi : finite hi)
    (hle : val lo ≤ val hi) : inRangeF32 (legalValue x lo hi) lo hi := by
  obtain ⟨hfin, -, hval⟩ := legalValue_spec hx hlo hhi hle
  rw [inRangeF32_iff hlo hhi, hval]
  exact ⟨hfin, le_max_left _ _, max_le hle (min_le_left _ _)⟩

/-- A register set to a value of its range. -/
theorem State.UnitsLegal.storeF32Reg {s : State} (hs : s.UnitsLegal) {addr : Byte} {y lo hi : F32}
    (hrange : writeRange addr = some (lo, hi)) (hy : inRangeF32 y lo hi) : (storeF32Reg addr y s).UnitsLegal := by
  obtain ⟨rfl, ⟨rfl, rfl⟩ | ⟨rfl, rfl⟩ | ⟨rfl, rfl⟩ | ⟨rfl, rfl⟩ | ⟨rfl, rfl⟩ | ⟨rfl, rfl⟩⟩ :=
    writeRange_cases hrange
  · exact ⟨{ hs.mixer with masterVolume := hy }, hs.filter, hs.reverb⟩
  · exact hs.setCutoff hy
  · exact ⟨hs.mixer, { hs.filter with resonance := hy }, hs.reverb⟩
  · exact ⟨hs.mixer, hs.filter, { hs.reverb with delayMs := hy }⟩
  · exact ⟨hs.mixer, hs.filter, { hs.reverb with decay := hy }⟩
  · exact hs.setMix hy

theorem State.UnitsLegal.writeReg {s : State} (hs : s.UnitsLegal) (addr : Byte) (d : Word) :
    (s.writeReg addr d).UnitsLegal := by
  obtain ⟨_, h⟩ | ⟨_, h⟩ | ⟨lo, hi, hrange, hd, h⟩ := writeReg_cases addr d s <;> rw [h]
  · exact ⟨hs.mixer, ⟨hs.filter.cutoff, hs.filter.resonance⟩, hs.reverb⟩
  · exact (event_sameUnits ..).unitsLegal hs
  · obtain ⟨hlo, hhi, hle⟩ := writeRange_ends hrange
    exact hs.storeF32Reg hrange (legalValue_inRangeF32 hd hlo hhi hle)

/-! ## FILL (46_mixer.md R401) -/

/-- The bend ratio moves a part of the way to its target, and the difference of the two is exact. -/
theorem Mixer.Legal.smoothBend {m : Mixer} (hm : m.Legal) : m.smoothBend.Legal := by
  refine { hm with bendCur := ?_ }
  obtain ⟨hcur, hcur_low, hcur_high⟩ := (inRangeF32_iff finite_bendLeast finite_bendGreatest).1 hm.bendCur
  obtain ⟨htarget, htarget_low, htarget_high⟩ := (inRangeF32_iff finite_bendLeast finite_bendGreatest).1 hm.bendTarget
  have hpos : 0 < val bendLeast := by decide +kernel
  have htwice : val bendGreatest ≤ 2 * val bendLeast := by decide +kernel
  obtain ⟨hdiff, hdiff_val⟩ := F32.sub_exact htarget hcur (by linarith) (by linarith) (by linarith)
  have hpart : 0 ≤ val Config.bendSmooth ∧ val Config.bendSmooth ≤ 1 := by decide +kernel
  obtain ⟨hpart_low, hpart_high⟩ := hpart
  have hpart_fin : finite Config.bendSmooth := by decide
  rcases le_total (val m.bendCur) (val m.bendTarget) with hle | hle
  · obtain ⟨hmove, hmove_low, hmove_high⟩ := (inRangeF32_iff finite_zero hdiff).1 <|
      F32.mul_inRangeF32 hpart_fin hdiff finite_zero hdiff (by rw [val_zero]; nlinarith) (by nlinarith)
    rw [val_zero] at hmove_low
    exact F32.add_inRangeF32 hcur hmove finite_bendLeast finite_bendGreatest (by linarith) (by linarith)
  · obtain ⟨hmove, hmove_low, hmove_high⟩ := (inRangeF32_iff hdiff finite_zero).1 <|
      F32.mul_inRangeF32 hpart_fin hdiff hdiff finite_zero (by nlinarith) (by rw [val_zero]; nlinarith)
    rw [val_zero] at hmove_high
    exact F32.add_inRangeF32 hcur hmove finite_bendLeast finite_bendGreatest (by linarith) (by linarith)

/-- A legal FILL lasts at most 4096000 ms. -/
theorem bufMs_inRangeF32 {n sr : ℕ} (hn : n ≤ Config.maxFill) (hsr : Config.srMin ≤ sr) (hsr' : sr ≤ Config.srMax) :
    inRangeF32 (bufMs n sr) F32.zero 0x4A7A0000#32 := by
  have hrate : val 0x483B8000#32 = 192000 := by decide +kernel
  have hn' : (n : ℚ) ≤ 4096 := by exact_mod_cast hn
  have hsr_low : (1 : ℚ) ≤ sr := by exact_mod_cast hsr
  have hsr_high : (sr : ℚ) ≤ 192000 := by exact_mod_cast hsr'
  have hcount : inRangeF32 (F32.ofNat n) F32.zero 0x45800000#32 :=
    F32.ofNat_inRangeF32 finite_zero (by decide) (by simp) (by rwa [val_maxFill])
  have hms : inRangeF32 (F32.mul 0x447A0000#32 (F32.ofNat n)) F32.zero 0x4A7A0000#32 :=
    F32.mul_inRangeF32_nonneg (a := 0x447A0000#32) (by decide) (by decide) (by decide) ⟨by decide, by decide⟩ hcount
      (by norm_num [val_thousand, val_maxFill, val_bufMsMax])
  have hsr_range : inRangeF32 (F32.ofNat sr) F32.one 0x483B8000#32 :=
    F32.ofNat_inRangeF32 finite_one (by decide) (by rwa [val_one]) (by rwa [hrate])
  exact F32.div_inRangeF32_nonneg (by decide) finite_one (by decide) (by decide) hms hsr_range (by simp) (by simp)

/-- A table has from 4096 to 480000 samples. -/
theorem ofNat_len_inRangeF32 (w : Wave) :
    inRangeF32 (F32.ofNat w.len) 0x45800000#32 (F32.ofNat Config.noiseLen) := by
  cases w <;> exact ⟨by decide +kernel, by decide +kernel⟩

/-- The LFO moves by at most 20 Hz times 4096 s times 480000 samples, below 2^36 (46_mixer.md R417). -/
theorem lfoIncrement_inRangeF32 {freq ms len : F32} (hfreq : inRangeF32 freq F32.zero Config.lfoFreqMax)
    (hms : inRangeF32 ms F32.zero 0x4A7A0000#32) (hlen : inRangeF32 len F32.zero (F32.ofNat Config.noiseLen)) :
    inRangeF32 (F32.mul (F32.mul freq (F32.div ms 0x447A0000#32)) len) F32.zero 0x51800000#32 := by
  have hcycles_val : val 0x47A00000#32 = 81920 := by decide +kernel
  have hinc_val : val 0x51800000#32 = 2 ^ 36 := by decide +kernel
  have hseconds : inRangeF32 (F32.div ms 0x447A0000#32) F32.zero 0x45800000#32 :=
    F32.div_inRangeF32_nonneg (b := 0x447A0000#32) (c := 0x447A0000#32) (by decide) (by decide) (by decide)
      (by decide) hms ⟨by decide, by decide⟩ (by norm_num [val_thousand])
      (by norm_num [val_thousand, val_maxFill, val_bufMsMax])
  have hcycles : inRangeF32 (F32.mul freq (F32.div ms 0x447A0000#32)) F32.zero 0x47A00000#32 :=
    F32.mul_inRangeF32_nonneg (by decide) (by decide) (by decide) hfreq hseconds
      (by norm_num [val_lfoFreqMax, val_maxFill, hcycles_val])
  exact F32.mul_inRangeF32_nonneg (by decide) finite_noiseLen (by decide) hcycles hlen
    (by norm_num [hcycles_val, hinc_val, val_noiseLen])

/-- The LFO phase is the remainder of a finite sum by the length of a table. -/
theorem Mixer.Legal.advanceLfo {m : Mixer} (hm : m.Legal) {w : Patch} {ms : F32}
    (hfreq : inRangeF32 w.lfoFreq F32.zero Config.lfoFreqMax) (hms : inRangeF32 ms F32.zero 0x4A7A0000#32) :
    (m.advanceLfo w ms).Legal := by
  have hinc_val : val 0x51800000#32 = 2 ^ 36 := by decide +kernel
  have hsum_val : val 0x52000000#32 = 2 ^ 37 := by decide +kernel
  obtain ⟨hlen, hlen_low, hlen_high⟩ :=
    (inRangeF32_iff (by decide) finite_noiseLen).1 (ofNat_len_inRangeF32 w.lfoWave)
  rw [val_maxFill] at hlen_low
  have hlen_range : inRangeF32 (F32.ofNat w.lfoWave.len) F32.zero (F32.ofNat Config.noiseLen) :=
    (inRangeF32_iff finite_zero finite_noiseLen).2 ⟨hlen, by rw [val_zero]; linarith, hlen_high⟩
  obtain ⟨hinc, hinc_low, hinc_high⟩ :=
    (inRangeF32_iff finite_zero (by decide)).1 (lfoIncrement_inRangeF32 hfreq hms hlen_range)
  obtain ⟨hphase, hphase_low, hphase_high⟩ := (inRangeF32_iff finite_zero finite_noiseLen).1 hm.lfoPhase.1
  rw [val_zero] at hinc_low hphase_low
  rw [hinc_val] at hinc_high
  rw [val_noiseLen] at hphase_high
  obtain ⟨hsum, hsum_low, -⟩ := (inRangeF32_iff finite_zero (by decide)).1 <|
    F32.add_inRangeF32 (hi := 0x52000000#32) hphase hinc finite_zero (by decide)
      (by rw [val_zero]; positivity) (by rw [hsum_val]; linarith)
  rw [val_zero] at hsum_low
  obtain ⟨hrem, hrem_low, hrem_lt⟩ := F32.fmod_of_nonneg hsum hlen hsum_low (by linarith)
  have hrem_lt' := hrem_lt.trans_le hlen_high
  exact { hm with
    lfoPhase := ⟨(inRangeF32_iff finite_zero finite_noiseLen).2 ⟨hrem, by rwa [val_zero], hrem_lt'.le⟩,
      (F32.lt_iff hrem finite_noiseLen).2 hrem_lt'⟩ }

theorem onePoleRun_registers (k : F32) (xs : List F32) (f : Filter) :
    (onePoleRun k xs f).2.cutoff = f.cutoff ∧ (onePoleRun k xs f).2.resonance = f.resonance := by
  induction xs generalizing f with
  | nil => exact ⟨rfl, rfl⟩
  | cons x xs ih => exact ih { f with prev := onePoleNext k x f.prev }

theorem ladderRun_registers (c : LadderCoeffs) (xs : List F32) (f : Filter) :
    (ladderRun c xs f).2.cutoff = f.cutoff ∧ (ladderRun c xs f).2.resonance = f.resonance := by
  induction xs generalizing f with
  | nil => exact ⟨rfl, rfl⟩
  | cons x xs ih => exact ih (ladderNext c x f)

/-- The filter writes its own state only (42_filter.md R260). -/
theorem Filter.apply_registers (f : Filter) (sr : Nat) (mix : List F32) :
    (f.apply sr mix).2.cutoff = f.cutoff ∧ (f.apply sr mix).2.resonance = f.resonance := by
  unfold Filter.apply
  split
  · exact onePoleRun_registers _ _ _
  · exact ladderRun_registers _ _ _

theorem Filter.Legal.apply {f : Filter} (hf : f.Legal) (sr : Nat) (mix : List F32) : (f.apply sr mix).2.Legal := by
  obtain ⟨hcutoff, hresonance⟩ := f.apply_registers sr mix
  exact ⟨hcutoff ▸ hf.cutoff, hresonance ▸ hf.resonance⟩

theorem Reverb.Legal.run {rv : Reverb} (hrv : rv.Legal) (d : Nat) (mix : List F32) :
    (reverbRun d mix rv).2.Legal := by
  rw [reverbRun_frame]
  exact ⟨hrv.delayMs, hrv.decay, hrv.mix⟩

theorem State.UnitsLegal.fill {s : State} (hs : s.UnitsLegal) (hwork : s.work.legal) {n : BitVec 16} {sr : Word}
    (h : fillLegal n sr = true) : (fillLegalBody n.toNat sr.toNat s).UnitsLegal := by
  obtain ⟨hsr, hsr', hn⟩ := of_decide_eq_true h
  obtain ⟨-, -, -, -, -, hfreq, -⟩ := hwork
  exact ⟨hs.mixer.smoothBend.advanceLfo hfreq (bufMs_inRangeF32 hn hsr hsr'), hs.filter.apply _ _, hs.reverb.run _ _⟩

/-! ## One step -/

/-- An operation keeps the registers in range where the working patch is legal, or leaves the block faulted. -/
theorem UnitsStep.unitsLegal {s t : State} (h : UnitsStep s t) (hwork : s.work.legal) (hs : s.UnitsLegal)
    (ht : t.safe) : t.UnitsLegal := by
  cases h with
  | kept h => exact h.unitsLegal hs
  | cutoff value => exact hs.setCutoff (cutoffOf_inRangeF32 value)
  | reverbMix value => exact hs.setMix (fraction7_inRangeF32 value)
  | bendTarget bend => exact hs.setBendTarget (bendTargetOf_inRangeF32 bend)
  | registerWrite addr d => exact hs.writeReg addr d
  | filled n sr h => exact hs.fill hwork h
  | reset h => exact h.unitsLegal unitsLegal_reset
  | faulted h => exact absurd ht h

/-- Settles O59: each writer of a register clamps it, takes it from a bounded operand, moves it between two legal
values, or takes a remainder. -/
theorem stepKeepsRegistersLegal : Obligations.StepKeepsRegistersLegal := by
  intro s t hpatches hregisters h
  rw [State.registersLegal_iff] at hregisters ⊢
  exact step_keeps (P := fun s => s.work.legal ∧ s.UnitsLegal) (Q := State.UnitsLegal) (fun _ h => h.2)
    (fun s rest h => ⟨h.1, (accept_sameUnits rest s).unitsLegal h.2⟩)
    (fun _ _ _ h hx => (exec_unitsStep hx).unitsLegal h.1 h.2)
    (fun _ _ hx => (exec_reset_sameUnits hx).unitsLegal unitsLegal_reset)
    (fun hsafe => ⟨(hpatches hsafe).1, hregisters hsafe⟩) h

end Sys2Proof.Machine
end

section
/-! CFG_WRITE against the register map, and what CFG_READ then gives (10_state.md R48, R49). -/

set_option autoImplicit false

namespace Sys2Proof.Machine

open Sys2Proof.Claims (f32Range withF32)

/-! ## The ranges of the register map -/

theorem writeRange_eq_f32Range (addr : Byte) : writeRange addr = f32Range addr := by
  revert addr
  decide

/-! ## A register written reads back -/

theorem storeF32Reg_eq_withF32 {addr : Byte} {lo hi : F32} (h : writeRange addr = some (lo, hi)) (y : F32)
    (s : State) : storeF32Reg addr y s = withF32 addr y s := by
  obtain ⟨-, ⟨rfl, -⟩ | ⟨rfl, -⟩ | ⟨rfl, -⟩ | ⟨rfl, -⟩ | ⟨rfl, -⟩ | ⟨rfl, -⟩⟩ := writeRange_cases h <;> rfl

theorem readReg_withF32 {addr : Byte} {lo hi : F32} (h : writeRange addr = some (lo, hi)) (y : F32) (s : State) :
    (withF32 addr y s).readReg addr = y := by
  obtain ⟨-, ⟨rfl, -⟩ | ⟨rfl, -⟩ | ⟨rfl, -⟩ | ⟨rfl, -⟩ | ⟨rfl, -⟩ | ⟨rfl, -⟩⟩ := writeRange_cases h <;> rfl

/-- Settles O30: by the address, the register of FILTER_KIND, an F32 register with its range, or none. -/
theorem cfgWriteClampsAndReadsBack : Obligations.CfgWriteClampsAndReadsBack := by
  intro addr d s
  have hexec : exec (.cfgWrite addr d) s = .next (s.writeReg addr d) := rfl
  refine ⟨?_, fun lo hi h => ?_, fun hkind h => ?_⟩
  · rintro rfl
    rw [hexec, writeReg_filterKind]
    split
    · rfl
    · split <;> rfl
  · rw [← writeRange_eq_f32Range] at h
    rw [hexec, writeReg_of_range h]
    refine ⟨fun hd => ?_, fun hd => ?_⟩
    · rw [if_neg ((F32.isFinite_iff d).not.2 hd)]
      rfl
    · obtain ⟨hlo, hhi, hle⟩ := writeRange_ends h
      refine ⟨legalValue d lo hi, ?_, ?_, legalValue_spec hd hlo hhi hle⟩
      · rw [if_pos ((F32.isFinite_iff d).2 hd), storeF32Reg_eq_withF32 h]
      · change Host.Outcome.next (State.emitD _ _) = _
        rw [readReg_withF32 h]
        rfl
  · rw [← writeRange_eq_f32Range] at h
    rw [hexec, writeReg_of_no_range hkind h]
    rfl

end Sys2Proof.Machine
end

section
/-! The word of VOICE_STATUS, field by field, and wavePos (10_state.md R39, R50). -/

set_option autoImplicit false

namespace Sys2Proof.Machine

/-! ## The fields as numbers -/

theorem toNat_noteByte_some (n : BitVec 7) : (noteByte (some n)).toNat = n.toNat := by
  simp only [noteByte, BitVec.toNat_setWidth]
  omega

theorem toNat_selField_bank (i : Fin 32) : (selField (.bank i)).toNat = i.val := by
  simp only [selField, BitVec.toNat_ofNat]
  omega

theorem toNat_oscField (k : OscIndex) : (oscField k).toNat = (k == .osc1).toNat := by cases k <;> rfl

theorem code_lt (w : Wave) : w.code.toNat < 8 := by cases w <;> decide

theorem toNat_append_eq_add {m n : ℕ} (x : BitVec m) (y : BitVec n) :
    (x ++ y).toNat = x.toNat * 2 ^ n + y.toNat := by
  rw [BitVec.toNat_append, ← Nat.shiftLeft_add_eq_or_of_lt y.isLt, Nat.shiftLeft_eq]

/-- The word is the sum of its fields, each times its place. -/
theorem Voice.toNat_status (v : Voice) :
    v.status.toNat = (selField v.oscRef.sel).toNat * 2 ^ 25 + (v.oscRef.k == .osc1).toNat * 2 ^ 24 +
      v.cachedType.code.toNat * 2 ^ 16 + (noteByte v.note).toNat * 2 ^ 8 + v.released.toNat * 2 + v.active.toNat := by
  have hcode : (v.cachedType.code.extractLsb' 0 3).toNat = v.cachedType.code.toNat := by cases v.cachedType <;> rfl
  rw [← toNat_oscField, ← hcode]
  simp only [Voice.status, toNat_append_eq_add, BitVec.toNat_ofBool, BitVec.toNat_ofNat]
  omega

/-- No field reaches into the next, so each is read back from its place. -/
theorem Voice.status_places (v : Voice) :
    v.status.toNat / 2 ^ 0 % 2 = v.active.toNat ∧ v.status.toNat / 2 ^ 1 % 2 = v.released.toNat ∧
      v.status.toNat / 2 ^ 2 % 2 ^ 6 = 0 ∧ v.status.toNat / 2 ^ 8 % 2 ^ 8 = (noteByte v.note).toNat ∧
      v.status.toNat / 2 ^ 16 % 2 ^ 3 = v.cachedType.code.toNat ∧ v.status.toNat / 2 ^ 19 % 2 ^ 5 = 0 ∧
      v.status.toNat / 2 ^ 24 % 2 = (v.oscRef.k == .osc1).toNat ∧
      v.status.toNat / 2 ^ 25 % 2 ^ 6 = (selField v.oscRef.sel).toNat ∧
      v.status.toNat / 2 ^ 31 % 2 = false.toNat := by
  have hsel := (selField v.oscRef.sel).isLt
  have hosc := Bool.toNat_le (v.oscRef.k == .osc1)
  have hcode := code_lt v.cachedType
  have hnote := (noteByte v.note).isLt
  have hreleased := Bool.toNat_le v.released
  have hactive := Bool.toNat_le v.active
  rw [v.toNat_status, Bool.toNat_false]
  refine ⟨?_, ?_, ?_, ?_, ?_, ?_, ?_, ?_, ?_⟩ <;> omega

/-! ## Fields by their place -/

theorem getLsbD_eq_of_place {w i : ℕ} {x : BitVec w} {b : Bool} (h : x.toNat / 2 ^ i % 2 = b.toNat) :
    x.getLsbD i = b := by
  rw [BitVec.getLsbD, Nat.testBit_eq_decide_div_mod_eq, h]
  cases b <;> rfl

theorem toNat_extractLsb'_eq {w i len n : ℕ} {x : BitVec w} (h : x.toNat / 2 ^ i % 2 ^ len = n) :
    (x.extractLsb' i len).toNat = n := by
  rw [BitVec.extractLsb'_toNat, Nat.shiftRight_eq_div_pow, h]

/-! ## wavePos -/

theorem Voice.wavePos_inactive {v : Voice} (h : v.active = false) : v.wavePos = 0xBF800000#32 := by
  simp [Voice.wavePos, h]

theorem Voice.wavePos_active {v : Voice} (h : v.active = true) : v.wavePos = v.phase := by
  simp [Voice.wavePos, h]

/-- A legal active voice has a phase from 0.0 on, which -1.0 is not. -/
theorem Voice.wavePos_eq_neg_one_iff {v : Voice} (hv : v.legal) :
    v.wavePos = 0xBF800000#32 ↔ v.active = false := by
  refine ⟨fun h => ?_, Voice.wavePos_inactive⟩
  by_contra hactive
  rw [Bool.not_eq_false] at hactive
  obtain ⟨-, ⟨hphase, -⟩, -⟩ := hv.1 hactive
  rw [← Voice.wavePos_active hactive, h] at hphase
  exact absurd hphase (by decide)

/-- Settles O32: each field of the word is read back from its place, and a legal phase is never -1.0. -/
theorem voiceStatusAndWavePos : Obligations.VoiceStatusAndWavePos := by
  refine ⟨rfl, fun v => ⟨?_, Voice.wavePos_inactive, Voice.wavePos_active, Voice.wavePos_eq_neg_one_iff⟩⟩
  obtain ⟨hactive, hreleased, hgap, hnote, hcode, hgap', hosc, hsel, htop⟩ := v.status_places
  refine ⟨getLsbD_eq_of_place hactive, getLsbD_eq_of_place hreleased,
    BitVec.eq_of_toNat_eq (toNat_extractLsb'_eq hgap), ?_, ?_, BitVec.eq_of_toNat_eq (toNat_extractLsb'_eq hgap'),
    getLsbD_eq_of_place hosc, ?_, getLsbD_eq_of_place htop⟩
  · rw [toNat_extractLsb'_eq hnote]
    cases v.note with
    | none => rfl
    | some n => exact toNat_noteByte_some n
  · rw [toNat_extractLsb'_eq hcode]
    cases v.cachedType <;> rfl
  · rw [toNat_extractLsb'_eq hsel]
    cases v.oscRef.sel with
    | work => rfl
    | bank i => exact toNat_selField_bank i

end Sys2Proof.Machine
end

section
/-! Repeating a BULK_DELIVER or a CFG_WRITE (20_memory.md R109, 44_patch_record.md R343). -/

set_option autoImplicit false

namespace Sys2Proof.Machine

/-! ## Operations that may be repeated -/

/-- Running `f` once more changes the diagnostic registers only, and not even them where the first run did not. -/
def RepeatChangesDiagOnly (f : State → State) : Prop :=
  ∀ s, f (f s) = { f s with diag := (f (f s)).diag } ∧ ((f s).diag = s.diag → (f (f s)).diag = (f s).diag)

theorem repeatChangesDiagOnly_of_idempotent {f : State → State} (h : ∀ s, f (f s) = f s) :
    RepeatChangesDiagOnly f := fun s => by
  rw [h]
  exact ⟨rfl, fun _ => rfl⟩

/-- The counter that an event raises is never what it was, also where it wraps (60_exceptions.md R522). -/
theorem Diag.record_ne (e : Event) (d : Diag) : d.record e ≠ d := by
  intro h
  have hcounts := Diag.mk.inj h
  cases e <;> simp at hcounts

/-- An event after an operation that can be repeated and that neither sees nor writes the diagnostic registers. -/
theorem repeatChangesDiagOnly_event {g : State → State} (e : Event) (hidem : ∀ s, g (g s) = g s)
    (hdiag : ∀ s, (g s).diag = s.diag) (hcomm : ∀ s, g (s.event e) = (g s).event e) :
    RepeatChangesDiagOnly fun s => (g s).event e := fun s => by
  refine ⟨?_, fun hsame => ?_⟩
  · beta_reduce
    rw [hcomm, hidem]
    rfl
  · change (g s).diag.record e = s.diag at hsame
    rw [hdiag] at hsame
    exact absurd hsame (Diag.record_ne e s.diag)

theorem repeatChangesDiagOnly_eventOnly (e : Event) : RepeatChangesDiagOnly (State.event e) :=
  repeatChangesDiagOnly_event (g := id) e (fun _ => rfl) (fun _ => rfl) (fun _ => rfl)

/-! ## The unpack loop (44_patch_record.md R332, R333) -/

/-- The operations on a patch that write the field of one block (44_patch_record.md R333). Stated for any value:
comparing patches with the values that a record gives would compute those. -/
inductive WritesBlock : Block → (Patch → Patch) → Prop
  | name (x : List Byte) : WritesBlock .name fun p => { p with name := x }
  | mix (x : F32) : WritesBlock .mix fun p => { p with mixLevel := x }
  | osc1 (f : Oscillator → Oscillator) (hf : ∀ o, f (f o) = f o) :
    WritesBlock .osc1 fun p => { p with osc0 := f p.osc0 }
  | osc2 (f : Oscillator → Oscillator) (hf : ∀ o, f (f o) = f o) :
    WritesBlock .osc2 fun p => { p with osc1 := f p.osc1 }
  | lfo (w : Wave) (freq depth : F32) :
    WritesBlock .lfo fun p => { p with lfoWave := w, lfoFreq := freq, lfoDepth := depth }
  | mod1 (m : Modulator) : WritesBlock .mod1 fun p => { p with mod0 := m }
  | mod2 (m : Modulator) : WritesBlock .mod2 fun p => { p with mod1 := m }

theorem WritesBlock.idempotent {b : Block} {f : Patch → Patch} (h : WritesBlock b f) (p : Patch) :
    f (f p) = f p := by
  cases h with
  | osc1 f hf | osc2 f hf => simp only [hf]
  | name | mix | lfo | mod1 | mod2 => rfl

/-- Different blocks write different fields of the patch. -/
theorem WritesBlock.comm {b b' : Block} {f g : Patch → Patch} (hf : WritesBlock b f) (hg : WritesBlock b' g)
    (hne : b ≠ b') (p : Patch) : f (g p) = g (f p) := by
  cases hf <;> cases hg
  case name.name | mix.mix | osc1.osc1 | osc2.osc2 | lfo.lfo | mod1.mod1 | mod2.mod2 => exact absurd rfl hne
  all_goals rfl

/-- Unpacking an envelope set overwrites all but MOD, which it keeps. -/
theorem EnvSet.unpack_idempotent (s : EnvSet) (c : List Byte) (i : ℕ) :
    (s.unpack c i).unpack c i = s.unpack c i := by
  unfold EnvSet.unpack
  generalize envAt c i = volume, envAt c (i + 6) = pitch, envAt c (i + 12) = filter, envAt c (i + 18) = pwm
  rfl

theorem Oscillator.unpack_idempotent (o : Oscillator) (c : List Byte) : (o.unpack c).unpack c = o.unpack c := by
  have henv := o.env.unpack_idempotent c 4
  have hlfoEnv := o.lfoEnv.unpack_idempotent c 28
  rw [Oscillator.unpack, Oscillator.unpack, henv, hlfoEnv]

theorem decodeBlock_writesBlock (b : Block) (c : List Byte) : WritesBlock b (decodeBlock b c) := by
  cases b with
  | name => exact .name _
  | mix => exact .mix _
  | osc1 => exact .osc1 (Oscillator.unpack · c) (Oscillator.unpack_idempotent · c)
  | osc2 => exact .osc2 (Oscillator.unpack · c) (Oscillator.unpack_idempotent · c)
  | lfo => exact .lfo _ _ _
  | mod1 => exact .mod1 _
  | mod2 => exact .mod2 _

/-- One round of the loop stops, skips the block or decodes it, whatever the patch is. -/
theorem unpackLoop_cons_cases (e : ℕ) (b : Block) (bs : List Block) (a : ℕ) (pay : List Byte) :
    (∀ p, unpackLoop e (b :: bs) a pay p = (p, a)) ∨
      (∀ p, unpackLoop e (b :: bs) a pay p = unpackLoop e bs a pay p) ∨
      ∀ p, unpackLoop e (b :: bs) a pay p =
        unpackLoop e bs (a + b.len) (pay.drop b.len) (decodeBlock b (pay.take b.len) p) := by
  simp only [unpackLoop]
  split_ifs
  · exact .inl fun _ => rfl
  · exact .inr (.inl fun _ => rfl)
  · exact .inl fun _ => rfl
  · exact .inl fun _ => rfl
  · exact .inr (.inr fun _ => rfl)

/-- Where the loop ends does not depend on the patch. -/
theorem unpackLoop_end_eq (e : ℕ) (bs : List Block) (a : ℕ) (pay : List Byte) (p q : Patch) :
    (unpackLoop e bs a pay p).2 = (unpackLoop e bs a pay q).2 := by
  induction bs generalizing a pay p q with
  | nil => rfl
  | cons b bs ih =>
    obtain h | h | h := unpackLoop_cons_cases e b bs a pay <;> rw [h, h]
    · exact ih ..
    · exact ih ..

/-- A block that the loop does not hold may be decoded before it or after it. -/
theorem decodeBlock_unpackLoop {e : ℕ} {b : Block} {bs : List Block} (hb : b ∉ bs) (c : List Byte) (a : ℕ)
    (pay : List Byte) (p : Patch) :
    decodeBlock b c (unpackLoop e bs a pay p).1 = (unpackLoop e bs a pay (decodeBlock b c p)).1 := by
  induction bs generalizing a pay p with
  | nil => rfl
  | cons b' bs ih =>
    obtain ⟨hne, hrest⟩ := not_or.1 (List.mem_cons.not.1 hb)
    obtain h | h | h := unpackLoop_cons_cases e b' bs a pay <;> rw [h, h]
    · exact ih hrest ..
    · rw [ih hrest, (decodeBlock_writesBlock b c).comm (decodeBlock_writesBlock b' _) hne]

/-- A loop over different blocks, run twice: each block's second decoding moves back to its first. -/
theorem unpackLoop_idempotent (e : ℕ) {bs : List Block} (hbs : bs.Nodup) (a : ℕ) (pay : List Byte) (p : Patch) :
    (unpackLoop e bs a pay (unpackLoop e bs a pay p).1).1 = (unpackLoop e bs a pay p).1 := by
  induction bs generalizing a pay p with
  | nil => rfl
  | cons b bs ih =>
    obtain ⟨hb, hrest⟩ := List.nodup_cons.1 hbs
    obtain h | h | h := unpackLoop_cons_cases e b bs a pay <;> rw [h, h]
    · exact ih hrest ..
    · rw [decodeBlock_unpackLoop hb, (decodeBlock_writesBlock b _).idempotent, ih hrest]

/-! ## BULK_DELIVER -/

/-- `Unpack` without its event: the loop on the working patch (44_patch_record.md R332). -/
def State.unpackBlocks (pay : List Byte) (address size : ℕ) (s : State) : State :=
  s.setWork (unpackLoop (address + size) subBlocks address pay s.work).1

theorem State.unpackBlocks_idempotent (pay : List Byte) (address size : ℕ) (s : State) :
    (s.unpackBlocks pay address size).unpackBlocks pay address size = s.unpackBlocks pay address size :=
  congrArg s.setWork (unpackLoop_idempotent _ (by decide) _ _ _)

/-- Whether bytes are left is the same for every working patch. -/
theorem unpackWork_cases (pay : List Byte) (address size : ℕ) :
    unpackWork pay address size = State.unpackBlocks pay address size ∨
      unpackWork pay address size = fun s => (s.unpackBlocks pay address size).event .unpackStopped := by
  have hend (s : State) := unpackLoop_end_eq (address + size) subBlocks address pay s.work .default
  by_cases h : (unpackLoop (address + size) subBlocks address pay .default).2 = address + size
  · exact .inl (funext fun s => if_pos ((hend s).trans h))
  · exact .inr (funext fun s => if_neg ((hend s).trans_ne h))

theorem unpackWork_repeatChangesDiagOnly (pay : List Byte) (address size : ℕ) :
    RepeatChangesDiagOnly (unpackWork pay address size) := by
  have hidem := State.unpackBlocks_idempotent pay address size
  obtain h | h := unpackWork_cases pay address size <;> rw [h]
  · exact repeatChangesDiagOnly_of_idempotent hidem
  · exact repeatChangesDiagOnly_event _ hidem (fun _ => rfl) (fun _ => rfl)

theorem exec_bulkDeliver_repeat (addr : BitVec 14) (payload : List Byte) :
    ∃ f, RepeatChangesDiagOnly f ∧ ∀ s, exec (.bulkDeliver addr payload) s = .next (f s) := by
  by_cases h : bulkInRange addr.toNat payload.length = true
  · exact ⟨_, unpackWork_repeatChangesDiagOnly payload addr.toNat payload.length, fun s => if_pos h⟩
  · exact ⟨_, repeatChangesDiagOnly_eventOnly .bulkRange, fun s => if_neg h⟩

/-! ## CFG_WRITE -/

theorem storeF32Reg_idempotent (addr : Byte) (y : F32) (s : State) :
    storeF32Reg addr y (storeF32Reg addr y s) = storeF32Reg addr y s := by
  unfold storeF32Reg
  split_ifs <;> rfl

theorem writeReg_repeatChangesDiagOnly (addr : Byte) (d : Word) : RepeatChangesDiagOnly (State.writeReg addr d) := by
  by_cases hkind : addr = 0x01
  · rw [hkind, funext (writeReg_filterKind d)]
    split_ifs
    · exact repeatChangesDiagOnly_of_idempotent fun _ => rfl
    · exact repeatChangesDiagOnly_of_idempotent fun _ => rfl
    · exact repeatChangesDiagOnly_eventOnly _
  · cases hrange : writeRange addr with
    | none =>
      rw [funext (writeReg_of_no_range hkind hrange d)]
      exact repeatChangesDiagOnly_eventOnly _
    | some range =>
      rw [funext (writeReg_of_range hrange d)]
      split_ifs
      · exact repeatChangesDiagOnly_of_idempotent (storeF32Reg_idempotent addr _)
      · exact repeatChangesDiagOnly_eventOnly _

theorem exec_cfgWrite_repeat (addr : Byte) (d : Word) :
    ∃ f, RepeatChangesDiagOnly f ∧ ∀ s, exec (.cfgWrite addr d) s = .next (f s) :=
  ⟨_, writeReg_repeatChangesDiagOnly addr d, fun _ => rfl⟩

/-- Settles O29: the blocks of a record write different fields, a register write stores the same value again, and
an event always changes a counter. -/
theorem repeatedWritesAreIdempotent : Obligations.RepeatedWritesAreIdempotent := by
  intro i s hi
  have hrepeat : ∃ f, RepeatChangesDiagOnly f ∧ ∀ s, exec i s = .next (f s) := by
    obtain ⟨addr, payload, rfl⟩ | ⟨addr, d, rfl⟩ := hi
    · exact exec_bulkDeliver_repeat addr payload
    · exact exec_cfgWrite_repeat addr d
  obtain ⟨f, hf, hexec⟩ := hrepeat
  exact ⟨f s, f (f s), hexec s, hexec (f s), hf s⟩

end Sys2Proof.Machine
end

section
/-! The fields of messages and frames: what is written is read back, and their values as numbers (30_encoding.md R141,
R143; 20_memory.md R104). -/

namespace Sys2Proof

/-! ## Reading back what was written -/

/-- The two parts of a word, put together again. -/
theorem extractLsb'_append_low {m n : ℕ} (v : BitVec (m + n)) : v.extractLsb' n m ++ v.extractLsb' 0 n = v :=
  (BitVec.extractLsb'_append_extractLsb'_eq_extractLsb' (Nat.zero_add n).symm).trans BitVec.extractLsb'_eq_self

@[simp] theorem statusNibble_status (n c : BitVec 4) : statusNibble (status n c) = n :=
  BitVec.extractLsb'_append_eq_left

theorem exists_status (b : Byte) : ∃ n c, b = status n c :=
  ⟨_, _, (extractLsb'_append_low (m := 4) (n := 4) b).symm⟩

@[simp] theorem data7_byte7 (v : BitVec 7) : data7 (byte7 v) = v :=
  (BitVec.extractLsb'_setWidth_of_le (by decide)).trans BitVec.extractLsb'_eq_self

@[simp] theorem data14_lo7_hi7 (v : BitVec 14) : data14 (lo7 v) (hi7 v) = v :=
  (congrArg₂ (· ++ ·) (data7_byte7 _) (data7_byte7 _)).trans (extractLsb'_append_low (m := 7) (n := 7) v)

@[simp] theorem le16_byteOf (v : BitVec 16) : le16 (byteOf v 0) (byteOf v 1) = v :=
  extractLsb'_append_low (m := 8) (n := 8) v

@[simp] theorem le32_byteOf (v : Word) : le32 (byteOf v 0) (byteOf v 1) (byteOf v 2) (byteOf v 3) = v := by
  have hmerge (k len : ℕ) : v.extractLsb' (k + 8) len ++ v.extractLsb' k 8 = v.extractLsb' k (len + 8) :=
    BitVec.extractLsb'_append_extractLsb'_eq_extractLsb' rfl
  calc le32 (byteOf v 0) (byteOf v 1) (byteOf v 2) (byteOf v 3)
    _ = v.extractLsb' 16 16 ++ v.extractLsb' 8 8 ++ v.extractLsb' 0 8 :=
      congrArg (· ++ v.extractLsb' 8 8 ++ v.extractLsb' 0 8) (hmerge 16 8)
    _ = v.extractLsb' 8 24 ++ v.extractLsb' 0 8 := congrArg (· ++ v.extractLsb' 0 8) (hmerge 8 16)
    _ = v := extractLsb'_append_low (m := 24) (n := 8) v

/-! ## Fields as numbers -/

open Machine (toNat_append_eq_add)

theorem data7_eq (b : Byte) : data7 b = BitVec.ofNat 7 (b.toNat % 128) := by
  apply BitVec.eq_of_toNat_eq
  simp [data7]

theorem data14_eq (lo hi : Byte) :
    data14 lo hi = BitVec.ofNat 14 (lo.toNat % 128 + 128 * (hi.toNat % 128)) := by
  apply BitVec.eq_of_toNat_eq
  simp only [data14, data7_eq, toNat_append_eq_add, BitVec.toNat_ofNat]
  omega

theorem le16_eq (b0 b1 : Byte) : le16 b0 b1 = BitVec.ofNat 16 (b0.toNat + 2 ^ 8 * b1.toNat) := by
  apply BitVec.eq_of_toNat_eq
  simp only [le16, toNat_append_eq_add, BitVec.toNat_ofNat]
  omega

theorem le32_eq (b0 b1 b2 b3 : Byte) :
    le32 b0 b1 b2 b3 =
      BitVec.ofNat 32 (b0.toNat + 2 ^ 8 * b1.toNat + 2 ^ 16 * b2.toNat + 2 ^ 24 * b3.toNat) := by
  apply BitVec.eq_of_toNat_eq
  simp only [le32, toNat_append_eq_add, BitVec.toNat_ofNat]
  omega

/-- A data byte names the controller `c`. -/
theorem data7_eq_iff (b : Byte) (c : BitVec 7) : data7 b = c ↔ b.toNat % 128 = c.toNat := by
  rw [data7_eq, ← BitVec.toNat_inj, BitVec.toNat_ofNat, Nat.mod_mod]

end Sys2Proof
end

section
/-! What a control message decodes to: an equation for each class of status byte, and when the message is too short or
unknown (30_encoding.md R141 to R146; 60_exceptions.md R523). -/

namespace Sys2Proof

/-! ## Status bytes -/

/-- The classes of status bytes that 30_encoding.md R142 and R146 tell apart. -/
inductive StatusClass : Byte → Prop where
  | noteOff (c : BitVec 4) : StatusClass (status 0x8#4 c)
  | noteOn (c : BitVec 4) : StatusClass (status 0x9#4 c)
  | controller (c : BitVec 4) : StatusClass (status 0xB#4 c)
  | patchSelect (c : BitVec 4) : StatusClass (status 0xC#4 c)
  | pitchBend (c : BitVec 4) : StatusClass (status 0xE#4 c)
  | bulk : StatusClass 0xF0#8
  | unassigned {b : Byte} (h : isAssignedStatus b = false) : StatusClass b

theorem assignedNibble_or_unassigned (n : BitVec 4) (hn : n ≠ 0xF#4) :
    n = 0x8#4 ∨ n = 0x9#4 ∨ n = 0xB#4 ∨ n = 0xC#4 ∨ n = 0xE#4 ∨ ∀ c, isAssignedStatus (status n c) = false := by
  revert n
  decide

theorem isAssignedStatus_nibbleF (c : BitVec 4) (hc : c ≠ 0#4) : isAssignedStatus (status 0xF#4 c) = false := by
  revert c
  decide

theorem statusClass (b : Byte) : StatusClass b := by
  obtain ⟨n, c, rfl⟩ := exists_status b
  by_cases hn : n = 0xF#4
  · subst hn
    by_cases hc : c = 0#4
    · subst hc
      exact .bulk
    · exact .unassigned (isAssignedStatus_nibbleF c hc)
  · obtain rfl | rfl | rfl | rfl | rfl | h := assignedNibble_or_unassigned n hn
    · exact .noteOff c
    · exact .noteOn c
    · exact .controller c
    · exact .patchSelect c
    · exact .pitchBend c
    · exact .unassigned (h c)

@[simp] theorem status_ne_bulk {n : BitVec 4} (hn : n ≠ 0xF#4) (c : BitVec 4) : status n c ≠ 0xF0#8 := fun h =>
  hn ((statusNibble_status n c).symm.trans (congrArg statusNibble h))

/-! ## Controllers (30_encoding.md R144) -/

theorem routedController_cutoff {c : BitVec 7} (h : isCutoffController c = true) (v : BitVec 7) :
    routedController c v = .ccCutoff c v := if_pos h

theorem routedController_wf (c v : BitVec 7) : (routedController c v).wf = true := by
  unfold routedController
  split_ifs with hcutoff
  · exact hcutoff
  · rfl
  · rfl

theorem isRouted_of_isCutoffController {c : BitVec 7} (h : isCutoffController c = true) : isRouted c = true := by
  simp [isRouted, h]

theorem decodeController_ignored (b0 : Byte) {b1 : Byte} (h : isRouted (data7 b1) = false) (more : List Byte) :
    decodeController b0 (b1 :: more) = .ccOther (data7 b1) := by
  simp [decodeController, h]

theorem decodeController_routed (b0 : Byte) {b1 : Byte} (h : isRouted (data7 b1) = true) (b2 : Byte)
    (more : List Byte) :
    decodeController b0 (b1 :: b2 :: more) = routedController (data7 b1) (data7 b2) := by
  simp [decodeController, h]

theorem decodeController_short (b0 : Byte) {b1 : Byte} (h : isRouted (data7 b1) = true) :
    decodeController b0 [b1] = .msgTooShort [b0, b1] := by
  simp [decodeController, h]

/-! ## Bulk messages (30_encoding.md R145) -/

theorem decodeBulk_unknown (b0 : Byte) {c : Byte} (h : isBulkCommand c = false) (more : List Byte) :
    decodeBulk b0 (c :: more) = .ctrlUnknown (b0 :: c :: more) := by
  simp [decodeBulk, h]

theorem decodeBulk_request (b0 a0 a1 s0 s1 : Byte) (rest : List Byte) :
    decodeBulk b0 (0x01#8 :: a0 :: a1 :: s0 :: s1 :: rest) = .bulkRequest (data14 a0 a1) (data14 s0 s1) := rfl

theorem decodeBulk_deliver (b0 a0 a1 : Byte) {s0 s1 : Byte} {payload : List Byte}
    (h : (data14 s0 s1).toNat ≤ payload.length) :
    decodeBulk b0 (0x02#8 :: a0 :: a1 :: s0 :: s1 :: payload) =
      .bulkDeliver (data14 a0 a1) (payload.take (data14 s0 s1).toNat) :=
  if_neg (Nat.not_lt.2 h)

theorem decodeBulk_deliver_short (b0 a0 a1 : Byte) {s0 s1 : Byte} {payload : List Byte}
    (h : payload.length < (data14 s0 s1).toNat) :
    decodeBulk b0 (0x02#8 :: a0 :: a1 :: s0 :: s1 :: payload) =
      .msgTooShort (b0 :: 0x02#8 :: a0 :: a1 :: s0 :: s1 :: payload) :=
  if_pos h

/-! ## Equations by status byte -/

theorem decodeControl_noteOff (c : BitVec 4) (b1 : Byte) (rest : List Byte) :
    decodeControl (status 0x8#4 c :: b1 :: rest) = .noteOff (data7 b1) := by
  simp [decodeControl]

theorem decodeControl_noteOn (c : BitVec 4) (b1 b2 : Byte) (rest : List Byte) :
    decodeControl (status 0x9#4 c :: b1 :: b2 :: rest) = .noteOn (data7 b1) (data7 b2) := by
  simp [decodeControl]

theorem decodeControl_controller (c : BitVec 4) (rest : List Byte) :
    decodeControl (status 0xB#4 c :: rest) = decodeController (status 0xB#4 c) rest := by
  simp [decodeControl]

theorem decodeControl_patchSelect (c : BitVec 4) (b1 : Byte) (rest : List Byte) :
    decodeControl (status 0xC#4 c :: b1 :: rest) = .patchSelect (data7 b1) := by
  simp [decodeControl]

theorem decodeControl_pitchBend (c : BitVec 4) (b1 b2 : Byte) (rest : List Byte) :
    decodeControl (status 0xE#4 c :: b1 :: b2 :: rest) = .pitchBend (data14 b1 b2) := by
  simp [decodeControl]

theorem decodeControl_bulk (rest : List Byte) : decodeControl (0xF0#8 :: rest) = decodeBulk 0xF0#8 rest := rfl

theorem decodeControl_unassigned {b : Byte} (h : isAssignedStatus b = false) (rest : List Byte) :
    decodeControl (b :: rest) = .ctrlUnknown (b :: rest) := by
  simp only [isAssignedStatus, Bool.or_eq_false_iff] at h
  simp only [decodeControl, h, Bool.false_eq_true, if_false]

/-! ## Short and unknown messages -/

/-- What the decoder makes of a control message, against the checks of `Instr.wf`. -/
inductive ControlReading (msg : List Byte) : Prop where
  | short (hshort : isShortMessage msg = true) (hunknown : isUnknownMessage msg = false)
      (hdecode : decodeControl msg = .msgTooShort msg)
  | unknown (hshort : isShortMessage msg = false) (hunknown : isUnknownMessage msg = true)
      (hdecode : decodeControl msg = .ctrlUnknown msg)
  | operation (hshort : isShortMessage msg = false) (hunknown : isUnknownMessage msg = false)
      (hwf : (decodeControl msg).wf = true)

theorem isAssignedStatus_status :
    ∀ n ∈ [0x8#4, 0x9#4, 0xB#4, 0xC#4, 0xE#4], ∀ c, isAssignedStatus (status n c) = true := by
  decide

theorem isUnknownMessage_status {n : BitVec 4} (hn : n ∈ [0x8#4, 0x9#4, 0xB#4, 0xC#4, 0xE#4]) (c : BitVec 4)
    (rest : List Byte) : isUnknownMessage (status n c :: rest) = false := by
  have hne : n ≠ 0xF#4 := ne_of_mem_of_not_mem hn (by decide)
  simp [isUnknownMessage, isAssignedStatus_status n hn, hne]

/-- NOTE_OFF and PATCH_SELECT take one data byte. -/
theorem controlReading_oneByte {n : BitVec 4} (hn : n = 0x8#4 ∨ n = 0xC#4) (c : BitVec 4) (rest : List Byte) :
    ControlReading (status n c :: rest) := by
  have hknown := isUnknownMessage_status (n := n) (by obtain rfl | rfl := hn <;> decide) c rest
  cases rest with
  | nil => obtain rfl | rfl := hn <;> exact .short (by simp [isShortMessage]) hknown (by simp [decodeControl])
  | cons b1 rest =>
    obtain rfl | rfl := hn <;>
      exact .operation (by simp [isShortMessage]) hknown (by simp [decodeControl, Instr.wf])

/-- NOTE_ON and PITCH_BEND take two data bytes. -/
theorem controlReading_twoBytes {n : BitVec 4} (hn : n = 0x9#4 ∨ n = 0xE#4) (c : BitVec 4) (rest : List Byte) :
    ControlReading (status n c :: rest) := by
  have hknown := isUnknownMessage_status (n := n) (by obtain rfl | rfl := hn <;> decide) c rest
  match rest with
  | [] | [_] => obtain rfl | rfl := hn <;> exact .short (by simp [isShortMessage]) hknown (by simp [decodeControl])
  | b1 :: b2 :: rest =>
    obtain rfl | rfl := hn <;>
      exact .operation (by simp [isShortMessage]) hknown (by simp [decodeControl, Instr.wf])

theorem controlReading_controller (c : BitVec 4) (rest : List Byte) : ControlReading (status 0xB#4 c :: rest) := by
  have hknown := isUnknownMessage_status (n := 0xB#4) (by decide) c rest
  have hdecode := decodeControl_controller c rest
  match rest with
  | [] => exact .short (by simp [isShortMessage]) hknown hdecode
  | b1 :: more =>
    cases hrouted : isRouted (data7 b1) with
    | false =>
      rw [decodeController_ignored _ hrouted] at hdecode
      exact .operation (by simp +contextual [isShortMessage, hrouted]) hknown (by simp [hdecode, Instr.wf, hrouted])
    | true =>
      match more with
      | [] =>
        exact .short (by simp [isShortMessage, hrouted]) hknown
          (hdecode.trans (decodeController_short _ hrouted))
      | b2 :: _ =>
        rw [decodeController_routed _ hrouted] at hdecode
        exact .operation (by simp [isShortMessage]) hknown (by rw [hdecode]; exact routedController_wf _ _)

theorem isShortMessage_bulk (rest : List Byte) : isShortMessage (0xF0#8 :: rest) = isShortBulk rest := rfl

theorem isUnknownMessage_bulk (c : Byte) (more : List Byte) :
    isUnknownMessage (0xF0#8 :: c :: more) = !isBulkCommand c := by
  simp [isUnknownMessage, isAssignedStatus]

theorem controlReading_bulk (rest : List Byte) : ControlReading (0xF0#8 :: rest) := by
  match rest with
  | [] => exact .short rfl rfl rfl
  | c :: more =>
    cases hc : isBulkCommand c with
    | false =>
      exact .unknown (by simp [isShortMessage_bulk, isShortBulk, hc]) (by simp [isUnknownMessage_bulk, hc])
        (decodeBulk_unknown _ hc more)
    | true =>
      have hknown : isUnknownMessage (0xF0#8 :: c :: more) = false := by simp [isUnknownMessage_bulk, hc]
      match more with
      | [] | [_] | [_, _] | [_, _, _] =>
        exact .short (by simp [isShortMessage_bulk, isShortBulk, hc]) hknown
          (by simp [decodeControl_bulk, decodeBulk, hc])
      | a0 :: a1 :: s0 :: s1 :: payload =>
        obtain rfl | rfl : c = 0x01#8 ∨ c = 0x02#8 := by simpa [isBulkCommand] using hc
        · exact .operation (by simp [isShortMessage_bulk, isShortBulk]) hknown rfl
        · by_cases hlen : payload.length < (data14 s0 s1).toNat
          · exact .short (by simp [isShortMessage_bulk, isShortBulk, hc, hlen]) hknown
              (decodeBulk_deliver_short _ a0 a1 hlen)
          · have hdecode := decodeBulk_deliver 0xF0#8 a0 a1 (Nat.not_lt.1 hlen)
            refine .operation (by simp [isShortMessage_bulk, isShortBulk, hlen]) hknown ?_
            rw [decodeControl_bulk, hdecode]
            have hsize := (data14 s0 s1).isLt
            simp only [Instr.wf, List.length_take, decide_eq_true_eq]
            omega

theorem controlReading_unassigned {b : Byte} (h : isAssignedStatus b = false) (rest : List Byte) :
    ControlReading (b :: rest) := by
  refine .unknown ?_ (by simp [isUnknownMessage, h]) (decodeControl_unassigned h rest)
  simp only [isAssignedStatus, Bool.or_eq_false_iff] at h
  simp only [isShortMessage, h, Bool.or_self, Bool.false_eq_true, if_false]

theorem controlReading (msg : List Byte) : ControlReading msg := by
  cases msg with
  | nil => exact .short rfl rfl rfl
  | cons b rest =>
    cases statusClass b with
    | noteOff c => exact controlReading_oneByte (.inl rfl) c rest
    | noteOn c => exact controlReading_twoBytes (.inl rfl) c rest
    | controller c => exact controlReading_controller c rest
    | patchSelect c => exact controlReading_oneByte (.inr rfl) c rest
    | pitchBend c => exact controlReading_twoBytes (.inr rfl) c rest
    | bulk => exact controlReading_bulk rest
    | unassigned h => exact controlReading_unassigned h rest

end Sys2Proof
end

section
/-! What a host frame decodes to, and when it performs nothing (30_encoding.md R160, R161). -/

namespace Sys2Proof

/-- What the decoder makes of a host frame, against the check of `Instr.wf`. -/
inductive HostReading (frame : List Byte) : Prop where
  | bad (hbad : isBadFrame frame = true) (hdecode : decodeHost frame = .hostUnknown frame)
  | operation (hbad : isBadFrame frame = false) (hwf : (decodeHost frame).wf = true)

theorem opcode_assigned_or_unassigned (b0 : Byte) :
    b0 = 0x01#8 ∨ b0 = 0x02#8 ∨ b0 = 0x03#8 ∨ b0 = 0x04#8 ∨ b0 = 0x05#8 ∨ b0 = 0x06#8 ∨ b0 = 0x07#8 ∨
      hostMinLength b0 = none := by
  revert b0
  decide

/-- A frame of an assigned opcode is bad where it is too short. -/
theorem isBadFrame_cons {b0 : Byte} {least : ℕ} (h : hostMinLength b0 = some least) (rest : List Byte) :
    isBadFrame (b0 :: rest) = decide (rest.length + 1 < least) := by
  simp [isBadFrame, h]

theorem hostReading_fill (rest : List Byte) : HostReading (0x01#8 :: rest) := by
  match rest with
  | [] | [_] | [_, _] | [_, _, _] | [_, _, _, _] | [_, _, _, _, _] => exact .bad rfl rfl
  | _ :: _ :: _ :: _ :: _ :: _ :: _ => exact .operation (by simp [isBadFrame_cons (b0 := 0x01#8) rfl]) rfl

theorem hostReading_update (rest : List Byte) : HostReading (0x02#8 :: rest) := by
  match rest with
  | [] | [_] | [_, _] | [_, _, _] => exact .bad rfl rfl
  | _ :: _ :: _ :: _ :: _ => exact .operation (by simp [isBadFrame_cons (b0 := 0x02#8) rfl]) rfl

theorem hostReading_store (rest : List Byte) : HostReading (0x03#8 :: rest) := by
  match rest with
  | [] => exact .bad rfl rfl
  | _ :: _ => exact .operation (by simp [isBadFrame_cons (b0 := 0x03#8) rfl]) rfl

theorem hostReading_cfgWrite (rest : List Byte) : HostReading (0x04#8 :: rest) := by
  match rest with
  | [] | [_] | [_, _] | [_, _, _] | [_, _, _, _] => exact .bad rfl rfl
  | _ :: _ :: _ :: _ :: _ :: _ => exact .operation (by simp [isBadFrame_cons (b0 := 0x04#8) rfl]) rfl

theorem hostReading_cfgRead (rest : List Byte) : HostReading (0x05#8 :: rest) := by
  match rest with
  | [] => exact .bad rfl rfl
  | _ :: _ => exact .operation (by simp [isBadFrame_cons (b0 := 0x05#8) rfl]) rfl

theorem hostReading_reset (rest : List Byte) : HostReading (0x06#8 :: rest) :=
  .operation (by simp [isBadFrame_cons (b0 := 0x06#8) rfl]) rfl

theorem hostReading_noteOnEx (rest : List Byte) : HostReading (0x07#8 :: rest) := by
  match rest with
  | [] | [_] | [_, _] => exact .bad rfl rfl
  | _ :: _ :: _ :: _ => exact .operation (by simp [isBadFrame_cons (b0 := 0x07#8) rfl]) rfl

theorem hostReading_unassigned {b0 : Byte} (h : hostMinLength b0 = none) (rest : List Byte) :
    HostReading (b0 :: rest) := by
  refine .bad (by simp [isBadFrame, h]) ?_
  unfold hostMinLength at h
  split_ifs at h with h1 h2 h3 h4 h5 h6 h7
  simp only [decodeHost, h1, h2, h3, h4, h5, h6, h7, if_false, Bool.false_eq_true]

theorem hostReading (frame : List Byte) : HostReading frame := by
  cases frame with
  | nil => exact .bad rfl rfl
  | cons b0 rest =>
    obtain rfl | rfl | rfl | rfl | rfl | rfl | rfl | h := opcode_assigned_or_unassigned b0
    · exact hostReading_fill rest
    · exact hostReading_update rest
    · exact hostReading_store rest
    · exact hostReading_cfgWrite rest
    · exact hostReading_cfgRead rest
    · exact hostReading_reset rest
    · exact hostReading_noteOnEx rest
    · exact hostReading_unassigned h rest

end Sys2Proof
end

section
/-! Decoding and encoding agree, and what decoding does not depend on (30_encoding.md R141 to R164). -/

namespace Sys2Proof

open Machine (exec State)

/-! ## Ill-formed input decodes to itself -/

theorem decodeControl_of_isShortMessage {msg : List Byte} (h : isShortMessage msg = true) :
    decodeControl msg = .msgTooShort msg := by
  cases controlReading msg with
  | short _ _ hdecode => exact hdecode
  | unknown hshort | operation hshort => simp [hshort] at h

theorem decodeControl_of_isUnknownMessage {msg : List Byte} (h : isUnknownMessage msg = true) :
    decodeControl msg = .ctrlUnknown msg := by
  cases controlReading msg with
  | unknown _ _ hdecode => exact hdecode
  | short _ hunknown | operation _ hunknown => simp [hunknown] at h

theorem decodeHost_of_isBadFrame {frame : List Byte} (h : isBadFrame frame = true) :
    decodeHost frame = .hostUnknown frame := by
  cases hostReading frame with
  | bad _ hdecode => exact hdecode
  | operation hbad => simp [hbad] at h

/-! ## Well-formedness -/

theorem decodeControl_wf (msg : List Byte) : (decodeControl msg).wf = true := by
  cases controlReading msg with
  | short hshort _ hdecode => rw [hdecode]; exact hshort
  | unknown _ hunknown hdecode => rw [hdecode]; exact hunknown
  | operation _ _ hwf => exact hwf

theorem decodeHost_wf (frame : List Byte) : (decodeHost frame).wf = true := by
  cases hostReading frame with
  | bad hbad hdecode => rw [hdecode]; exact hbad
  | operation _ hwf => exact hwf

/-- Settles O3: `controlReading` and `hostReading` say of every input which instruction it is. -/
theorem decodeGivesWellFormed : Obligations.DecodeGivesWellFormed := by
  intro m
  cases m with
  | control bytes => exact decodeControl_wf bytes
  | host bytes => exact decodeHost_wf bytes

/-! ## The round trip -/

theorem decode_bulkDeliver_encoding (addr : BitVec 14) {payload : List Byte} (h : payload.length < 16384) :
    decode (.control (bulkHeader 0x02 addr (BitVec.ofNat 14 payload.length) ++ payload)) =
      .bulkDeliver addr payload := by
  have hsize : (data14 (lo7 (BitVec.ofNat 14 payload.length)) (hi7 (BitVec.ofNat 14 payload.length))).toNat =
      payload.length := by
    rw [data14_lo7_hi7, BitVec.toNat_ofNat, Nat.mod_eq_of_lt h]
  have hdeliver := decodeBulk_deliver 0xF0 (lo7 addr) (hi7 addr) hsize.le
  rw [data14_lo7_hi7, hsize, List.take_length] at hdeliver
  exact hdeliver

theorem decodeControl_routed_encoding (channel : BitVec 4) {c : BitVec 7} (h : isRouted c = true) (v : BitVec 7) :
    decodeControl [status 0xB#4 channel, byte7 c, byte7 v] = routedController c v := by
  rw [decodeControl_controller, decodeController_routed _ (by rwa [data7_byte7]), data7_byte7, data7_byte7]

/-- Settles O2: the fields of the encoding read back, and an input that performs nothing decodes to itself. -/
theorem decodeEncodeRoundTrip : Obligations.DecodeEncodeRoundTrip := by
  intro channel i hwf
  cases i with
  | noteOff note => simp [decode, encodeOn, decodeControl_noteOff]
  | noteOn note velocity => simp [decode, encodeOn, decodeControl_noteOn]
  | ccCutoff c v =>
    exact (decodeControl_routed_encoding channel (isRouted_of_isCutoffController hwf) v).trans
      (routedController_cutoff hwf v)
  | ccReverb v => exact decodeControl_routed_encoding channel (c := Config.ccReverb) rfl v
  | ccPatch v => exact decodeControl_routed_encoding channel (c := Config.ccPatch) rfl v
  | ccOther c =>
    have hignored : isRouted (data7 (byte7 c)) = false := by
      rw [data7_byte7]; simpa [Instr.wf] using hwf
    simp [decode, encodeOn, decodeControl_controller, decodeController_ignored _ hignored]
  | patchSelect index => simp [decode, encodeOn, decodeControl_patchSelect]
  | pitchBend bend => simp [decode, encodeOn, decodeControl_pitchBend]
  | bulkRequest addr size => simp [decode, encodeOn, bulkHeader, decodeControl_bulk, decodeBulk_request]
  | bulkDeliver addr payload => exact decode_bulkDeliver_encoding addr (by simpa [Instr.wf] using hwf)
  | ctrlUnknown msg => exact decodeControl_of_isUnknownMessage hwf
  | msgTooShort msg => exact decodeControl_of_isShortMessage hwf
  | fill n sr => simp [decode, encodeOn, bytes32, decodeHost]
  | update deltaMs => simp [decode, encodeOn, bytes32, decodeHost]
  | store index => rfl
  | cfgWrite addr d => simp [decode, encodeOn, bytes32, decodeHost]
  | cfgRead addr => rfl
  | reset => rfl
  | noteOnEx p note velocity => simp [decode, encodeOn, decodeHost]
  | hostUnknown frame => exact decodeHost_of_isBadFrame hwf

/-! ## Operands byte by byte -/

theorem isRouted_data7_iff (b1 : Byte) :
    isRouted (data7 b1) = true ↔
      ((b1.toNat % 128 = 1 ∨ b1.toNat % 128 = 74) ∨ b1.toNat % 128 = 91) ∨ b1.toNat % 128 = 0 := by
  simp [isRouted, isCutoffController, data7_eq_iff]

theorem routedController_data7 (b1 : Byte) (v : BitVec 7) :
    routedController (data7 b1) v =
      if b1.toNat % 128 = 1 ∨ b1.toNat % 128 = 74 then .ccCutoff (data7 b1) v
      else if b1.toNat % 128 = 91 then .ccReverb v
      else .ccPatch v := by
  simp [routedController, isCutoffController, data7_eq_iff]

/-- A whole CC message, by the number of its controller (30_encoding.md R144). -/
theorem decodeController_data7 (b0 b1 b2 : Byte) (rest : List Byte) :
    decodeController b0 (b1 :: b2 :: rest) =
      if b1.toNat % 128 = 1 ∨ b1.toNat % 128 = 74 then .ccCutoff (data7 b1) (data7 b2)
      else if b1.toNat % 128 = 91 then .ccReverb (data7 b2)
      else if b1.toNat % 128 = 0 then .ccPatch (data7 b2)
      else .ccOther (data7 b1) := by
  cases hrouted : isRouted (data7 b1) with
  | true =>
    rw [decodeController_routed _ hrouted, routedController_data7]
    obtain (hcutoff | hreverb) | hpatch := (isRouted_data7_iff b1).1 hrouted
    · rw [if_pos hcutoff, if_pos hcutoff]
    · simp [hreverb]
    · simp [hpatch]
  | false =>
    rw [decodeController_ignored _ hrouted]
    rw [← Bool.not_eq_true, isRouted_data7_iff, not_or, not_or] at hrouted
    obtain ⟨⟨hcutoff, hreverb⟩, hpatch⟩ := hrouted
    rw [if_neg hcutoff, if_neg hreverb, if_neg hpatch]

/-- Settles O4: the equation of each operation, with its fields read as numbers. -/
theorem decodeAssemblesOperands : Obligations.DecodeAssemblesOperands := by
  intro c b1 b2 b3 b4 b5 b6 rest low7 pair word
  have hlow7 (b : Byte) : low7 b = data7 b := (data7_eq b).symm
  have hpair (lo hi : Byte) : pair lo hi = data14 lo hi := (data14_eq lo hi).symm
  have hword (w x y z : Byte) : word w x y z = le32 w x y z := (le32_eq w x y z).symm
  simp only [hlow7, hpair, hword, ← le16_eq]
  exact ⟨decodeControl_noteOff c b1 rest, decodeControl_noteOn c b1 b2 rest,
    (decodeControl_controller c _).trans (decodeController_data7 _ b1 b2 rest),
    decodeControl_patchSelect c b1 rest, decodeControl_pitchBend c b1 b2 rest,
    decodeBulk_request 0xF0 b2 b3 b4 b5 rest, decodeBulk_deliver 0xF0 b2 b3,
    rfl, rfl, rfl, rfl, rfl, rfl, rfl⟩

/-- Settles O1: each word evaluates to its instruction. -/
theorem decodeSampleWords : Obligations.DecodeSampleWords := by
  unfold Obligations.DecodeSampleWords
  decide

/-! ## The channel -/

/-- The status byte reaches only the bytes that a short CC message keeps, and those have no effect. -/
theorem exec_decodeController_status (b b' : Byte) (rest : List Byte) (s : State) :
    exec (decodeController b rest) s = exec (decodeController b' rest) s := by
  match rest with
  | [] => rfl
  | b1 :: more =>
    cases hrouted : isRouted (data7 b1) with
    | false => rw [decodeController_ignored b hrouted, decodeController_ignored b' hrouted]
    | true =>
      match more with
      | [] =>
        rw [decodeController_short b hrouted, decodeController_short b' hrouted]
        rfl
      | b2 :: _ => rw [decodeController_routed b hrouted, decodeController_routed b' hrouted]

theorem exec_decodeControl_short {n : BitVec 4} {rest : List Byte}
    (h : ∀ c, isShortMessage (status n c :: rest) = true) (c d : BitVec 4) (s : State) :
    exec (decodeControl (status n c :: rest)) s = exec (decodeControl (status n d :: rest)) s := by
  rw [decodeControl_of_isShortMessage (h c), decodeControl_of_isShortMessage (h d)]
  rfl

/-- Settles O5: messages of one class differ at most in the bytes that an input without effect keeps. -/
theorem channelNibbleSelectsNothing : Obligations.ChannelNibbleSelectsNothing := by
  intro n c d rest s hn
  change exec (decodeControl (status n c :: rest)) s = exec (decodeControl (status n d :: rest)) s
  obtain rfl | rfl | rfl | rfl | rfl | hunassigned := assignedNibble_or_unassigned n hn
  · cases rest with
    | nil => exact exec_decodeControl_short (fun _ => by simp [isShortMessage]) c d s
    | cons b1 rest => rw [decodeControl_noteOff, decodeControl_noteOff]
  · match rest with
    | [] | [_] => exact exec_decodeControl_short (fun _ => by simp [isShortMessage]) c d s
    | b1 :: b2 :: rest => rw [decodeControl_noteOn, decodeControl_noteOn]
  · rw [decodeControl_controller, decodeControl_controller]
    exact exec_decodeController_status _ _ rest s
  · cases rest with
    | nil => exact exec_decodeControl_short (fun _ => by simp [isShortMessage]) c d s
    | cons b1 rest => rw [decodeControl_patchSelect, decodeControl_patchSelect]
  · match rest with
    | [] | [_] => exact exec_decodeControl_short (fun _ => by simp [isShortMessage]) c d s
    | b1 :: b2 :: rest => rw [decodeControl_pitchBend, decodeControl_pitchBend]
  · rw [decodeControl_unassigned (hunassigned c), decodeControl_unassigned (hunassigned d)]
    rfl

end Sys2Proof
end

section
/-! How far rounding moves a number, and results that need no rounding. -/

set_option autoImplicit false

namespace Sys2Proof.F32

open Sys2Proof.Claims (finite val RoundsTo)
open Sys2Proof.Machine (inRangeF32)

/-! ## Numbers with 24 significant bits -/

/-- A shifted significand of at most 24 bits is a finite number. -/
theorem exists_finite_val_eq {s k : ℕ} (hs : s ≤ 252) (hk : k ≤ 2 ^ 24) :
    ∃ w : F32, finite w ∧ val w = k * 2 ^ s / 2 ^ 149 := by
  obtain ⟨b, hb⟩ := exists_gridUnits_eq s k hk
  have hfin : b < infBits := by
    rw [← gridUnits_strictMono.lt_iff_lt, hb, gridUnits_infBits]
    calc k * 2 ^ s ≤ 2 ^ 24 * 2 ^ 252 := Nat.mul_le_mul hk (Nat.pow_le_pow_right two_pos hs)
      _ < 2 ^ 128 * 2 ^ 149 := by norm_num
  refine ⟨pack false b, (finite_pack_iff _ _).2 hfin, ?_⟩
  rw [val_pack _ hfin, hb, signOf_false]
  push_cast
  ring

/-- A number from 0 to 2^e moves by at most half a place of the significand when it is rounded. -/
theorem abs_val_sub_le_of_roundsTo {z : F32} {r : ℚ} {e : ℕ} (he : e ≤ 127) (h : RoundsTo z (r : ℝ))
    (h0 : 0 ≤ r) (hle : r ≤ 2 ^ e) : |val z - r| ≤ 2 ^ e / 2 ^ 25 := by
  have hp : (0 : ℚ) < 2 ^ e := by positivity
  have hq : r / 2 ^ e * 2 ^ 24 ≤ 2 ^ 24 := mul_le_of_le_one_left (by positivity) ((div_le_one hp).2 hle)
  have hq0 : 0 ≤ r / 2 ^ e * 2 ^ 24 := by positivity
  have hr : r = r / 2 ^ e * 2 ^ 24 * (2 ^ e / 2 ^ 24) := by field_simp
  generalize r / 2 ^ e * 2 ^ 24 = q at *
  set k := ⌊q + 1 / 2⌋₊ with hk
  have hk_le : (k : ℚ) ≤ q + 1 / 2 := Nat.floor_le (by positivity)
  have hk_gt : q + 1 / 2 < k + 1 := Nat.lt_floor_add_one _
  have hk24 : k ≤ 2 ^ 24 := Nat.lt_succ_iff.1 ((Nat.floor_lt (by positivity)).2 (by push_cast; linarith))
  obtain ⟨w, hw, hval⟩ := exists_finite_val_eq (s := 125 + e) (by omega) hk24
  have hw_near : |val w - r| ≤ 2 ^ e / 2 ^ 25 := by
    rw [hval, hr, show (k : ℚ) * 2 ^ (125 + e) / 2 ^ 149 - q * (2 ^ e / 2 ^ 24) = (k - q) * (2 ^ e / 2 ^ 24) by
      rw [pow_add]; ring, abs_mul, abs_of_pos (by positivity : (0 : ℚ) < 2 ^ e / 2 ^ 24)]
    calc |(k : ℚ) - q| * (2 ^ e / 2 ^ 24) ≤ 1 / 2 * (2 ^ e / 2 ^ 24) := by
          gcongr
          exact abs_le.2 ⟨by linarith, by linarith⟩
      _ = 2 ^ e / 2 ^ 25 := by ring
  have hbig : |(r : ℝ)| < 2 ^ 128 - 2 ^ 103 := by
    rw [abs_of_nonneg (by exact_mod_cast h0)]
    calc (r : ℝ) ≤ 2 ^ e := by exact_mod_cast hle
      _ ≤ 2 ^ 127 := pow_le_pow_right₀ one_le_two he
      _ < 2 ^ 128 - 2 ^ 103 := by norm_num
  rw [RoundsTo, if_pos hbig] at h
  have hnear : |(val z : ℝ) - r| ≤ |(val w : ℝ) - r| := (h.2 w hw).elim le_of_lt fun h => h.1.le
  exact le_trans (by exact_mod_cast hnear) hw_near

/-! ## Exact results -/

theorem add_of_exact {x y w : F32} (hx : finite x) (hy : finite y) (hw : finite w) (h : val x + val y = val w) :
    finite (add x y) ∧ val (add x y) = val w :=
  val_eq_of_roundsTo hw (h ▸ roundsTo_add hx hy)

theorem sub_of_exact {x y w : F32} (hx : finite x) (hy : finite y) (hw : finite w) (h : val x - val y = val w) :
    finite (sub x y) ∧ val (sub x y) = val w :=
  val_eq_of_roundsTo hw (h ▸ roundsTo_sub hx hy)

theorem mul_of_exact {x y w : F32} (hx : finite x) (hy : finite y) (hw : finite w) (h : val x * val y = val w) :
    finite (mul x y) ∧ val (mul x y) = val w :=
  val_eq_of_roundsTo hw (h ▸ roundsTo_mul hx hy)

theorem div_of_exact {x y w : F32} (hx : finite x) (hy : finite y) (hne : val y ≠ 0) (hw : finite w)
    (h : val x / val y = val w) : finite (div x y) ∧ val (div x y) = val w :=
  val_eq_of_roundsTo hw (h ▸ roundsTo_div hx hy hne)

/-- `toF32` is exact up to 2^24. -/
theorem ofNat_exact {n : ℕ} (hn : n ≤ 2 ^ 24) : finite (ofNat n) ∧ val (ofNat n) = n := by
  obtain ⟨w, hw, hval⟩ := exists_finite_val_eq (s := 149) (by omega) hn
  rw [mul_div_cancel_right₀ _ (by positivity)] at hval
  have h := roundsTo_ofNat n
  rw [← Rat.cast_natCast, ← hval] at h
  exact hval ▸ val_eq_of_roundsTo hw h

/-! ## Ranges of differences and of clamped numbers -/

theorem sub_inRangeF32 {x y lo hi : F32} (hx : finite x) (hy : finite y) (hlo : finite lo) (hhi : finite hi)
    (hlow : val lo ≤ val x - val y) (hhigh : val x - val y ≤ val hi) : inRangeF32 (sub x y) lo hi :=
  inRangeF32_of_roundsTo (roundsTo_sub hx hy) hlo hhi (Rat.cast_le.2 hlow) (Rat.cast_le.2 hhigh)

/-- The difference of two numbers from 0 on does not overflow. -/
theorem finite_sub_of_nonneg {x y : F32} (hx : finite x) (hy : finite y) (hx0 : 0 ≤ val x) (hy0 : 0 ≤ val y) :
    finite (sub x y) :=
  finite_of_inRangeF32 (finite_neg hy) hx
    (sub_inRangeF32 hx hy (finite_neg hy) hx (by rw [val_neg]; linarith) (by linarith))

/-- A number below a rounded sum is below the sum itself: rounding does not pass a number. -/
theorem lt_add_of_lt_val_add {x y u : F32} (hx : finite x) (hy : finite y) (hu : finite u) (hy0 : 0 ≤ val y)
    (h : val u < val (add x y)) : val u < val x + val y := by
  by_contra hge
  have hsum := add_inRangeF32 hx hy hx hu (by linarith) (not_lt.1 hge)
  exact absurd ((inRangeF32_iff hx hu).1 hsum).2.2 (not_le.2 h)

theorem inRangeF32_unit_iff (x : F32) : inRangeF32 x zero one ↔ finite x ∧ 0 ≤ val x ∧ val x ≤ 1 := by
  rw [inRangeF32_iff finite_zero finite_one, val_zero, val_one]

theorem clamp_of_inRangeF32 {x lo hi : F32} (hlo : finite lo) (hhi : finite hi) (h : inRangeF32 x lo hi) :
    clamp x lo hi = x := by
  obtain ⟨hx, hlow, hhigh⟩ := (inRangeF32_iff hlo hhi).1 h
  rw [clamp_eq hx hlo hhi, if_neg hlow.not_gt, if_neg hhigh.not_gt]

theorem clamp_unit_inRangeF32 {x : F32} (hx : finite x) : inRangeF32 (clamp x zero one) zero one := by
  obtain ⟨hfin, hval⟩ := clamp_spec hx finite_zero finite_one (by simp)
  rw [inRangeF32_iff finite_zero finite_one, hval]
  exact ⟨hfin, le_max_left _ _, max_le (by simp) (min_le_left _ _)⟩

end Sys2Proof.F32
end

section
/-! The scaled-byte codec keeps fractions and times within half a step (40_envelope.md R207, R209). -/

set_option autoImplicit false

namespace Sys2Proof.Machine

open Sys2Proof.Claims (finite val)
open Sys2Proof.F32 (inRangeF32_iff inRangeF32_unit_iff finite_zero finite_one val_zero val_one)

theorem finite_byteScale : finite Config.byteScale := by decide

theorem val_byteScale : val Config.byteScale = 127 := by decide +kernel

/-- The nearest whole number to one from 0 to `n`. -/
theorem roundHA_near {x : F32} {n : ℕ} (hx : finite x) (h0 : 0 ≤ val x) (hn : val x ≤ n) :
    ∃ k : ℕ, F32.roundHA x = k ∧ k ≤ n ∧ |(k : ℚ) - val x| ≤ 1 / 2 := by
  have hfloor : (⌊val x + 1 / 2⌋₊ : ℚ) ≤ val x + 1 / 2 := Nat.floor_le (by positivity)
  have hnext : val x + 1 / 2 < ⌊val x + 1 / 2⌋₊ + 1 := Nat.lt_floor_add_one _
  refine ⟨⌊val x + 1 / 2⌋₊, ?_, ?_, abs_le.2 ⟨by linarith, by linarith⟩⟩
  · rw [F32.roundHA_eq hx, if_pos h0, Int.natCast_floor_eq_floor (by positivity)]
  · exact Nat.lt_succ_iff.1 ((Nat.floor_lt (by positivity)).2 (by push_cast; linarith))

/-- The byte of a fraction is 127 times the fraction, to the nearest whole number but for the rounding of the
product. -/
theorem encFrac_near {x : F32} (hx : inRangeF32 x F32.zero F32.one) :
    (encFrac x).toNat ≤ 127 ∧ |((encFrac x).toNat : ℚ) - val x * 127| ≤ 1 / 2 + 1 / 2 ^ 18 := by
  obtain ⟨hfin, h0, h1⟩ := (inRangeF32_unit_iff x).1 hx
  have hproduct : inRangeF32 (F32.mul x Config.byteScale) F32.zero Config.byteScale :=
    F32.mul_inRangeF32 hfin finite_byteScale finite_zero finite_byteScale
      (by rw [val_byteScale, val_zero]; linarith) (by rw [val_byteScale]; linarith)
  rw [inRangeF32_iff finite_zero finite_byteScale, val_zero, val_byteScale] at hproduct
  obtain ⟨hm, hm0, hm127⟩ := hproduct
  have hproduct_near := F32.abs_val_sub_le_of_roundsTo (e := 7) (by decide) (F32.roundsTo_mul hfin finite_byteScale)
    (by rw [val_byteScale]; linarith) (by rw [val_byteScale]; linarith)
  rw [val_byteScale] at hproduct_near
  obtain ⟨k, hround, hk, hk_near⟩ := roundHA_near (n := 127) hm hm0 hm127
  have hbyte : (BitVec.ofInt 8 (k : ℤ)).toNat = k := by
    rw [BitVec.ofInt_natCast, BitVec.toNat_ofNat]
    omega
  rw [encFrac, F32.clamp_of_inRangeF32 finite_zero finite_one hx, hround, hbyte]
  exact ⟨hk, (abs_sub_le _ _ _).trans ((add_le_add hk_near hproduct_near).trans (by norm_num))⟩

/-- A byte up to 127 reads as that many of 127 parts. -/
theorem decFrac_near {b : Byte} (hb : b.toNat ≤ 127) :
    inRangeF32 (decFrac b) F32.zero F32.one ∧ |val (decFrac b) - b.toNat / 127| ≤ 1 / 2 ^ 25 := by
  obtain ⟨hfin, hval⟩ := F32.ofNat_exact (n := b.toNat) (by omega)
  have hb' : (b.toNat : ℚ) ≤ 127 := by exact_mod_cast hb
  have hquot : val (F32.ofNat b.toNat) / val Config.byteScale = b.toNat / 127 := by rw [hval, val_byteScale]
  have h0 : (0 : ℚ) ≤ b.toNat / 127 := by positivity
  have h1 : (b.toNat : ℚ) / 127 ≤ 1 := by linarith
  have hne : val Config.byteScale ≠ 0 := by rw [val_byteScale]; norm_num
  rw [decFrac, min_eq_left hb, ← hquot]
  rw [← hquot] at h0 h1
  refine ⟨F32.div_inRangeF32 hfin finite_byteScale hne finite_zero finite_one (by rwa [val_zero])
    (by rwa [val_one]), ?_⟩
  simpa using F32.abs_val_sub_le_of_roundsTo (e := 0) (by decide) (F32.roundsTo_div hfin finite_byteScale hne)
    h0 (by simpa using h1)

/-- A fraction comes back within half a step of 1/127 and the two roundings. -/
theorem decFrac_encFrac_near {x : F32} (hx : inRangeF32 x F32.zero F32.one) :
    inRangeF32 (decFrac (encFrac x)) F32.zero F32.one ∧
      |val (decFrac (encFrac x)) - val x| ≤ 1 / 254 + 1 / 2 ^ 23 := by
  obtain ⟨hb, henc⟩ := encFrac_near hx
  obtain ⟨hrange, hdec⟩ := decFrac_near hb
  refine ⟨hrange, ?_⟩
  rw [abs_le] at *
  constructor <;> linarith [henc.1, henc.2, hdec.1, hdec.2]

/-- A time comes back within half a step of its scale and the roundings, where the scale fills at least half of its
binade `2 ^ e`. -/
theorem decTime_encTime_near {x top : F32} {e : ℕ} (he : e ≤ 127) (htop : finite top) (hpos : 0 < val top)
    (hle : val top ≤ 2 ^ e) (hhalf : 2 ^ e ≤ 2 * val top) (hx : inRangeF32 x F32.zero top) :
    |val (decTime (encTime x top) top) - val x| ≤ val top * (1 / 254 + 1 / 2 ^ 21) := by
  obtain ⟨hfin, h0, hx_le⟩ := (inRangeF32_iff finite_zero htop).1 hx
  rw [val_zero] at h0
  have hq0 : 0 ≤ val x / val top := div_nonneg h0 hpos.le
  have hq1 : val x / val top ≤ 1 := (div_le_one hpos).2 hx_le
  have hquot := F32.div_inRangeF32 hfin htop hpos.ne' finite_zero finite_one (by rwa [val_zero]) (by rwa [val_one])
  have hquot_near := F32.abs_val_sub_le_of_roundsTo (e := 0) (by decide) (F32.roundsTo_div hfin htop hpos.ne') hq0
    (by simpa using hq1)
  obtain ⟨hfrac, hfrac_near⟩ := decFrac_encFrac_near hquot
  rw [decTime, encTime, F32.clamp_of_inRangeF32 finite_zero htop hx]
  generalize decFrac (encFrac (F32.div x top)) = g at *
  obtain ⟨hg, hg0, hg1⟩ := (inRangeF32_unit_iff g).1 hfrac
  have hproduct_near := F32.abs_val_sub_le_of_roundsTo he (F32.roundsTo_mul hg htop) (by positivity)
    ((mul_le_of_le_one_left hpos.le hg1).trans hle)
  have hsteps : |val g - val x / val top| ≤ 1 / 254 + 1 / 2 ^ 23 + 1 / 2 ^ 25 := by
    simpa using (abs_sub_le _ _ _).trans (add_le_add hfrac_near hquot_near)
  calc |val (F32.mul g top) - val x|
      ≤ |val (F32.mul g top) - val g * val top| + |val g * val top - val x| := abs_sub_le _ _ _
    _ = |val (F32.mul g top) - val g * val top| + |val g - val x / val top| * val top := by
      rw [← abs_of_pos hpos, ← abs_mul, abs_of_pos hpos, sub_mul, div_mul_cancel₀ _ hpos.ne']
    _ ≤ 2 * val top / 2 ^ 25 + (1 / 254 + 1 / 2 ^ 23 + 1 / 2 ^ 25) * val top := by
      gcongr
      exact hproduct_near.trans (by gcongr)
    _ ≤ val top * (1 / 254 + 1 / 2 ^ 21) := by linarith

theorem finite_envTimeMax : finite Config.envTimeMax := by decide

theorem val_envTimeMax : val Config.envTimeMax = 10000 := by decide +kernel

theorem inRangeF32_time_iff (x : F32) :
    inRangeF32 x F32.zero Config.envTimeMax ↔ finite x ∧ 0 ≤ val x ∧ val x ≤ 10000 := by
  rw [inRangeF32_iff finite_zero finite_envTimeMax, val_zero, val_envTimeMax]

theorem finite_lfoFreqMax : finite Config.lfoFreqMax := by decide

/-- Settles O28: the byte is the nearest of 127 steps, and each rounding is small beside a step. -/
theorem scaledByteKeepsHalfStep : Obligations.ScaledByteKeepsHalfStep := by
  intro x hx
  refine ⟨fun h0 h1 => ?_, fun h0 hle => ?_, fun h0 hle => ?_⟩
  · obtain ⟨-, hnear⟩ := decFrac_encFrac_near ((inRangeF32_unit_iff x).2 ⟨hx, h0, h1⟩)
    exact hnear.trans (by norm_num)
  · have hnear := decTime_encTime_near (top := Config.envTimeMax) (e := 14) (by decide) finite_envTimeMax
      (by norm_num [val_envTimeMax]) (by norm_num [val_envTimeMax]) (by norm_num [val_envTimeMax])
      ((inRangeF32_time_iff x).2 ⟨hx, h0, hle⟩)
    rwa [val_envTimeMax] at hnear
  · have hnear := decTime_encTime_near (top := Config.lfoFreqMax) (e := 5) (by decide) finite_lfoFreqMax
      (by norm_num [val_lfoFreqMax]) (by norm_num [val_lfoFreqMax]) (by norm_num [val_lfoFreqMax])
      ((inRangeF32_iff finite_zero finite_lfoFreqMax).2 ⟨hx, by rwa [val_zero], by rwa [val_lfoFreqMax]⟩)
    rwa [val_lfoFreqMax] at hnear

end Sys2Proof.Machine
end

section
/-! The stages of an envelope (40_envelope.md R201). -/

set_option autoImplicit false

namespace Sys2Proof.Machine

open Sys2Proof.Claims (finite val)
open Sys2Proof.F32 (inRangeF32_iff inRangeF32_unit_iff finite_zero val_zero)

section

variable {e : Envelope} {t : F32} (he : e.legal) (ht : finite t) (h0 : 0 ≤ val t)

include he

theorem Envelope.finite_fields :
    finite e.delay ∧ finite e.attack ∧ finite e.peak ∧ finite e.decay ∧ finite e.sustain ∧ finite e.release := by
  obtain ⟨hdelay, hattack, hpeak, hdecay, hsustain, hrelease⟩ := he
  exact ⟨((inRangeF32_time_iff _).1 hdelay).1, ((inRangeF32_time_iff _).1 hattack).1,
    ((inRangeF32_unit_iff _).1 hpeak).1, ((inRangeF32_time_iff _).1 hdecay).1,
    ((inRangeF32_unit_iff _).1 hsustain).1, ((inRangeF32_time_iff _).1 hrelease).1⟩

/-- The end of the decay, counted from the end of the delay, does not overflow. -/
theorem Envelope.finite_fall : finite (F32.add e.attack e.decay) := by
  obtain ⟨-, hattack, -, hdecay, -, -⟩ := he
  obtain ⟨ha, ha0, ha_le⟩ := (inRangeF32_time_iff _).1 hattack
  obtain ⟨hd, hd0, hd_le⟩ := (inRangeF32_time_iff _).1 hdecay
  have htop : val 0x469C4000#32 = 20000 := by decide +kernel
  exact F32.finite_of_inRangeF32 finite_zero (by decide) (F32.add_inRangeF32 (hi := 0x469C4000#32) ha hd finite_zero
    (by decide) (by rw [val_zero]; linarith) (by rw [htop]; linarith))

include ht

/-- The time since the end of the delay is not negative, as rounding keeps signs. -/
theorem Envelope.sinceDelay_nonneg (hdelay : val e.delay ≤ val t) : 0 ≤ val (F32.sub t e.delay) := by
  obtain ⟨hd, hd0, -⟩ := (inRangeF32_time_iff _).1 he.1
  have hrange := F32.sub_inRangeF32 ht hd finite_zero ht (by rw [val_zero]; linarith) (by linarith)
  rw [inRangeF32_iff finite_zero ht, val_zero] at hrange
  exact hrange.2.1

theorem Envelope.stage_released :
    e.stage t true = if val e.release ≤ val t then .done else .release := by
  obtain ⟨-, -, -, -, -, hr⟩ := Envelope.finite_fields he
  simp only [Envelope.stage, F32.le_iff hr ht, if_true]

include h0

theorem Envelope.finite_sinceDelay : finite (F32.sub t e.delay) := by
  obtain ⟨hd, hd0, -⟩ := (inRangeF32_time_iff _).1 he.1
  exact F32.finite_sub_of_nonneg ht hd h0 hd0

theorem Envelope.stage_held :
    e.stage t false =
      if val t < val e.delay then .delay
      else if val (F32.sub t e.delay) < val e.attack then .attack
      else if val (F32.sub t e.delay) < val (F32.add e.attack e.decay) then .decay
      else .sustain := by
  have hu := Envelope.finite_sinceDelay he ht h0
  have hfall := Envelope.finite_fall he
  obtain ⟨hd, ha, -, -, -, -⟩ := Envelope.finite_fields he
  simp only [Envelope.stage, F32.lt_iff ht hd, F32.lt_iff hu ha, F32.lt_iff hu hfall, Bool.false_eq_true, if_false]

end

/-- Settles O48: the comparisons of the model are those of the numbers, and the first one that holds decides. -/
theorem envelopeStageIsTheTabledOne : Obligations.EnvelopeStageIsTheTabledOne := by
  intro e t he ht h0 u fall
  have hu0 : val e.delay ≤ val t → 0 ≤ val u := Envelope.sinceDelay_nonneg he ht
  have hheld : e.stage t false = if val t < val e.delay then .delay else if val u < val e.attack then .attack
      else if val u < val fall then .decay else .sustain := Envelope.stage_held he ht h0
  rw [Envelope.stage_released he ht, hheld]
  clear_value u fall
  split_ifs <;> grind

end Sys2Proof.Machine
end

section
/-! The level of an envelope, stage by stage (40_envelope.md R200 to R204). -/

set_option autoImplicit false

namespace Sys2Proof.Machine

open Sys2Proof.Claims (finite val)
open Sys2Proof.F32 (inRangeF32_iff inRangeF32_unit_iff finite_zero finite_one val_zero val_one)

/-! ## The level before the clamp -/

/-- `lvl` of `GetLevel` before its final clamp, in each stage (40_envelope.md R200). -/
def Envelope.rawLevel (e : Envelope) (t : F32) : Stage → F32
  | .delay | .done => F32.zero
  | .attack => F32.div (F32.mul e.peak (F32.sub t e.delay)) e.attack
  | .decay =>
    F32.add e.peak
      (F32.div (F32.mul (F32.sub e.sustain e.peak) (F32.sub (F32.sub t e.delay) e.attack)) e.decay)
  | .sustain => e.sustain
  | .release => F32.mul e.sustain (F32.sub F32.one (F32.div t e.release))

theorem clamp_unit_zero : F32.clamp F32.zero F32.zero F32.one = F32.zero :=
  F32.clamp_of_inRangeF32 finite_zero finite_one ⟨by decide, by decide⟩

/-- The level is that of the stage, clamped. -/
theorem Envelope.level_of_stage {e : Envelope} {t : F32} {released : Bool} {stage : Stage}
    (h : e.stage t released = stage) :
    e.level t released = F32.clamp (e.rawLevel t stage) F32.zero F32.one := by
  subst h
  cases released <;> simp only [Envelope.level, Envelope.stage, Bool.false_eq_true, if_false, if_true] <;>
    split_ifs <;> simp only [Envelope.rawLevel, clamp_unit_zero]

theorem Envelope.level_of_silent {e : Envelope} {t : F32} {released : Bool}
    (h : e.stage t released = .delay ∨ e.stage t released = .done) : e.level t released = 0#32 := by
  rcases h with h | h <;> exact (Envelope.level_of_stage h).trans clamp_unit_zero

/-! ## The ramps do not overflow (40_envelope.md R203) -/

/-- The product stays below the attack time, even where that is subnormal, so the quotient is a fraction. -/
theorem finite_attackRamp {peak u attack : F32} (hpeak : inRangeF32 peak F32.zero F32.one) (hu : finite u)
    (hu0 : 0 ≤ val u) (ha : finite attack) (hlt : val u < val attack) :
    finite (F32.div (F32.mul peak u) attack) := by
  obtain ⟨hp, hp0, hp1⟩ := (inRangeF32_unit_iff peak).1 hpeak
  have hproduct := F32.mul_inRangeF32 hp hu finite_zero hu (by rw [val_zero]; positivity)
    (mul_le_of_le_one_left hu0 hp1)
  rw [inRangeF32_iff finite_zero hu, val_zero] at hproduct
  obtain ⟨hm, hm0, hm_le⟩ := hproduct
  have ha0 : 0 < val attack := hu0.trans_lt hlt
  exact F32.finite_of_inRangeF32 finite_zero finite_one
    (F32.div_inRangeF32 hm ha ha0.ne' finite_zero finite_one (by rw [val_zero]; positivity)
      (by rw [val_one, div_le_one ha0]; linarith))

/-- A part of a time, scaled by a number within [-1, 1], over the whole of it. -/
theorem scaledQuotient_inRangeF32 {c w whole : F32} (hc : inRangeF32 c (F32.neg F32.one) F32.one)
    (hwhole : finite whole) (hw : inRangeF32 w F32.zero whole) (hpos : 0 < val whole) :
    inRangeF32 (F32.div (F32.mul c w) whole) (F32.neg F32.one) F32.one := by
  have hneg_one := F32.finite_neg finite_one
  have hneg_whole := F32.finite_neg hwhole
  rw [inRangeF32_iff hneg_one finite_one, F32.val_neg, val_one] at hc
  rw [inRangeF32_iff finite_zero hwhole, val_zero] at hw
  obtain ⟨hc, hc_low, hc_high⟩ := hc
  obtain ⟨hw, hw0, hw_le⟩ := hw
  have hproduct := F32.mul_inRangeF32 hc hw hneg_whole hwhole (by rw [F32.val_neg]; nlinarith) (by nlinarith)
  rw [inRangeF32_iff hneg_whole hwhole, F32.val_neg] at hproduct
  obtain ⟨hm, hm_low, hm_high⟩ := hproduct
  exact F32.div_inRangeF32 hm hwhole hpos.ne' hneg_one finite_one
    (by rw [F32.val_neg, val_one, le_div_iff₀ hpos]; linarith) (by rw [val_one, div_le_one hpos]; exact hm_high)

/-- The part of the decay that has passed is at most the decay time, so the quotient stays within [-1, 1]. -/
theorem finite_decayRamp {peak sustain u attack decay : F32} (hpeak : inRangeF32 peak F32.zero F32.one)
    (hsustain : inRangeF32 sustain F32.zero F32.one) (hu : finite u) (ha : finite attack) (hd : finite decay)
    (hd0 : 0 ≤ val decay) (hge : val attack ≤ val u) (hlt : val u < val (F32.add attack decay)) :
    finite (F32.add peak (F32.div (F32.mul (F32.sub sustain peak) (F32.sub u attack)) decay)) := by
  obtain ⟨hp, hp0, hp1⟩ := (inRangeF32_unit_iff peak).1 hpeak
  obtain ⟨hs, hs0, hs1⟩ := (inRangeF32_unit_iff sustain).1 hsustain
  have hlt_sum := F32.lt_add_of_lt_val_add ha hd hu hd0 hlt
  have hneg_one := F32.finite_neg finite_one
  have hdiff := F32.sub_inRangeF32 hs hp hneg_one finite_one (by rw [F32.val_neg, val_one]; linarith)
    (by rw [val_one]; linarith)
  have hpassed := F32.sub_inRangeF32 hu ha finite_zero hd (by rw [val_zero]; linarith) (by linarith)
  have hquot := scaledQuotient_inRangeF32 hdiff hd hpassed (by linarith)
  rw [inRangeF32_iff hneg_one finite_one, F32.val_neg, val_one] at hquot
  obtain ⟨hq, hq_low, hq_high⟩ := hquot
  have htwo : val 0x40000000#32 = 2 := by decide +kernel
  exact F32.finite_of_inRangeF32 hneg_one (by decide) (F32.add_inRangeF32 (hi := 0x40000000#32) hp hq hneg_one
    (by decide) (by rw [F32.val_neg, val_one]; linarith) (by rw [htwo]; linarith))

theorem finite_releaseRamp {sustain t release : F32} (hsustain : inRangeF32 sustain F32.zero F32.one) (ht : finite t)
    (h0 : 0 ≤ val t) (hr : finite release) (hlt : val t < val release) :
    finite (F32.mul sustain (F32.sub F32.one (F32.div t release))) := by
  have hr_pos : 0 < val release := h0.trans_lt hlt
  have hquot := F32.div_inRangeF32 ht hr hr_pos.ne' finite_zero finite_one (by rw [val_zero]; positivity)
    (by rw [val_one, div_le_one hr_pos]; exact hlt.le)
  obtain ⟨hq, hq0, hq1⟩ := (inRangeF32_unit_iff _).1 hquot
  have hrest := F32.sub_inRangeF32 finite_one hq finite_zero finite_one (by rw [val_zero, val_one]; linarith)
    (by rw [val_one]; linarith)
  exact F32.finite_of_inRangeF32 finite_zero finite_one
    (F32.mul_inRangeF32_nonneg finite_one finite_one finite_one hsustain hrest (by simp))

/-- Settles O46: the level of each stage is a number, and the clamp does the rest. -/
theorem envelopeLevelStaysInUnit : Obligations.EnvelopeLevelStaysInUnit := by
  intro e t released he ht h0
  suffices h : finite (e.rawLevel t (e.stage t released)) by
    rw [← inRangeF32_unit_iff, Envelope.level_of_stage rfl]
    exact F32.clamp_unit_inRangeF32 h
  obtain ⟨-, ha, -, hd, hs, hr⟩ := Envelope.finite_fields he
  have ⟨_, _, hpeak, hdecay, hsustain, _⟩ := he
  cases released with
  | true =>
    rw [Envelope.stage_released he ht]
    split
    · exact finite_zero
    · rename_i hlt
      exact finite_releaseRamp hsustain ht h0 hr (not_le.1 hlt)
  | false =>
    have hu := Envelope.finite_sinceDelay he ht h0
    have hd0 : 0 ≤ val e.decay := ((inRangeF32_time_iff _).1 hdecay).2.1
    rw [Envelope.stage_held he ht h0]
    split_ifs with hbefore hrise hfall
    · exact finite_zero
    · exact finite_attackRamp hpeak hu (Envelope.sinceDelay_nonneg he ht (not_lt.1 hbefore)) ha hrise
    · exact finite_decayRamp hpeak hsustain hu ha hd hd0 (not_lt.1 hrise) hfall
    · exact hs

/-! ## Corner values (40_envelope.md R204) -/

/-- The clamp leaves a fraction as it is. -/
theorem val_clamp_unit {x y : F32} (hy : inRangeF32 y F32.zero F32.one) (hx : finite x ∧ val x = val y) :
    val (F32.clamp x F32.zero F32.one) = val y := by
  rw [inRangeF32_unit_iff, ← hx.2] at hy
  rw [F32.clamp_of_inRangeF32 finite_zero finite_one ((inRangeF32_unit_iff x).2 ⟨hx.1, hy.2⟩), hx.2]

theorem attackRamp_start {peak u attack : F32} (hp : finite peak) (hu : finite u) (hu0 : val u = 0)
    (ha : finite attack) (hne : val attack ≠ 0) :
    finite (F32.div (F32.mul peak u) attack) ∧ val (F32.div (F32.mul peak u) attack) = val F32.zero := by
  obtain ⟨hm, hm0⟩ := F32.mul_of_exact hp hu finite_zero (by rw [hu0, mul_zero, val_zero])
  exact F32.div_of_exact hm ha hne finite_zero (by rw [hm0, val_zero, zero_div])

theorem decayRamp_start {peak sustain u attack decay : F32} (hp : finite peak) (hdiff : finite (F32.sub sustain peak))
    (hu : finite u) (ha : finite attack) (hua : val u = val attack) (hd : finite decay) (hne : val decay ≠ 0) :
    let ramp := F32.add peak (F32.div (F32.mul (F32.sub sustain peak) (F32.sub u attack)) decay)
    finite ramp ∧ val ramp = val peak := by
  obtain ⟨hw, hw0⟩ := F32.sub_of_exact hu ha finite_zero (by rw [hua, sub_self, val_zero])
  obtain ⟨hm, hm0⟩ := F32.mul_of_exact hdiff hw finite_zero (by rw [hw0, val_zero, mul_zero])
  obtain ⟨hq, hq0⟩ := F32.div_of_exact hm hd hne finite_zero (by rw [hm0, val_zero, zero_div])
  exact F32.add_of_exact hp hq hp (by rw [hq0, val_zero, add_zero])

theorem releaseRamp_start {sustain t release : F32} (hs : finite sustain) (ht : finite t) (ht0 : val t = 0)
    (hr : finite release) (hne : val release ≠ 0) :
    let ramp := F32.mul sustain (F32.sub F32.one (F32.div t release))
    finite ramp ∧ val ramp = val sustain := by
  obtain ⟨hq, hq0⟩ := F32.div_of_exact ht hr hne finite_zero (by rw [ht0, val_zero, zero_div])
  obtain ⟨hd, hd1⟩ := F32.sub_of_exact finite_one hq finite_one (by rw [hq0, val_zero, sub_zero])
  exact F32.mul_of_exact hs hd hs (by rw [hd1, val_one, mul_one])

/-- Only a decay that takes time ends after its start. -/
theorem decay_ne_zero_of_lt_fall {attack decay : F32} (ha : finite attack) (hd : finite decay)
    (h : val attack < val (F32.add attack decay)) : val decay ≠ 0 := fun hzero =>
  h.ne' (F32.add_of_exact ha hd ha (by rw [hzero, add_zero])).2

theorem ofNat_zero : F32.ofNat 0 = F32.zero := by decide +kernel

theorem ofNat_one : F32.ofNat 1 = F32.one := by decide +kernel

/-- Settles O47: the stage gives the expression, and at a boundary each step of the expression is exact. -/
theorem envelopeCornerLevels : Obligations.EnvelopeCornerLevels := by
  intro e t he ht h0 u unit
  have hu : finite u := Envelope.finite_sinceDelay he ht h0
  have hu0 : val e.delay ≤ val t → 0 ≤ val u := Envelope.sinceDelay_nonneg he ht
  obtain ⟨hrelease, hdone, hdelay, hattack, hdecay, hsustain⟩ := envelopeStageIsTheTabledOne e t he ht h0
  obtain ⟨hdl, ha, hp, hd, hs, hr⟩ := Envelope.finite_fields he
  have ⟨_, _, hpeak, _, hsus, _⟩ := he
  have hdiff : finite (F32.sub e.sustain e.peak) :=
    F32.finite_sub_of_nonneg hs hp ((inRangeF32_unit_iff _).1 hsus).2.1 ((inRangeF32_unit_iff _).1 hpeak).2.1
  simp only [unit, ofNat_zero, ofNat_one]
  refine ⟨fun h => ?_, fun hge hlt => ?_, fun hge hge' hlt => ?_, fun hge hge' hge'' => ?_, fun hlt => ?_,
    fun heq hpos => ?_, fun hge heq hlt => ?_, fun hge hge' hge'' => ?_, fun hge => ?_, fun hpos => ?_⟩
  · exact Envelope.level_of_silent (.inl (hdelay.2 h))
  · rw [Envelope.level_of_stage (hattack.2 ⟨hge, hu0 hge, hlt⟩), Envelope.rawLevel]
  · rw [Envelope.level_of_stage (hdecay.2 ⟨hge, hge', hlt⟩), Envelope.rawLevel]
  · rw [Envelope.level_of_stage (hsustain.2 ⟨hge, hge', hge''⟩), Envelope.rawLevel]
  · rw [Envelope.level_of_stage (hrelease.2 hlt), Envelope.rawLevel]
  · have hu_zero : val u = 0 := by
      rw [(F32.sub_of_exact ht hdl finite_zero (by rw [heq, sub_self, val_zero])).2, val_zero]
    rw [Envelope.level_of_stage (hattack.2 ⟨heq.ge, hu_zero.ge, by rwa [hu_zero]⟩), Envelope.rawLevel, ← val_zero]
    exact val_clamp_unit ⟨by decide, by decide⟩ (attackRamp_start hp hu hu_zero ha hpos.ne')
  · rw [Envelope.level_of_stage (hdecay.2 ⟨hge, heq.ge, by rwa [heq]⟩), Envelope.rawLevel]
    exact val_clamp_unit hpeak (decayRamp_start hp hdiff hu ha heq hd (decay_ne_zero_of_lt_fall ha hd hlt))
  · rw [Envelope.level_of_stage (hsustain.2 ⟨hge, hge', hge''⟩), Envelope.rawLevel]
    exact val_clamp_unit hsus ⟨hs, rfl⟩
  · exact Envelope.level_of_silent (.inr (hdone.2 hge))
  · have hstage := (envelopeStageIsTheTabledOne e F32.zero he finite_zero val_zero.ge).1.2 (by rwa [val_zero])
    exact (congrArg val (Envelope.level_of_stage hstage)).trans
      (val_clamp_unit hsus (releaseRamp_start hs finite_zero val_zero hr hpos.ne'))

end Sys2Proof.Machine
end

section
/-! The ramp tables need no rounding (41_waveform.md R232 to R234). -/

set_option autoImplicit false

namespace Sys2Proof.F32

open Sys2Proof.Claims (finite val)

/-- A shifted signed significand of at most 24 bits is a finite number. -/
theorem exists_finite_val_eq_intCast {s : ℕ} {z : ℤ} (hs : s ≤ 252) (hz : |z| ≤ 2 ^ 24) :
    ∃ w : F32, finite w ∧ val w = z * 2 ^ s / 2 ^ 149 := by
  obtain ⟨w, hw, hval⟩ := exists_finite_val_eq (k := z.natAbs) hs (by rw [abs_le] at hz; omega)
  rw [Nat.cast_natAbs] at hval
  rcases le_total 0 z with h | h
  · exact ⟨w, hw, by rw [hval, abs_of_nonneg h]⟩
  · refine ⟨neg w, finite_neg hw, ?_⟩
    rw [val_neg, hval, abs_of_nonpos h]
    push_cast
    ring

end Sys2Proof.F32

namespace Sys2Proof.Machine

open Sys2Proof.Claims (finite val RoundsTo)

theorem over2048_eq_roundFixed (num : ℤ) : over2048 num = Numerics.roundFixed 11 num := rfl

/-- A whole number of 2048ths with a significand that fits. -/
theorem over2048_exact {num : ℤ} {q : ℚ} (hle : -2048 ≤ num ∧ num ≤ 2048) (hq : q = num / 2048) :
    finite (over2048 num) ∧ val (over2048 num) = q := by
  obtain ⟨w, hw, hval⟩ := F32.exists_finite_val_eq_intCast (s := 138) (z := num) (by omega)
    (by rw [abs_le]; omega)
  have hval' : val w = num / 2048 := by
    rw [hval]
    ring
  have hround : RoundsTo (over2048 num) (val w : ℝ) := by
    rw [hval', over2048_eq_roundFixed]
    exact_mod_cast Numerics.roundsTo_roundFixed 11 num
  rw [hq, ← hval']
  exact F32.val_eq_of_roundsTo hw hround

/-- Settles O49: each sample is a whole number of 2048ths, of at most 24 significant bits. -/
theorem rampTablesAreExact : Obligations.RampTablesAreExact := by
  intro i hi
  refine ⟨over2048_exact (by omega) ?_, over2048_exact (by omega) ?_, ?_⟩
  · push_cast
    ring
  · push_cast
    ring
  · unfold triangle
    split_ifs
    all_goals
      refine over2048_exact (by omega) ?_
      push_cast
      ring

end Sys2Proof.Machine
end

section
/-! The noise generator: its closed form is the iteration, and what its states keep (41_waveform.md R236, R237). -/

set_option autoImplicit false

namespace Sys2Proof.Machine

open Sys2Proof.Claims (finite val noiseState noiseSample)

/-! ## The closed form (log 15) -/

/-- The step an affine map stands for. -/
def Affine.apply (f : Affine) (s : ℕ) : ℕ := (f.mul * s + f.inc) % Config.lcgMod

theorem Affine.apply_lt (f : Affine) (s : ℕ) : f.apply s < Config.lcgMod := Nat.mod_lt _ (by decide)

theorem Affine.apply_after (f g : Affine) (s : ℕ) : (f.after g).apply s = f.apply (g.apply s) := by
  simp only [apply, after]
  refine Nat.ModEq.trans (((Nat.mod_modEq _ _).mul_right s).add (Nat.mod_modEq _ _)) ?_
  rw [show f.mul * g.mul * s + (f.mul * g.inc + f.inc) = f.mul * (g.mul * s + g.inc) + f.inc by ring]
  exact ((Nat.mod_modEq _ _).symm.mul_left _).add_right _

/-- Repeated squaring iterates the step. -/
theorem Affine.apply_iterate (fuel : ℕ) (f : Affine) {n s : ℕ} (hn : n < 2 ^ fuel) (hs : s < Config.lcgMod) :
    (Affine.iterate fuel f n).apply s = f.apply^[n] s := by
  induction fuel generalizing f n s with
  | zero =>
    obtain rfl : n = 0 := by omega
    simpa [iterate, apply] using hs
  | succ fuel ih =>
    rcases Nat.eq_zero_or_pos n with rfl | hpos
    · simpa [iterate, apply] using hs
    · have hsquare : (f.after f).apply = f.apply^[2] := funext fun t => apply_after f f t
      have hhalf {t : ℕ} (ht : t < Config.lcgMod) :
          (Affine.iterate fuel (f.after f) (n / 2)).apply t = f.apply^[2 * (n / 2)] t := by
        rw [ih _ (by omega) ht, hsquare, Function.iterate_mul]
      simp only [iterate, if_neg hpos.ne']
      split
      · rw [apply_after, hhalf (apply_lt f s), ← Function.iterate_succ_apply]
        congr 2
        omega
      · rw [hhalf hs]
        congr 2
        omega

theorem lcgState_eq_noiseState (n : ℕ) : lcgState n = noiseState n :=
  Affine.apply_iterate _ ⟨Config.lcgMul, Config.lcgInc⟩ Nat.lt_log2_self (by decide)

theorem noiseDefault_eq_noiseSample (n : ℕ) : noiseDefault n = noiseSample n := by
  rw [noiseDefault, noiseSample, lcgState_eq_noiseState, ofNat_one, show F32.ofNat 32767 = 0x46FFFE00#32 by decide]

/-! ## The states -/

theorem noiseState_succ (n : ℕ) : noiseState (n + 1) = (8253729 * noiseState n + 2396403) % 32767 :=
  Function.iterate_succ_apply' _ _ _

theorem noiseState_lt (n : ℕ) : noiseState (n + 1) < 32767 := by
  rw [noiseState_succ]
  exact Nat.mod_lt _ (by norm_num)

/-- The generator is back at its seed after 525 steps. -/
theorem noiseState_add_period (n : ℕ) : noiseState (n + 525) = noiseState n := by
  have hperiod : noiseState 525 = 5323 := lcgState_eq_noiseState 525 ▸ by decide
  rw [noiseState, Function.iterate_add_apply]
  exact congrArg _ hperiod

/-- The remainders modulo 31 that the states run through: 31 divides the modulus, so the generator steps them by
`r ↦ 10 * r + 10`, and from the seed's 22 this never gives 0. -/
def noiseResidues : List ℕ := [3, 4, 5, 7, 9, 13, 14, 15, 16, 18, 19, 21, 22, 26, 29]

theorem noiseState_residue (n : ℕ) : noiseState n % 31 ∈ noiseResidues := by
  induction n with
  | zero => decide
  | succ n ih =>
    have hclosed : ∀ r ∈ noiseResidues, (10 * r + 10) % 31 ∈ noiseResidues := by decide
    have hstep : noiseState (n + 1) % 31 = (10 * (noiseState n % 31) + 10) % 31 := by
      rw [noiseState_succ]
      omega
    exact hstep ▸ hclosed _ ih

theorem noiseState_pos (n : ℕ) : 0 < noiseState n := by
  refine Nat.pos_of_ne_zero fun hzero => ?_
  have h := noiseState_residue n
  rw [hzero] at h
  exact absurd h (by decide)

/-! ## The samples -/

theorem finite_lcgMod : finite 0x46FFFE00#32 := by decide

theorem val_lcgMod : val 0x46FFFE00#32 = 32767 := by decide +kernel

/-- A state from 1 to 32766 gives a quotient 2^-14 or more from both 0 and 2. -/
theorem noiseQuotient_bounds {s : ℕ} (hpos : 0 < s) (hlt : s < 32767) :
    finite (F32.div (F32.ofNat (2 * s)) 0x46FFFE00#32) ∧
      1 / 2 ^ 14 ≤ val (F32.div (F32.ofNat (2 * s)) 0x46FFFE00#32) ∧
      val (F32.div (F32.ofNat (2 * s)) 0x46FFFE00#32) ≤ 2 - 1 / 2 ^ 14 := by
  have hlo : finite 0x38800000#32 ∧ val 0x38800000#32 = 1 / 2 ^ 14 := by decide +kernel
  have hhi : finite 0x3FFFFE00#32 ∧ val 0x3FFFFE00#32 = 2 - 1 / 2 ^ 14 := by decide +kernel
  have hpos' : (1 : ℚ) ≤ s := by exact_mod_cast hpos
  have hlt' : (s : ℚ) ≤ 32766 := by exact_mod_cast Nat.le_of_lt_succ hlt
  obtain ⟨hnum, hval⟩ := F32.ofNat_exact (n := 2 * s) (by omega)
  push_cast at hval
  rw [← hhi.2, ← hlo.2, ← F32.inRangeF32_iff hlo.1 hhi.1]
  refine F32.div_inRangeF32 hnum finite_lcgMod ?_ hlo.1 hhi.1 ?_ ?_
  · rw [val_lcgMod]
    norm_num
  · rw [hval, val_lcgMod, hlo.2]
    linarith
  · rw [hval, val_lcgMod, hhi.2]
    linarith

/-- A sample is 2^-14 or more inside (-1, 1), so that rounding does not reach the ends. -/
theorem noiseDefault_inside (n : ℕ) :
    finite (noiseDefault n) ∧ -1 < val (noiseDefault n) ∧ val (noiseDefault n) < 1 := by
  have hlo : finite 0xBF7FFC00#32 ∧ val 0xBF7FFC00#32 = -1 + 1 / 2 ^ 14 := by decide +kernel
  have hhi : finite 0x3F7FFC00#32 ∧ val 0x3F7FFC00#32 = 1 - 1 / 2 ^ 14 := by decide +kernel
  obtain ⟨hq, hq_lo, hq_hi⟩ := noiseQuotient_bounds (noiseState_pos (n + 1)) (noiseState_lt n)
  have hsample := F32.sub_inRangeF32 hq F32.finite_one hlo.1 hhi.1
    (by rw [F32.val_one, hlo.2]; linarith) (by rw [F32.val_one, hhi.2]; linarith)
  rw [← lcgState_eq_noiseState] at hsample
  obtain ⟨hfin, hlow, hhigh⟩ := (F32.inRangeF32_iff hlo.1 hhi.1).1 hsample
  rw [hlo.2] at hlow
  rw [hhi.2] at hhigh
  exact ⟨hfin, lt_of_lt_of_le (by norm_num) hlow, lt_of_le_of_lt hhigh (by norm_num)⟩

/-- Settles O50: the closed form is the iteration, which is back at its seed after 525 steps, and no state is 0. -/
theorem noiseTableIsTheGenerators : Obligations.NoiseTableIsTheGenerators := by
  refine fun n => ⟨noiseDefault_eq_noiseSample n, ?_, noiseDefault_inside n⟩
  rw [noiseDefault_eq_noiseSample, noiseDefault_eq_noiseSample, noiseSample, noiseSample, add_right_comm,
    noiseState_add_period]

end Sys2Proof.Machine
end

section
/-! The sine and square tables: one period from the first quarter, whose samples are enclosed (41_waveform.md R231,
R235, R241). -/

set_option autoImplicit false

namespace Sys2Proof.F32

open Sys2Proof.Claims (finite val RoundsTo RoundsNear)

/-! ## Rounding and the sign -/

@[simp] theorem neg_neg_pattern (x : F32) : neg (neg x) = x := by
  rw [neg, neg, BitVec.xor_assoc, BitVec.xor_self, BitVec.xor_zero]

theorem neg_lastBit (x : F32) : (neg x).getLsbD 0 = x.getLsbD 0 := by simp [neg]

/-- Rounding to nearest even is odd. -/
theorem roundsTo_neg {z : F32} {r : ℝ} (h : RoundsTo z r) : RoundsTo (neg z) (-r) := by
  by_cases hz : finite z
  · rw [roundsTo_iff_of_finite hz] at h
    rw [roundsTo_iff_of_finite (finite_neg hz), abs_neg]
    refine ⟨h.1, fun w hw => ?_⟩
    have hdist (x : F32) : |(val x : ℝ) - -r| = |(val (neg x) : ℝ) - r| := by
      rw [val_neg, ← abs_neg]
      push_cast
      ring_nf
    have hnear := h.2 (neg w) (finite_neg hw)
    have hsame : val w = val (neg z) ↔ val (neg w) = val z := by rw [val_neg, val_neg, neg_eq_iff_eq_neg]
    rwa [hdist, hdist, neg_neg_pattern, neg_lastBit, hsame]
  · have hnz : ¬ finite (neg z) := fun hn => hz (neg_neg_pattern z ▸ finite_neg hn)
    rw [roundsTo_iff_of_not_finite hz] at h
    rw [roundsTo_iff_of_not_finite hnz]
    rcases h with ⟨rfl, hr⟩ | ⟨rfl, hr⟩
    · exact .inr ⟨by decide, neg_le_neg hr⟩
    · exact .inl ⟨by decide, le_neg_of_le_neg hr⟩

theorem roundsNear_neg {z : F32} {r : ℝ} (h : RoundsNear z r) : RoundsNear (neg z) (-r) := by
  obtain ⟨r', hr', hz⟩ := h
  exact ⟨-r', by rwa [← neg_sub', abs_neg], roundsTo_neg hz⟩

theorem roundsNear_zero : RoundsNear zero 0 :=
  ⟨0, by rw [sub_self, abs_zero]; positivity, roundsTo_pack_zero false⟩

/-- What is nearest a number hardly past 1 is at most 1, for 1 is nearest a number yet further out. -/
theorem val_le_one_of_roundsTo {z : F32} {r : ℝ} (hz : finite z) (h : RoundsTo z r)
    (hr : r ≤ 1 + 2 ^ (-600 : ℤ)) :
    val z ≤ 1 := by
  have hround := Numerics.roundsTo_roundFixed 100 (2 ^ 100 + 1)
  rw [show Numerics.roundFixed 100 (2 ^ 100 + 1) = one by decide +kernel] at hround
  rw [← val_one]
  have hmargin : (2 : ℝ) ^ (-600 : ℤ) ≤ 2 ^ (-101 : ℤ) := zpow_le_zpow_right₀ one_le_two (by norm_num)
  refine val_le_of_roundsTo hz finite_one h hround ?_
  calc r ≤ 1 + 2 ^ (-101 : ℤ) := hr.trans (by linarith)
    _ < _ := by norm_num

/-- A number in [-1, 1], as every table sample is (41_waveform.md R241). -/
abbrev InUnit (z : F32) : Prop := finite z ∧ -1 ≤ val z ∧ val z ≤ 1

theorem inUnit_of_roundsNear {z : F32} {r : ℝ} (h : RoundsNear z r) (hr : |r| ≤ 1) : InUnit z := by
  obtain ⟨r', hr', hz⟩ := h
  have hmargin : (2 : ℝ) ^ (-600 : ℤ) ≤ 1 := zpow_le_one_of_nonpos₀ one_le_two (by norm_num)
  obtain ⟨hlow', hhigh'⟩ := abs_le.1 hr'
  obtain ⟨hlow, hhigh⟩ := abs_le.1 hr
  have htwo : finite 0x40000000#32 ∧ val 0x40000000#32 = 2 := by decide +kernel
  have hfin : finite z := finite_of_inRangeF32 (finite_neg htwo.1) htwo.1
    (inRangeF32_of_roundsTo hz (finite_neg htwo.1) htwo.1
      (by rw [val_neg, htwo.2]; push_cast; linarith) (by rw [htwo.2]; push_cast; linarith))
  have hneg := val_le_one_of_roundsTo (finite_neg hfin) (roundsTo_neg hz) (by linarith)
  rw [val_neg] at hneg
  exact ⟨hfin, by linarith, val_le_one_of_roundsTo hfin hz (by linarith)⟩

end Sys2Proof.F32

namespace Sys2Proof.Numerics

open Sys2Proof.Claims (finite val RoundsNear)

/-! ## One period from its first quarter -/

/-- The sample of the first quarter that sample `i` repeats. -/
def quarterIndex (i : ℕ) : ℕ := if i % 2048 ≤ 1024 then i % 2048 else 2048 - i % 2048

theorem quarterIndex_le (i : ℕ) : quarterIndex i ≤ 1024 := by
  unfold quarterIndex
  split <;> omega

theorem quarterIndex_mirror {i : ℕ} (hi : i < 4096) : quarterIndex (4096 - i) = quarterIndex i := by
  unfold quarterIndex
  split <;> split <;> omega

theorem quarterIndex_eq_zero_iff (i : ℕ) : quarterIndex i = 0 ↔ i % 2048 = 0 := by
  unfold quarterIndex
  split <;> omega

theorem fromQuarter_start (f : ℕ → F32) {i : ℕ} (h : i % 2048 = 0) : fromQuarter f i = F32.zero :=
  if_pos ((quarterIndex_eq_zero_iff i).2 h)

theorem fromQuarter_firstHalf (f : ℕ → F32) {i : ℕ} (h0 : i ≠ 0) (h : i < 2048) :
    fromQuarter f i = f (quarterIndex i) := by
  have hne : quarterIndex i ≠ 0 := (quarterIndex_eq_zero_iff i).not.2 (by omega)
  exact (if_neg hne).trans (if_pos (by omega))

theorem fromQuarter_secondHalf (f : ℕ → F32) {i : ℕ} (h0 : 2048 < i) (h : i < 4096) :
    fromQuarter f i = F32.neg (f (quarterIndex i)) := by
  have hne : quarterIndex i ≠ 0 := (quarterIndex_eq_zero_iff i).not.2 (by omega)
  exact (if_neg hne).trans (if_neg (by omega))

theorem fromQuarter_mirror (f : ℕ → F32) {i : ℕ} (h1 : 1 ≤ i) (hi : i < 4096) (hne : i ≠ 2048) :
    fromQuarter f i = F32.neg (fromQuarter f (4096 - i)) := by
  have hindex := quarterIndex_mirror hi
  rcases lt_or_gt_of_ne hne with h | h
  · rw [fromQuarter_firstHalf f (by omega) h, fromQuarter_secondHalf f (by omega) (by omega), hindex,
      F32.neg_neg_pattern]
  · rw [fromQuarter_secondHalf f h hi, fromQuarter_firstHalf f (by omega) (by omega), hindex]

/-! ## The sine of a sample -/

theorem sin_firstHalf {i : ℕ} (h : i < 2048) :
    Real.sin (2 * Real.pi * i / 4096) = Real.sin (Real.pi * quarterIndex i / 2048) := by
  unfold quarterIndex
  rw [Nat.mod_eq_of_lt h]
  split
  · congr 1
    ring
  · rw [Nat.cast_sub h.le, ← Real.sin_pi_sub]
    congr 1
    push_cast
    ring

theorem sin_secondHalf {i : ℕ} (h0 : 2048 ≤ i) (h : i < 4096) :
    Real.sin (2 * Real.pi * i / 4096) = -Real.sin (Real.pi * quarterIndex i / 2048) := by
  have hindex : quarterIndex (i - 2048) = quarterIndex i := by
    unfold quarterIndex
    rw [← Nat.mod_eq_sub_mod h0]
  have harg : 2 * Real.pi * i / 4096 = 2 * Real.pi * (i - 2048 : ℕ) / 4096 + Real.pi := by
    rw [Nat.cast_sub h0]
    push_cast
    ring
  rw [harg, Real.sin_add_pi, sin_firstHalf (by omega), hindex]

/-- A table whose first quarter rounds an odd function of the sine rounds it everywhere. -/
theorem roundsNear_fromQuarter {f : ℕ → F32} {F : ℝ → ℝ} (hodd : ∀ x, F (-x) = -F x)
    (hf : ∀ j ≤ 1024, RoundsNear (f j) (F (Real.sin (Real.pi * j / 2048)))) {i : ℕ} (hi : i < 4096) :
    RoundsNear (fromQuarter f i) (F (Real.sin (2 * Real.pi * i / 4096))) := by
  have hquarter := hf (quarterIndex i) (quarterIndex_le i)
  have hF0 : F 0 = 0 := by
    have := hodd 0
    rw [neg_zero] at this
    linarith
  by_cases hstart : i % 2048 = 0
  · have hsin : Real.sin (Real.pi * quarterIndex i / 2048) = 0 := by
      rw [(quarterIndex_eq_zero_iff i).2 hstart, Nat.cast_zero, mul_zero, zero_div, Real.sin_zero]
    have hzero : Real.sin (2 * Real.pi * i / 4096) = 0 := by
      rcases lt_or_ge i 2048 with h | h
      · rw [sin_firstHalf h, hsin]
      · rw [sin_secondHalf h hi, hsin, neg_zero]
    rw [fromQuarter_start f hstart, hzero, hF0]
    exact F32.roundsNear_zero
  · rcases lt_or_ge i 2048 with h | h
    · rw [fromQuarter_firstHalf f (by omega) h, sin_firstHalf h]
      exact hquarter
    · rw [fromQuarter_secondHalf f (by omega) hi, sin_secondHalf h hi, hodd]
      exact F32.roundsNear_neg hquarter

theorem roundsNear_sinTable {i : ℕ} (hi : i < 4096) :
    RoundsNear (sinTable i) (Real.sin (2 * Real.pi * i / 4096)) := by
  refine roundsNear_fromQuarter (F := id) (fun _ => rfl) (fun j hj => roundsNear_nearest fun prec hprec => ?_) hi
  obtain ⟨henc, hrad⟩ := encloses_sinQuarter hprec hj
  exact ⟨henc, hrad.trans (by norm_num)⟩

theorem roundsNear_tanhSinTable {i : ℕ} (hi : i < 4096) :
    RoundsNear (tanhSinTable i) (Real.tanh (10 * Real.sin (2 * Real.pi * i / 4096))) :=
  roundsNear_fromQuarter (F := fun x => Real.tanh (10 * x)) (fun x => by rw [mul_neg, Real.tanh_neg])
    (fun _ hj => roundsNear_nearest fun _ hprec => encloses_tanhQuarter hprec hj) hi

/-! ## Corner samples (41_waveform.md R231, R235) -/

theorem sinTable_corners : sinTable 0 = 0#32 ∧ sinTable 2048 = 0#32 ∧ sinTable 1024 = 0x3F800000#32 ∧
    sinTable 3072 = 0xBF800000#32 ∧ sinTable 512 = 0x3F3504F3#32 := by decide +kernel

theorem tanhSinTable_corners : tanhSinTable 0 = 0#32 ∧ tanhSinTable 2048 = 0#32 ∧
    tanhSinTable 1024 = 0x3F800000#32 ∧ tanhSinTable 3072 = 0xBF800000#32 ∧ tanhSinTable 1 = 0x3C7B4EBF#32 := by
  decide +kernel

end Sys2Proof.Numerics

namespace Sys2Proof.Machine

open Sys2Proof.Claims (finite val)

/-- Settles O51: the first quarter is enclosed at every precision, the rest of a period is its mirror image, and the
corner samples are computed. -/
theorem sineAndSquareTableShape : Obligations.SineAndSquareTableShape := by
  obtain ⟨hs0, hs2048, hs1024, hs3072, hs512⟩ := Numerics.sinTable_corners
  obtain ⟨ht0, ht2048, ht1024, ht3072, ht1⟩ := Numerics.tanhSinTable_corners
  refine ⟨fun i hi => ⟨Numerics.roundsNear_sinTable hi, Numerics.roundsNear_tanhSinTable hi⟩, fun f hf => ?_, hs512,
    ht1, fun _ _ => ⟨rfl, rfl, rfl, rfl, rfl, rfl, rfl⟩⟩
  rw [List.mem_cons, List.mem_singleton] at hf
  rcases hf with rfl | rfl
  · exact ⟨hs0, hs2048, hs1024, hs3072, fun i => Numerics.fromQuarter_mirror _⟩
  · exact ⟨ht0, ht2048, ht1024, ht3072, fun i => Numerics.fromQuarter_mirror _⟩

/-! ## Samples stay in [-1, 1] (41_waveform.md R241) -/

theorem sinTable_inUnit {j : ℕ} (hj : j < 4096) : F32.InUnit (Numerics.sinTable j) :=
  F32.inUnit_of_roundsNear (Numerics.roundsNear_sinTable hj) (Real.abs_sin_le_one _)

theorem tanhSinTable_inUnit {j : ℕ} (hj : j < 4096) : F32.InUnit (Numerics.tanhSinTable j) :=
  F32.inUnit_of_roundsNear (Numerics.roundsNear_tanhSinTable hj) (Real.abs_tanh_lt_one _).le

theorem over2048_inUnit {num : ℤ} (hle : -2048 ≤ num ∧ num ≤ 2048) : F32.InUnit (over2048 num) := by
  obtain ⟨hfin, hval⟩ := over2048_exact hle rfl
  obtain ⟨hlow, hhigh⟩ : (-2048 : ℚ) ≤ num ∧ (num : ℚ) ≤ 2048 := by exact_mod_cast hle
  exact ⟨hfin, by linarith, by linarith⟩

theorem triangle_inUnit {j : ℕ} (hj : j < 4096) : F32.InUnit (triangle j) := by
  unfold triangle
  split_ifs
  all_goals exact over2048_inUnit (by omega)

theorem noiseDefault_inUnit (j : ℕ) : F32.InUnit (noiseDefault j) := by
  obtain ⟨hfin, hlow, hhigh⟩ := noiseDefault_inside j
  exact ⟨hfin, hlow.le, hhigh.le⟩

/-- Settles O52: the ramps and the noise by their exact ranges, sine and square because rounding does not pass 1. -/
theorem tableSamplesStayInUnit : Obligations.TableSamplesStayInUnit := by
  intro w j hw hj
  cases w
  case none => exact absurd rfl hw
  case noise => exact noiseDefault_inUnit j
  all_goals have hj' : j < 4096 := hj
  case square => exact tanhSinTable_inUnit hj'
  case saw1 => exact over2048_inUnit (by omega)
  case saw2 => exact over2048_inUnit (by omega)
  case triangle => exact triangle_inUnit hj'
  case sine => exact sinTable_inUnit hj'
  case custom => exact tanhSinTable_inUnit hj'

end Sys2Proof.Machine
end

section
/-! Sums with a zero and products with 0 and 1 that give the other operand (00_scope.md R10). -/

set_option autoImplicit false

namespace Sys2Proof.F32

open Sys2Proof.Claims (finite val)

/-- But for the two zeros, different patterns stand for different numbers. -/
theorem eq_of_val_eq {x y : F32} (h : val x = val y) (hne : val y ≠ 0) : x = y := by
  have hkey : key x = key y := le_antisymm ((key_le_key_iff x y).2 h.le) ((key_le_key_iff y x).2 h.ge)
  rw [← h, ne_eq, ← magBits_eq_zero_iff] at hne
  apply BitVec.eq_of_toNat_eq
  simp only [key, sign, magBits, BitVec.msb_eq_decide, decide_eq_true_eq] at hkey hne
  split_ifs at hkey <;> omega

theorem eq_zero_or_negZero {x : F32} (h : val x = 0) : x = zero ∨ x = 0x80000000#32 := by
  rw [← magBits_eq_zero_iff, magBits] at h
  have hlt := x.isLt
  rcases (by omega : x.toNat = 0 ∨ x.toNat = 2 ^ 31) with h | h
  · exact .inl (BitVec.eq_of_toNat_eq h)
  · exact .inr (BitVec.eq_of_toNat_eq h)

theorem mul_one_left {x : F32} (hx : finite x) : mul one x = x := by
  by_cases h : val x = 0
  · rcases eq_zero_or_negZero h with rfl | rfl <;> decide +kernel
  · obtain ⟨-, hval⟩ := mul_of_exact finite_one hx hx (by rw [val_one, one_mul])
    exact eq_of_val_eq hval h

theorem mul_zero_left {x : F32} (hx : finite x) : finite (mul zero x) ∧ val (mul zero x) = 0 := by
  have h := mul_of_exact finite_zero hx finite_zero (by rw [val_zero, zero_mul])
  rwa [val_zero] at h

/-- Adding to a zero of either sign gives the other operand, where that one is not -0.0. -/
theorem add_zero_left {z x : F32} (hz : finite z) (hz0 : val z = 0) (hx : finite x) (hne : x ≠ 0x80000000#32) :
    add z x = x := by
  by_cases h : val x = 0
  · obtain rfl := (eq_zero_or_negZero h).resolve_right hne
    rcases eq_zero_or_negZero hz0 with rfl | rfl <;> decide +kernel
  · obtain ⟨-, hval⟩ := add_of_exact hz hx hx (by rw [hz0, zero_add])
    exact eq_of_val_eq hval h

end Sys2Proof.F32

namespace Sys2Proof.Numerics

theorem Ball.scale_zero (a : Ball) (den : ℕ) : a.scale 0 den = ⟨0, 2⟩ := by simp [Ball.scale]

/-- exp(-2 pi 0 / sr) is 1 at every rate: the enclosure of the argument does not depend on the one of pi. -/
theorem expMinusTwoPi_zero (sr : ℕ) : expMinusTwoPi F32.zero sr = F32.one := by
  have harg (prec : ℕ) : (pi prec).scale (-2 * F32.toUnits F32.zero) (F32.one149 * sr) = ⟨0, 2⟩ :=
    Ball.scale_zero _ _
  simp only [expMinusTwoPi, harg]
  decide +kernel

end Sys2Proof.Numerics
end

section
/-! The output filter and the reverb: streams of samples through a state (42_filter.md R260 to R267, 43_reverb.md
R290 to R292). -/

set_option autoImplicit false

namespace Sys2Proof.Machine

open Sys2Proof.Claims (finite val onePoleCoefficient ladderK ladderP ladderR)

/-! ## Streams

The two filters and the reverb run the same recursion over a buffer, each with an output and a next state of its own. -/

/-- One output per sample and the state after the last. -/
def stream {σ : Type} (out : σ → F32 → F32) (next : σ → F32 → σ) : List F32 → σ → List F32 × σ
  | [], s => ([], s)
  | x :: xs, s => (out s x :: (stream out next xs (next s x)).1, (stream out next xs (next s x)).2)

section
variable {σ : Type} (out : σ → F32 → F32) (next : σ → F32 → σ)

theorem stream_append (xs ys : List F32) (s : σ) :
    stream out next (xs ++ ys) s =
      ((stream out next xs s).1 ++ (stream out next ys (stream out next xs s).2).1,
        (stream out next ys (stream out next xs s).2).2) := by
  induction xs generalizing s with
  | nil => rfl
  | cons x xs ih => simp only [List.cons_append, stream, ih]

/-- The states a stream passes through, from the first to the one after the last sample. -/
theorem stream_states (xs : List F32) (s : σ) :
    ∃ state : ℕ → σ, state 0 = s ∧
      (∀ i < xs.length, state (i + 1) = next (state i) (xs.getD i 0) ∧
        (stream out next xs s).1[i]? = some (out (state i) (xs.getD i 0))) ∧
      (stream out next xs s).2 = state xs.length := by
  induction xs generalizing s with
  | nil => exact ⟨fun _ => s, rfl, fun i hi => absurd hi i.not_lt_zero, rfl⟩
  | cons x xs ih =>
    obtain ⟨state, hstart, hstep, hend⟩ := ih (next s x)
    refine ⟨fun | 0 => s | i + 1 => state i, rfl, fun i hi => ?_, hend⟩
    cases i with
    | zero => exact ⟨hstart, rfl⟩
    | succ i => exact hstep i (Nat.lt_of_succ_lt_succ hi)

end

/-- The filter after one sample of the one-pole. -/
def onePoleStep (k : F32) (f : Filter) (x : F32) : Filter := { f with prev := onePoleNext k x f.prev }

theorem onePoleRun_eq_stream (k : F32) (xs : List F32) (f : Filter) :
    onePoleRun k xs f = stream (fun f x => (onePoleStep k f x).prev) (onePoleStep k) xs f := by
  induction xs generalizing f with
  | nil => rfl
  | cons x xs ih => simp only [onePoleRun, ih, stream, onePoleStep]

theorem ladderRun_eq_stream (c : LadderCoeffs) (xs : List F32) (f : Filter) :
    ladderRun c xs f = stream (fun f x => (ladderNext c x f).y4) (fun f x => ladderNext c x f) xs f := by
  induction xs generalizing f with
  | nil => rfl
  | cons x xs ih => simp only [ladderRun, ih, stream]

theorem reverbRun_eq_stream (d : ℕ) (xs : List F32) (rv : Reverb) :
    reverbRun d xs rv = stream (fun rv x => rv.wet d x) (fun rv x => rv.next d x) xs rv := by
  induction xs generalizing rv with
  | nil => rfl
  | cons x xs ih => simp only [reverbRun, ih, stream]

/-! ## What a run leaves unchanged (42_filter.md R260) -/

theorem onePoleRun_frame (k : F32) (xs : List F32) (f : Filter) :
    (onePoleRun k xs f).2 = { f with prev := (onePoleRun k xs f).2.prev } := by
  induction xs generalizing f with
  | nil => rfl
  | cons x xs ih => exact ih _

theorem ladderRun_frame (c : LadderCoeffs) (xs : List F32) (f : Filter) :
    (ladderRun c xs f).2 = { f with
      x1 := (ladderRun c xs f).2.x1, y1 := (ladderRun c xs f).2.y1, y2 := (ladderRun c xs f).2.y2,
      y3 := (ladderRun c xs f).2.y3, y4 := (ladderRun c xs f).2.y4 } := by
  induction xs generalizing f with
  | nil => rfl
  | cons x xs ih => exact ih _

/-! ## The kind selected -/

theorem Filter.apply_onePole {f : Filter} (h : f.kind = .onePole) (sr : ℕ) (mix : List F32) :
    f.apply sr mix = onePoleRun (f.onePoleK sr) mix f := by
  rw [Filter.apply, h]

theorem Filter.apply_moog {f : Filter} (h : f.kind = .moog) (sr : ℕ) (mix : List F32) :
    f.apply sr mix = ladderRun (f.ladderCoeffs sr) mix f := by
  rw [Filter.apply, h]

/-! ## State carried across buffers -/

/-- The filter keeps its kind and coefficients from one buffer to the next (42_filter.md R267). -/
theorem Filter.apply_append (f : Filter) (sr : ℕ) (xs ys : List F32) :
    f.apply sr (xs ++ ys) =
      ((f.apply sr xs).1 ++ ((f.apply sr xs).2.apply sr ys).1, ((f.apply sr xs).2.apply sr ys).2) := by
  cases h : f.kind with
  | onePole =>
    have hnext : (f.apply sr xs).2.apply sr ys = onePoleRun (f.onePoleK sr) ys (f.apply sr xs).2 := by
      rw [Filter.apply_onePole h, onePoleRun_frame]
      refine Filter.apply_onePole ?_ sr ys
      exact h
    rw [hnext, Filter.apply_onePole h, Filter.apply_onePole h]
    simp only [onePoleRun_eq_stream]
    exact stream_append _ _ _ _ _
  | moog =>
    have hnext : (f.apply sr xs).2.apply sr ys = ladderRun (f.ladderCoeffs sr) ys (f.apply sr xs).2 := by
      rw [Filter.apply_moog h, ladderRun_frame]
      refine Filter.apply_moog ?_ sr ys
      exact h
    rw [hnext, Filter.apply_moog h, Filter.apply_moog h]
    simp only [ladderRun_eq_stream]
    exact stream_append _ _ _ _ _

/-- The reverb keeps its delay from one buffer to the next (70_reset_and_hazards.md R576). -/
theorem Reverb.apply_append (rv : Reverb) (sr : ℕ) (xs ys : List F32) :
    rv.apply sr (xs ++ ys) =
      ((rv.apply sr xs).1 ++ ((rv.apply sr xs).2.apply sr ys).1, ((rv.apply sr xs).2.apply sr ys).2) := by
  have hdelay : (rv.apply sr xs).2.delaySamples sr = rv.delaySamples sr := by
    rw [Reverb.apply, reverbRun_frame]
    rfl
  rw [Reverb.apply.eq_1 (rv.apply sr xs).2, hdelay]
  simp only [Reverb.apply, reverbRun_eq_stream]
  exact stream_append _ _ _ _ _

/-- Settles O44: each run is a stream whose coefficients depend on registers it does not write. -/
theorem effectsStreamAcrossBuffers : Obligations.EffectsStreamAcrossBuffers :=
  fun f rv sr xs ys => ⟨f.apply_append sr xs ys, rv.apply_append sr xs ys⟩

/-! ## The coefficients (42_filter.md R261, R262, R265) -/

theorem ofNat_two : F32.ofNat 2 = 0x40000000#32 := by decide +kernel

theorem cutoff_eq_effectiveCutoff (f : Filter) (sr : ℕ) : Claims.cutoff f sr = f.effectiveCutoff sr := by
  rw [Claims.cutoff, ofNat_two]
  rfl

theorem onePoleCoefficient_eq (f : Filter) (sr : ℕ) : onePoleCoefficient f sr = f.onePoleK sr := by
  rw [onePoleCoefficient, cutoff_eq_effectiveCutoff]
  rfl

theorem ladderCoeffs_eq (f : Filter) (sr : ℕ) :
    f.ladderCoeffs sr = ⟨ladderK f sr, ladderP f sr, ladderR f sr⟩ := by
  simp only [ladderR, ladderP, ladderK, cutoff_eq_effectiveCutoff, ofNat_two, ofNat_one]
  rfl

theorem stage_eq_ladderStage (f : Filter) (sr : ℕ) (new old y : F32) :
    Claims.stage f sr new old y = ladderStage ⟨ladderK f sr, ladderP f sr, ladderR f sr⟩ new old y := by
  rw [Claims.stage, ladderStage]

/-! ## The recursions (42_filter.md R263, R266) -/

/-- Settles O43: the states of the kind's stream are the sequences. -/
theorem filterWritesSelectedStateOnly : Obligations.FilterWritesSelectedStateOnly := by
  intro f sr mix
  refine ⟨f.apply_length sr mix, fun hkind => ?_, fun hkind => ?_⟩
  · rw [Filter.apply_onePole hkind, onePoleRun_frame, onePoleRun_eq_stream]
    obtain ⟨state, hstart, hstep, hend⟩ := stream_states _ _ mix f
    refine ⟨fun i => (state i).prev, congrArg Filter.prev hstart, fun i hi => ?_, by rw [hend]⟩
    obtain ⟨hnext, hout⟩ := hstep i hi
    beta_reduce
    rw [onePoleCoefficient_eq, ofNat_one, hout, hnext]
    exact ⟨rfl, rfl⟩
  · rw [Filter.apply_moog hkind, ladderRun_frame, ladderRun_eq_stream, ladderCoeffs_eq]
    obtain ⟨state, hstart, hstep, hend⟩ := stream_states _ _ mix f
    refine ⟨fun i => (state i).x1, fun i => (state i).y1, fun i => (state i).y2, fun i => (state i).y3,
      fun i => (state i).y4, by simp only [hstart, and_self], fun i hi => ?_, by rw [hend]⟩
    obtain ⟨hnext, hout⟩ := hstep i hi
    rw [hout]
    simp only [hnext, ladderNext, stage_eq_ladderStage, and_self]

/-! ## The one-pole at cutoff 0 (42_filter.md R264) -/

theorem Filter.effectiveCutoff_zero {f : Filter} (h : f.cutoff = 0#32) {sr : ℕ} (hsr : sr ≤ 192000) :
    f.effectiveCutoff sr = F32.zero := by
  obtain ⟨hfin, hval⟩ := F32.ofNat_exact (n := sr) (by omega)
  have htwo : val 0x40000000#32 = 2 := by decide +kernel
  have hsr0 : (0 : ℚ) ≤ sr := sr.cast_nonneg
  obtain ⟨hhalf, h0, -⟩ := (F32.inRangeF32_iff F32.finite_zero hfin).1 <|
    F32.div_inRangeF32 hfin (by decide : finite 0x40000000#32) (by rw [htwo]; norm_num) F32.finite_zero hfin
      (by rw [hval, htwo, F32.val_zero]; positivity) (by rw [hval, htwo]; linarith)
  rw [Filter.effectiveCutoff, h]
  exact F32.clamp_of_inRangeF32 F32.finite_zero hhalf
    ((F32.inRangeF32_iff F32.finite_zero hhalf).2 ⟨F32.finite_zero, le_rfl, h0⟩)

theorem onePoleNext_one {x prev : F32} (hx : finite x) (hprev : finite prev) (hne : prev ≠ 0x80000000#32) :
    onePoleNext F32.one x prev = prev := by
  obtain ⟨hfin, hval⟩ := F32.mul_zero_left hx
  have hgain : F32.sub F32.one F32.one = F32.zero := by decide +kernel
  rw [onePoleNext, hgain, F32.mul_one_left hprev, F32.add_zero_left hfin hval hprev hne]

/-- A one-pole that answers its held value to every sample stays as it is. -/
theorem onePoleRun_of_fixed {k : F32} {xs : List F32} {f : Filter}
    (h : ∀ x ∈ xs, onePoleNext k x f.prev = f.prev) :
    onePoleRun k xs f = (List.replicate xs.length f.prev, f) := by
  induction xs with
  | nil => rfl
  | cons x xs ih =>
    obtain ⟨hx, hxs⟩ := List.forall_mem_cons.1 h
    simp only [onePoleRun, hx, ih hxs, List.length_cons, List.replicate_succ]

/-- Settles O42: the coefficient is 1, so the input is multiplied by 0 and the held value by 1. -/
theorem onePoleHoldsAtZeroCutoff : Obligations.OnePoleHoldsAtZeroCutoff := by
  intro f sr mix hkind hcutoff _ hsr hmix hprev hne
  have hk : f.onePoleK sr = F32.one := by
    rw [Filter.onePoleK, Filter.effectiveCutoff_zero hcutoff hsr, Numerics.expMinusTwoPi_zero]
  rw [Filter.apply_onePole hkind, hk]
  exact onePoleRun_of_fixed fun x hx => onePoleNext_one (hmix x hx) hprev hne

end Sys2Proof.Machine
end

section
/-! The delay line of the reverb: what a run has written and what it still reads from before (43_reverb.md R290 to
R292). -/

set_option autoImplicit false

namespace Sys2Proof.Machine

open Sys2Proof.Claims (finite val)

/-! ## The delay (43_reverb.md R290) -/

theorem Reverb.delaySamples_lt (rv : Reverb) (sr : ℕ) : rv.delaySamples sr < 480000 := by
  rw [Reverb.delaySamples, Int.toNat_lt (Int.emod_nonneg _ (by decide))]
  exact Int.emod_lt_of_pos _ (by decide)

theorem Reverb.delaySamples_eq {rv : Reverb} (h : finite rv.delayMs) (sr : ℕ) :
    rv.delaySamples sr = (⌊val rv.delayMs * sr / 1000⌋ % 480000).toNat := by
  have hratio : val rv.delayMs * sr / 1000 =
      ((F32.toUnits rv.delayMs * sr : ℤ) : ℚ) / ((1000 * F32.one149 : ℕ) : ℚ) := by
    rw [F32.val_eq_toUnits, F32.one149_eq]
    push_cast
    ring
  rw [hratio, Rat.floor_intCast_div_natCast, Reverb.delaySamples, if_pos (F32.isFinite_eq_true h)]
  rfl

/-! ## The registers and the RAM after `n` samples (43_reverb.md R291) -/

theorem Reverb.next_wp (rv : Reverb) (d : ℕ) (x : F32) : (rv.next d x).wp.val = (rv.wp.val + 1) % 480000 := rfl

/-- What the reverb `t` holds after `n` samples from `rv` with the outputs `wet`: the `n` cells from the write position
on are `decay` times the outputs, and the others are as they were. -/
structure Reverb.RanTo (rv : Reverb) (wet : ℕ → F32) (n : ℕ) (t : Reverb) : Prop where
  frame : t = { rv with buf := t.buf, wp := t.wp }
  wf : t.buf.wf reverbDefault 480000 = true
  wp : t.wp.val = (rv.wp.val + n) % 480000
  written : ∀ i < n, t.buf.read reverbDefault ((rv.wp.val + i) % 480000) = F32.mul (wet i) rv.decay
  kept : ∀ a < 480000, (∀ i < n, a ≠ (rv.wp.val + i) % 480000) →
    t.buf.read reverbDefault a = rv.buf.read reverbDefault a

namespace Reverb.RanTo

variable {rv t : Reverb} {wet : ℕ → F32} {n : ℕ}

theorem zero (hwf : rv.buf.wf reverbDefault 480000 = true) (wet : ℕ → F32) : rv.RanTo wet 0 rv where
  frame := rfl
  wf := hwf
  wp := (Nat.mod_eq_of_lt rv.wp.isLt).symm
  written i hi := absurd hi i.not_lt_zero
  kept _ _ _ := rfl

theorem mix_eq (h : rv.RanTo wet n t) : t.mix = rv.mix := by rw [h.frame]

theorem decay_eq (h : rv.RanTo wet n t) : t.decay = rv.decay := by rw [h.frame]

/-- One sample writes `decay` times its output at the write position and no other cell. -/
theorem read_next (h : rv.RanTo wet n t) (d : ℕ) (x : F32) (a : ℕ) :
    (t.next d x).buf.read reverbDefault a =
      if a = (rv.wp.val + n) % 480000 then F32.mul (t.wet d x) rv.decay else t.buf.read reverbDefault a := by
  rw [Reverb.next, SampleMem.read_write reverbDefault 480000 _ _ _ _ h.wf, h.wp, h.decay_eq]

/-- In the first 480000 samples each write meets a cell that the run has not written yet. -/
theorem next (h : rv.RanTo wet n t) (hn : n < 480000) {d : ℕ} {x : F32} (hwet : wet n = t.wet d x) :
    rv.RanTo wet (n + 1) (t.next d x) where
  frame := by
    rw [Reverb.next, h.frame]
  wf := Reverb.next_wf t d x h.wf
  wp := by
    rw [Reverb.next_wp, h.wp, Nat.mod_add_mod, Nat.add_assoc]
  written i hi := by
    rw [h.read_next]
    rcases Nat.lt_succ_iff_lt_or_eq.1 hi with hlt | rfl
    · rw [if_neg (by omega), h.written i hlt]
    · rw [if_pos rfl, hwet]
  kept a ha hother := by
    rw [h.read_next, if_neg (hother n n.lt_succ_self)]
    exact h.kept a ha fun i hi => hother i (Nat.lt_succ_of_lt hi)

/-! ## The delayed sample (43_reverb.md R292) -/

theorem readPos_eq (h : rv.RanTo wet n t) {d : ℕ} (hd : d < 480000) :
    t.readPos d = (rv.wp.val + n + 480000 - d) % 480000 := by
  have hwp := h.wp
  rw [Reverb.readPos, Config.reverbLen, Nat.mod_eq_of_lt hd]
  omega

/-- A delay of 1 to `n` samples reaches a cell the run has written; a longer one, or none, reaches one from before. -/
theorem read_readPos (h : rv.RanTo wet n t) (hn : n < 480000) {d : ℕ} (hd : d < 480000) :
    t.buf.read reverbDefault (t.readPos d) =
      if 0 < d ∧ d ≤ n then F32.mul (wet (n - d)) rv.decay
      else rv.buf.read reverbDefault ((rv.wp.val + n + 480000 - d) % 480000) := by
  rw [h.readPos_eq hd]
  split
  · have hpos : (rv.wp.val + n + 480000 - d) % 480000 = (rv.wp.val + (n - d)) % 480000 := by omega
    rw [hpos, h.written (n - d) (by omega)]
  · exact h.kept _ (Nat.mod_lt _ (by decide)) fun i hi => by omega

theorem wet_eq (h : rv.RanTo wet n t) (hn : n < 480000) {d : ℕ} (hd : d < 480000) (x : F32) :
    t.wet d x = F32.add x (F32.mul rv.mix
      (if 0 < d ∧ d ≤ n then F32.mul (wet (n - d)) rv.decay
       else rv.buf.read reverbDefault ((rv.wp.val + n + 480000 - d) % 480000))) := by
  rw [Reverb.wet, h.read_readPos hn hd, h.mix_eq]

end Reverb.RanTo

/-! ## A whole buffer -/

/-- A run over at most 480000 samples passes through states that each hold the outputs so far, and each output is the
wet sample of its state. -/
theorem Reverb.apply_ranTo {rv : Reverb} (hwf : rv.buf.wf reverbDefault 480000 = true) (sr : ℕ) {xs : List F32}
    (hlen : xs.length ≤ 480000) :
    rv.RanTo (fun i => (rv.apply sr xs).1.getD i 0) xs.length (rv.apply sr xs).2 ∧
      ∀ i < xs.length, ∃ t, rv.RanTo (fun i => (rv.apply sr xs).1.getD i 0) i t ∧
        (rv.apply sr xs).1.getD i 0 = t.wet (rv.delaySamples sr) (xs.getD i 0) := by
  rw [Reverb.apply, reverbRun_eq_stream]
  obtain ⟨state, hstart, hstep, hend⟩ := stream_states _ _ xs rv
  generalize stream _ _ xs rv = run at hstep hend ⊢
  have hout (i : ℕ) (hi : i < xs.length) :
      run.1.getD i 0 = (state i).wet (rv.delaySamples sr) (xs.getD i 0) := by
    rw [List.getD_eq_getElem?_getD, (hstep i hi).2, Option.getD_some]
  have hran (n : ℕ) (hn : n ≤ xs.length) : rv.RanTo (fun i => run.1.getD i 0) n (state n) := by
    induction n with
    | zero => exact hstart ▸ .zero hwf _
    | succ n ih =>
      rw [(hstep n hn).1]
      exact (ih (Nat.le_of_succ_le hn)).next (by omega) (hout n hn)
  exact ⟨hend ▸ hran _ le_rfl, fun i hi => ⟨state i, hran i hi.le, hout i hi⟩⟩

/-- Settles O45: at most 480000 samples write each cell at most once, so a delayed read meets either an output of the
run or the RAM from before. -/
theorem reverbReadsItsDelayedOutput : Obligations.ReverbReadsItsDelayedOutput := by
  intro rv sr xs hwf hlen hfin
  obtain ⟨hend, houts⟩ := Reverb.apply_ranTo hwf sr hlen
  rw [← Reverb.delaySamples_eq hfin]
  refine ⟨reverbRun_length _ xs rv, fun i hi => ?_, hend.frame, hend.wp, hend.written, hend.kept⟩
  obtain ⟨t, ht, hwet⟩ := houts i hi
  rw [hwet]
  exact ht.wet_eq (by omega) (rv.delaySamples_lt sr) _

end Sys2Proof.Machine
end

section
/-! The patches: every operation keeps each in range, its name bounded and its MOD envelopes at zero
(10_state.md R36, 44_patch_record.md R323, R326). -/

set_option autoImplicit false

namespace Sys2Proof.Machine

open Sys2Proof.Claims (finite val)
open Sys2Proof.F32 (inRangeF32_iff finite_zero finite_one val_zero val_one)

/-! ## What a byte decodes to (40_envelope.md R207, 44_patch_record.md R324) -/

theorem val_two : val 0x40000000#32 = 2 := by decide +kernel

theorem finite_two : finite 0x40000000#32 := by decide

theorem val_minusOne : val 0xBF800000#32 = -1 := by decide +kernel

theorem finite_minusOne : finite 0xBF800000#32 := by decide

theorem inRangeF32_detune_iff (x : F32) :
    inRangeF32 x 0xBF800000#32 F32.one ↔ finite x ∧ -1 ≤ val x ∧ val x ≤ 1 := by
  rw [inRangeF32_iff finite_minusOne finite_one, val_minusOne, val_one]

/-- A byte decodes as the 7-bit value it is cut off at. -/
theorem decFrac_eq_fraction7 (b : Byte) : decFrac b = fraction7 (BitVec.ofNat 7 (min b.toNat 127)) := by
  have h : (BitVec.ofNat 7 (min b.toNat 127)).toNat = min b.toNat 127 := by
    rw [BitVec.toNat_ofNat, Nat.mod_eq_of_lt (by omega)]
  rw [decFrac, fraction7, h]

theorem decFrac_inRangeF32 (b : Byte) : inRangeF32 (decFrac b) F32.zero F32.one :=
  decFrac_eq_fraction7 b ▸ fraction7_inRangeF32 _

theorem decTime_inRangeF32 (b : Byte) {top : F32} (htop : finite top) (h0 : 0 ≤ val top) :
    inRangeF32 (decTime b top) F32.zero top := by
  refine F32.mul_inRangeF32_nonneg finite_one htop htop (decFrac_inRangeF32 b) ?_ (by rw [val_one, one_mul])
  exact (inRangeF32_iff finite_zero htop).2 ⟨htop, by rwa [val_zero], le_rfl⟩

theorem twice_decFrac_inRangeF32 (b : Byte) :
    inRangeF32 (F32.mul 0x40000000#32 (decFrac b)) F32.zero 0x40000000#32 :=
  F32.mul_inRangeF32_nonneg finite_two finite_one finite_two ⟨by decide, by decide⟩ (decFrac_inRangeF32 b)
    (by rw [val_one, mul_one])

theorem decDetune_inRangeF32 (b : Byte) : inRangeF32 (decDetune b) 0xBF800000#32 F32.one := by
  obtain ⟨hfin, h0, h2⟩ := (inRangeF32_iff finite_zero finite_two).1 (twice_decFrac_inRangeF32 b)
  rw [val_zero] at h0
  rw [val_two] at h2
  exact F32.sub_inRangeF32 hfin finite_one finite_minusOne finite_one (by rw [val_minusOne, val_one]; linarith)
    (by rw [val_one]; linarith)

/-! ## Parts of a patch, and parts in range in their place

Stated for any value: checking them for a value that is computed would compute it. -/

theorem Patch.legal.osc0 {p : Patch} (hp : p.legal) : p.osc0.legal := by
  obtain ⟨-, -, -, hosc0, -⟩ := hp
  exact hosc0

theorem Patch.legal.osc1 {p : Patch} (hp : p.legal) : p.osc1.legal := by
  obtain ⟨-, -, -, -, hosc1, -⟩ := hp
  exact hosc1

theorem EnvSet.legal.setCarried {s : EnvSet} (hs : s.legal) {volume pitch filter pwm : Envelope}
    (hvolume : volume.legal) (hpitch : pitch.legal) (hfilter : filter.legal) (hpwm : pwm.legal) :
    EnvSet.legal { s with volume := volume, pitch := pitch, filter := filter, pwm := pwm } := by
  obtain ⟨-, -, -, -, hmod⟩ := hs
  exact ⟨hvolume, hpitch, hfilter, hpwm, hmod⟩

theorem Patch.legal.setName {p : Patch} (hp : p.legal) {name : List Byte} (hlen : name.length ≤ Config.nameMax)
    (hzero : (0 : Byte) ∉ name) : Patch.legal { p with name := name } := by
  obtain ⟨-, -, hrest⟩ := hp
  exact ⟨hlen, hzero, hrest⟩

theorem Patch.legal.setMixLevel {p : Patch} (hp : p.legal) {x : F32} (hx : inRangeF32 x F32.zero F32.one) :
    Patch.legal { p with mixLevel := x } := by
  obtain ⟨hlen, hzero, -, hrest⟩ := hp
  exact ⟨hlen, hzero, hx, hrest⟩

theorem Patch.legal.setOsc0 {p : Patch} (hp : p.legal) {o : Oscillator} (ho : o.legal) :
    Patch.legal { p with osc0 := o } := by
  obtain ⟨hlen, hzero, hmix, -, hrest⟩ := hp
  exact ⟨hlen, hzero, hmix, ho, hrest⟩

theorem Patch.legal.setOsc1 {p : Patch} (hp : p.legal) {o : Oscillator} (ho : o.legal) :
    Patch.legal { p with osc1 := o } := by
  obtain ⟨hlen, hzero, hmix, hosc0, -, hrest⟩ := hp
  exact ⟨hlen, hzero, hmix, hosc0, ho, hrest⟩

theorem Patch.legal.setLfo {p : Patch} (hp : p.legal) (w : Wave) {freq depth : F32}
    (hfreq : inRangeF32 freq F32.zero Config.lfoFreqMax) (hdepth : inRangeF32 depth F32.zero F32.one) :
    Patch.legal { p with lfoWave := w, lfoFreq := freq, lfoDepth := depth } := by
  obtain ⟨hlen, hzero, hmix, hosc0, hosc1, -⟩ := hp
  exact ⟨hlen, hzero, hmix, hosc0, hosc1, hfreq, hdepth⟩

/-! ## What a block decodes to (44_patch_record.md R333) -/

theorem unpackName_length_le (c : List Byte) : (unpackName c).length ≤ Config.nameMax :=
  (List.takeWhile_sublist _).length_le.trans (List.length_take_le _ _)

theorem zero_notMem_unpackName (c : List Byte) : (0 : Byte) ∉ unpackName c := fun h => by
  simpa using List.mem_takeWhile_imp h

theorem envAt_legal (c : List Byte) (i : ℕ) : (envAt c i).legal := by
  have htime (b : Byte) : inRangeF32 (decTime b Config.envTimeMax) F32.zero Config.envTimeMax :=
    decTime_inRangeF32 b finite_envTimeMax (by norm_num [val_envTimeMax])
  simp only [Envelope.legal, envAt, Envelope.unpack]
  exact ⟨htime _, htime _, decFrac_inRangeF32 _, htime _, decFrac_inRangeF32 _, htime _⟩

theorem EnvSet.legal.unpack {s : EnvSet} (hs : s.legal) (c : List Byte) (i : ℕ) : (s.unpack c i).legal :=
  hs.setCarried (envAt_legal _ _) (envAt_legal _ _) (envAt_legal _ _) (envAt_legal _ _)

theorem Oscillator.legal.unpack {o : Oscillator} (ho : o.legal) (c : List Byte) : (o.unpack c).legal := by
  obtain ⟨-, -, henv, hlfoEnv⟩ := ho
  simp only [Oscillator.legal, Oscillator.unpack]
  exact ⟨decFrac_inRangeF32 _, decDetune_inRangeF32 _, henv.unpack c 4, hlfoEnv.unpack c 28⟩

/-- A block replaces the parts of a patch it writes by parts in range, whatever its bytes are. -/
theorem Patch.legal.decodeBlock {p : Patch} (hp : p.legal) (b : Block) (c : List Byte) :
    (decodeBlock b c p).legal := by
  cases b with
  | name => exact hp.setName (unpackName_length_le c) (zero_notMem_unpackName c)
  | mix => exact hp.setMixLevel (decFrac_inRangeF32 _)
  | osc1 => exact hp.setOsc0 (hp.osc0.unpack c)
  | osc2 => exact hp.setOsc1 (hp.osc1.unpack c)
  | lfo =>
    exact hp.setLfo _ (decTime_inRangeF32 _ finite_lfoFreqMax (by norm_num [val_lfoFreqMax])) (decFrac_inRangeF32 _)
  | mod1 | mod2 => exact hp

theorem Patch.legal.unpackLoop {p : Patch} (hp : p.legal) (e : ℕ) (bs : List Block) (a : ℕ) (pay : List Byte) :
    (unpackLoop e bs a pay p).1.legal := by
  induction bs generalizing a pay p with
  | nil => exact hp
  | cons b bs ih =>
    obtain h | h | h := unpackLoop_cons_cases e b bs a pay <;> rw [h]
    · exact hp
    · exact ih hp _ _
    · exact ih (hp.decodeBlock b _) _ _

/-! ## What an operation does to the patches (47_engine.md R475) -/

/-- The working patch and the bank of two states agree. -/
structure SamePatches (s t : State) : Prop where
  work : t.work = s.work
  bank : t.bank = s.bank

theorem SamePatches.trans {s t u : State} (h : SamePatches s t) (h' : SamePatches t u) : SamePatches s u :=
  ⟨h'.work.trans h.work, h'.bank.trans h.bank⟩

theorem event_samePatches (e : Event) (s : State) : SamePatches s (s.event e) := ⟨rfl, rfl⟩

theorem accept_samePatches (rest : List Input) (s : State) : SamePatches s (s.accept rest) := ⟨rfl, rfl⟩

theorem startOsc_samePatches (sel : Sel) (note : BitVec 7) (volume : F32) (k : OscIndex) (s : State) :
    SamePatches s (startOsc sel note volume k s) := by
  obtain ⟨_, _, _, _, h⟩ := startOsc_frame sel note volume k s
  rw [h]
  exact ⟨rfl, rfl⟩

theorem engineNoteOn_samePatches (sel : Sel) (note : BitVec 7) (volume : F32) (s : State) :
    SamePatches s (engineNoteOn sel note volume s) := by
  unfold engineNoteOn
  split
  · exact ⟨rfl, rfl⟩
  · exact (startOsc_samePatches ..).trans (startOsc_samePatches ..)

theorem writeReg_samePatches (addr : Byte) (d : Word) (s : State) : SamePatches s (s.writeReg addr d) := by
  obtain ⟨_, _, _, _, h⟩ := State.writeReg_frame addr d s
  rw [h]
  exact ⟨rfl, rfl⟩

theorem fillLegalBody_samePatches (n sr : ℕ) (s : State) : SamePatches s (fillLegalBody n sr s) := ⟨rfl, rfl⟩

/-- What an operation can do to the working patch and the bank. -/
inductive PatchesStep (s : State) : State → Prop
  | kept {t : State} (h : SamePatches s t) : PatchesStep s t
  | selected (i : Fin 32) : PatchesStep s { s with work := s.bank[i], cur := i }
  | stored (i : Fin 32) : PatchesStep s (s.setBank i s.work)
  | delivered (pay : List Byte) (address size : ℕ) : PatchesStep s (unpackWork pay address size s)
  | reset {t : State} (h : SamePatches State.reset t) : PatchesStep s t
  | faulted {t : State} (h : t.fault ≠ none) : PatchesStep s t

theorem selectPatch_patchesStep (i : ℕ) (s : State) : PatchesStep s (selectPatch i s) := by
  unfold selectPatch
  split
  · exact .selected _
  · exact .kept (event_samePatches ..)

theorem exec_reset_samePatches {s t : State} (h : exec .reset s = .next t) : SamePatches State.reset t := by
  cases h
  exact ⟨rfl, rfl⟩

theorem exec_patchesStep {i : Instr} {s t : State} (h : exec i s = .next t) : PatchesStep s t := by
  cases i with
  | noteOn note velocity =>
    cases h
    exact .kept (engineNoteOn_samePatches ..)
  | noteOnEx p note velocity =>
    simp only [exec, execNoteOnEx] at h
    split at h
    · cases h
      exact .kept (engineNoteOn_samePatches ..)
    · cases h
      exact .kept (event_samePatches ..)
  | ccPatch index | patchSelect index =>
    cases h
    exact selectPatch_patchesStep ..
  | bulkRequest addr size =>
    simp only [exec, execBulkRequest] at h
    split at h
    · cases h
      exact .kept ⟨rfl, rfl⟩
    · cases h
      exact .kept (event_samePatches ..)
  | bulkDeliver addr payload =>
    simp only [exec, execBulkDeliver] at h
    split at h
    · cases h
      exact .delivered ..
    · cases h
      exact .kept (event_samePatches ..)
  | fill n sr =>
    simp only [exec, execFill] at h
    split at h
    · cases h
      exact .kept (fillLegalBody_samePatches ..)
    · cases h
      exact .faulted (by simp)
  | store index =>
    simp only [exec, execStore] at h
    split at h
    · cases h
      exact .stored _
    · cases h
      exact .kept (event_samePatches ..)
  | cfgWrite addr d =>
    cases h
    exact .kept (writeReg_samePatches ..)
  | reset => exact .reset (exec_reset_samePatches h)
  | noteOff _ | ccCutoff _ _ | ccReverb _ | pitchBend _ | update _ | cfgRead _ =>
    cases h
    exact .kept ⟨rfl, rfl⟩
  | ccOther _ | ctrlUnknown _ | msgTooShort _ | hostUnknown _ =>
    cases h
    exact .kept (event_samePatches ..)

/-! ## One step -/

/-- What `State.patchesLegal` says of an unfaulted state. -/
structure State.PatchesInRange (s : State) : Prop where
  work : s.work.legal
  bank : ∀ i : Fin 32, (s.bank[i]).legal

theorem State.patchesLegal_iff (s : State) : s.patchesLegal ↔ (s.safe → s.PatchesInRange) :=
  ⟨fun h hs => ⟨(h hs).1, (h hs).2⟩, fun h hs => ⟨(h hs).work, (h hs).bank⟩⟩

theorem SamePatches.patchesInRange {s t : State} (h : SamePatches s t) (hs : s.PatchesInRange) :
    t.PatchesInRange :=
  ⟨h.work ▸ hs.work, h.bank ▸ hs.bank⟩

theorem patchesInRange_reset : State.reset.PatchesInRange := by
  obtain ⟨hwork, hbank⟩ := Tests.witness_state_legal.patches rfl
  exact ⟨hwork, hbank⟩

theorem State.PatchesInRange.unpackWork {s : State} (hs : s.PatchesInRange) (pay : List Byte) (address size : ℕ) :
    (unpackWork pay address size s).PatchesInRange := by
  obtain ⟨_, h⟩ := unpackWork_frame pay address size s
  rw [h]
  exact ⟨hs.work.unpackLoop _ _ _ _, hs.bank⟩

/-- An operation keeps every patch in range, or leaves the block faulted. -/
theorem PatchesStep.patchesInRange {s t : State} (h : PatchesStep s t) (hs : s.PatchesInRange) (ht : t.safe) :
    t.PatchesInRange := by
  cases h with
  | kept h => exact h.patchesInRange hs
  | selected i => exact ⟨hs.bank i, hs.bank⟩
  | stored i =>
    refine ⟨hs.work, fun j => ?_⟩
    rw [State.setBank_get]
    split
    · exact hs.work
    · exact hs.bank j
  | delivered pay address size => exact hs.unpackWork pay address size
  | reset h => exact h.patchesInRange patchesInRange_reset
  | faulted h => exact absurd ht h

/-- Settles O58: an operation copies a patch, or unpacks blocks into one, and a block holds parts in range whatever
its bytes are. -/
theorem stepKeepsPatchesLegal : Obligations.StepKeepsPatchesLegal := by
  intro s t hs h
  rw [State.patchesLegal_iff] at hs ⊢
  exact step_keeps (P := State.PatchesInRange) (Q := State.PatchesInRange) (fun _ => id)
    (fun s rest => (accept_samePatches rest s).patchesInRange)
    (fun _ _ _ hs hx => (exec_patchesStep hx).patchesInRange hs)
    (fun _ _ hx => (exec_reset_samePatches hx).patchesInRange patchesInRange_reset) hs h

end Sys2Proof.Machine
end

section
/-! The packed record, sub-block by sub-block, and the reply of BULK_REQUEST (44_patch_record.md R320, R330, R340). -/

set_option autoImplicit false

namespace Sys2Proof.Machine

open Sys2Proof.Claims (OscBytes envOf envByte)

/-! ## The sub-blocks of a packed record (44_patch_record.md R320) -/

/-- The bytes of one sub-block of the packed record (44_patch_record.md R330). -/
def Patch.blockBytes (p : Patch) : Block → List Byte
  | .name => zeroPad 20 p.name
  | .mix => [encFrac p.mixLevel, 0]
  | .osc1 => p.osc0.pack
  | .osc2 => p.osc1.pack
  | .lfo => [p.lfoWave.code, encTime p.lfoFreq Config.lfoFreqMax, encFrac p.lfoDepth] ++ List.replicate 17 0
  | .mod1 => p.mod0.pack
  | .mod2 => p.mod1.pack

theorem Oscillator.pack_length (o : Oscillator) : o.pack.length = 52 := rfl

theorem Patch.blockBytes_length (p : Patch) (b : Block) : (p.blockBytes b).length = b.len := by
  cases b with
  | name => exact zeroPad_length 20 p.name
  | osc1 | osc2 => exact Oscillator.pack_length _
  | mix | lfo | mod1 | mod2 => rfl

theorem Patch.pack_eq_flatMap (p : Patch) : p.pack = subBlocks.flatMap p.blockBytes := by
  simp [Patch.pack, subBlocks, Patch.blockBytes]

theorem Patch.flatMap_blockBytes_length (p : Patch) (bs : List Block) :
    (bs.flatMap p.blockBytes).length = (bs.map Block.len).sum := by
  simp [List.length_flatMap, Patch.blockBytes_length]

/-- A sub-block starts where the blocks before it end. -/
theorem exists_subBlocks_eq (b : Block) :
    ∃ before after, subBlocks = before ++ b :: after ∧ (before.map Block.len).sum = b.start := by
  refine ⟨subBlocks.takeWhile (· ≠ b), (subBlocks.dropWhile (· ≠ b)).tail, ?_, ?_⟩ <;> cases b <;> decide

theorem Patch.take_drop_pack (p : Patch) (b : Block) : (p.pack.drop b.start).take b.len = p.blockBytes b := by
  obtain ⟨before, after, hblocks, hstart⟩ := exists_subBlocks_eq b
  rw [Patch.pack_eq_flatMap, hblocks, List.flatMap_append, List.flatMap_cons,
    List.drop_left' ((p.flatMap_blockBytes_length before).trans hstart), List.take_left' (p.blockBytes_length b)]

theorem Patch.getElem?_pack (p : Patch) (b : Block) {k : ℕ} (hk : k < b.len) :
    p.pack[b.start + k]? = (p.blockBytes b)[k]? := by
  rw [← Patch.take_drop_pack, List.getElem?_take_of_lt hk, List.getElem?_drop]

/-! ## Byte by byte (44_patch_record.md R322, R330; 20_memory.md R103) -/

theorem getElem?_zeroPad {n i : ℕ} (bytes : List Byte) (hi : i < n) :
    (zeroPad n bytes)[i]? = some (bytes.getD i 0) := by
  rw [zeroPad, List.getD_eq_getElem?_getD]
  rcases lt_or_ge i bytes.length with h | h
  · rw [List.getElem?_append_left (by simp; omega), List.getElem?_take_of_lt hi, List.getElem?_eq_getElem h]
    rfl
  · rw [List.getElem?_append_right (by simp; omega), List.getElem?_replicate_of_lt (by simp; omega),
      List.getElem?_eq_none h]
    rfl

/-- The envelopes of an oscillator block, and the fields of each, in their order. -/
theorem Oscillator.getElem?_pack_env (o : Oscillator) {j f : ℕ} (hj : j < 4) (hf : f < 6) :
    o.pack[4 + 6 * j + f]? = some (envByte (envOf o.env j) f) ∧
      o.pack[28 + 6 * j + f]? = some (envByte (envOf o.lfoEnv j) f) := by
  interval_cases j <;> interval_cases f <;> exact ⟨rfl, rfl⟩

/-- Where a list holds the bytes of a packed oscillator from `base` on, it holds an oscillator block. -/
theorem oscBytes_of_getElem?_eq {bytes : List Byte} {base : ℕ} {o : Oscillator}
    (h : ∀ k < 52, bytes[base + k]? = o.pack[k]?) : OscBytes bytes base o := by
  refine ⟨h 0 (by decide), h 1 (by decide), h 2 (by decide), h 3 (by decide), fun j f hj hf => ?_⟩
  obtain ⟨henv, hlfoEnv⟩ := o.getElem?_pack_env hj hf
  rw [← h _ (by omega)] at henv hlfoEnv
  simpa only [← add_assoc] using And.intro henv hlfoEnv

/-- Settles O24: the record is its sub-blocks one after the other, and each is read in its own bytes. -/
theorem packPutsEveryByte : Obligations.PackPutsEveryByte := by
  intro p _
  have hbyte (b : Block) (k : ℕ) (hk : k < b.len) := p.getElem?_pack b hk
  refine ⟨p.pack_length, fun i hi => ?_, hbyte .mix 0 (by decide), hbyte .mix 1 (by decide),
    oscBytes_of_getElem?_eq (hbyte .osc1), oscBytes_of_getElem?_eq (hbyte .osc2), hbyte .lfo 0 (by decide),
    hbyte .lfo 1 (by decide), hbyte .lfo 2 (by decide), fun i hi hi' => ?_, hbyte .mod1 0 (by decide),
    hbyte .mod1 1 (by decide), hbyte .mod2 0 (by decide), hbyte .mod2 1 (by decide), ?_⟩
  · have h := hbyte .name i hi
    rw [Block.start, zero_add] at h
    exact h.trans (getElem?_zeroPad _ hi)
  · obtain ⟨k, rfl⟩ := Nat.exists_eq_add_of_le hi
    have h := hbyte .lfo (3 + k) (show 3 + k < 20 by omega)
    rw [← add_assoc] at h
    refine h.trans ?_
    rw [Patch.blockBytes, List.getElem?_append_right (by simp), List.getElem?_replicate_of_lt (by simp; omega)]
  · simpa using ⟨hbyte .mod1 2 (by decide), hbyte .mod1 3 (by decide), hbyte .mod2 2 (by decide),
      hbyte .mod2 3 (by decide)⟩

/-! ## BULK_REQUEST (44_patch_record.md R340, R342) -/

theorem lo7_eq (v : BitVec 14) : lo7 v = BitVec.ofNat 8 (v.toNat % 128) := by
  apply BitVec.eq_of_toNat_eq
  simp [lo7, byte7]

theorem hi7_eq (v : BitVec 14) : hi7 v = BitVec.ofNat 8 (v.toNat / 128) := by
  have h : v.toNat / 128 < 128 := by omega
  apply BitVec.eq_of_toNat_eq
  simp only [hi7, byte7, BitVec.toNat_setWidth, BitVec.extractLsb'_toNat, BitVec.toNat_ofNat,
    Nat.shiftRight_eq_div_pow]
  omega

theorem bulkInRange_iff (addr size : ℕ) : bulkInRange addr size = true ↔ addr + size ≤ 154 := decide_eq_true_iff

/-- Settles O23: the range check, and the groups of the header as numbers. -/
theorem bulkRequestReplies : Obligations.BulkRequestReplies := by
  intro addr size s
  refine ⟨fun h => ?_, fun h => ?_⟩
  · rw [exec, execBulkRequest, if_pos ((bulkInRange_iff ..).2 h), bulkHeader, lo7_eq, lo7_eq, hi7_eq, hi7_eq]
    rfl
  · rw [exec, execBulkRequest, if_neg ((bulkInRange_iff ..).not.2 h.not_ge)]
    rfl

end Sys2Proof.Machine
end

section
/-! What decoding each sub-block writes (44_patch_record.md R322, R325, R333). -/

set_option autoImplicit false

namespace Sys2Proof.Machine

open Sys2Proof.Claims (oscFrom)

/-- The codes 0..7 name the wave types in their order, and every other code names NONE (44_patch_record.md R325). -/
theorem Wave.ofCode_eq_getD (b : Byte) :
    Wave.ofCode b =
      ([.none, .square, .saw1, .saw2, .triangle, .sine, .noise, .custom] : List Wave).getD b.toNat .none := by
  revert b
  decide

theorem Oscillator.unpack_eq_oscFrom (o : Oscillator) (c : List Byte) : o.unpack c = oscFrom o c := by
  rw [Oscillator.unpack, Wave.ofCode_eq_getD]
  rfl

/-- The name is cut off at its first zero byte, or at 19 bytes (44_patch_record.md R322). -/
theorem unpackName_spec {c : List Byte} (hc : c.length = 20) :
    ∃ m ≤ 19, unpackName c = c.take m ∧ (∀ i < m, c.getD i 0 ≠ 0) ∧ (m < 19 → c.getD m 0 = 0) := by
  have hlen : (c.take Config.nameMax).length = 19 := by simp [hc, Config.nameMax]
  have hget (i : ℕ) (hi : i < 19) : c.getD i 0 = (c.take Config.nameMax)[i] := by
    rw [List.getD_eq_getElem _ _ (by omega), List.getElem_take]
  have hm := List.findIdx_le_length (xs := c.take Config.nameMax) (p := fun b => !decide (b ≠ 0))
  rw [hlen] at hm
  refine ⟨_, hm, ?_, fun i hi => ?_, fun h => ?_⟩
  · rw [unpackName, List.takeWhile_eq_take_findIdx_not, List.take_take, min_eq_left hm]
  · rw [hget i (by omega)]
    simpa using List.not_of_lt_findIdx hi
  · rw [hget _ h]
    simpa using List.findIdx_getElem (w := h.trans_eq hlen.symm)

/-- Settles O26: the name by where it ends, the wave types by their codes, every other field as it is decoded. -/
theorem decodeBlockWritesItsFields : Obligations.DecodeBlockWritesItsFields := by
  intro c p
  refine ⟨fun hc => ?_, rfl, ?_, ?_, ?_, rfl, rfl⟩
  · obtain ⟨m, hm, hname, hnonzero, hzero⟩ := unpackName_spec hc
    exact ⟨m, hm, by rw [decodeBlock, hname], hnonzero, hzero⟩
  · rw [decodeBlock, Oscillator.unpack_eq_oscFrom]
  · rw [decodeBlock, Oscillator.unpack_eq_oscFrom]
  · rw [decodeBlock, Wave.ofCode_eq_getD]
    rfl

end Sys2Proof.Machine
end

section
/-! BULK_DELIVER applies the sub-blocks it covers whole (44_patch_record.md R332, R334, R341, R342). -/

set_option autoImplicit false

namespace Sys2Proof.Machine

open Sys2Proof.Claims (blocks covered)

/-! ## One round of the unpack loop (44_patch_record.md R332) -/

theorem Block.len_pos (b : Block) : 0 < b.len := by cases b <;> decide

/-- A block that starts before the running address is skipped, one that starts there and is held whole is decoded,
and at any other the loop stops. -/
theorem unpackLoop_round (e : ℕ) (b : Block) (bs : List Block) (a : ℕ) :
    (b.start < a ∧ ∀ pay p, unpackLoop e (b :: bs) a pay p = unpackLoop e bs a pay p) ∨
    (b.start = a ∧ a + b.len ≤ e ∧ ∀ pay p, unpackLoop e (b :: bs) a pay p =
      unpackLoop e bs (a + b.len) (pay.drop b.len) (decodeBlock b (pay.take b.len) p)) ∨
    ((a < b.start ∨ b.start = a ∧ e < a + b.len) ∧ ∀ pay p, unpackLoop e (b :: bs) a pay p = (p, a)) := by
  have hpos := b.len_pos
  have hdone (pay : List Byte) (p : Patch) : unpackLoop a bs a pay p = (p, a) := by
    cases bs with
    | nil => rfl
    | cons b bs => exact if_pos rfl
  rcases lt_trichotomy b.start a with hlt | heq | hgt
  · refine .inl ⟨hlt, fun pay p => ?_⟩
    by_cases he : a = e
    · rw [unpackLoop, if_pos he, ← he, hdone]
    · rw [unpackLoop, if_neg he, if_pos hlt]
  · rcases le_or_gt (a + b.len) e with hle | hgt
    · exact .inr (.inl ⟨heq, hle, fun pay p => by
        rw [unpackLoop, if_neg (by omega), if_neg heq.not_lt, if_neg heq.not_gt, if_neg hle.not_gt]⟩)
    · exact .inr (.inr ⟨.inr ⟨heq, hgt⟩, fun pay p => by
        rw [unpackLoop, if_neg heq.not_lt, if_neg heq.not_gt, if_pos hgt, ite_self]⟩)
  · exact .inr (.inr ⟨.inl hgt, fun pay p => by rw [unpackLoop, if_neg hgt.not_gt, if_pos hgt, ite_self]⟩)

/-! ## Sub-blocks that follow each other -/

/-- The blocks stand one after the other from `a` on, as SUBBLOCKS does from 0 (44_patch_record.md R320). -/
def Adjacent : ℕ → List Block → Prop
  | _, [] => True
  | a, b :: bs => b.start = a ∧ Adjacent (a + b.len) bs

theorem adjacent_subBlocks : Adjacent 0 subBlocks := by simp [Adjacent, subBlocks, Block.start, Block.len]

theorem Adjacent.le_start {a : ℕ} {bs : List Block} (h : Adjacent a bs) : ∀ b ∈ bs, a ≤ b.start := by
  induction bs generalizing a with
  | nil => simp
  | cons b bs ih =>
    obtain ⟨hstart, hrest⟩ := h
    exact List.forall_mem_cons.2 ⟨hstart.ge, fun b' hb' => (Nat.le_add_right _ _).trans (ih hrest b' hb')⟩

/-- The sub-blocks of `bs` that the bytes from `a` to `e` hold whole, where `a` is a sub-block start; none where it
is not. -/
def wholeBlocks (e a : ℕ) (bs : List Block) : List Block :=
  if a ∈ bs.map Block.start then bs.filter fun b => a ≤ b.start ∧ b.start + b.len ≤ e else []

theorem wholeBlocks_skip {e a : ℕ} {b : Block} (h : b.start < a) (bs : List Block) :
    wholeBlocks e a (b :: bs) = wholeBlocks e a bs := by
  simp [wholeBlocks, h.ne', h.not_ge]

theorem wholeBlocks_cons {e : ℕ} {b : Block} {bs : List Block} (h : Adjacent (b.start + b.len) bs)
    (he : b.start + b.len ≤ e) :
    wholeBlocks e b.start (b :: bs) = b :: wholeBlocks e (b.start + b.len) bs := by
  have hrest : (bs.filter fun b' => b.start ≤ b'.start ∧ b'.start + b'.len ≤ e) =
      wholeBlocks e (b.start + b.len) bs := by
    cases bs with
    | nil => rfl
    | cons b' bs =>
      rw [wholeBlocks, if_pos (by simp [h.1])]
      refine List.filter_congr fun b'' hb'' => decide_eq_decide.2 ?_
      have := h.le_start b'' hb''
      omega
  rw [wholeBlocks, if_pos (by simp), List.filter_cons_of_pos (by simp [he]), hrest]

/-- Where the first block starts late or is not held whole, no block is held whole. -/
theorem wholeBlocks_stop {e a : ℕ} {b : Block} {bs : List Block} (h : Adjacent b.start (b :: bs))
    (hstop : a < b.start ∨ b.start = a ∧ e < a + b.len) : wholeBlocks e a (b :: bs) = [] := by
  rcases hstop with hlt | ⟨rfl, hgt⟩
  · refine if_neg fun hmem => ?_
    obtain ⟨b', hb', rfl⟩ := List.mem_map.1 hmem
    exact (h.le_start b' hb').not_gt hlt
  · have hnone : ((b :: bs).filter fun b' => b.start ≤ b'.start ∧ b'.start + b'.len ≤ e) = [] := by
      refine List.filter_eq_nil_iff.2 (List.forall_mem_cons.2 ⟨?_, fun b' hb' => ?_⟩)
      · rw [decide_eq_true_iff]
        omega
      · have := h.2.le_start b' hb'
        rw [decide_eq_true_iff]
        omega
    rw [wholeBlocks, hnone, ite_self]

/-- `DecodeBlock` of each block in turn, on its bytes of a payload that starts at `a` (44_patch_record.md R332). -/
def decodeBlocks (a : ℕ) (pay : List Byte) (bs : List Block) (p : Patch) : Patch :=
  bs.foldl (fun p b => decodeBlock b ((pay.drop (b.start - a)).take b.len) p) p

theorem decodeBlocks_cons {b : Block} {bs : List Block} (h : ∀ b' ∈ bs, b.start + b.len ≤ b'.start)
    (pay : List Byte) (p : Patch) :
    decodeBlocks b.start pay (b :: bs) p =
      decodeBlocks (b.start + b.len) (pay.drop b.len) bs (decodeBlock b (pay.take b.len) p) := by
  rw [decodeBlocks, List.foldl_cons, Nat.sub_self, List.drop_zero, decodeBlocks]
  refine List.foldl_ext _ _ _ fun p b' hb' => ?_
  have := h b' hb'
  rw [List.drop_drop, show b.len + (b'.start - (b.start + b.len)) = b'.start - b.start by omega]

/-! ## The loop on sub-blocks that follow each other -/

theorem mem_of_mem_wholeBlocks {e a : ℕ} {b : Block} {bs : List Block} (h : b ∈ wholeBlocks e a bs) : b ∈ bs := by
  rw [wholeBlocks] at h
  split at h
  · exact List.mem_of_mem_filter h
  · simp at h

/-- The loop decodes the sub-blocks that the payload holds whole, in their order. -/
theorem unpackLoop_fst {a₀ : ℕ} {bs : List Block} (h : Adjacent a₀ bs) (e a : ℕ) (pay : List Byte) (p : Patch) :
    (unpackLoop e bs a pay p).1 = decodeBlocks a pay (wholeBlocks e a bs) p := by
  induction bs generalizing a₀ a pay p with
  | nil => rfl
  | cons b bs ih =>
    obtain ⟨rfl, hrest⟩ := h
    obtain ⟨hlt, hloop⟩ | ⟨rfl, hle, hloop⟩ | ⟨hstop, hloop⟩ := unpackLoop_round e b bs a <;> rw [hloop]
    · rw [wholeBlocks_skip hlt, ih hrest]
    · rw [wholeBlocks_cons hrest hle,
        decodeBlocks_cons fun b' hb' => hrest.le_start b' (mem_of_mem_wholeBlocks hb'), ih hrest]
    · rw [wholeBlocks_stop ⟨rfl, hrest⟩ hstop]
      rfl

/-- The loop takes all bytes where there are none, or where they go from a sub-block start to a sub-block end. -/
theorem unpackLoop_snd_eq_iff {a₀ : ℕ} {bs : List Block} (h : Adjacent a₀ bs) {e a : ℕ} (hae : a ≤ e)
    (pay : List Byte) (p : Patch) :
    (unpackLoop e bs a pay p).2 = e ↔
      e = a ∨ (∃ b ∈ bs, b.start = a) ∧ ∃ b ∈ bs, b.start + b.len = e := by
  induction bs generalizing a₀ a pay p with
  | nil => simp [unpackLoop, eq_comm]
  | cons b bs ih =>
    obtain ⟨rfl, hrest⟩ := h
    have hge := hrest.le_start
    rw [List.exists_mem_cons_iff, List.exists_mem_cons_iff]
    obtain ⟨hlt, hloop⟩ | ⟨rfl, hle, hloop⟩ | ⟨hstop, hloop⟩ := unpackLoop_round e b bs a <;> rw [hloop]
    · -- No later block starts before the end of `b`, so bytes that end with `b` are none.
      rw [ih hrest hae]
      grind
    · have hfollows : (∃ b' ∈ bs, b'.start = b.start + b.len) ↔ bs ≠ [] := by
        cases bs with
        | nil => simp
        | cons b' bs => simpa using .inl hrest.1
      rw [ih hrest hle]
      grind
    · -- No block of the list starts before `b` or ends before it.
      grind

/-! ## BULK_DELIVER (44_patch_record.md R341, R342) -/

/-- An unpack writes W, and counts a stop in DG where the loop ends before the bytes do. -/
theorem unpackWork_eq (pay : List Byte) (address size : ℕ) (s : State) :
    unpackWork pay address size s =
      { s with
        work := (unpackLoop (address + size) subBlocks address pay s.work).1
        diag := if (unpackLoop (address + size) subBlocks address pay s.work).2 = address + size then s.diag
          else s.diag.record .unpackStopped } := by
  rw [unpackWork]
  split_ifs <;> rfl

theorem blocks_eq_map : blocks = subBlocks.map fun b => (b, b.start, b.len) := rfl

theorem mem_starts_iff (a : ℕ) : a ∈ blocks.map (·.2.1) ↔ ∃ b ∈ subBlocks, b.start = a := by
  simp [blocks_eq_map]

theorem mem_ends_iff (e : ℕ) : e ∈ blocks.map (fun b => b.2.1 + b.2.2) ↔ ∃ b ∈ subBlocks, b.start + b.len = e := by
  simp [blocks_eq_map]

theorem covered_eq_map (a size : ℕ) :
    covered a size = (wholeBlocks (a + size) a subBlocks).map fun b => (b, b.start, b.len) := by
  rw [covered, wholeBlocks, apply_ite (List.map _), blocks_eq_map, List.filter_map, List.map_map]
  rfl

theorem foldl_covered_eq (a size : ℕ) (pay : List Byte) (p : Patch) :
    (covered a size).foldl (fun p b => decodeBlock b.1 ((pay.drop (b.2.1 - a)).take b.2.2) p) p =
      decodeBlocks a pay (wholeBlocks (a + size) a subBlocks) p := by
  rw [covered_eq_map, List.foldl_map, decodeBlocks]

/-- Settles O25: the loop runs over sub-blocks that follow each other. -/
theorem bulkDeliverAppliesWholeBlocks : Obligations.BulkDeliverAppliesWholeBlocks := by
  intro addr payload s
  refine ⟨fun h => ?_, fun h => if_neg ((bulkInRange_iff ..).not.2 h.not_ge)⟩
  have hend := unpackLoop_snd_eq_iff adjacent_subBlocks (Nat.le_add_right addr.toNat payload.length) payload s.work
  refine ⟨_, if_pos ((bulkInRange_iff ..).2 h), ?_⟩
  rw [unpackWork_eq]
  refine ⟨rfl, ?_, if_congr ?_ rfl rfl⟩
  · rw [foldl_covered_eq, unpackLoop_fst adjacent_subBlocks]
  · rw [hend, Nat.add_eq_left, mem_starts_iff, mem_ends_iff]

end Sys2Proof.Machine
end

section
/-! The scaled-byte codec gives each byte back (40_envelope.md R207, R208; 44_patch_record.md R324). -/

set_option autoImplicit false

namespace Sys2Proof.F32

open Sys2Proof.Claims (finite val RoundsTo)

/-- A number of a magnitude up to 2^e moves by at most half a place of the significand when it is rounded. -/
theorem abs_val_sub_le_of_roundsTo_of_abs_le {z : F32} {r : ℚ} {e : ℕ} (he : e ≤ 127) (h : RoundsTo z (r : ℝ))
    (hle : |r| ≤ 2 ^ e) : |val z - r| ≤ 2 ^ e / 2 ^ 25 := by
  rcases le_total 0 r with h0 | h0
  · exact abs_val_sub_le_of_roundsTo he h h0 ((le_abs_self r).trans hle)
  · have hneg := abs_val_sub_le_of_roundsTo (r := -r) he (by exact_mod_cast roundsTo_neg h) (neg_nonneg.2 h0)
      ((neg_le_abs r).trans hle)
    rwa [val_neg, ← neg_sub', abs_neg] at hneg

end Sys2Proof.F32

namespace Sys2Proof.Machine

open Sys2Proof.Claims (finite val)
open Sys2Proof.F32 (inRangeF32_iff inRangeF32_unit_iff finite_zero finite_one val_zero val_one)

/-! ## Fractions -/

/-- A fraction that is nearly `b` of 127 parts has the byte `b`. -/
theorem encFrac_eq_of_near {x : F32} {b : Byte} (hx : inRangeF32 x F32.zero F32.one)
    (hnear : |val x - b.toNat / 127| ≤ 1 / 2 ^ 22) : encFrac x = b := by
  obtain ⟨-, henc⟩ := encFrac_near hx
  rw [abs_le] at henc hnear
  have hlt : ((encFrac x).toNat : ℚ) < b.toNat + 1 := by linarith [henc.2, hnear.2]
  have hgt : (b.toNat : ℚ) < (encFrac x).toNat + 1 := by linarith [henc.1, hnear.1]
  norm_cast at hlt hgt
  exact BitVec.eq_of_toNat_eq (by omega)

theorem encFrac_toNat_le {x : F32} (hx : inRangeF32 x F32.zero F32.one) : (encFrac x).toNat ≤ 127 :=
  (encFrac_near hx).1

theorem encFrac_decFrac {b : Byte} (hb : b.toNat ≤ 127) : encFrac (decFrac b) = b := by
  obtain ⟨hrange, hnear⟩ := decFrac_near hb
  exact encFrac_eq_of_near hrange (hnear.trans (by norm_num))

/-! ## Times -/

section
variable {top : F32} (htop : finite top) (hpos : 0 < val top)
include htop hpos

theorem div_top_inRangeF32 {x : F32} (hx : inRangeF32 x F32.zero top) :
    inRangeF32 (F32.div x top) F32.zero F32.one :=
  F32.div_inRangeF32_nonneg htop htop htop finite_one hx ⟨(F32.le_iff htop htop).2 le_rfl,
    (F32.le_iff htop htop).2 le_rfl⟩ hpos (by rw [div_self hpos.ne', val_one])

theorem encTime_toNat_le {x : F32} (hx : inRangeF32 x F32.zero top) : (encTime x top).toNat ≤ 127 := by
  rw [encTime, F32.clamp_of_inRangeF32 finite_zero htop hx]
  exact encFrac_toNat_le (div_top_inRangeF32 htop hpos hx)

/-- Decoding multiplies by the scale and encoding divides by it; the roundings are small beside a step where the
scale fills at least half of its binade `2 ^ e`. -/
theorem encTime_decTime {e : ℕ} (he : e ≤ 127) (hle : val top ≤ 2 ^ e) (hhalf : 2 ^ e ≤ 2 * val top) {b : Byte}
    (hb : b.toNat ≤ 127) : encTime (decTime b top) top = b := by
  have htime := decTime_inRangeF32 b htop hpos.le
  obtain ⟨hfin, h0, hle_top⟩ := (inRangeF32_iff finite_zero htop).1 htime
  have hquot := div_top_inRangeF32 htop hpos htime
  rw [encTime, F32.clamp_of_inRangeF32 finite_zero htop htime]
  refine encFrac_eq_of_near hquot ?_
  obtain ⟨hfrac, hfrac_near⟩ := decFrac_near hb
  obtain ⟨hg, hg0, hg1⟩ := (inRangeF32_unit_iff _).1 hfrac
  have hproduct_near := F32.abs_val_sub_le_of_roundsTo he (F32.roundsTo_mul hg htop) (by positivity)
    ((mul_le_of_le_one_left hpos.le hg1).trans hle)
  rw [← decTime] at hproduct_near
  rw [val_zero] at h0
  generalize decTime b top = y at *
  have hquot_near := F32.abs_val_sub_le_of_roundsTo (e := 0) (by decide) (F32.roundsTo_div hfin htop hpos.ne')
    (by positivity) (by simpa using (div_le_one hpos).2 hle_top)
  have hscaled : |val y / val top - val (decFrac b)| ≤ 2 / 2 ^ 25 := by
    rw [div_sub' hpos.ne', abs_div, abs_of_pos hpos, div_le_iff₀ hpos, mul_comm (val top)]
    exact hproduct_near.trans (by linarith)
  rw [abs_le] at *
  constructor <;> linarith [hquot_near.1, hquot_near.2, hscaled.1, hscaled.2, hfrac_near.1, hfrac_near.2]

end

/-! ## Detune -/

/-- A byte up to 127 decodes to twice that many of 127 parts, less one. -/
theorem decDetune_near {b : Byte} (hb : b.toNat ≤ 127) :
    |val (decDetune b) - (2 * (b.toNat / 127) - 1)| ≤ 5 / 2 ^ 25 := by
  obtain ⟨hfrac, hfrac_near⟩ := decFrac_near hb
  obtain ⟨hg, hg0, hg1⟩ := (inRangeF32_unit_iff _).1 hfrac
  obtain ⟨hz, hz0, hz2⟩ := (inRangeF32_iff finite_zero finite_two).1 (twice_decFrac_inRangeF32 b)
  rw [val_zero] at hz0
  rw [val_two] at hz2
  have htwice_near := F32.abs_val_sub_le_of_roundsTo_of_abs_le (e := 1) (by decide) (F32.roundsTo_mul finite_two hg)
    (by rw [val_two, abs_le]; constructor <;> linarith)
  have hless_near := F32.abs_val_sub_le_of_roundsTo_of_abs_le (e := 0) (by decide) (F32.roundsTo_sub hz finite_one)
    (by rw [val_one, abs_le]; constructor <;> linarith)
  rw [val_two] at htwice_near
  rw [← decDetune, val_one] at hless_near
  rw [abs_le] at *
  constructor <;> linarith [htwice_near.1, htwice_near.2, hless_near.1, hless_near.2, hfrac_near.1, hfrac_near.2]

/-- The fraction that a detune is encoded by: one more, halved. -/
theorem detuneFraction_near {x : F32} (hx : inRangeF32 x 0xBF800000#32 F32.one) :
    inRangeF32 (F32.div (F32.add x F32.one) 0x40000000#32) F32.zero F32.one ∧
      |val (F32.div (F32.add x F32.one) 0x40000000#32) - (val x + 1) / 2| ≤ 2 / 2 ^ 25 := by
  obtain ⟨hfin, hlow, hhigh⟩ := (inRangeF32_detune_iff x).1 hx
  have hsum := F32.add_inRangeF32 hfin finite_one finite_zero finite_two (by rw [val_zero, val_one]; linarith)
    (by rw [val_one, val_two]; linarith)
  refine ⟨div_top_inRangeF32 finite_two (by norm_num [val_two]) hsum, ?_⟩
  obtain ⟨hu, hu0, hu2⟩ := (inRangeF32_iff finite_zero finite_two).1 hsum
  rw [val_zero] at hu0
  rw [val_two] at hu2
  have hsum_near := F32.abs_val_sub_le_of_roundsTo_of_abs_le (e := 1) (by decide) (F32.roundsTo_add hfin finite_one)
    (by rw [val_one, abs_le]; constructor <;> linarith)
  have hhalf_near := F32.abs_val_sub_le_of_roundsTo_of_abs_le (e := 0) (by decide)
    (F32.roundsTo_div hu finite_two (by norm_num [val_two])) (by rw [val_two, abs_le]; constructor <;> linarith)
  rw [val_one] at hsum_near
  rw [val_two] at hhalf_near
  rw [abs_le] at *
  constructor <;> linarith [hsum_near.1, hsum_near.2, hhalf_near.1, hhalf_near.2]

theorem encDetune_toNat_le {x : F32} (hx : inRangeF32 x 0xBF800000#32 F32.one) : (encDetune x).toNat ≤ 127 :=
  encFrac_toNat_le (detuneFraction_near hx).1

theorem encDetune_decDetune {b : Byte} (hb : b.toNat ≤ 127) : encDetune (decDetune b) = b := by
  have hdec := decDetune_near hb
  obtain ⟨hrange, henc⟩ := detuneFraction_near (decDetune_inRangeF32 b)
  refine encFrac_eq_of_near hrange ?_
  rw [abs_le] at *
  constructor <;> linarith [hdec.1, hdec.2, henc.1, henc.2]

end Sys2Proof.Machine
end

section
/-! A delivered record of a legal patch gives its exact fields back and packs to the same bytes
(44_patch_record.md R336). -/

set_option autoImplicit false

namespace Sys2Proof.Machine

open Sys2Proof.Claims (val envOf envByte)

/-! ## Values that were stored (40_envelope.md R207) -/

theorem encFrac_decFrac_encFrac {x : F32} (hx : inRangeF32 x F32.zero F32.one) :
    encFrac (decFrac (encFrac x)) = encFrac x :=
  encFrac_decFrac (encFrac_toNat_le hx)

theorem encDetune_decDetune_encDetune {x : F32} (hx : inRangeF32 x 0xBF800000#32 F32.one) :
    encDetune (decDetune (encDetune x)) = encDetune x :=
  encDetune_decDetune (encDetune_toNat_le hx)

theorem encTime_decTime_envTimeMax {x : F32} (hx : inRangeF32 x F32.zero Config.envTimeMax) :
    encTime (decTime (encTime x Config.envTimeMax) Config.envTimeMax) Config.envTimeMax =
      encTime x Config.envTimeMax := by
  have hpos : 0 < val Config.envTimeMax := by norm_num [val_envTimeMax]
  exact encTime_decTime (e := 14) finite_envTimeMax hpos (by decide) (by norm_num [val_envTimeMax])
    (by norm_num [val_envTimeMax]) (encTime_toNat_le finite_envTimeMax hpos hx)

theorem encTime_decTime_lfoFreqMax {x : F32} (hx : inRangeF32 x F32.zero Config.lfoFreqMax) :
    encTime (decTime (encTime x Config.lfoFreqMax) Config.lfoFreqMax) Config.lfoFreqMax =
      encTime x Config.lfoFreqMax := by
  have hpos : 0 < val Config.lfoFreqMax := by norm_num [val_lfoFreqMax]
  exact encTime_decTime (e := 5) finite_lfoFreqMax hpos (by decide) (by norm_num [val_lfoFreqMax])
    (by norm_num [val_lfoFreqMax]) (encTime_toNat_le finite_lfoFreqMax hpos hx)

theorem Wave.ofCode_code (w : Wave) : Wave.ofCode w.code = w := by cases w <;> rfl

/-- A legal name is what stands before the first of the zeros it is padded with (44_patch_record.md R322). -/
theorem unpackName_zeroPad {name : List Byte} (hlen : name.length ≤ Config.nameMax) (hzero : (0 : Byte) ∉ name) :
    unpackName (zeroPad 20 name) = name := by
  have hname : ∀ b ∈ name, decide (b ≠ 0) = true := fun b hb => decide_eq_true fun h => hzero (h ▸ hb)
  rw [unpackName, zeroPad, List.take_of_length_le (hlen.trans (by decide)), List.take_append,
    List.take_of_length_le hlen, List.takeWhile_append_of_pos hname, List.take_replicate]
  simp

/-! ## Envelopes and oscillators -/

/-- The envelope that the packed bytes of `e` stand for. -/
def Envelope.stored (e : Envelope) : Envelope where
  delay := decTime (encTime e.delay Config.envTimeMax) Config.envTimeMax
  attack := decTime (encTime e.attack Config.envTimeMax) Config.envTimeMax
  peak := decFrac (encFrac e.peak)
  decay := decTime (encTime e.decay Config.envTimeMax) Config.envTimeMax
  sustain := decFrac (encFrac e.sustain)
  release := decTime (encTime e.release Config.envTimeMax) Config.envTimeMax

theorem envAt_eq_stored {bytes : List Byte} {i : ℕ} {e : Envelope}
    (h : ∀ f < 6, bytes[i + f]? = some (envByte e f)) : envAt bytes i = e.stored := by
  have hbyte (f : ℕ) (hf : f < 6) : byteAt bytes (i + f) = envByte e f := by
    rw [byteAt, List.getD_eq_getElem?_getD, h f hf, Option.getD_some]
  have hfirst : byteAt bytes i = envByte e 0 := hbyte 0 (by decide)
  rw [envAt, hfirst, hbyte 1 (by decide), hbyte 2 (by decide), hbyte 3 (by decide), hbyte 4 (by decide),
    hbyte 5 (by decide)]
  rfl

theorem Oscillator.envAt_pack (o : Oscillator) {j : ℕ} (hj : j < 4) :
    envAt o.pack (4 + 6 * j) = (envOf o.env j).stored ∧ envAt o.pack (28 + 6 * j) = (envOf o.lfoEnv j).stored :=
  ⟨envAt_eq_stored fun _ hf => (o.getElem?_pack_env hj hf).1,
    envAt_eq_stored fun _ hf => (o.getElem?_pack_env hj hf).2⟩

theorem Envelope.legal.pack_stored {e : Envelope} (he : e.legal) : e.stored.pack = e.pack := by
  obtain ⟨hdelay, hattack, hpeak, hdecay, hsustain, hrelease⟩ := he
  simp only [Envelope.pack, Envelope.stored]
  rw [encTime_decTime_envTimeMax hdelay, encTime_decTime_envTimeMax hattack, encFrac_decFrac_encFrac hpeak,
    encTime_decTime_envTimeMax hdecay, encFrac_decFrac_encFrac hsustain, encTime_decTime_envTimeMax hrelease]

theorem EnvSet.legal.pack_unpack {q : EnvSet} (hq : q.legal) (s : EnvSet) {c : List Byte} {i : ℕ}
    (h : ∀ j < 4, envAt c (i + 6 * j) = (envOf q j).stored) : (s.unpack c i).pack = q.pack := by
  obtain ⟨hvolume, hpitch, hfilter, hpwm, -⟩ := hq
  have hfirst : envAt c i = q.volume.stored := h 0 (by decide)
  have hpitch' : envAt c (i + 6) = q.pitch.stored := h 1 (by decide)
  have hfilter' : envAt c (i + 12) = q.filter.stored := h 2 (by decide)
  have hpwm' : envAt c (i + 18) = q.pwm.stored := h 3 (by decide)
  rw [EnvSet.unpack, hfirst, hpitch', hfilter', hpwm', EnvSet.pack, hvolume.pack_stored, hpitch.pack_stored,
    hfilter.pack_stored, hpwm.pack_stored, EnvSet.pack]

/-- Unpacking keeps the MOD envelope (44_patch_record.md R326). -/
theorem EnvSet.unpack_mod (s : EnvSet) (c : List Byte) (i : ℕ) : (s.unpack c i).mod = s.mod := by
  rw [EnvSet.unpack]

theorem Oscillator.unpack_mod (o : Oscillator) (c : List Byte) :
    (o.unpack c).env.mod = o.env.mod ∧ (o.unpack c).lfoEnv.mod = o.lfoEnv.mod := by
  simp only [Oscillator.unpack, EnvSet.unpack_mod, and_self]

theorem Modulator.unpack_pack (m : Modulator) : (⟨byteAt m.pack 0, byteAt m.pack 1⟩ : Modulator) = m := rfl

/-- An oscillator block of `q` packs to the same bytes again, whatever oscillator it was unpacked into. -/
theorem Oscillator.legal.pack_unpack {q : Oscillator} (hq : q.legal) (o : Oscillator) :
    (o.unpack q.pack).pack = q.pack := by
  obtain ⟨hduty, hdetune, henv, hlfoEnv⟩ := hq
  have henv_pack := henv.pack_unpack o.env fun _ hj => (q.envAt_pack hj).1
  have hlfoEnv_pack := hlfoEnv.pack_unpack o.lfoEnv fun _ hj => (q.envAt_pack hj).2
  have htype : byteAt q.pack 0 = q.waveType.code := rfl
  have hduty_byte : byteAt q.pack 1 = encFrac q.duty := rfl
  have hdetune_byte : byteAt q.pack 2 = encDetune q.detune := rfl
  rw [Oscillator.unpack, Oscillator.pack, henv_pack, hlfoEnv_pack, htype, hduty_byte, hdetune_byte, Wave.ofCode_code,
    encFrac_decFrac_encFrac hduty, encDetune_decDetune_encDetune hdetune]
  rfl

/-! ## Sub-blocks -/

/-- A sub-block of a legal patch packs to the same bytes again, whatever patch it was decoded into. -/
theorem Patch.legal.blockBytes_decodeBlock {p : Patch} (hp : p.legal) (b : Block) (q : Patch) :
    (Machine.decodeBlock b (p.blockBytes b) q).blockBytes b = p.blockBytes b := by
  obtain ⟨hlen, hzero, hmix, hosc0, hosc1, hfreq, hdepth⟩ := hp
  cases b with
  | name => exact congrArg (zeroPad 20) (unpackName_zeroPad hlen hzero)
  | mix =>
    have hbytes : p.blockBytes .mix = [encFrac p.mixLevel, 0] := rfl
    have hagain (b : Byte) : (Machine.decodeBlock .mix [b, 0] q).blockBytes .mix = [encFrac (decFrac b), 0] := rfl
    rw [hbytes, hagain, encFrac_decFrac_encFrac hmix]
  | osc1 => exact hosc0.pack_unpack q.osc0
  | osc2 => exact hosc1.pack_unpack q.osc1
  | lfo =>
    have hbytes : p.blockBytes .lfo = [p.lfoWave.code, encTime p.lfoFreq Config.lfoFreqMax, encFrac p.lfoDepth] ++
      List.replicate 17 0 := rfl
    have hagain (w f d : Byte) (rest : List Byte) :
        (Machine.decodeBlock .lfo ([w, f, d] ++ rest) q).blockBytes .lfo =
          [(Wave.ofCode w).code, encTime (decTime f Config.lfoFreqMax) Config.lfoFreqMax, encFrac (decFrac d)] ++
            List.replicate 17 0 := rfl
    rw [hbytes, hagain, Wave.ofCode_code, encTime_decTime_lfoFreqMax hfreq, encFrac_decFrac_encFrac hdepth]
  | mod1 | mod2 => rfl

/-- Decoding a block leaves the bytes of every other block. -/
theorem WritesBlock.blockBytes_of_ne {b b' : Block} {f : Patch → Patch} (hf : WritesBlock b' f) (hne : b ≠ b')
    (q : Patch) : (f q).blockBytes b = q.blockBytes b := by
  cases hf <;> cases b
  case name.name | mix.mix | osc1.osc1 | osc2.osc2 | lfo.lfo | mod1.mod1 | mod2.mod2 => exact absurd rfl hne
  all_goals rfl

/-- A patch after the record of `p` was decoded into it, block by block. -/
def Patch.receive (p : Patch) (bs : List Block) (q : Patch) : Patch :=
  bs.foldl (fun q b => decodeBlock b (p.blockBytes b) q) q

theorem Patch.receive_eq_decodeBlocks (p : Patch) (bs : List Block) (q : Patch) :
    decodeBlocks 0 p.pack bs q = p.receive bs q := by
  simp only [decodeBlocks, Patch.receive, Nat.sub_zero, Patch.take_drop_pack]

theorem Patch.legal.blockBytes_receive {p : Patch} (hp : p.legal) {bs : List Block} (hbs : bs.Nodup) (q : Patch)
    (b : Block) : (p.receive bs q).blockBytes b = if b ∈ bs then p.blockBytes b else q.blockBytes b := by
  induction bs generalizing q with
  | nil => rfl
  | cons b' bs ih =>
    obtain ⟨hnotMem, hrest⟩ := List.nodup_cons.1 hbs
    rw [Patch.receive, List.foldl_cons, ← Patch.receive, ih hrest]
    by_cases hb : b = b'
    · rw [hb, if_neg hnotMem, if_pos (List.mem_cons_self ..), hp.blockBytes_decodeBlock]
    · rw [(decodeBlock_writesBlock b' _).blockBytes_of_ne hb]
      simp [hb]

theorem Patch.legal.pack_receive {p : Patch} (hp : p.legal) (q : Patch) : (p.receive subBlocks q).pack = p.pack := by
  have hall (b : Block) : (p.receive subBlocks q).blockBytes b = p.blockBytes b := by
    rw [hp.blockBytes_receive (by decide), if_pos (by cases b <;> decide)]
  rw [Patch.pack_eq_flatMap, Patch.pack_eq_flatMap, funext hall]

/-- The patch that all seven blocks give, from bytes of any value (44_patch_record.md R333). -/
theorem foldl_decodeBlock_subBlocks (bytes : Block → List Byte) (q : Patch) :
    subBlocks.foldl (fun q b => decodeBlock b (bytes b) q) q =
      { name := unpackName (bytes .name)
        mixLevel := decFrac (byteAt (bytes .mix) 0)
        osc0 := q.osc0.unpack (bytes .osc1)
        osc1 := q.osc1.unpack (bytes .osc2)
        mod0 := ⟨byteAt (bytes .mod1) 0, byteAt (bytes .mod1) 1⟩
        mod1 := ⟨byteAt (bytes .mod2) 0, byteAt (bytes .mod2) 1⟩
        lfoWave := Wave.ofCode (byteAt (bytes .lfo) 0)
        lfoFreq := decTime (byteAt (bytes .lfo) 1) Config.lfoFreqMax
        lfoDepth := decFrac (byteAt (bytes .lfo) 2) } := by
  simp only [subBlocks, List.foldl_cons, List.foldl_nil, decodeBlock]

theorem wholeBlocks_record : wholeBlocks 154 0 subBlocks = subBlocks := by decide

/-- A whole record is taken without a stop. -/
theorem unpackWork_pack (p : Patch) (s : State) :
    unpackWork p.pack 0 154 s = s.setWork (p.receive subBlocks s.work) := by
  have hend : (unpackLoop (0 + 154) subBlocks 0 p.pack s.work).2 = 0 + 154 :=
    (unpackLoop_snd_eq_iff adjacent_subBlocks (by decide) _ _).2 (.inr (by decide))
  rw [unpackWork, if_pos hend, unpackLoop_fst adjacent_subBlocks, wholeBlocks_record, Patch.receive_eq_decodeBlocks]

/-- Settles O27: the loop decodes all seven blocks, and each packs to its bytes again. -/
theorem packUnpackRoundTrip : Obligations.PackUnpackRoundTrip := by
  intro p s hp
  have hframe (q : Patch) : s.setWork q = { s with work := (s.setWork q).work } := rfl
  refine ⟨s.setWork (p.receive subBlocks s.work), ?_, hframe _, ?_⟩
  · rw [exec, execBulkDeliver, Patch.pack_length, if_pos (by decide), ← unpackWork_pack]
    rfl
  · have hpack := hp.pack_receive s.work
    have hfields := foldl_decodeBlock_subBlocks p.blockBytes s.work
    obtain ⟨hlen, hzero, -⟩ := hp
    rw [← Patch.receive] at hfields
    rw [State.setWork_work]
    refine ⟨?_, ?_, ?_, ?_, ?_, ?_, ?_, ?_, ?_, ?_, hpack⟩ <;> rw [hfields]
    · exact unpackName_zeroPad hlen hzero
    · exact Wave.ofCode_code _
    · exact Wave.ofCode_code _
    · exact Wave.ofCode_code _
    · exact p.mod0.unpack_pack
    · exact p.mod1.unpack_pack
    · exact (s.work.osc0.unpack_mod _).1
    · exact (s.work.osc0.unpack_mod _).2
    · exact (s.work.osc1.unpack_mod _).1
    · exact (s.work.osc1.unpack_mod _).2

end Sys2Proof.Machine
end

section
/-! What an operation does to the voices: which notes it starts and which it releases, how many voices it takes, and
the arcs of 45_voice.md R361. -/

set_option autoImplicit false

namespace Sys2Proof.Machine

open Sys2Proof.Claims (val soundingOscillators)
open Sys2Proof.F32 (inRangeF32_iff finite_one val_one)

/-! ## Velocity 0 is a note-off (47_engine.md R451, R452) -/

/-- The least volume of a velocity other than 0, 1/127, is above the tolerance. -/
theorem fraction7_not_lt_tolerance {velocity : BitVec 7} (h : velocity ≠ 0) :
    F32.lt (fraction7 velocity) Config.noteOnTolerance = false := by
  have hleast : val 0x3C000000#32 = 1 / 128 := by decide +kernel
  have htolerance : val Config.noteOnTolerance < 1 / 128 := by decide +kernel
  have hnat : velocity.toNat ≠ 0 := fun h0 => h (BitVec.eq_of_toNat_eq h0)
  have hlt : velocity.toNat < 128 := velocity.isLt
  obtain ⟨hfin, hval⟩ := F32.ofNat_exact (n := velocity.toNat) (by omega)
  have hv1 : (1 : ℚ) ≤ velocity.toNat := by exact_mod_cast Nat.one_le_iff_ne_zero.2 hnat
  have hv127 : (velocity.toNat : ℚ) ≤ 127 := by exact_mod_cast Nat.lt_succ_iff.1 hlt
  obtain ⟨hquot, hlow, -⟩ := (inRangeF32_iff (lo := 0x3C000000#32) (by decide) finite_one).1 <|
    F32.div_inRangeF32 hfin finite_byteScale (by norm_num [val_byteScale]) (by decide) finite_one
      (by rw [hval, hleast, val_byteScale]; linarith) (by rw [hval, val_one, val_byteScale]; linarith)
  rw [← Bool.not_eq_true, fraction7, F32.lt_iff hquot (by decide), not_lt]
  linarith

/-- `EngineNoteOn` with a volume that is no note-off: osc1 first, then osc2 (47_engine.md R451). -/
def startBoth (sel : Sel) (note : BitVec 7) (volume : F32) (s : State) : State :=
  startOsc sel note volume .osc1 (startOsc sel note volume .osc0 s)

theorem engineNoteOn_zero (sel : Sel) (note : BitVec 7) (s : State) :
    engineNoteOn sel note (fraction7 0) s = engineNoteOff note s := by
  rw [engineNoteOn, if_pos (by decide +kernel)]

theorem engineNoteOn_sounding (sel : Sel) (note : BitVec 7) {velocity : BitVec 7} (h : velocity ≠ 0) (s : State) :
    engineNoteOn sel note (fraction7 velocity) s = startBoth sel note (fraction7 velocity) s := by
  rw [engineNoteOn, fraction7_not_lt_tolerance h, if_neg Bool.false_ne_true, startBoth]

/-! ## Starting and releasing, voice by voice (45_voice.md R362, R363) -/

/-- A started oscillator leaves a voice, or takes it where it was inactive. -/
theorem startOsc_get (sel : Sel) (note : BitVec 7) (volume : F32) (k : OscIndex) (s : State) (w : Fin 32) :
    (startOsc sel note volume k s).voices[w] = s.voices[w] ∨
      (s.voices[w]).active = false ∧ (s.osc ⟨sel, k⟩).waveType ≠ .none ∧
        ∃ draw, (startOsc sel note volume k s).voices[w] =
          (s.voices[w]).noteOn ⟨sel, k⟩ (s.osc ⟨sel, k⟩) note (F32.mul volume (s.patch sel).mixLevel) draw := by
  by_cases hwave : (s.osc ⟨sel, k⟩).waveType = .none
  · exact .inl (by rw [startOsc_none _ _ _ _ _ hwave])
  · cases halloc : s.allocate with
    | none => exact .inl (by rw [startOsc_full _ _ _ _ _ hwave halloc, State.event_voices])
    | some v =>
      rw [startOsc_some _ _ _ _ _ v hwave halloc, State.setVoice_get, State.dropDraw_voices]
      split
      · subst v
        exact .inr ⟨(s.allocate_some w halloc).1, hwave, _, rfl⟩
      · exact .inl rfl

/-- No voice is stolen (45_voice.md R366). -/
theorem startOsc_get_of_active (sel : Sel) (note : BitVec 7) (volume : F32) (k : OscIndex) {s : State} {w : Fin 32}
    (h : (s.voices[w]).active = true) : (startOsc sel note volume k s).voices[w] = s.voices[w] :=
  (startOsc_get sel note volume k s w).resolve_right fun ⟨hinactive, _⟩ => Bool.eq_false_iff.1 hinactive h

theorem startBoth_get_of_active (sel : Sel) (note : BitVec 7) (volume : F32) {s : State} {w : Fin 32}
    (h : (s.voices[w]).active = true) : (startBoth sel note volume s).voices[w] = s.voices[w] := by
  have hfirst := startOsc_get_of_active sel note volume .osc0 h
  rw [startBoth, startOsc_get_of_active _ _ _ _ (by rwa [hfirst]), hfirst]

/-- A note-on leaves a voice, or it is inactive before and playing after. -/
theorem startBoth_get_cases (sel : Sel) (note : BitVec 7) (volume : F32) (s : State) (w : Fin 32) :
    (startBoth sel note volume s).voices[w] = s.voices[w] ∨
      (s.voices[w]).active = false ∧ ((startBoth sel note volume s).voices[w]).active = true ∧
        ((startBoth sel note volume s).voices[w]).released = false := by
  rw [startBoth]
  obtain hfirst | ⟨hinactive, -, draw, hfirst⟩ := startOsc_get sel note volume .osc0 s w
  · obtain hsecond | ⟨hinactive, -, draw, hsecond⟩ :=
      startOsc_get sel note volume .osc1 (startOsc sel note volume .osc0 s) w
    · exact .inl (hsecond.trans hfirst)
    · rw [hsecond]
      exact .inr ⟨hfirst ▸ hinactive, rfl, rfl⟩
  · rw [startOsc_get_of_active _ _ _ _ (by rw [hfirst]; rfl), hfirst]
    exact .inr ⟨hinactive, rfl, rfl⟩

theorem Voice.noteOff_of_playing {x : Voice} (h : x.active = true) (hr : x.released = false) :
    x.noteOff = { x with released := true, elapsed := F32.zero } := if_pos (by rw [h, hr]; rfl)

theorem Voice.noteOff_of_released {x : Voice} (hr : x.released = true) : x.noteOff = x := if_neg (by simp [hr])

/-- A note-off leaves a voice, or releases it where it plays the note. -/
theorem engineNoteOff_get_cases (note : BitVec 7) (s : State) (w : Fin 32) :
    (engineNoteOff note s).voices[w] = s.voices[w] ∨
      (s.voices[w]).active = true ∧ (s.voices[w]).released = false ∧ (s.voices[w]).note = some note ∧
        (engineNoteOff note s).voices[w] = { s.voices[w] with released := true, elapsed := F32.zero } := by
  rw [engineNoteOff_get]
  split
  · rename_i hholds
    rw [Bool.and_eq_true, beq_iff_eq] at hholds
    obtain ⟨hactive, hnote⟩ := hholds
    cases hreleased : (s.voices[w]).released
    · exact .inr ⟨hactive, rfl, hnote, Voice.noteOff_of_playing hactive hreleased⟩
    · exact .inl (Voice.noteOff_of_released hreleased)
  · exact .inl rfl

/-! ## How many voices a note-on takes (45_voice.md R360, R368) -/

theorem State.activeVoices_le (s : State) : s.activeVoices ≤ 32 :=
  List.countP_le_length.trans_eq s.voices.length_toList

theorem State.activeVoices_of_full {s : State} (h : s.allocate = none) : s.activeVoices = 32 := by
  rw [State.allocate_none] at h
  rw [State.activeVoices, List.countP_eq_length.2, Vector.length_toList]
  intro x hx
  obtain ⟨i, hi, rfl⟩ := List.getElem_of_mem hx
  rw [Vector.length_toList] at hi
  simpa using h ⟨i, hi⟩

theorem State.activeVoices_setVoice {s : State} {v : Fin 32} {x : Voice} (hold : (s.voices[v]).active = false)
    (hnew : x.active = true) : (s.setVoice v x).activeVoices = s.activeVoices + 1 := by
  rw [State.activeVoices, State.setVoice_voices, Vector.toList_set, List.countP_set (by simp)]
  rw [Fin.getElem_fin] at hold
  simp [State.activeVoices, hold, hnew]

/-- From `s` to `t`, as many voices are taken as are `wanted` and free, and one drop is counted for each other one. -/
def TakesVoices (wanted : ℕ) (s t : State) : Prop :=
  t.activeVoices = s.activeVoices + min wanted (32 - s.activeVoices) ∧
    t.diag.dropCount = s.diag.dropCount + BitVec.ofNat 32 (wanted - min wanted (32 - s.activeVoices))

theorem TakesVoices.trans {m n : ℕ} {s t u : State} (h : TakesVoices m s t) (h' : TakesVoices n t u) :
    TakesVoices (m + n) s u := by
  obtain ⟨hactive, hdrop⟩ := h
  obtain ⟨hactive', hdrop'⟩ := h'
  have hle := s.activeVoices_le
  refine ⟨by omega, ?_⟩
  rw [hdrop', hdrop, BitVec.add_assoc, ← BitVec.ofNat_add]
  congr 2
  omega

/-- The voices one oscillator asks for (45_voice.md R360). -/
def Oscillator.wanted (o : Oscillator) : ℕ := if o.waveType = .none then 0 else 1

theorem startOsc_takesVoices (sel : Sel) (note : BitVec 7) (volume : F32) (k : OscIndex) (s : State) :
    TakesVoices (s.osc ⟨sel, k⟩).wanted s (startOsc sel note volume k s) := by
  by_cases hwave : (s.osc ⟨sel, k⟩).waveType = .none
  · rw [startOsc_none _ _ _ _ _ hwave, Oscillator.wanted, if_pos hwave]
    simp [TakesVoices]
  · rw [Oscillator.wanted, if_neg hwave]
    cases halloc : s.allocate with
    | none =>
      rw [startOsc_full _ _ _ _ _ hwave halloc]
      have hfull := State.activeVoices_of_full halloc
      exact ⟨by rw [hfull]; exact hfull, by rw [hfull]; rfl⟩
    | some v =>
      have hinactive := (s.allocate_some v halloc).1
      rw [startOsc_some _ _ _ _ _ v hwave halloc]
      generalize hx : (s.voices[v]).noteOn ⟨sel, k⟩ _ note _ _ = x
      have htaken : (s.dropDraw.setVoice v x).activeVoices = s.activeVoices + 1 := by
        rw [State.activeVoices_setVoice (by rwa [State.dropDraw_voices]) (by rw [← hx]; rfl), State.activeVoices,
          State.dropDraw_voices, State.activeVoices]
      have hle := (s.dropDraw.setVoice v x).activeVoices_le
      have hmin : min 1 (32 - s.activeVoices) = 1 := by omega
      exact ⟨by rw [htaken, hmin], by simp [hmin]⟩

theorem startBoth_takesVoices (sel : Sel) (note : BitVec 7) (volume : F32) (s : State) :
    TakesVoices (soundingOscillators (s.patch sel)) s (startBoth sel note volume s) := by
  have hsecond := startOsc_takesVoices sel note volume .osc1 (startOsc sel note volume .osc0 s)
  rw [State.osc_eq, startOsc_patch] at hsecond
  exact (startOsc_takesVoices sel note volume .osc0 s).trans hsecond

/-- Settles O16: each oscillator takes the lowest free voice or counts a drop, and no active voice is touched. -/
theorem noteOnTakesFreeVoicesOnly : Obligations.NoteOnTakesFreeVoicesOnly := by
  intro note velocity s hvelocity
  refine ⟨startBoth .work note (fraction7 velocity) s, ?_, ?_⟩
  · rw [exec, execNoteOn, engineNoteOn_sounding _ _ hvelocity]
  · obtain ⟨hactive, hdrop⟩ := startBoth_takesVoices .work note (fraction7 velocity) s
    exact ⟨hactive, hdrop, fun v hv => startBoth_get_of_active _ _ _ hv⟩

/-! ## What an operation does to the voices (47_engine.md R475) -/

/-- Settles O17: a voice stops where it is active, released and past its release time, and is left otherwise. -/
theorem updateStopsReleasedVoices : Obligations.UpdateStopsReleasedVoices := by
  intro deltaMs s
  refine ⟨_, rfl, rfl, fun v => ?_⟩
  rw [State.mapVoices_get, Voice.update]
  simp only [Bool.and_eq_true, and_assoc]
  rfl

/-- The instruction is a note-off of the note. -/
def ReleasesNote (i : Instr) (note : BitVec 7) : Prop :=
  i = .noteOff note ∨ i = .noteOn note 0 ∨ ∃ p, i = .noteOnEx p note 0

/-- The instruction is a note-on of the note at the velocity, which is not 0. -/
def StartsNote (i : Instr) (note velocity : BitVec 7) : Prop :=
  velocity ≠ 0 ∧ (i = .noteOn note velocity ∨ ∃ p, i = .noteOnEx p note velocity)

/-- What an instruction can do to the voices. -/
inductive VoicesStep (i : Instr) (s : State) : State → Prop
  | kept {t : State} (h : t.voices = s.voices) : VoicesStep i s t
  | released (note : BitVec 7) (h : ReleasesNote i note) : VoicesStep i s (engineNoteOff note s)
  | started (sel : Sel) (note velocity : BitVec 7) (h : StartsNote i note velocity) :
    VoicesStep i s (startBoth sel note (fraction7 velocity) s)
  | updated (deltaMs : F32) (h : i = .update deltaMs) :
    VoicesStep i s (s.mapVoices fun v => v.update (s.osc v.oscRef).env.volume.release)
  | filled (n : BitVec 16) (sr : Word) (h : fillLegal n sr = true) :
    VoicesStep i s (fillLegalBody n.toNat sr.toNat s)
  | reset {t : State} (h : i = .reset) (hvoices : t.voices = State.reset.voices) : VoicesStep i s t
  | faulted {t : State} (h : t.fault ≠ none) : VoicesStep i s t

theorem selectPatch_voices (i : ℕ) (s : State) : (selectPatch i s).voices = s.voices := by
  unfold selectPatch
  split <;> rfl

theorem unpackWork_voices (pay : List Byte) (address size : ℕ) (s : State) :
    (unpackWork pay address size s).voices = s.voices := by
  obtain ⟨_, h⟩ := unpackWork_frame pay address size s
  rw [h]

theorem writeReg_voices (addr : Byte) (d : Word) (s : State) : (s.writeReg addr d).voices = s.voices := by
  obtain ⟨_, _, _, _, h⟩ := State.writeReg_frame addr d s
  rw [h]

theorem exec_reset_voices {s t : State} (h : exec .reset s = .next t) : t.voices = State.reset.voices := by
  cases h
  rfl

theorem engineNoteOn_voicesStep {i : Instr} {note velocity : BitVec 7}
    (h : i = .noteOn note velocity ∨ ∃ p, i = .noteOnEx p note velocity) (sel : Sel) (s : State) :
    VoicesStep i s (engineNoteOn sel note (fraction7 velocity) s) := by
  by_cases hvelocity : velocity = 0
  · subst hvelocity
    rw [engineNoteOn_zero]
    exact .released note (.inr h)
  · rw [engineNoteOn_sounding _ _ hvelocity]
    exact .started sel note velocity ⟨hvelocity, h⟩

theorem exec_voicesStep {i : Instr} {s t : State} (h : exec i s = .next t) : VoicesStep i s t := by
  cases i with
  | noteOff note =>
    cases h
    exact .released note (.inl rfl)
  | noteOn note velocity =>
    cases h
    exact engineNoteOn_voicesStep (.inl rfl) _ _
  | noteOnEx p note velocity =>
    simp only [exec, execNoteOnEx] at h
    split at h
    · cases h
      exact engineNoteOn_voicesStep (.inr ⟨p, rfl⟩) _ _
    · cases h
      exact .kept rfl
  | ccPatch index | patchSelect index =>
    cases h
    exact .kept (selectPatch_voices ..)
  | bulkRequest addr size =>
    simp only [exec, execBulkRequest] at h
    split at h <;> cases h <;> exact .kept rfl
  | bulkDeliver addr payload =>
    simp only [exec, execBulkDeliver] at h
    split at h
    · cases h
      exact .kept (unpackWork_voices ..)
    · cases h
      exact .kept rfl
  | fill n sr =>
    simp only [exec, execFill] at h
    split at h
    · cases h
      exact .filled n sr ‹_›
    · cases h
      exact .faulted (by simp)
  | update deltaMs =>
    cases h
    exact .updated deltaMs rfl
  | store index =>
    simp only [exec, execStore] at h
    split at h <;> cases h <;> exact .kept rfl
  | cfgWrite addr d =>
    cases h
    exact .kept (writeReg_voices ..)
  | reset => exact .reset rfl (exec_reset_voices h)
  | ccCutoff _ _ | ccReverb _ | pitchBend _ | cfgRead _ | ccOther _ | ctrlUnknown _ | msgTooShort _ | hostUnknown _ =>
    cases h
    exact .kept rfl

theorem fillLegalBody_get (n sr : ℕ) (s : State) (w : Fin 32) :
    (fillLegalBody n sr s).voices[w] = advanceVoice (fillCtx n sr s) n (s.osc (s.voices[w]).oscRef) s.voices[w] := by
  simp [fillLegalBody]

theorem reset_get (w : Fin 32) : State.reset.voices[w] = Voice.reset := by simp [State.reset]

/-! ## The arcs of 45_voice.md R361 -/

theorem Voice.state_inactive {x : Voice} (h : x.active = false) : x.state = .inactive := by
  rw [Voice.state, h]
  rfl

theorem Voice.state_playing {x : Voice} (h : x.active = true) (hr : x.released = false) : x.state = .playing := by
  rw [Voice.state, h, hr]
  rfl

theorem Voice.state_releasing {x : Voice} (h : x.active = true) (hr : x.released = true) : x.state = .releasing := by
  rw [Voice.state, h, hr]
  rfl

/-- Settles O18: voice by voice, each operation that writes the voices leaves one or takes it along its own arc. -/
theorem voiceStatesChangeOnlyAsTabled : Obligations.VoiceStatesChangeOnlyAsTabled := by
  intro i s t w hs h ht x y
  have hunchanged (hyx : y = x) : x.state = y.state ∧ (x.active = true → y.active = true →
      y.oscRef = x.oscRef ∧ y.cachedType = x.cachedType ∧ y.note = x.note ∧ y.freq = x.freq ∧ y.volume = x.volume) := by
    rw [hyx]
    exact ⟨rfl, fun _ _ => ⟨rfl, rfl, rfl, rfl, rfl⟩⟩
  cases exec_voicesStep h with
  | kept hkept => exact (hunchanged (by simp only [x, y, hkept])).imp_left .inl
  | released note hnote =>
    obtain hyx | ⟨hactive, hreleased, hholds, hy⟩ := engineNoteOff_get_cases note s w
    · exact (hunchanged hyx).imp_left .inl
    · have hplaying : x.state = .playing := Voice.state_playing hactive hreleased
      have hreleasing : y.state = .releasing := by
        simp only [y, hy]
        exact Voice.state_releasing hactive rfl
      refine ⟨.inr (.inr (.inl ⟨hplaying, hreleasing, note, hholds, hnote⟩)), fun _ _ => ?_⟩
      simp only [y, hy]
      exact ⟨rfl, rfl, rfl, rfl, rfl⟩
  | started sel note velocity hstarts =>
    obtain hyx | ⟨hinactive, hactive, hreleased⟩ := startBoth_get_cases sel note (fraction7 velocity) s w
    · exact (hunchanged hyx).imp_left .inl
    · refine ⟨.inr (.inl ⟨Voice.state_inactive hinactive, Voice.state_playing hactive hreleased, ?_⟩), fun hx => ?_⟩
      · obtain ⟨hvelocity, hi | ⟨p, hi⟩⟩ := hstarts
        · exact .inl ⟨note, velocity, hvelocity, hi⟩
        · exact .inr ⟨p, note, velocity, hvelocity, hi⟩
      · exact absurd hx (Bool.eq_false_iff.1 hinactive)
  | updated deltaMs hi =>
    have hy : y = x.update (s.osc x.oscRef).env.volume.release := State.mapVoices_get _ w s
    obtain hyx | ⟨hactive, hreleased, hpast, hstop⟩ := x.update_cases (s.osc x.oscRef).env.volume.release
    · exact (hunchanged (hy.trans hyx)).imp_left .inl
    · rw [hy, hstop]
      exact ⟨.inr (.inr (.inr (.inl ⟨Voice.state_releasing hactive hreleased, Voice.state_inactive rfl, ⟨deltaMs, hi⟩,
        hpast⟩))), fun _ hstopped => absurd hstopped Bool.false_ne_true⟩
  | filled n sr hlegal =>
    have hy : y = advanceVoice (fillCtx n.toNat sr.toNat s) n.toNat (s.osc x.oscRef) x := fillLegalBody_get ..
    rw [hy, advanceVoice_frame]
    exact ⟨.inl rfl, fun _ _ => ⟨rfl, rfl, rfl, rfl, rfl⟩⟩
  | reset hi hvoices =>
    have hy : y = Voice.reset := by simp only [y, hvoices, reset_get]
    rw [hy]
    exact ⟨.inr (.inr (.inr (.inr ⟨rfl, hi⟩))), fun _ hreset => absurd hreset Bool.false_ne_true⟩
  | faulted hfault => exact absurd ht hfault

end Sys2Proof.Machine
end

section
/-! The frequency of a note-on is above 0 and at most 13000 Hz (45_voice.md R362). -/

set_option autoImplicit false

namespace Sys2Proof.Machine

open Sys2Proof.Claims (finite val)
open Sys2Proof.F32 (inRangeF32_iff)

theorem val_four : val 0x40800000#32 = 4 := by decide +kernel

theorem finite_freqMax : finite freqMax := by decide

theorem val_freqMax : val freqMax = 13000 := by decide +kernel

/-- 6.875 Hz, below the frequency of note 0. -/
theorem val_freqLeast : val 0x40DC0000#32 = 440 / 64 := by decide +kernel

/-- 12760 Hz, above the frequency of note 127. -/
theorem val_freqGreatest : val 0x46476000#32 = 440 * 29 := by decide +kernel

/-- From note 0 to note 127 the ratio to note 69 stays between 2^-6 and 29, as 2^58 is below 29^12. -/
theorem two_rpow_semitones_bounds {p : ℤ} (hlow : -69 ≤ p) (hhigh : p ≤ 58) :
    1 / 64 ≤ (2 : ℝ) ^ ((p : ℝ) / (12 : ℕ)) ∧ (2 : ℝ) ^ ((p : ℝ) / (12 : ℕ)) ≤ 29 := by
  have hp_low : (-69 : ℝ) ≤ p := by exact_mod_cast hlow
  have hp_high : (p : ℝ) ≤ 58 := by exact_mod_cast hhigh
  constructor
  · calc (1 : ℝ) / 64 = 2 ^ (-6 : ℝ) := by rw [Real.rpow_neg two_pos.le]; norm_num
      _ ≤ 2 ^ ((p : ℝ) / (12 : ℕ)) := Real.rpow_le_rpow_of_exponent_le one_le_two (by push_cast; linarith)
  · refine le_of_pow_le_pow_left₀ (n := 12) (by norm_num) (by norm_num) ?_
    rw [← Real.rpow_mul_natCast two_pos.le, div_mul_cancel₀ _ (by norm_num)]
    calc (2 : ℝ) ^ (p : ℝ) ≤ 2 ^ (58 : ℝ) := Real.rpow_le_rpow_of_exponent_le one_le_two hp_high
      _ ≤ 29 ^ 12 := by rw [← Nat.cast_ofNat (n := 58), Real.rpow_natCast]; norm_num

theorem val_ratioLeast : val 0x3C800000#32 = 1 / 64 := by decide +kernel

theorem val_ratioGreatest : val 0x41E80000#32 = 29 := by decide +kernel

theorem semitoneRatio_inRangeF32 {p : ℤ} (hlow : -69 ≤ p) (hhigh : p ≤ 58) :
    inRangeF32 (Numerics.exp2Frac p 12) 0x3C800000#32 0x41E80000#32 := by
  obtain ⟨hge, hle⟩ := two_rpow_semitones_bounds hlow hhigh
  exact F32.inRangeF32_of_roundsTo (Numerics.roundsTo_exp2Frac (by decide) (abs_le.2 (by omega))) (by decide)
    (by decide) (by rw [val_ratioLeast]; push_cast; exact hge) (by rw [val_ratioGreatest]; push_cast; exact hle)

/-- 440 Hz times the ratio. -/
theorem noteFreq_inRangeF32 (note : BitVec 7) : inRangeF32 (noteFreq note) 0x40DC0000#32 0x46476000#32 := by
  have ha4 : val Config.a4Hz = 440 := by decide +kernel
  have hnote : note.toNat < 128 := note.isLt
  obtain ⟨hratio, hge, hle⟩ := (inRangeF32_iff (by decide) (by decide)).1 <|
    semitoneRatio_inRangeF32 (p := (note.toNat : ℤ) - Config.a4Note) (by simp only [Config.a4Note]; omega)
      (by simp only [Config.a4Note]; omega)
  rw [val_ratioLeast] at hge
  rw [val_ratioGreatest] at hle
  exact F32.mul_inRangeF32 (by decide) hratio (by decide) (by decide) (by rw [ha4, val_freqLeast]; linarith)
    (by rw [ha4, val_freqGreatest]; linarith)

/-- The detune moves a frequency by at most a 64th of it, and the rounding of that by far less. -/
theorem detunedFreq_inRangeF32 (note : BitVec 7) {detune : F32} (h : inRangeF32 detune 0xBF800000#32 F32.one) :
    inRangeF32 (detunedFreq note detune) 0x40800000#32 freqMax := by
  have hscale : 0 ≤ val Config.detuneScale ∧ val Config.detuneScale ≤ 1 / 64 := by decide +kernel
  obtain ⟨hscale_low, hscale_high⟩ := hscale
  have hfreq := noteFreq_inRangeF32 note
  rw [detunedFreq]
  generalize noteFreq note = f at *
  obtain ⟨hf, hf_low, hf_high⟩ := (inRangeF32_iff (by decide) (by decide)).1 hfreq
  rw [val_freqLeast] at hf_low
  rw [val_freqGreatest] at hf_high
  obtain ⟨hd, hd_low, hd_high⟩ := (inRangeF32_detune_iff detune).1 h
  obtain ⟨hfd, hfd_low, hfd_high⟩ := (inRangeF32_iff (F32.finite_neg hf) hf).1 <|
    F32.mul_inRangeF32 hf hd (F32.finite_neg hf) hf (by rw [F32.val_neg]; nlinarith) (by nlinarith)
  rw [F32.val_neg] at hfd_low
  have hmove : |val (F32.mul f detune) * val Config.detuneScale| ≤ val f / 64 := by
    rw [abs_mul, abs_of_nonneg hscale_low, div_eq_mul_one_div]
    exact mul_le_mul (abs_le.2 ⟨hfd_low, hfd_high⟩) hscale_high hscale_low (by linarith)
  have hscale_fin : finite Config.detuneScale := by decide
  obtain ⟨hc, -⟩ := (inRangeF32_iff (F32.finite_neg hf) hf).1 <|
    F32.mul_inRangeF32 hfd hscale_fin (F32.finite_neg hf) hf
      (by rw [F32.val_neg]; linarith [(abs_le.1 hmove).1]) (by linarith [(abs_le.1 hmove).2])
  have hnear := F32.abs_val_sub_le_of_roundsTo_of_abs_le (e := 8) (by decide)
    (F32.roundsTo_mul hfd hscale_fin) (hmove.trans (by linarith))
  rw [abs_le] at hmove hnear
  exact F32.add_inRangeF32 hf hc (by decide) (by decide) (by rw [val_four]; linarith) (by rw [val_freqMax]; linarith)

end Sys2Proof.Machine
end

section
/-! A FILL keeps the phase of a voice inside its table and its elapsed time bounded (46_mixer.md R407 to R416). -/

set_option autoImplicit false

namespace Sys2Proof.F32

protected theorem le_of_lt {x y : F32} (h : lt x y = true) : le x y = true := by
  simp only [lt, le, Bool.and_eq_true, decide_eq_true_eq] at h ⊢
  exact ⟨h.1, h.2.le⟩

end Sys2Proof.F32

namespace Sys2Proof.Machine

open Sys2Proof.Claims (finite val)
open Sys2Proof.F32 (InUnit inRangeF32_iff finite_zero finite_one val_zero val_one)

/-! ## Bounds as numbers -/

/-- Above the cycles per sample of any voice. -/
theorem val_outFMax : val 0x48000000#32 = 2 ^ 17 := by decide +kernel

/-- Above the table samples per output sample of any voice. -/
theorem val_incMax : val 0x51800000#32 = 2 ^ 36 := by decide +kernel

theorem finite_elapsedMax : finite elapsedMax := by decide

theorem val_elapsedMax : val elapsedMax = 2 ^ 47 := by decide +kernel

/-! ## Phases inside a table -/

theorem len_bounds (w : Wave) :
    finite (F32.ofNat w.len) ∧ 4096 ≤ val (F32.ofNat w.len) ∧ val (F32.ofNat w.len) ≤ 480000 := by
  have h := ofNat_len_inRangeF32 w
  rwa [inRangeF32_iff (by decide) finite_noiseLen, val_maxFill, val_noiseLen] at h

/-- A phase inside the table of a wave type (45_voice.md R367). -/
def InTable (w : Wave) (ph : F32) : Prop :=
  F32.le F32.zero ph = true ∧ F32.lt ph (F32.ofNat w.len) = true

theorem inTable_iff (w : Wave) (ph : F32) :
    InTable w ph ↔ finite ph ∧ 0 ≤ val ph ∧ val ph < val (F32.ofNat w.len) := by
  obtain ⟨hlen, -, -⟩ := len_bounds w
  constructor
  · rintro ⟨hlow, hlt⟩
    have hph : finite ph := F32.finite_of_inRangeF32 finite_zero hlen ⟨hlow, F32.le_of_lt hlt⟩
    exact ⟨hph, val_zero ▸ (F32.le_iff finite_zero hph).1 hlow, (F32.lt_iff hph hlen).1 hlt⟩
  · rintro ⟨hph, hlow, hlt⟩
    exact ⟨(F32.le_iff finite_zero hph).2 (val_zero.symm ▸ hlow), (F32.lt_iff hph hlen).2 hlt⟩

/-- The remainder of a finite sum by the length of the table (46_mixer.md R412). -/
theorem InTable.phaseNext {w : Wave} {ph inc : F32} (h : InTable w ph)
    (hinc : inRangeF32 inc F32.zero 0x51800000#32) : InTable w (phaseNext w.len inc ph) := by
  have hsum_val : val 0x52000000#32 = 2 ^ 37 := by decide +kernel
  obtain ⟨hlen, hlen_low, hlen_high⟩ := len_bounds w
  obtain ⟨hph, hph_low, hph_lt⟩ := (inTable_iff w ph).1 h
  obtain ⟨hinc, hinc_low, hinc_high⟩ := (inRangeF32_iff finite_zero (by decide)).1 hinc
  rw [val_zero] at hinc_low
  rw [val_incMax] at hinc_high
  obtain ⟨hsum, hsum_low, -⟩ := (inRangeF32_iff finite_zero (by decide)).1 <|
    F32.add_inRangeF32 (hi := 0x52000000#32) hph hinc finite_zero (by decide)
      (by rw [val_zero]; positivity) (by rw [hsum_val]; linarith)
  rw [val_zero] at hsum_low
  exact (inTable_iff w _).2 (F32.fmod_of_nonneg hsum hlen hsum_low (by linarith))

theorem InTable.phaseAfter {w : Wave} {ph inc : F32} (h : InTable w ph)
    (hinc : inRangeF32 inc F32.zero 0x51800000#32) (n : ℕ) : InTable w (phaseAfter w.len inc n ph) := by
  induction n generalizing ph with
  | zero => exact h
  | succ n ih => exact ih (h.phaseNext hinc)

/-! ## The level of the LFO (46_mixer.md R403) -/

theorem inUnit_mul {x y : F32} (hx : InUnit x) (hy : InUnit y) : InUnit (F32.mul x y) := by
  obtain ⟨hxf, hx_low, hx_high⟩ := hx
  obtain ⟨hyf, hy_low, hy_high⟩ := hy
  exact (inRangeF32_detune_iff _).1 <| F32.mul_inRangeF32 hxf hyf finite_minusOne finite_one
    (by rw [val_minusOne]; nlinarith) (by rw [val_one]; nlinarith)

theorem inUnit_of_fraction {x : F32} (h : inRangeF32 x F32.zero F32.one) : InUnit x := by
  obtain ⟨hx, hlow, hhigh⟩ := (F32.inRangeF32_unit_iff x).1 h
  exact ⟨hx, by linarith, hhigh⟩

theorem lfoLevel_inUnit {w : Patch} (hdepth : inRangeF32 w.lfoDepth F32.zero F32.one) (phase : F32) :
    InUnit (lfoLevel w [] phase) := by
  rw [lfoLevel]
  split
  · exact inUnit_of_fraction ⟨by decide, by decide⟩
  · rename_i hwave
    have hlen : (0 : ℤ) < w.lfoWave.len := by cases w.lfoWave <;> decide
    have hindex := Int.emod_lt_of_pos (F32.floor phase) hlen
    exact inUnit_mul (inUnit_of_fraction hdepth) (tableSamplesStayInUnit _ _ hwave (by omega))

/-! ## What a FILL gives its voices -/

/-- What a render reads besides the voice is in range. -/
structure RenderCtx.Legal (c : RenderCtx) : Prop where
  sr : 1 ≤ c.sr ∧ c.sr ≤ 192000
  ms : inRangeF32 c.ms F32.zero 0x4A7A0000#32
  lfo : InUnit c.lfo
  bendCur : inRangeF32 c.mixer.bendCur bendLeast bendGreatest

theorem fillCtx_legal {s : State} (hnoise : s.noise = []) (hwork : s.work.legal) (hmixer : s.mixer.Legal)
    {n : BitVec 16} {sr : Word} (h : fillLegal n sr = true) : (fillCtx n.toNat sr.toNat s).Legal := by
  obtain ⟨hsr, hsr', hn⟩ := of_decide_eq_true h
  obtain ⟨-, -, -, -, -, -, hdepth⟩ := hwork
  exact ⟨⟨hsr, hsr'⟩, bufMs_inRangeF32 hn hsr hsr', by rw [fillCtx, hnoise]; exact lfoLevel_inUnit hdepth _,
    hmixer.smoothBend.bendCur⟩

/-- What 45_voice.md R367 says of an active voice. -/
structure Voice.Sounding (v : Voice) : Prop where
  cachedType : v.cachedType ≠ .none
  phase : InTable v.cachedType v.phase
  note : v.note.isSome = true
  volume : inRangeF32 v.volume F32.zero F32.one
  elapsed : inRangeF32 v.elapsed F32.zero elapsedMax
  freq : F32.lt F32.zero v.freq = true ∧ F32.le v.freq freqMax = true

theorem Voice.legal_iff (v : Voice) :
    v.legal ↔ (v.active = true → v.Sounding) ∧ (v.active = false → v.note = none) := by
  constructor
  · rintro ⟨hactive, hinactive⟩
    refine ⟨fun h => ?_, hinactive⟩
    obtain ⟨htype, hphase, hnote, hvolume, helapsed, hfreq⟩ := hactive h
    exact ⟨htype, hphase, hnote, hvolume, helapsed, hfreq⟩
  · rintro ⟨hactive, hinactive⟩
    refine ⟨fun h => ?_, hinactive⟩
    obtain ⟨htype, hphase, hnote, hvolume, helapsed, hfreq⟩ := hactive h
    exact ⟨htype, hphase, hnote, hvolume, helapsed, hfreq⟩

theorem Voice.legal_of_sounding {v : Voice} (hactive : v.active = true) (hv : v.Sounding) : v.legal :=
  v.legal_iff.2 ⟨fun _ => hv, fun h => absurd hactive (Bool.eq_false_iff.1 h)⟩

section

variable {c : RenderCtx} {o : Oscillator} {v : Voice} (hc : c.Legal) (ho : o.legal) (hv : v.Sounding)

include hv

theorem Voice.Sounding.level_inRangeF32 {e : Envelope} (he : e.legal) :
    inRangeF32 (e.level v.elapsed v.released) F32.zero F32.one := by
  obtain ⟨hfin, hlow, -⟩ := (inRangeF32_iff finite_zero finite_elapsedMax).1 hv.elapsed
  exact (F32.inRangeF32_unit_iff _).2 (envelopeLevelStaysInUnit e _ _ he hfin (val_zero ▸ hlow))

include hc ho

/-- The pitch factor `(1 + level) + lfo * level` of R409 is never negative, as the LFO takes away at most 1. -/
theorem pitchFactor_inRangeF32 :
    inRangeF32 (F32.add (F32.add F32.one (o.env.pitch.level v.elapsed v.released))
      (F32.mul c.lfo (o.lfoEnv.pitch.level v.elapsed v.released))) F32.zero 0x40800000#32 := by
  obtain ⟨-, -, ⟨-, hpitch, -⟩, ⟨-, hlfoPitch, -⟩⟩ := ho
  obtain ⟨hlevel, hlevel_low, hlevel_high⟩ := (F32.inRangeF32_unit_iff _).1 (hv.level_inRangeF32 hpitch)
  obtain ⟨hmod, hmod_low, hmod_high⟩ := inUnit_mul hc.lfo (inUnit_of_fraction (hv.level_inRangeF32 hlfoPitch))
  obtain ⟨hsum, hsum_low, hsum_high⟩ := (inRangeF32_iff finite_one finite_two).1 <|
    F32.add_inRangeF32 finite_one hlevel finite_one finite_two (by rw [val_one]; linarith)
      (by rw [val_one, val_two]; linarith)
  rw [val_one] at hsum_low
  rw [val_two] at hsum_high
  exact F32.add_inRangeF32 hsum hmod finite_zero (by decide) (by rw [val_zero]; linarith) (by rw [val_four]; linarith)

/-- At most 13000 cycles per sample times the pitch factor and the bend ratio, below 2^17. -/
theorem voiceOutF_inRangeF32 : inRangeF32 (voiceOutF c o v) F32.zero 0x48000000#32 := by
  have hrate : val 0x483B8000#32 = 192000 := by decide +kernel
  have hpitched : val 0x47800000#32 = 2 ^ 16 := by decide +kernel
  have hleast : 0 ≤ val bendLeast := by decide +kernel
  have hgreatest : val bendGreatest ≤ 2 := by decide +kernel
  obtain ⟨hbend, hbend_low, hbend_high⟩ := (inRangeF32_iff finite_bendLeast finite_bendGreatest).1 hc.bendCur
  obtain ⟨hsr_low, hsr_high⟩ := hc.sr
  have hsr : inRangeF32 (F32.ofNat c.sr) F32.one 0x483B8000#32 :=
    F32.ofNat_inRangeF32 finite_one (by decide) (by rw [val_one]; exact_mod_cast hsr_low)
      (by rw [hrate]; exact_mod_cast hsr_high)
  have hcycles : inRangeF32 (F32.div v.freq (F32.ofNat c.sr)) F32.zero freqMax :=
    F32.div_inRangeF32_nonneg finite_freqMax finite_one (by decide) finite_freqMax
      ⟨F32.le_of_lt hv.freq.1, hv.freq.2⟩ hsr (by simp) (by simp)
  have hfactored := F32.mul_inRangeF32_nonneg (c := 0x47800000#32) finite_freqMax (by decide) (by decide) hcycles
    (pitchFactor_inRangeF32 hc ho hv) (by rw [val_freqMax, val_four, hpitched]; norm_num)
  exact F32.mul_inRangeF32_nonneg (by decide) finite_bendGreatest (by decide) hfactored
    ((inRangeF32_iff finite_zero finite_bendGreatest).2
      ⟨hbend, val_zero.symm ▸ hleast.trans hbend_low, hbend_high⟩) (by rw [hpitched, val_outFMax]; linarith)

theorem voiceInc_inRangeF32 : inRangeF32 (voiceInc c o v) F32.zero 0x51800000#32 := by
  obtain ⟨hlen, hlen_low, hlen_high⟩ := len_bounds v.cachedType
  exact F32.mul_inRangeF32_nonneg (by decide) finite_noiseLen (by decide) (voiceOutF_inRangeF32 hc ho hv)
    ((inRangeF32_iff finite_zero finite_noiseLen).2
      ⟨hlen, by rw [val_zero]; linarith, by rw [val_noiseLen]; exact hlen_high⟩)
    (by rw [val_outFMax, val_incMax, val_noiseLen]; norm_num)

omit ho

/-- The elapsed time does not pass 2^47 ms: there a step of at most 2^22 ms is rounded away. -/
theorem elapsed_add_inRangeF32 : inRangeF32 (F32.add v.elapsed c.ms) F32.zero elapsedMax := by
  have htop : val 0x57800000#32 = 2 ^ 48 := by decide +kernel
  have hstep : val 0x4A800000#32 = 2 ^ 22 := by decide +kernel
  have habsorbed : F32.add elapsedMax 0x4A800000#32 = elapsedMax := by decide +kernel
  obtain ⟨he, he_low, he_high⟩ := (inRangeF32_iff finite_zero finite_elapsedMax).1 hv.elapsed
  obtain ⟨hms, hms_low, hms_high⟩ := (inRangeF32_iff finite_zero (by decide)).1 hc.ms
  rw [val_zero] at he_low hms_low
  rw [val_bufMsMax] at hms_high
  obtain ⟨hsum, hsum_low, -⟩ := (inRangeF32_iff finite_zero (by decide)).1 <|
    F32.add_inRangeF32 (hi := 0x57800000#32) he hms finite_zero (by decide) (by rw [val_zero]; positivity)
      (by rw [htop]; linarith [val_elapsedMax])
  refine (inRangeF32_iff finite_zero finite_elapsedMax).2 ⟨hsum, hsum_low, ?_⟩
  have hround := F32.roundsTo_add finite_elapsedMax (by decide : finite 0x4A800000#32)
  rw [habsorbed] at hround
  exact F32.val_le_of_roundsTo hsum finite_elapsedMax (F32.roundsTo_add he hms) hround
    (Rat.cast_lt.2 (by rw [hstep]; linarith))

end

/-- A FILL moves the phase and the elapsed time of an active voice, and each stays in range. -/
theorem Voice.legal.advance {c : RenderCtx} {o : Oscillator} {v : Voice} (hv : v.legal) (hc : c.Legal) (ho : o.legal)
    (n : ℕ) : (advanceVoice c n o v).legal := by
  cases hactive : v.active with
  | false => rwa [advanceVoice_inactive c n o v hactive]
  | true =>
    have hsounding := (v.legal_iff.1 hv).1 hactive
    rw [advanceVoice, if_pos hactive]
    exact Voice.legal_of_sounding hactive
      { hsounding with
        phase := hsounding.phase.phaseAfter (voiceInc_inRangeF32 hc ho hsounding) n
        elapsed := elapsed_add_inRangeF32 hc hsounding }

end Sys2Proof.Machine
end

section
/-! The voices: every operation keeps the invariants of 45_voice.md R367. -/

set_option autoImplicit false

namespace Sys2Proof.Machine

open Sys2Proof.Claims (val)
open Sys2Proof.F32 (inRangeF32_iff finite_zero finite_one val_one)

/-! ## A voice -/

theorem zero_inRangeF32_elapsedMax : inRangeF32 F32.zero F32.zero elapsedMax := ⟨by decide, by decide⟩

theorem Voice.reset_legal : Voice.reset.legal := Tests.witness_voice_legal.2

/-- A note-on draws the phase from the first 16 samples of the table (45_voice.md R362). -/
theorem inTable_ofNat (w : Wave) (draw : BitVec 4) : InTable w (F32.ofNat draw.toNat) := by
  have hdraw : draw.toNat < 16 := draw.isLt
  obtain ⟨hfin, hval⟩ := F32.ofNat_exact (n := draw.toNat) (by omega)
  obtain ⟨-, hlen_low, -⟩ := len_bounds w
  have hlt : (draw.toNat : ℚ) < 16 := by exact_mod_cast hdraw
  exact (inTable_iff w _).2 ⟨hfin, by rw [hval]; positivity, by rw [hval]; linarith⟩

/-- The table of a started voice is that of its oscillator, whatever it cached before. -/
theorem Voice.noteOn_cachedType (v : Voice) (ref : OscRef) (o : Oscillator) (note : BitVec 7) (volume : F32)
    (draw : BitVec 4) : (v.noteOn ref o note volume draw).cachedType = o.waveType := by
  simp only [Voice.noteOn]
  split <;> simp_all

theorem Voice.noteOn_legal (v : Voice) (ref : OscRef) {o : Oscillator} (hwave : o.waveType ≠ .none) (ho : o.legal)
    (note : BitVec 7) {volume : F32} (hvolume : inRangeF32 volume F32.zero F32.one) (draw : BitVec 4) :
    (v.noteOn ref o note volume draw).legal := by
  have htype := v.noteOn_cachedType ref o note volume draw
  obtain ⟨-, hdetune, -, -⟩ := ho
  have hpos : val F32.zero < val 0x40800000#32 := by decide +kernel
  obtain ⟨hfreq, hfreq_low, hfreq_high⟩ :=
    (inRangeF32_iff (by decide) finite_freqMax).1 (detunedFreq_inRangeF32 note hdetune)
  exact Voice.legal_of_sounding rfl
    { cachedType := htype ▸ hwave
      phase := inTable_ofNat _ draw
      note := rfl
      volume := hvolume
      elapsed := zero_inRangeF32_elapsedMax
      freq := ⟨(F32.lt_iff finite_zero hfreq).2 (hpos.trans_le hfreq_low),
        (F32.le_iff hfreq finite_freqMax).2 hfreq_high⟩ }

theorem Voice.legal.release {v : Voice} (hv : v.legal) :
    Voice.legal { v with released := true, elapsed := F32.zero } := by
  rw [Voice.legal_iff] at hv ⊢
  exact ⟨fun h => { hv.1 h with elapsed := zero_inRangeF32_elapsedMax }, hv.2⟩

theorem Voice.stop_legal (v : Voice) : v.stop.legal :=
  v.stop.legal_iff.2 ⟨fun h => absurd h Bool.false_ne_true, fun _ => rfl⟩

/-! ## An operation -/

/-- What `State.voicesLegal` says of an unfaulted state. -/
def State.VoicesInRange (s : State) : Prop := ∀ v : Fin 32, (s.voices[v]).legal

theorem voicesInRange_reset : State.reset.VoicesInRange := fun v => by
  rw [reset_get]
  exact Voice.reset_legal

theorem State.PatchesInRange.patch {s : State} (hs : s.PatchesInRange) (sel : Sel) : (s.patch sel).legal := by
  cases sel with
  | work => exact hs.work
  | bank i => exact hs.bank i

theorem State.PatchesInRange.osc {s : State} (hs : s.PatchesInRange) (r : OscRef) : (s.osc r).legal := by
  rw [State.osc_eq]
  cases r.k with
  | osc0 => exact (hs.patch r.sel).osc0
  | osc1 => exact (hs.patch r.sel).osc1

theorem State.VoicesInRange.startOsc {s : State} (hs : s.VoicesInRange) (hpatches : s.PatchesInRange) (sel : Sel)
    (note : BitVec 7) {volume : F32} (hvolume : inRangeF32 volume F32.zero F32.one) (k : OscIndex) :
    (startOsc sel note volume k s).VoicesInRange := by
  intro w
  obtain hkept | ⟨-, hwave, draw, hstarted⟩ := startOsc_get sel note volume k s w
  · rw [hkept]
    exact hs w
  · rw [hstarted]
    obtain ⟨-, -, hmix, -⟩ := hpatches.patch sel
    exact Voice.noteOn_legal _ _ hwave (hpatches.osc _) note
      (F32.mul_inRangeF32_nonneg finite_one finite_one finite_one hvolume hmix (by rw [val_one, mul_one])) draw

theorem State.VoicesInRange.startBoth {s : State} (hs : s.VoicesInRange) (hpatches : s.PatchesInRange) (sel : Sel)
    (note velocity : BitVec 7) : (startBoth sel note (fraction7 velocity) s).VoicesInRange :=
  have hvolume := fraction7_inRangeF32 velocity
  (hs.startOsc hpatches sel note hvolume .osc0).startOsc ((startOsc_samePatches ..).patchesInRange hpatches) sel note
    hvolume .osc1

/-- What the voices of a legal state rest on. -/
structure State.InRange (s : State) : Prop where
  memory : s.memoryCanonical
  patches : s.PatchesInRange
  units : s.UnitsLegal
  voices : s.VoicesInRange

theorem State.Legal.inRange {s : State} (hs : s.Legal) (hsafe : s.safe) : s.InRange where
  memory := hs.memory hsafe
  patches := s.patchesLegal_iff.1 hs.patches hsafe
  units := s.registersLegal_iff.1 hs.registers hsafe
  voices := hs.voices hsafe

theorem State.InRange.accept {s : State} (hs : s.InRange) (rest : List Input) : (s.accept rest).InRange where
  memory := (accept_sameUnits rest s).memoryCanonical hs.memory
  patches := (accept_samePatches rest s).patchesInRange hs.patches
  units := (accept_sameUnits rest s).unitsLegal hs.units
  voices := hs.voices

theorem State.InRange.fill {s : State} (hs : s.InRange) {n : BitVec 16} {sr : Word} (h : fillLegal n sr = true) :
    (fillLegalBody n.toNat sr.toNat s).VoicesInRange := fun w => by
  rw [fillLegalBody_get]
  exact (hs.voices w).advance (fillCtx_legal hs.memory.2 hs.patches.work hs.units.mixer h) (hs.patches.osc _) _

/-- An operation keeps every voice legal, or leaves the block faulted. -/
theorem VoicesStep.voicesInRange {i : Instr} {s t : State} (h : VoicesStep i s t) (hs : s.InRange) (ht : t.safe) :
    t.VoicesInRange := by
  have hvoices := hs.voices
  cases h with
  | kept hkept => rwa [State.VoicesInRange, hkept]
  | released note =>
    intro w
    obtain hkept | ⟨-, -, -, hreleased⟩ := engineNoteOff_get_cases note s w
    · rw [hkept]
      exact hvoices w
    · rw [hreleased]
      exact (hvoices w).release
  | started sel note velocity => exact hvoices.startBoth hs.patches sel note velocity
  | updated =>
    intro w
    rw [State.mapVoices_get]
    obtain hkept | ⟨-, -, -, hstopped⟩ :=
      (s.voices[w]).update_cases (s.osc (s.voices[w]).oscRef).env.volume.release
    · rw [hkept]
      exact hvoices w
    · rw [hstopped]
      exact Voice.stop_legal _
  | filled n sr hlegal => exact hs.fill hlegal
  | reset _ hreset =>
    rw [State.VoicesInRange, hreset]
    exact voicesInRange_reset
  | faulted hfault => exact absurd ht hfault

/-- Settles O60: a voice starts in range, a FILL keeps its phase and its elapsed time in range, and the other
operations leave it, release it at elapsed time 0, or stop it. -/
theorem stepKeepsVoicesLegal : Obligations.StepKeepsVoicesLegal := by
  intro s t hs h
  exact step_keeps (P := State.InRange) (Q := State.VoicesInRange) (fun _ hs => hs.voices)
    (fun _ rest hs => hs.accept rest)
    (fun _ _ _ hs hx => (exec_voicesStep hx).voicesInRange hs)
    (fun _ t hx => by rw [State.VoicesInRange, exec_reset_voices hx]; exact voicesInRange_reset) hs.inRange h

end Sys2Proof.Machine
end

section
/-! The preconditions of FILL and the model fault: which FILL raises it, and that nothing but RESET clears it
(46_mixer.md R400, 60_exceptions.md R528). -/

set_option autoImplicit false

namespace Sys2Proof.Machine

open Sys2Proof.Claims (LegalFill IsResetState noiseSample)

/-! ## The preconditions -/

theorem fillLegal_iff (n : BitVec 16) (sr : Word) : fillLegal n sr = true ↔ LegalFill n sr := decide_eq_true_iff

theorem exec_fill_legal {n : BitVec 16} {sr : Word} (h : LegalFill n sr) (s : State) :
    exec (.fill n sr) s = .next (fillLegalBody n.toNat sr.toNat s) := if_pos ((fillLegal_iff n sr).2 h)

theorem exec_fill_illegal {n : BitVec 16} {sr : Word} (h : ¬ LegalFill n sr) (s : State) :
    exec (.fill n sr) s = .next (s.raiseFault .fillParams) := if_neg (mt (fillLegal_iff n sr).1 h)

/-- Settles O11: a FILL out of range is not legal, and then it raises the fault. -/
theorem fillParametersOutOfRangeFault : Obligations.FillParametersOutOfRangeFault := by
  intro n sr s hrange
  have hillegal : ¬ LegalFill n sr := fun ⟨hlow, hhigh, hn⟩ => by omega
  exact ⟨_, exec_fill_illegal hillegal s, by simp⟩

/-! ## Operations and FAULT -/

theorem selectPatch_fault (i : ℕ) (s : State) : (selectPatch i s).fault = s.fault := by
  unfold selectPatch
  split <;> rfl

theorem startOsc_fault (sel : Sel) (note : BitVec 7) (volume : F32) (k : OscIndex) (s : State) :
    (startOsc sel note volume k s).fault = s.fault := by
  obtain ⟨_, _, _, _, h⟩ := startOsc_frame sel note volume k s
  rw [h]

theorem engineNoteOn_fault (sel : Sel) (note : BitVec 7) (volume : F32) (s : State) :
    (engineNoteOn sel note volume s).fault = s.fault := by
  unfold engineNoteOn
  split
  · rfl
  · rw [startOsc_fault, startOsc_fault]

theorem unpackWork_fault (pay : List Byte) (address size : ℕ) (s : State) :
    (unpackWork pay address size s).fault = s.fault := by
  obtain ⟨_, h⟩ := unpackWork_frame pay address size s
  rw [h]

theorem writeReg_fault (addr : Byte) (d : Word) (s : State) : (s.writeReg addr d).fault = s.fault := by
  obtain ⟨_, _, _, _, h⟩ := s.writeReg_frame addr d
  rw [h]

/-- An operation leaves FAULT as it was, unless it is a RESET or a FILL out of range. -/
theorem exec_fault {i : Instr} {s t : State} (h : exec i s = .next t) :
    t.fault = s.fault ∨ i = .reset ∨ ∃ n sr, i = .fill n sr ∧ ¬ LegalFill n sr := by
  cases i with
  | reset => exact .inr (.inl rfl)
  | fill n sr =>
    by_cases hlegal : LegalFill n sr
    · cases (exec_fill_legal hlegal s).symm.trans h
      exact .inl rfl
    · exact .inr (.inr ⟨n, sr, rfl, hlegal⟩)
  | noteOn note velocity =>
    cases h
    exact .inl (engineNoteOn_fault ..)
  | noteOnEx p note velocity =>
    simp only [exec, execNoteOnEx] at h
    split at h <;> cases h
    · exact .inl (engineNoteOn_fault ..)
    · exact .inl rfl
  | ccPatch index | patchSelect index =>
    cases h
    exact .inl (selectPatch_fault ..)
  | bulkRequest addr size =>
    simp only [exec, execBulkRequest] at h
    split at h <;> cases h <;> exact .inl rfl
  | bulkDeliver addr payload =>
    simp only [exec, execBulkDeliver] at h
    split at h <;> cases h
    · exact .inl (unpackWork_fault ..)
    · exact .inl rfl
  | store index =>
    simp only [exec, execStore] at h
    split at h <;> cases h <;> exact .inl rfl
  | cfgWrite addr d =>
    cases h
    exact .inl (writeReg_fault ..)
  | noteOff _ | ccCutoff _ _ | ccReverb _ | ccOther _ | pitchBend _ | ctrlUnknown _ | msgTooShort _ | update _
  | cfgRead _ | hostUnknown _ =>
    cases h
    exact .inl rfl

/-! ## RESET -/

/-- RESET establishes the state of 70_reset_and_hazards.md R560, faulted or not. -/
theorem exec_reset_isResetState (s : State) : ∃ t, exec .reset s = .next t ∧ IsResetState t := by
  refine ⟨_, rfl, ?_, rfl, rfl, ?_, rfl, rfl, fun _ _ => rfl, rfl, rfl, rfl, rfl, ?_, rfl, rfl⟩
  · exact fun i => Vector.getElem_replicate i.isLt
  · intro v
    rw [reset_get]
    rfl
  · exact fun n _ => noiseDefault_eq_noiseSample n

/-- Settles O12: a faulted block performs RESET only, and no other operation than a FILL out of range changes FAULT. -/
theorem faultHoldsUntilReset : Obligations.FaultHoldsUntilReset := by
  refine ⟨fun s m rest hinbox hfault => ?_, fun i s t hsafe hexec hfault => ?_⟩
  · rw [step_input s m rest hinbox]
    by_cases hreset : decode m = .reset
    · obtain ⟨t, ht, hstate⟩ := exec_reset_isResetState (s.accept rest)
      exact ⟨t, by rw [if_pos (.inr hreset), hreset, ht], fun _ => hstate, fun h => absurd hreset h⟩
    · exact ⟨_, if_neg (by simp [hfault, hreset]), fun h => absurd h hreset, fun _ => rfl⟩
  · obtain hkept | rfl | hfill := exec_fault hexec
    · exact absurd (hkept.trans hsafe) hfault
    · cases hexec
      exact absurd rfl hfault
    · exact hfill

end Sys2Proof.Machine
end

section
/-! The output conversion truncates, saturates and counts (46_mixer.md R421). -/

set_option autoImplicit false

namespace Sys2Proof.F32

open Sys2Proof.Claims (finite val truncate)

/-! ## The sign and the integer part -/

theorem sign_eq_true_of_val_neg {x : F32} (h : val x < 0) : sign x = true := by
  rw [val_eq_gridUnits] at h
  cases hs : sign x
  · rw [hs, signOf_false, Int.cast_one, one_mul] at h
    exact absurd h (not_lt.2 (by positivity))
  · rfl

theorem sign_eq_false_of_val_pos {x : F32} (h : 0 < val x) : sign x = false := by
  have hneg := sign_eq_true_of_val_neg (x := neg x) (by rwa [val_neg, neg_lt_zero])
  rwa [sign_neg, Bool.not_eq_true'] at hneg

theorem trunc_eq_truncate (x : F32) : trunc x = truncate (val x) := by
  have hwhole : ⌊(gridUnits (magBits x) : ℚ) / 2 ^ 149⌋ = (units x / one149 : ℕ) := by
    have h := Rat.floor_natCast_div_natCast (gridUnits (magBits x)) (2 ^ 149)
    rw [units_eq_gridUnits, one149_eq, Int.natCast_div, ← h, Nat.cast_pow, Nat.cast_ofNat]
  rw [val_eq_gridUnits, truncate_signOf_mul _ (by positivity), hwhole, trunc]
  cases sign x <;> simp

end Sys2Proof.F32

namespace Sys2Proof.Machine

open Sys2Proof.Claims (finite nan negative val truncate Saturates)

/-! ## One conversion -/

theorem inRange_of_finite {x : F32} (hx : finite x) :
    inRange x = if -32768 ≤ truncate (val x) ∧ truncate (val x) ≤ 32767 then some (truncate (val x)) else none := by
  simp [inRange, F32.isFinite_eq_true hx, F32.trunc_eq_truncate]

theorem inRange_of_not_finite {x : F32} (hx : ¬ finite x) : inRange x = none := by
  simp [inRange, mt (F32.isFinite_iff x).1 hx]

theorem inRange_isNone_iff (x : F32) : (inRange x).isNone = true ↔ Saturates x := by
  by_cases hx : finite x
  · rw [inRange_of_finite hx, Saturates, or_iff_right (not_not.2 hx)]
    split
    · simp only [Option.isNone_some, Bool.false_eq_true, false_iff]
      omega
    · simp only [Option.isNone_none, true_iff]
      omega
  · rw [inRange_of_not_finite hx]
    exact iff_of_true rfl (.inl hx)

theorem convert_of_inRange {x : F32} {t : ℤ} (h : inRange x = some t) : convert x = BitVec.ofInt 16 t := by
  rw [convert, h]

theorem convert_of_outOfRange {x : F32} (h : inRange x = none) :
    convert x = if F32.isNaN x then 0 else if F32.sign x then 0x8000 else 0x7FFF := by
  rw [convert, h]

theorem convertEvent_of_inRange {x : F32} {t : ℤ} (h : inRange x = some t) (d : Diag) : convertEvent x d = d := by
  rw [convertEvent, h]
  rfl

theorem convertEvent_of_outOfRange {x : F32} (h : inRange x = none) (d : Diag) :
    convertEvent x d = { d with clipCount := d.clipCount + 1, lastEvent := 9 } := by
  rw [convertEvent, h]
  rfl

theorem toInt_ofInt_sample {t : ℤ} (hlow : -32768 ≤ t) (hhigh : t ≤ 32767) : (BitVec.ofInt 16 t).toInt = t := by
  rw [BitVec.toInt_ofInt, Int.bmod_eq_of_le] <;> omega

theorem neg_of_truncate_neg {q : ℚ} (h : truncate q < 0) : q < 0 := by
  by_contra hge
  rw [truncate, if_pos (not_lt.1 hge)] at h
  exact absurd h (not_lt.2 (Int.floor_nonneg.2 (not_lt.1 hge)))

theorem pos_of_truncate_pos {q : ℚ} (h : 0 < truncate q) : 0 < q := by
  by_contra hle
  refine absurd h (not_lt.2 ?_)
  unfold truncate
  split
  · exact Int.floor_nonpos (not_lt.1 hle)
  · exact Int.ceil_nonpos.2 (not_lt.1 hle)

theorem toInt_convert_of_finite {x : F32} (hx : finite x) :
    (convert x).toInt = max (-32768) (min 32767 (truncate (val x))) := by
  have hrange := inRange_of_finite hx
  split at hrange
  · rename_i hin
    rw [convert_of_inRange hrange, toInt_ofInt_sample hin.1 hin.2]
    omega
  · rename_i hout
    rw [convert_of_outOfRange hrange, if_neg (by simp [F32.isNaN_eq_false hx])]
    rcases lt_or_ge (truncate (val x)) (-32768) with hlow | hlow
    · rw [if_pos (F32.sign_eq_true_of_val_neg (neg_of_truncate_neg (by omega))), max_eq_left (by omega)]
      rfl
    · have hsign := F32.sign_eq_false_of_val_pos (pos_of_truncate_pos (by omega : 0 < truncate (val x)))
      rw [if_neg (by simp [hsign]), min_eq_left (by omega)]
      rfl

/-- Settles O40: a NaN, a finite sample in range or out of it, and an infinity, by its sign. -/
theorem convertSaturates : Obligations.ConvertSaturates := by
  intro x d
  refine ⟨fun hnan => ?_, fun hx => ⟨toInt_convert_of_finite hx, ?_⟩, fun hx hnan => ?_⟩
  · have hout := inRange_of_not_finite (not_not.2 hnan.1)
    exact ⟨by rw [convert_of_outOfRange hout, if_pos ((F32.nan_iff_isNaN x).1 hnan)], convertEvent_of_outOfRange hout d⟩
  · have hrange := inRange_of_finite hx
    split at hrange
    · rw [convertEvent_of_inRange hrange, if_pos ‹_›]
    · rw [convertEvent_of_outOfRange hrange, if_neg ‹_›]
  · have hout := inRange_of_not_finite hx
    refine ⟨?_, convertEvent_of_outOfRange hout d⟩
    rw [convert_of_outOfRange hout, if_neg (mt (F32.nan_iff_isNaN x).2 hnan), F32.negative_eq_sign]
    cases F32.sign x <;> rfl

end Sys2Proof.Machine
end

section
/-! A FILL, step by step: the mix as a sum, the phases as iterated advances, the counted samples (46_mixer.md R401 to
R421). -/

set_option autoImplicit false

namespace Sys2Proof.Machine

open Sys2Proof.Claims (Saturates bufferMs contribution phaseAt)

/-! ## What a voice's render reads -/

theorem ofNat_thousand : F32.ofNat 1000 = 0x447A0000#32 := by decide +kernel

theorem bufMs_eq_bufferMs (n sr : ℕ) : bufMs n sr = bufferMs n sr := by rw [bufMs, bufferMs, ofNat_thousand]

theorem fillCtx_lfo (n sr : ℕ) (s : State) : (fillCtx n sr s).lfo = Claims.lfo s := by
  rw [Claims.lfo, ofNat_zero]
  rfl

theorem voiceVol_fillCtx (n sr : ℕ) (s : State) (v : Voice) :
    voiceVol (fillCtx n sr s) (s.osc v.oscRef) v = Claims.vol s (Claims.lfo s) v := by
  rw [voiceVol, fillCtx_lfo]
  rfl

theorem voiceInc_fillCtx (n sr : ℕ) (s : State) (v : Voice) :
    voiceInc (fillCtx n sr s) (s.osc v.oscRef) v = Claims.inc s sr (Claims.lfo s) v := by
  rw [voiceInc, voiceOutF, fillCtx_lfo, Claims.inc, ofNat_one]
  rfl

/-! ## Phases (46_mixer.md R410, R412) -/

theorem phaseAfter_eq_iterate (len : ℕ) (inc : F32) (n : ℕ) (ph : F32) :
    phaseAfter len inc n ph = (phaseNext len inc)^[n] ph := by
  induction n generalizing ph with
  | zero => rfl
  | succ n ih => exact ih (phaseNext len inc ph)

theorem phaseAt_eq_iterate (s : State) (sr : ℕ) (v : Voice) (n : ℕ) :
    phaseAt s sr v n = (phaseNext v.cachedType.len (Claims.inc s sr (Claims.lfo s) v))^[n] v.phase := rfl

/-! ## The mix (46_mixer.md R410, R411) -/

/-- Sample `i` of a voice is read at the phase after `i + 1` advances. -/
theorem getElem?_renderSamples (noise : SampleMem) (w : Wave) (duty vol inc : F32) (xs : List F32) (ph : F32) (i : ℕ) :
    (renderSamples noise w duty vol inc xs ph)[i]? = xs[i]?.map fun x =>
      F32.add x (F32.mul vol (tableRead noise w (warp (F32.floor ((phaseNext w.len inc)^[i + 1] ph)) duty w.len))) := by
  induction xs generalizing ph i with
  | nil => rfl
  | cons x xs ih =>
    cases i with
    | zero => rfl
    | succ i => exact ih (phaseNext w.len inc ph) i

theorem getElem?_renderVoice_active (n sr : ℕ) (s : State) {v : Voice} (h : v.active = true) (mix : List F32) (i : ℕ) :
    (renderVoice (fillCtx n sr s) (s.osc v.oscRef) v mix)[i]? =
      mix[i]?.map fun x => F32.add x (contribution s sr v i) := by
  rw [renderVoice, if_pos h, voiceVol_fillCtx, voiceInc_fillCtx, getElem?_renderSamples]
  rfl

/-- One voice after the other, each active one adds its contribution to every sample. -/
theorem getElem?_foldl_renderVoice (n sr : ℕ) (s : State) (vs : List Voice) (mix : List F32) (i : ℕ) :
    (vs.foldl (fun mix v => renderVoice (fillCtx n sr s) (s.osc v.oscRef) v mix) mix)[i]? =
      mix[i]?.map ((vs.filter (·.active)).foldl fun acc v => F32.add acc (contribution s sr v i)) := by
  induction vs generalizing mix with
  | nil => simp
  | cons v vs ih =>
    rw [List.foldl_cons, ih]
    by_cases h : v.active = true
    · rw [getElem?_renderVoice_active n sr s h, List.filter_cons_of_pos h, Option.map_map]
      rfl
    · rw [renderVoice, if_neg h, List.filter_cons_of_neg h]

/-- Settles O37: the mix starts at 0.0 and the voices are taken in ascending order. -/
theorem mixSumsActiveVoicesInOrder : Obligations.MixSumsActiveVoicesInOrder := by
  intro s N sr i hi
  rw [fillMix, getElem?_foldl_renderVoice, List.getElem?_replicate_of_lt hi, Option.map_some, ofNat_zero]

/-! ## What a legal FILL leaves -/

theorem fillLegalBody_mixer (n sr : ℕ) (s : State) :
    (fillLegalBody n sr s).mixer = s.mixer.smoothBend.advanceLfo s.work (bufMs n sr) := by
  simp only [fillLegalBody, fillCtx]

theorem fillLegalBody_portA_length (n sr : ℕ) (s : State) : (fillLegalBody n sr s).portA.length = n := by
  simp [fillLegalBody, Filter.apply_length, Reverb.apply, reverbRun_length, fillMix_length]

/-- The conversions of a list of samples count those that saturate or are no number (46_mixer.md R421). -/
theorem convertEvents_countP (xs : List F32) (d : Diag) :
    xs.foldl (fun d x => convertEvent x d) d =
      if xs.countP (fun x => Saturates x) = 0 then d
      else { d with clipCount := d.clipCount + BitVec.ofNat 32 (xs.countP fun x => Saturates x), lastEvent := 9 } := by
  rw [convertEvents_count]
  simp only [← inRange_isNone_iff, Bool.decide_eq_true]

/-- An active voice moves on by the phase of its samples and by the time of the buffer (46_mixer.md R416). -/
theorem fillLegalBody_voice (n sr : ℕ) (s : State) (w : Fin 32) :
    (fillLegalBody n sr s).voices[w] =
      if (s.voices[w]).active = true then
        { s.voices[w] with
          phase := phaseAt s sr s.voices[w] n
          elapsed := F32.add (s.voices[w]).elapsed (bufferMs n sr) }
      else s.voices[w] := by
  rw [fillLegalBody_get, advanceVoice, voiceInc_fillCtx, phaseAfter_eq_iterate, phaseAt_eq_iterate, ← bufMs_eq_bufferMs]
  rfl

/-- Settles O36: the next state of a legal FILL, field by field. -/
theorem fillPerformsItsSteps : Obligations.FillPerformsItsSteps := by
  intro n sr s hlegal
  refine ⟨_, exec_fill_legal hlegal s, rfl, ?_, fillLegalBody_voice n.toNat sr.toNat s, rfl, rfl, ?_,
    fillLegalBody_portA_length .., ?_⟩
  · rw [fillLegalBody_mixer, bufMs_eq_bufferMs, ofNat_thousand]
    rfl
  · exact List.map_map
  · refine (convertEvents_countP _ _).trans ?_
    rw [List.countP_map]
    rfl

end Sys2Proof.Machine
end

section
/-! A FILL of no samples: a buffer of 0 ms moves neither the LFO nor a voice (46_mixer.md R424). -/

set_option autoImplicit false

namespace Sys2Proof.F32

open Sys2Proof.Claims (finite val negative)

/-! ## Results that are an operand -/

theorem ne_negZero_of_nonnegative {x : F32} (h : negative x = false) : x ≠ 0x80000000#32 := by
  rintro rfl
  exact absurd h (by decide)

theorem add_zero_right {x z : F32} (hx : finite x) (hne : x ≠ 0x80000000#32) (hz : finite z) (hz0 : val z = 0) :
    add x z = x := by
  by_cases h : val x = 0
  · obtain rfl := (eq_zero_or_negZero h).resolve_right hne
    rcases eq_zero_or_negZero hz0 with rfl | rfl <;> decide +kernel
  · obtain ⟨-, hval⟩ := add_of_exact hx hz hx (by rw [hz0, add_zero])
    exact eq_of_val_eq hval h

/-- A product with a zero is a zero, of either sign. -/
theorem mul_of_val_eq_zero {x y : F32} (hx : finite x) (hy : finite y) (h : val x = 0 ∨ val y = 0) :
    finite (mul x y) ∧ val (mul x y) = 0 := by
  have hexact := mul_of_exact hx hy finite_zero (by rw [val_zero]; exact mul_eq_zero.2 h)
  rwa [val_zero] at hexact

theorem zero_div_of_pos {y : F32} (hy : finite y) (hpos : 0 < val y) : div zero y = zero := by
  have hmag : magBits y ≠ 0 := (magBits_eq_zero_iff y).not.2 hpos.ne'
  have hunits : 0 < units y := by
    rw [units_eq_gridUnits]
    exact gridUnits_strictMono (Nat.pos_of_ne_zero hmag)
  have hzero : units zero = 0 := by decide
  simp only [div, isNaN_eq_false finite_zero, isNaN_eq_false hy, isInf_eq_false finite_zero, isInf_eq_false hy,
    Bool.or_self, Bool.false_eq_true, if_false, if_neg hmag, sign_eq_false_of_val_pos hpos]
  rw [roundUnits_of_grid _ (b := 0) hunits (by rw [hzero, zero_mul, gridUnits_zero, zero_mul])]
  decide

/-- A pattern is its sign and its magnitude. -/
theorem eq_of_sign_of_magBits {x y : F32} (hsign : sign x = sign y) (hmag : magBits x = magBits y) : x = y := by
  apply BitVec.eq_of_toNat_eq
  have hx := x.isLt
  have hy := y.isLt
  simp only [sign, BitVec.msb_eq_decide, decide_eq_decide, magBits] at hsign hmag
  omega

theorem pack_sign_magBits {x : F32} (hx : finite x) : pack (sign x) (magBits x) = x :=
  eq_of_sign_of_magBits (sign_pack _ _)
    (by rw [magBits_pack, min_eq_left ((finite_iff_magBits_lt x).1 hx).le])

/-- The remainder by a greater number is the number itself. -/
theorem fmod_of_lt {x m : F32} (hx : finite x) (hm : finite m) (hlt : magBits x < magBits m) : fmod x m = x := by
  have hunits : units x % units m = gridUnits (magBits x) := by
    rw [units_eq_gridUnits, units_eq_gridUnits, Nat.mod_eq_of_lt (gridUnits_strictMono hlt)]
  have hmag : magBits m ≠ 0 := by omega
  simp only [fmod, isNaN_eq_false hx, isNaN_eq_false hm, isInf_eq_false hx, isInf_eq_false hm, hmag, Bool.or_self,
    Bool.false_eq_true, decide_false, if_false]
  rw [roundUnits_of_grid _ one_pos (by rw [mul_one, hunits]), pack_sign_magBits hx]

end Sys2Proof.F32

namespace Sys2Proof.Machine

open Sys2Proof.Claims (finite val negative)
open Sys2Proof.F32 (finite_zero)

/-- A phase of positive sign below the length of its table. -/
theorem inTable_of_nonnegative {w : Wave} {ph : F32} (hsign : negative ph = false)
    (hlt : F32.lt ph (F32.ofNat w.len) = true) : InTable w ph := by
  refine ⟨?_, hlt⟩
  have hkey : F32.key F32.zero = 0 := by decide
  simp only [F32.lt, Bool.and_eq_true, Bool.not_eq_true'] at hlt
  rw [F32.negative_eq_sign] at hsign
  rw [F32.le, F32.isNaN_eq_false finite_zero, hlt.1.1, hkey, F32.key_eq, hsign]
  simp

theorem bufMs_zero {sr : ℕ} (hlow : 1 ≤ sr) (hhigh : sr ≤ 192000) : bufMs 0 sr = F32.zero := by
  obtain ⟨hfin, hval⟩ := F32.ofNat_exact (n := sr) (by omega)
  rw [bufMs, show F32.mul 0x447A0000#32 (F32.ofNat 0) = F32.zero by decide +kernel]
  exact F32.zero_div_of_pos hfin (by rw [hval]; exact_mod_cast hlow)

/-- The LFO does not move in no time: its increment is a zero (46_mixer.md R417). -/
theorem Mixer.advanceLfo_zero {m : Mixer} {w : Patch} (hphase : InTable w.lfoWave m.lfoPhase)
    (hsign : negative m.lfoPhase = false) (hfreq : finite w.lfoFreq) : m.advanceLfo w F32.zero = m := by
  obtain ⟨hfin, hlow, hlt⟩ := (inTable_iff _ _).1 hphase
  obtain ⟨hlen, hlen_low, -⟩ := len_bounds w.lfoWave
  obtain ⟨hrate, hrate0⟩ := F32.mul_of_val_eq_zero hfreq finite_zero (.inr F32.val_zero)
  obtain ⟨hinc, hinc0⟩ := F32.mul_of_val_eq_zero hrate hlen (.inl hrate0)
  have hmag : F32.magBits m.lfoPhase < F32.magBits (F32.ofNat w.lfoWave.len) := by
    rw [← F32.key_lt_key_iff, F32.key_eq, F32.key_eq, ← F32.negative_eq_sign, hsign,
      F32.sign_eq_false_of_val_pos (by linarith)] at hlt
    simpa using hlt
  rw [Mixer.advanceLfo, show F32.div F32.zero 0x447A0000#32 = F32.zero by decide +kernel,
    F32.add_zero_right hfin (F32.ne_negZero_of_nonnegative hsign) hinc hinc0, F32.fmod_of_lt hfin hlen hmag]

/-- A voice does not move in no time. -/
theorem advanceVoice_zero {c : RenderCtx} (hms : c.ms = F32.zero) (o : Oscillator) {v : Voice}
    (h : v.active = true → finite v.elapsed ∧ negative v.elapsed = false) : advanceVoice c 0 o v = v := by
  unfold advanceVoice
  split
  · rename_i hactive
    obtain ⟨hfin, hsign⟩ := h hactive
    rw [hms, F32.add_zero_right hfin (F32.ne_negZero_of_nonnegative hsign) finite_zero F32.val_zero]
    rfl
  · rfl

theorem fillMix_zero (sr : ℕ) (s : State) : fillMix 0 sr s = [] := List.eq_nil_of_length_eq_zero (fillMix_length 0 sr s)

theorem Filter.apply_nil (f : Filter) (sr : ℕ) : f.apply sr [] = ([], f) := by
  unfold Filter.apply
  split <;> rfl

/-- Settles O38: the LFO and every voice stay, and an empty buffer leaves the reverb and the filter. -/
theorem fillOfNoSamplesOnlySmoothsBend : Obligations.FillOfNoSamplesOnlySmoothsBend := by
  intro sr s hlegal hsign hlt hfreq hvoices
  have hms : (fillCtx 0 sr.toNat s).ms = F32.zero := bufMs_zero hlegal.1 hlegal.2.1
  have hmixer : (fillCtx 0 sr.toNat s).mixer.advanceLfo s.work (fillCtx 0 sr.toNat s).ms = s.mixer.smoothBend := by
    rw [hms]
    exact Mixer.advanceLfo_zero (inTable_of_nonnegative hsign hlt) hsign hfreq
  have hkept : s.voices.map (fun v => advanceVoice (fillCtx 0 sr.toNat s) 0 (s.osc v.oscRef) v) = s.voices := by
    ext1 i hi
    rw [Vector.getElem_map]
    exact advanceVoice_zero hms _ (hvoices ⟨i, hi⟩)
  rw [exec_fill_legal hlegal, show BitVec.toNat (0 : BitVec 16) = 0 from rfl, fillLegalBody]
  simp only [hmixer, hkept, fillMix_zero, Reverb.apply, reverbRun, Filter.apply_nil, List.map_nil, List.foldl_nil]
  rfl

end Sys2Proof.Machine
end

section
/-! The duty warp: its expression, and that it is exact at duty 0, 1/2 and 1 (46_mixer.md R413). -/

set_option autoImplicit false

namespace Sys2Proof.F32

open Sys2Proof.Claims (finite val)

/-! ## Whole and half numbers -/

/-- A finite pattern that stands for a given number. -/
def Represents (x : F32) (q : ℚ) : Prop := finite x ∧ val x = q

/-- A number from 0 on that is a whole number of halves with a significand that fits. -/
def HalfWhole (q : ℚ) : Prop := ∃ k : ℕ, k ≤ 2 ^ 24 ∧ q = k / 2

theorem HalfWhole.exists_represents {q : ℚ} (h : HalfWhole q) : ∃ w, Represents w q := by
  obtain ⟨k, hk, rfl⟩ := h
  obtain ⟨w, hw, hval⟩ := exists_finite_val_eq (s := 148) (by omega) hk
  exact ⟨w, hw, by rw [hval]; ring⟩

theorem represents_ofNat {n : ℕ} (hn : n ≤ 2 ^ 24) : Represents (ofNat n) n := ofNat_exact hn

theorem represents_half : Represents 0x3F000000#32 (1 / 2) := by
  constructor
  · decide
  · decide +kernel

section

variable {x y : F32} {p q : ℚ} (hx : Represents x p)
include hx

theorem Represents.add (hy : Represents y q) (h : HalfWhole (p + q)) : Represents (add x y) (p + q) := by
  obtain ⟨w, hw, hval⟩ := h.exists_represents
  exact hval ▸ add_of_exact hx.1 hy.1 hw (by rw [hx.2, hy.2, hval])

theorem Represents.sub (hy : Represents y q) (h : HalfWhole (p - q)) : Represents (sub x y) (p - q) := by
  obtain ⟨w, hw, hval⟩ := h.exists_represents
  exact hval ▸ sub_of_exact hx.1 hy.1 hw (by rw [hx.2, hy.2, hval])

theorem Represents.mul (hy : Represents y q) (h : HalfWhole (p * q)) : Represents (mul x y) (p * q) := by
  obtain ⟨w, hw, hval⟩ := h.exists_represents
  exact hval ▸ mul_of_exact hx.1 hy.1 hw (by rw [hx.2, hy.2, hval])

theorem Represents.lt_iff (hy : Represents y q) : lt x y = true ↔ p < q := by
  rw [F32.lt_iff hx.1 hy.1, hx.2, hy.2]

theorem Represents.toNat_floor {k : ℕ} (h : p = k / 2) : (floor x).toNat = k / 2 := by
  have hfloor : ⌊(k : ℚ) / 2⌋ = (k / 2 : ℕ) := by
    exact_mod_cast Rat.floor_natCast_div_natCast k 2
  rw [floor_eq_floor_val hx.1, hx.2, h, hfloor, Int.toNat_natCast]

end

theorem ofUnits_natCast (n : ℕ) : ofUnits (n * one149 : ℤ) = ofNat n := by
  rw [ofUnits, ofNat, decide_eq_false (not_lt.2 (by positivity)), ← Nat.cast_mul, Int.natAbs_natCast]

end Sys2Proof.F32

namespace Sys2Proof.Machine

open Sys2Proof.F32 (Represents HalfWhole represents_ofNat represents_half finite_zero finite_one val_zero val_one)

/-! ## The expression and the range -/

/-- The warp by its two expressions (46_mixer.md R413), a sample number as a natural number. -/
theorem warp_natCast (i : ℕ) (d : F32) (len : ℕ) :
    warp i d len =
      min (if F32.lt (F32.ofNat i) (F32.mul d (F32.ofNat len)) then
          F32.floor (F32.mul (F32.ofNat i) (F32.div 0x3F000000#32 d))
        else
          F32.floor (F32.add (F32.ofNat (len / 2))
            (F32.mul (F32.sub (F32.ofNat i) (F32.mul d (F32.ofNat len)))
              (F32.div 0x3F000000#32 (F32.sub F32.one d))))).toNat (len - 1) := by
  rw [warp, F32.ofUnits_natCast]

theorem warp_lt {len : ℕ} (hlen : 0 < len) (i : ℤ) (d : F32) : warp i d len < len :=
  (min_le_right _ _).trans_lt (by omega)

/-! ## Three duties -/

section

variable {i len : ℕ} {d : F32} {p q : ℚ}

/-- Before the duty point the sample number is scaled. -/
theorem warp_before (hlen : len ≤ 2 ^ 20) (hi : i < len) (hd : Represents d p) (hpoint : HalfWhole (p * len))
    (hlt : (i : ℚ) < p * len) (hslope : Represents (F32.div 0x3F000000#32 d) q) {k : ℕ} (hk : k / 2 < len)
    (h : (i : ℚ) * q = k / 2) : warp i d len = k / 2 := by
  have hi_exact := represents_ofNat (n := i) (by omega)
  have hpoint_exact := hd.mul (represents_ofNat (n := len) (by omega)) hpoint
  rw [warp_natCast, if_pos ((hi_exact.lt_iff hpoint_exact).2 hlt),
    (hi_exact.mul hslope ⟨k, by omega, h⟩).toNat_floor h]
  omega

/-- Past the duty point the distance from it is scaled and added to the middle of the table. -/
theorem warp_past (hlen : len ≤ 2 ^ 20) (hi : i < len) (hd : Represents d p) (hpoint : HalfWhole (p * len))
    (hge : p * len ≤ i) (hdist : HalfWhole (i - p * len))
    (hslope : Represents (F32.div 0x3F000000#32 (F32.sub F32.one d)) q)
    (hscaled : HalfWhole ((i - p * len) * q)) {k : ℕ} (hk : k / 2 < len)
    (h : ((len / 2 : ℕ) : ℚ) + (i - p * len) * q = k / 2) : warp i d len = k / 2 := by
  have hi_exact := represents_ofNat (n := i) (by omega)
  have hpoint_exact := hd.mul (represents_ofNat (n := len) (by omega)) hpoint
  have hmiddle := represents_ofNat (n := len / 2) (by omega)
  rw [warp_natCast, if_neg (by rw [hi_exact.lt_iff hpoint_exact]; exact not_lt.2 hge),
    (hmiddle.add ((hi_exact.sub hpoint_exact hdist).mul hslope hscaled) ⟨k, by omega, h⟩).toNat_floor h]
  omega

end

section

variable {i half : ℕ} (hhalf : half ≤ 2 ^ 19) (hi : i < 2 * half)
include hhalf hi

/-- At duty 0 the second half of the table is spread over the period. -/
theorem warp_dutyZero : warp i 0#32 (2 * half) = half + i / 2 := by
  have hduty : Represents 0#32 0 := ⟨finite_zero, val_zero⟩
  have hslope : F32.div 0x3F000000#32 (F32.sub F32.one 0#32) = 0x3F000000#32 := by decide +kernel
  have hwarp := warp_past (k := 2 * half + i) (by omega) hi hduty ⟨0, by omega, by simp⟩ (by simp)
    ⟨2 * i, by omega, by simp⟩ (hslope.symm ▸ represents_half) ⟨i, by omega, by ring⟩ (by omega)
    (by rw [Nat.mul_div_cancel_left half two_pos]; push_cast; ring)
  omega

/-- At duty 1/2 the warp leaves every sample. -/
theorem warp_dutyHalf : warp i 0x3F000000#32 (2 * half) = i := by
  have hpoint : HalfWhole (1 / 2 * (2 * half : ℕ)) := ⟨2 * half, by omega, by push_cast; ring⟩
  have hbefore : F32.div 0x3F000000#32 0x3F000000#32 = F32.one := by decide +kernel
  have hpast : F32.div 0x3F000000#32 (F32.sub F32.one 0x3F000000#32) = F32.one := by decide +kernel
  have hone : Represents F32.one 1 := ⟨finite_one, val_one⟩
  have hpoint_eq : (1 / 2 * (2 * half : ℕ) : ℚ) = half := by push_cast; ring
  rcases lt_or_ge i half with hlt | hge
  · have hwarp := warp_before (k := 2 * i) (by omega) hi represents_half hpoint
      (by rw [hpoint_eq]; exact_mod_cast hlt) (hbefore.symm ▸ hone) (by omega) (by push_cast; ring)
    omega
  · have hdist : (i : ℚ) - 1 / 2 * (2 * half : ℕ) = (2 * (i - half) : ℕ) / 2 := by
      push_cast [hge]
      ring
    have hwarp := warp_past (k := 2 * i) (by omega) hi represents_half hpoint
      (by rw [hpoint_eq]; exact_mod_cast hge) ⟨2 * (i - half), by omega, hdist⟩ (hpast.symm ▸ hone)
      ⟨2 * (i - half), by omega, by rw [mul_one, hdist]⟩ (by omega)
      (by rw [Nat.mul_div_cancel_left half two_pos, hdist]; push_cast [hge]; ring)
    omega

/-- At duty 1 the first half of the table is spread over the period. -/
theorem warp_dutyOne : warp i 0x3F800000#32 (2 * half) = i / 2 := by
  have hslope : F32.div 0x3F000000#32 0x3F800000#32 = 0x3F000000#32 := by decide +kernel
  exact warp_before (by omega) hi (p := 1) ⟨finite_one, val_one⟩ ⟨4 * half, by omega, by push_cast; ring⟩
    (by rw [one_mul]; exact_mod_cast hi) (hslope.symm ▸ represents_half) (by omega) (by ring)

end

theorem Wave.exists_len_eq (w : Wave) : ∃ half : ℕ, half ≤ 2 ^ 19 ∧ w.len = 2 * half := by
  cases w
  case noise => exact ⟨240000, by norm_num, rfl⟩
  all_goals exact ⟨2048, by norm_num, rfl⟩

/-- Settles O39: at the three duties each step of the expression is exact, and the last sample bounds the rest. -/
theorem dutyWarpCorners : Obligations.DutyWarpCorners := by
  intro w i hi
  obtain ⟨half, hhalf, hlen⟩ := w.exists_len_eq
  refine ⟨fun d _ _ _ => ?_, ?_, ?_, ?_, fun d => warp_lt (Nat.zero_lt_of_lt hi) i d⟩
  · rw [warp_natCast, min_comm, ofNat_one]
  · rw [hlen, warp_dutyZero hhalf (hlen ▸ hi), Nat.mul_div_cancel_left half two_pos]
  · rw [hlen, warp_dutyHalf hhalf (hlen ▸ hi)]
  · rw [hlen, warp_dutyOne hhalf (hlen ▸ hi)]

end Sys2Proof.Machine
end

section
/-! Rounding does not decrease, and addition and multiplication are odd (00_scope.md R10). -/

set_option autoImplicit false

namespace Sys2Proof.F32

open Sys2Proof.Claims (finite val RoundsTo)

/-! ## Rounding does not decrease -/

/-- The last bit of a pattern is the parity of the number it is ordered by. -/
theorem getLsbD_zero_eq_false_iff (x : F32) : x.getLsbD 0 = false ↔ key x % 2 = 0 := by
  have hlow : x.getLsbD 0 = decide (magBits x % 2 = 1) := by
    rw [BitVec.getLsbD, Nat.testBit_zero, magBits, Nat.mod_mod_of_dvd _ (by norm_num)]
  rw [hlow, decide_eq_false_iff_not, key_eq]
  cases sign x
  · rw [signOf_false]
    omega
  · rw [signOf_true]
    omega

theorem exists_key_eq {k : ℤ} (hk : |k| < infBits) : ∃ w : F32, finite w ∧ key w = k := by
  rw [abs_lt] at hk
  have hnat : k.natAbs < infBits := by omega
  refine ⟨pack (decide (k < 0)) k.natAbs, (finite_pack_iff _ _).2 hnat, ?_⟩
  rw [key_eq, sign_pack, magBits_pack, min_eq_left hnat.le]
  by_cases h : k < 0
  · rw [decide_eq_true h, signOf_true]
    omega
  · rw [decide_eq_false h, signOf_false]
    omega

theorem abs_key_lt {x : F32} (hx : finite x) : |key x| < infBits := by
  rw [finite_iff_magBits_lt] at hx
  rw [key_eq]
  cases sign x
  · rw [signOf_false, one_mul, Nat.abs_cast]
    exact_mod_cast hx
  · rw [signOf_true, neg_one_mul, abs_neg, Nat.abs_cast]
    exact_mod_cast hx

/-- Between two numbers that both win a tie there is a third one. -/
theorem exists_val_between {x y : F32} (hx : finite x) (hy : finite y) (hlt : val x < val y)
    (hx_even : x.getLsbD 0 = false) (hy_even : y.getLsbD 0 = false) :
    ∃ w : F32, finite w ∧ val x < val w ∧ val w < val y := by
  rw [getLsbD_zero_eq_false_iff] at hx_even hy_even
  rw [← key_lt_key_iff] at hlt
  have hx_abs := abs_key_lt hx
  have hy_abs := abs_key_lt hy
  rw [abs_lt] at hx_abs hy_abs
  obtain ⟨w, hw, hkey⟩ := exists_key_eq (k := key x + 1) (abs_lt.2 ⟨by omega, by omega⟩)
  refine ⟨w, hw, (key_lt_key_iff x w).1 (by omega), (key_lt_key_iff w y).1 (by omega)⟩

/-- A number rounds to one number only. -/
theorem val_not_lt_of_roundsTo_same {z₁ z₂ : F32} {r : ℝ} (hz₁ : finite z₁) (hz₂ : finite z₂) (h₁ : RoundsTo z₁ r)
    (h₂ : RoundsTo z₂ r) : ¬ val z₁ < val z₂ := by
  intro hlt
  obtain ⟨-, hnear₁⟩ := (roundsTo_iff_of_finite hz₁ r).1 h₁
  obtain ⟨-, hnear₂⟩ := (roundsTo_iff_of_finite hz₂ r).1 h₂
  have hle₁ (w : F32) (hw : finite w) : |(val z₁ : ℝ) - r| ≤ |(val w : ℝ) - r| :=
    (hnear₁ w hw).elim le_of_lt fun h => h.1.le
  have hle₂ (w : F32) (hw : finite w) : |(val z₂ : ℝ) - r| ≤ |(val w : ℝ) - r| :=
    (hnear₂ w hw).elim le_of_lt fun h => h.1.le
  obtain ⟨-, heq | heven₁⟩ := (hnear₁ z₂ hz₂).resolve_left (hle₂ z₁ hz₁).not_gt
  · exact hlt.ne' heq
  obtain ⟨-, heq | heven₂⟩ := (hnear₂ z₁ hz₁).resolve_left (hle₁ z₂ hz₂).not_gt
  · exact hlt.ne heq
  obtain ⟨w, hw, hlow, hhigh⟩ := exists_val_between hz₁ hz₂ hlt heven₁ heven₂
  have hlow' : (val z₁ : ℝ) < val w := by exact_mod_cast hlow
  have hhigh' : (val w : ℝ) < val z₂ := by exact_mod_cast hhigh
  have hw₁ := hle₁ w hw
  have hw₂ := hle₂ w hw
  rcases le_total (val w : ℝ) r with hside | hside
  · rw [abs_of_nonpos (by linarith), abs_of_nonpos (by linarith)] at hw₁
    linarith
  · rw [abs_of_nonneg (by linarith), abs_of_nonneg (by linarith)] at hw₂
    linarith

theorem val_mono_of_roundsTo {z₁ z₂ : F32} {r₁ r₂ : ℝ} (hz₁ : finite z₁) (hz₂ : finite z₂) (h₁ : RoundsTo z₁ r₁)
    (h₂ : RoundsTo z₂ r₂) (hle : r₁ ≤ r₂) : val z₁ ≤ val z₂ := by
  rcases hle.lt_or_eq with hlt | rfl
  · exact val_le_of_roundsTo hz₁ hz₂ h₁ h₂ hlt
  · exact not_lt.1 (val_not_lt_of_roundsTo_same hz₂ hz₁ h₂ h₁)

/-! ## Infinities -/

theorem not_nan_iff (x : F32) : isNaN x = false ↔ magBits x ≤ infBits := by
  rw [isNaN, decide_eq_false_iff_not, not_lt]

/-- What is no NaN is a number or one of the two infinities. -/
theorem finite_or_infinite {x : F32} (h : isNaN x = false) : finite x ∨ x = 0x7F800000#32 ∨ x = 0xFF800000#32 := by
  rw [not_nan_iff] at h
  rcases h.lt_or_eq with hlt | heq
  · exact .inl ((finite_iff_magBits_lt x).2 hlt)
  · right
    cases hs : sign x
    · exact .inl (eq_of_sign_of_magBits hs heq)
    · exact .inr (eq_of_sign_of_magBits hs heq)

theorem abs_key_le {x : F32} (h : isNaN x = false) : |key x| ≤ infBits := by
  rw [not_nan_iff] at h
  rw [key_eq, abs_le]
  cases sign x
  · rw [signOf_false]
    omega
  · rw [signOf_true]
    omega

theorem isNaN_eq_false_of_roundsTo {z : F32} {r : ℝ} (h : RoundsTo z r) : isNaN z = false := by
  by_cases hz : finite z
  · exact isNaN_eq_false hz
  · rcases (roundsTo_iff_of_not_finite hz r).1 h with ⟨rfl, -⟩ | ⟨rfl, -⟩ <;> decide

/-- Rounding does not decrease, infinite results included. -/
theorem key_mono_of_roundsTo {z₁ z₂ : F32} {r₁ r₂ : ℝ} (h₁ : RoundsTo z₁ r₁) (h₂ : RoundsTo z₂ r₂) (hle : r₁ ≤ r₂) :
    key z₁ ≤ key z₂ := by
  have hT : (0 : ℝ) < 2 ^ 128 - 2 ^ 103 := by norm_num
  have hz₁_low := (abs_le.1 (abs_key_le (isNaN_eq_false_of_roundsTo h₁))).2
  have hz₂_low := (abs_le.1 (abs_key_le (isNaN_eq_false_of_roundsTo h₂))).1
  by_cases hz₁ : finite z₁
  · by_cases hz₂ : finite z₂
    · exact (key_le_key_iff z₁ z₂).2 (val_mono_of_roundsTo hz₁ hz₂ h₁ h₂ hle)
    · rcases (roundsTo_iff_of_not_finite hz₂ r₂).1 h₂ with ⟨rfl, -⟩ | ⟨-, hr⟩
      · exact hz₁_low
      · have hlt := (abs_lt.1 ((roundsTo_iff_of_finite hz₁ r₁).1 h₁).1).1
        linarith
  · rcases (roundsTo_iff_of_not_finite hz₁ r₁).1 h₁ with ⟨rfl, hr⟩ | ⟨rfl, -⟩
    · by_cases hz₂ : finite z₂
      · have hlt := (abs_lt.1 ((roundsTo_iff_of_finite hz₂ r₂).1 h₂).1).2
        linarith
      · rcases (roundsTo_iff_of_not_finite hz₂ r₂).1 h₂ with ⟨rfl, -⟩ | ⟨-, hr'⟩
        · exact le_rfl
        · linarith
    · exact hz₂_low

/-! ## Oddness -/

theorem neg_pack (s : Bool) (b : ℕ) : neg (pack s b) = pack (!s) b :=
  eq_of_sign_of_magBits (by rw [sign_neg, sign_pack, sign_pack]) (by rw [magBits_neg, magBits_pack, magBits_pack])

theorem finite_neg_iff {x : F32} : finite (neg x) ↔ finite x :=
  ⟨fun h => neg_neg_pattern x ▸ finite_neg h, finite_neg⟩

theorem key_neg (x : F32) : key (neg x) = -key x := by
  rw [key_eq, key_eq, sign_neg, magBits_neg]
  cases sign x <;> simp

theorem units_neg (x : F32) : units (neg x) = units x := by
  rw [units_eq_gridUnits, units_eq_gridUnits, magBits_neg]

theorem toUnits_neg (x : F32) : toUnits (neg x) = -toUnits x := by
  rw [toUnits, toUnits, units_neg, sign_neg]
  cases sign x <;> simp

theorem mul_neg_left {x y : F32} (hx : finite x) (hy : finite y) : mul (neg x) y = neg (mul x y) := by
  have hnx := finite_neg hx
  simp only [mul, isNaN_eq_false hx, isNaN_eq_false hnx, isNaN_eq_false hy, isInf_eq_false hx, isInf_eq_false hnx,
    isInf_eq_false hy, Bool.or_self, Bool.false_eq_true, if_false]
  rw [roundUnits_eq_pack, roundUnits_eq_pack, neg_pack, units_neg, sign_neg, Bool.not_bne]

theorem ofUnits_neg {u : ℤ} (hu : u ≠ 0) : ofUnits (-u) = neg (ofUnits u) := by
  have hsign : decide (-u < 0) = !decide (u < 0) := by
    rw [← decide_not, decide_eq_decide]
    omega
  rw [ofUnits, ofUnits, roundUnits_eq_pack, roundUnits_eq_pack, neg_pack, hsign, Int.natAbs_neg]

theorem add_of_ne_zero {x y : F32} (hx : finite x) (hy : finite y) (h : val x + val y ≠ 0) :
    toUnits x + toUnits y ≠ 0 ∧ add x y = ofUnits (toUnits x + toUnits y) := by
  have hunits : toUnits x + toUnits y ≠ 0 := by
    rw [val_eq_toUnits, val_eq_toUnits, ← add_div] at h
    exact_mod_cast left_ne_zero_of_mul h
  refine ⟨hunits, ?_⟩
  simp only [add, isNaN_eq_false hx, isNaN_eq_false hy, isInf_eq_false hx, isInf_eq_false hy, Bool.or_self,
    Bool.false_eq_true, if_false, if_neg hunits]

/-- A sum is odd unless it cancels: then it is +0.0 both times. -/
theorem add_neg_neg {x y : F32} (hx : finite x) (hy : finite y) (h : val x + val y ≠ 0) :
    add (neg x) (neg y) = neg (add x y) := by
  obtain ⟨hunits, hsum⟩ := add_of_ne_zero hx hy h
  obtain ⟨-, hsum_neg⟩ := add_of_ne_zero (finite_neg hx) (finite_neg hy)
    (by rw [val_neg, val_neg, ← neg_add]; exact neg_ne_zero.2 h)
  rw [hsum, hsum_neg, toUnits_neg, toUnits_neg, ← neg_add, ofUnits_neg hunits]

theorem sub_eq_add_of_finite {x y : F32} (hy : finite y) : sub x y = add x (neg y) := by
  rw [sub, isNaN_eq_false hy, if_neg Bool.false_ne_true]

/-! ## Comparisons by the order of patterns -/

theorem lt_eq_false_of_key_le {x y : F32} (h : key y ≤ key x) : lt x y = false := by
  simp [lt, h.not_gt]

theorem key_lt_of_lt {x y : F32} (h : lt x y = true) : key x < key y := by
  simp only [lt, Bool.and_eq_true, decide_eq_true_eq] at h
  exact h.2

theorem not_nan_of_lt {x y : F32} (h : lt x y = true) : isNaN x = false ∧ isNaN y = false := by
  simp only [lt, Bool.and_eq_true, Bool.not_eq_true'] at h
  exact h.1

theorem key_le_of_le {x y : F32} (h : le x y = true) : key x ≤ key y := by
  simp only [le, Bool.and_eq_true, decide_eq_true_eq] at h
  exact h.2

end Sys2Proof.F32
end

section
/-! The compressor: two soft knees, each odd and not decreasing (46_mixer.md R419, R422). -/

set_option autoImplicit false

namespace Sys2Proof.Machine

open Sys2Proof.Claims (finite val)
open Sys2Proof.F32 (key inRangeF32_iff finite_zero val_zero finite_neg val_neg)

/-- A soft knee: a bound and a ratio the rounded excess stays in range with. What is infinite stays infinite. -/
structure IsKnee (knee ratio : F32) : Prop where
  finite_knee : finite knee
  finite_ratio : finite ratio
  knee_pos : 0 < val knee
  knee_le : val knee ≤ 2 ^ 15
  ratio_nonneg : 0 ≤ val ratio
  ratio_le : val ratio ≤ 3 / 4
  posInf : softKnee knee ratio 0x7F800000#32 = 0x7F800000#32
  negInf : softKnee knee ratio 0xFF800000#32 = 0xFF800000#32

/-- What a sample above the knee becomes. -/
def beyondKnee (knee ratio s : F32) : F32 := F32.add knee (F32.mul (F32.sub s knee) ratio)

/-- What a sample below the negative knee becomes. -/
def belowKnee (knee ratio s : F32) : F32 := F32.add (F32.neg knee) (F32.mul (F32.add s knee) ratio)

theorem softKnee_of_lt {knee s : F32} (h : F32.lt knee s = true) (ratio : F32) :
    softKnee knee ratio s = beyondKnee knee ratio s := if_pos h

theorem softKnee_inside {knee s : F32} (hhigh : F32.lt knee s = false) (hlow : F32.lt s (F32.neg knee) = false)
    (ratio : F32) : softKnee knee ratio s = s := by
  rw [softKnee, hhigh, hlow]
  rfl

theorem softKnee_between {knee s : F32} (hlow : -val knee ≤ val s) (hhigh : val s ≤ val knee) (ratio : F32) :
    softKnee knee ratio s = s :=
  softKnee_inside (F32.lt_eq_false_of_key_le ((F32.key_le_key_iff _ _).2 hhigh))
    (F32.lt_eq_false_of_key_le ((F32.key_le_key_iff _ _).2 (by rwa [val_neg]))) ratio

/-- Above the scaled excess of any number. -/
theorem val_excessMax : val 0x7F400000#32 = 3 / 4 * 2 ^ 128 := by decide +kernel

namespace IsKnee

variable {knee ratio s t : F32} (hk : IsKnee knee ratio)
include hk

theorem key_pos : 0 < key knee := by
  have h := (F32.key_lt_key_iff F32.zero knee).2 (by rw [val_zero]; exact hk.knee_pos)
  rwa [show key F32.zero = 0 by decide] at h

theorem softKnee_of_lt_neg (h : F32.lt s (F32.neg knee) = true) : softKnee knee ratio s = belowKnee knee ratio s := by
  have hlt := F32.key_lt_of_lt h
  have hpos := hk.key_pos
  rw [F32.key_neg] at hlt
  rw [softKnee, F32.lt_eq_false_of_key_le (by omega), h]
  rfl

/-! ## A number above the knee -/

theorem excess_inRangeF32 (hs : finite s) (h : val knee ≤ val s) :
    finite (F32.sub s knee) ∧ inRangeF32 (F32.mul (F32.sub s knee) ratio) F32.zero 0x7F400000#32 := by
  have hpos := hk.knee_pos
  obtain ⟨hdiff, hdiff0, hdiff_le⟩ := (inRangeF32_iff finite_zero hs).1
    (F32.sub_inRangeF32 hs hk.finite_knee finite_zero hs (by rw [val_zero]; linarith) (by linarith))
  rw [val_zero] at hdiff0
  have hmax := (abs_lt.1 (F32.abs_val_lt hs)).2
  refine ⟨hdiff, F32.mul_inRangeF32 hdiff hk.finite_ratio finite_zero (by decide) ?_ ?_⟩
  · rw [val_zero]
    exact mul_nonneg hdiff0 hk.ratio_nonneg
  · rw [val_excessMax, mul_comm]
    exact mul_le_mul hk.ratio_le (by linarith [show (0 : ℚ) < 2 ^ 103 by positivity]) hdiff0 (by norm_num)

theorem beyondKnee_spec (hs : finite s) (h : val knee ≤ val s) :
    finite (beyondKnee knee ratio s) ∧ val knee ≤ val (beyondKnee knee ratio s) := by
  have hmax : val 0x7F7FFFFF#32 = 2 ^ 128 - 2 ^ 104 := by decide +kernel
  obtain ⟨-, hexcess⟩ := hk.excess_inRangeF32 hs h
  obtain ⟨hfin, hlow, hhigh⟩ := (inRangeF32_iff finite_zero (by decide)).1 hexcess
  rw [val_zero] at hlow
  rw [val_excessMax] at hhigh
  have hle := hk.knee_le
  obtain ⟨hfin', hlow', -⟩ := (inRangeF32_iff hk.finite_knee (by decide)).1 <|
    F32.add_inRangeF32 (hi := 0x7F7FFFFF#32) hk.finite_knee hfin hk.finite_knee (by decide) (by linarith)
      (by rw [hmax]; linarith)
  exact ⟨hfin', hlow'⟩

theorem beyondKnee_mono (hs : finite s) (ht : finite t) (h : val knee ≤ val s) (hle : val s ≤ val t) :
    val (beyondKnee knee ratio s) ≤ val (beyondKnee knee ratio t) := by
  have hkt := h.trans hle
  obtain ⟨hdiff_s, hexcess_s⟩ := hk.excess_inRangeF32 hs h
  obtain ⟨hdiff_t, hexcess_t⟩ := hk.excess_inRangeF32 ht hkt
  have hdiff := F32.val_mono_of_roundsTo hdiff_s hdiff_t (F32.roundsTo_sub hs hk.finite_knee)
    (F32.roundsTo_sub ht hk.finite_knee) (Rat.cast_le.2 (sub_le_sub_right hle _))
  obtain ⟨hexcess_s, -, -⟩ := (inRangeF32_iff finite_zero (by decide)).1 hexcess_s
  obtain ⟨hexcess_t, -, -⟩ := (inRangeF32_iff finite_zero (by decide)).1 hexcess_t
  have hexcess := F32.val_mono_of_roundsTo hexcess_s hexcess_t (F32.roundsTo_mul hdiff_s hk.finite_ratio)
    (F32.roundsTo_mul hdiff_t hk.finite_ratio) (Rat.cast_le.2 (mul_le_mul_of_nonneg_right hdiff hk.ratio_nonneg))
  exact F32.val_mono_of_roundsTo (hk.beyondKnee_spec hs h).1 (hk.beyondKnee_spec ht hkt).1
    (F32.roundsTo_add hk.finite_knee hexcess_s) (F32.roundsTo_add hk.finite_knee hexcess_t)
    (Rat.cast_le.2 (add_le_add_right hexcess _))

/-- Below the negative knee a soft knee does what it does above the knee, negated. -/
theorem belowKnee_neg (hs : finite s) (h : val knee < val s) :
    belowKnee knee ratio (F32.neg s) = F32.neg (beyondKnee knee ratio s) := by
  obtain ⟨hdiff, hexcess⟩ := hk.excess_inRangeF32 hs h.le
  obtain ⟨hexcess, hexcess0, -⟩ := (inRangeF32_iff finite_zero (by decide)).1 hexcess
  rw [val_zero] at hexcess0
  have hpos := hk.knee_pos
  have hsum : F32.add (F32.neg s) knee = F32.neg (F32.sub s knee) := by
    rw [F32.sub_eq_add_of_finite hk.finite_knee, ← F32.add_neg_neg hs (finite_neg hk.finite_knee)
      (by rw [val_neg]; linarith), F32.neg_neg_pattern]
  rw [belowKnee, beyondKnee, hsum, F32.mul_neg_left hdiff hk.finite_ratio,
    F32.add_neg_neg hk.finite_knee hexcess (by linarith)]

/-! ## A number -/

theorem softKnee_above (hs : finite s) (h : val knee < val s) : softKnee knee ratio s = beyondKnee knee ratio s :=
  softKnee_of_lt ((F32.lt_iff hk.finite_knee hs).2 h) ratio

theorem softKnee_neg_above (hs : finite s) (h : val knee < val s) :
    softKnee knee ratio (F32.neg s) = F32.neg (softKnee knee ratio s) := by
  have hlt : F32.lt (F32.neg s) (F32.neg knee) = true :=
    (F32.lt_iff (finite_neg hs) (finite_neg hk.finite_knee)).2 (by rw [val_neg, val_neg]; exact neg_lt_neg h)
  rw [hk.softKnee_of_lt_neg hlt, hk.belowKnee_neg hs h, hk.softKnee_above hs h]

theorem softKnee_neg (hs : finite s) : softKnee knee ratio (F32.neg s) = F32.neg (softKnee knee ratio s) := by
  rcases lt_or_ge (val knee) (val s) with hhigh | hhigh
  · exact hk.softKnee_neg_above hs hhigh
  · rcases lt_or_ge (val s) (-val knee) with hlow | hlow
    · have h := hk.softKnee_neg_above (finite_neg hs) (by rw [val_neg]; linarith)
      rw [F32.neg_neg_pattern] at h
      rw [h, F32.neg_neg_pattern]
    · rw [softKnee_between hlow hhigh, softKnee_between (by rw [val_neg]; linarith) (by rw [val_neg]; linarith)]

theorem softKnee_spec_nonneg (hs : finite s) (h0 : 0 ≤ val s) :
    finite (softKnee knee ratio s) ∧ 0 ≤ val (softKnee knee ratio s) := by
  have hpos := hk.knee_pos
  rcases lt_or_ge (val knee) (val s) with hhigh | hhigh
  · obtain ⟨hfin, hlow⟩ := hk.beyondKnee_spec hs hhigh.le
    rw [hk.softKnee_above hs hhigh]
    exact ⟨hfin, by linarith⟩
  · rw [softKnee_between (by linarith) hhigh]
    exact ⟨hs, h0⟩

theorem softKnee_mono_nonneg (hs : finite s) (ht : finite t) (h0 : 0 ≤ val s) (hle : val s ≤ val t) :
    val (softKnee knee ratio s) ≤ val (softKnee knee ratio t) := by
  have hpos := hk.knee_pos
  rcases lt_or_ge (val knee) (val t) with ht_high | ht_high
  · rw [hk.softKnee_above ht ht_high]
    rcases lt_or_ge (val knee) (val s) with hs_high | hs_high
    · rw [hk.softKnee_above hs hs_high]
      exact hk.beyondKnee_mono hs ht hs_high.le hle
    · rw [softKnee_between (by linarith) hs_high]
      exact hs_high.trans (hk.beyondKnee_spec ht ht_high.le).2
  · rwa [softKnee_between (by linarith) ht_high, softKnee_between (by linarith) (by linarith)]

theorem softKnee_spec_nonpos (hs : finite s) (h0 : val s ≤ 0) :
    finite (softKnee knee ratio s) ∧ val (softKnee knee ratio s) ≤ 0 := by
  obtain ⟨hfin, hlow⟩ := hk.softKnee_spec_nonneg (finite_neg hs) (by rw [val_neg]; linarith)
  rw [hk.softKnee_neg hs] at hfin hlow
  rw [val_neg] at hlow
  exact ⟨F32.finite_neg_iff.1 hfin, by linarith⟩

theorem finite_softKnee (hs : finite s) : finite (softKnee knee ratio s) :=
  (le_total 0 (val s)).elim (fun h => (hk.softKnee_spec_nonneg hs h).1) fun h => (hk.softKnee_spec_nonpos hs h).1

theorem softKnee_mono (hs : finite s) (ht : finite t) (hle : val s ≤ val t) :
    val (softKnee knee ratio s) ≤ val (softKnee knee ratio t) := by
  rcases le_total 0 (val s) with hs0 | hs0
  · exact hk.softKnee_mono_nonneg hs ht hs0 hle
  · rcases le_total 0 (val t) with ht0 | ht0
    · exact (hk.softKnee_spec_nonpos hs hs0).2.trans (hk.softKnee_spec_nonneg ht ht0).2
    · have h := hk.softKnee_mono_nonneg (finite_neg ht) (finite_neg hs) (by rw [val_neg]; linarith)
        (by rw [val_neg, val_neg]; linarith)
      rw [hk.softKnee_neg hs, hk.softKnee_neg ht, val_neg, val_neg] at h
      linarith

/-! ## A number or an infinity -/

theorem isNaN_softKnee (hs : F32.isNaN s = false) : F32.isNaN (softKnee knee ratio s) = false := by
  rcases F32.finite_or_infinite hs with hfin | rfl | rfl
  · exact F32.isNaN_eq_false (hk.finite_softKnee hfin)
  · rw [hk.posInf]
    decide
  · rw [hk.negInf]
    decide

theorem softKnee_neg_of_not_nan (hs : F32.isNaN s = false) :
    softKnee knee ratio (F32.neg s) = F32.neg (softKnee knee ratio s) := by
  rcases F32.finite_or_infinite hs with hfin | rfl | rfl
  · exact hk.softKnee_neg hfin
  · rw [hk.posInf, show F32.neg 0x7F800000#32 = 0xFF800000#32 by decide, hk.negInf]
  · rw [hk.negInf, show F32.neg 0xFF800000#32 = 0x7F800000#32 by decide, hk.posInf]

theorem key_softKnee_mono (hs : F32.isNaN s = false) (ht : F32.isNaN t = false) (hle : key s ≤ key t) :
    key (softKnee knee ratio s) ≤ key (softKnee knee ratio t) := by
  have hpos_key : key 0x7F800000#32 = F32.infBits := by decide
  have hneg_key : key 0xFF800000#32 = -F32.infBits := by decide
  have hs_high := (abs_le.1 (F32.abs_key_le (hk.isNaN_softKnee hs))).2
  have ht_low := (abs_le.1 (F32.abs_key_le (hk.isNaN_softKnee ht))).1
  rcases F32.finite_or_infinite hs with hs' | rfl | rfl
  · rcases F32.finite_or_infinite ht with ht' | rfl | rfl
    · exact (F32.key_le_key_iff _ _).2 (hk.softKnee_mono hs' ht' ((F32.key_le_key_iff s t).1 hle))
    · rwa [hk.posInf, hpos_key]
    · rw [hneg_key] at hle
      exact absurd (abs_lt.1 (F32.abs_key_lt hs')).1 (not_lt.2 hle)
  · rcases F32.finite_or_infinite ht with ht' | rfl | rfl
    · rw [hpos_key] at hle
      exact absurd (abs_lt.1 (F32.abs_key_lt ht')).2 (not_lt.2 hle)
    · exact le_rfl
    · exact absurd hle (by decide)
  · rwa [hk.negInf, hneg_key]

end IsKnee

end Sys2Proof.Machine
end

section
/-! The compressor: a scaled sample through both knees (46_mixer.md R419, R422). -/

set_option autoImplicit false

namespace Sys2Proof.Machine

open Sys2Proof.Claims (finite nan val)
open Sys2Proof.F32 (key finite_neg val_neg)

theorem isKnee_one : IsKnee Config.knee1 Config.ratio1 := by constructor <;> decide +kernel

theorem isKnee_two : IsKnee Config.knee2 Config.ratio2 := by constructor <;> decide +kernel

/-! ## A sample past a knee stays past it -/

namespace IsKnee

variable {knee ratio s : F32} (hk : IsKnee knee ratio)
include hk

theorem key_knee_le (h : F32.lt knee s = true) : key knee ≤ key (softKnee knee ratio s) := by
  have hpos := hk.knee_pos
  have hmono := hk.key_softKnee_mono (F32.isNaN_eq_false hk.finite_knee) (F32.not_nan_of_lt h).2 (F32.key_lt_of_lt h).le
  rwa [softKnee_between (by linarith) le_rfl] at hmono

theorem key_le_neg_knee (h : F32.lt s (F32.neg knee) = true) : key (softKnee knee ratio s) ≤ -key knee := by
  have hpos := hk.knee_pos
  have hmono := hk.key_softKnee_mono (F32.not_nan_of_lt h).1 (F32.isNaN_eq_false (finite_neg hk.finite_knee))
    (F32.key_lt_of_lt h).le
  rwa [softKnee_between (s := F32.neg knee) (by rw [val_neg]) (by rw [val_neg]; linarith), F32.key_neg] at hmono

/-- Up to the knee a sample from 0 on is left. -/
theorem softKnee_of_le (h0 : 0 ≤ key s) (h : F32.le s knee = true) : softKnee knee ratio s = s := by
  have hpos := hk.key_pos
  exact softKnee_inside (F32.lt_eq_false_of_key_le (F32.key_le_of_le h))
    (F32.lt_eq_false_of_key_le (by rw [F32.key_neg]; omega)) ratio

/-- From the negative knee on a sample up to 0 is left. -/
theorem softKnee_of_neg_le (h0 : key s ≤ 0) (h : F32.le (F32.neg knee) s = true) : softKnee knee ratio s = s := by
  have hpos := hk.key_pos
  exact softKnee_inside (F32.lt_eq_false_of_key_le (by omega)) (F32.lt_eq_false_of_key_le (F32.key_le_of_le h)) ratio

end IsKnee

theorem softKnee_of_nan {s : F32} (h : F32.isNaN s = true) (knee ratio : F32) : softKnee knee ratio s = s :=
  softKnee_inside (by simp [F32.lt, h]) (by simp [F32.lt, h]) ratio

/-! ## The compressor -/

/-- A sample on the output scale. -/
def scaled (x : F32) : F32 := F32.mul x Config.outScale

theorem compress_eq (x : F32) :
    compress x = softKnee Config.knee2 Config.ratio2 (softKnee Config.knee1 Config.ratio1 (scaled x)) := rfl

theorem scaled_neg {x : F32} (hx : finite x) : scaled (F32.neg x) = F32.neg (scaled x) :=
  F32.mul_neg_left hx (by decide)

theorem isNaN_scaled {x : F32} (hx : finite x) : F32.isNaN (scaled x) = false :=
  F32.isNaN_eq_false_of_roundsTo (F32.roundsTo_mul hx (by decide))

theorem key_scaled_mono {x y : F32} (hx : finite x) (hy : finite y) (hle : val x ≤ val y) :
    key (scaled x) ≤ key (scaled y) := by
  have hpos : 0 < val Config.outScale := by decide +kernel
  exact F32.key_mono_of_roundsTo (F32.roundsTo_mul hx (by decide)) (F32.roundsTo_mul hy (by decide))
    (Rat.cast_le.2 (mul_le_mul_of_nonneg_right hle hpos.le))

theorem isNaN_compress {x : F32} (hx : finite x) : F32.isNaN (compress x) = false :=
  isKnee_two.isNaN_softKnee (isKnee_one.isNaN_softKnee (isNaN_scaled hx))

theorem compress_neg {x : F32} (hx : finite x) : compress (F32.neg x) = F32.neg (compress x) := by
  have hnan := isNaN_scaled hx
  rw [compress_eq, scaled_neg hx, isKnee_one.softKnee_neg_of_not_nan hnan,
    isKnee_two.softKnee_neg_of_not_nan (isKnee_one.isNaN_softKnee hnan), ← compress_eq]

theorem compress_mono {x y : F32} (hx : finite x) (hy : finite y) (hle : val x ≤ val y) :
    F32.le (compress x) (compress y) = true := by
  have hkey : key (compress x) ≤ key (compress y) :=
    isKnee_two.key_softKnee_mono (isKnee_one.isNaN_softKnee (isNaN_scaled hx))
      (isKnee_one.isNaN_softKnee (isNaN_scaled hy))
      (isKnee_one.key_softKnee_mono (isNaN_scaled hx) (isNaN_scaled hy) (key_scaled_mono hx hy hle))
  simp [F32.le, isNaN_compress hx, isNaN_compress hy, hkey]

/-! ## Its pieces -/

theorem isNaN_scaled_of_nan {x : F32} (h : F32.isNaN x = true) : F32.isNaN (scaled x) = true := by
  simp [scaled, F32.mul, h, F32.isNaN_nan]

theorem compress_of_nan {x : F32} (h : F32.isNaN x = true) : compress x = scaled x := by
  have hs := isNaN_scaled_of_nan h
  rw [compress_eq, softKnee_of_nan hs, softKnee_of_nan hs]

/-- Between the first knees, which are inside the second ones. -/
theorem compress_between {x : F32} (hlow : F32.le (F32.neg Config.knee1) (scaled x) = true)
    (hhigh : F32.le (scaled x) Config.knee1 = true) : compress x = scaled x := by
  have hknees : key Config.knee1 < key Config.knee2 := by decide
  have hlow_key := F32.key_le_of_le hlow
  have hhigh_key := F32.key_le_of_le hhigh
  rw [compress_eq, softKnee_inside (F32.lt_eq_false_of_key_le hhigh_key) (F32.lt_eq_false_of_key_le hlow_key),
    softKnee_inside (F32.lt_eq_false_of_key_le (by omega))]
  rw [F32.key_neg] at hlow_key
  exact F32.lt_eq_false_of_key_le (by rw [F32.key_neg]; omega)

section

variable {x : F32}

/-- Above the first knee, by where the scaled excess leaves the sample. -/
theorem compress_above (h : F32.lt Config.knee1 (scaled x) = true) :
    let above := beyondKnee Config.knee1 Config.ratio1 (scaled x)
    (F32.le above Config.knee2 = true → compress x = above) ∧
    (F32.lt Config.knee2 above = true → compress x = beyondKnee Config.knee2 Config.ratio2 above) := by
  have hlow := isKnee_one.key_knee_le h
  rw [compress_eq]
  rw [softKnee_of_lt h] at hlow ⊢
  exact ⟨isKnee_two.softKnee_of_le (isKnee_one.key_pos.le.trans hlow), fun hlt => softKnee_of_lt hlt _⟩

theorem compress_below (h : F32.lt (scaled x) (F32.neg Config.knee1) = true) :
    let below := belowKnee Config.knee1 Config.ratio1 (scaled x)
    (F32.le (F32.neg Config.knee2) below = true → compress x = below) ∧
    (F32.lt below (F32.neg Config.knee2) = true → compress x = belowKnee Config.knee2 Config.ratio2 below) := by
  have hhigh := isKnee_one.key_le_neg_knee h
  have hpos := isKnee_one.key_pos
  rw [compress_eq]
  rw [isKnee_one.softKnee_of_lt_neg h] at hhigh ⊢
  exact ⟨isKnee_two.softKnee_of_neg_le (by omega), isKnee_two.softKnee_of_lt_neg⟩

end

/-- Settles O41: the pieces by the knees the sample is past, and each knee is odd and does not decrease. -/
theorem compressIsOddAndMonotone : Obligations.CompressIsOddAndMonotone := by
  have hscale : F32.ofNat 8000 = Config.outScale := by decide +kernel
  have hknee1 : F32.ofNat 20000 = Config.knee1 := by decide +kernel
  have hknee2 : F32.ofNat 26000 = Config.knee2 := by decide +kernel
  unfold Obligations.CompressIsOddAndMonotone
  rw [hscale, hknee1, hknee2]
  exact ⟨fun x => ⟨fun hnan => compress_of_nan ((F32.nan_iff_isNaN x).1 hnan), compress_between, compress_above,
    compress_below⟩, fun _ => compress_neg, fun _ _ => compress_mono⟩

end Sys2Proof.Machine
end

section
/-! The note operations against their rules: which voices a note-off releases, and which a note-on starts
(47_engine.md R450 to R454, 45_voice.md R360 to R363). -/

set_option autoImplicit false

namespace Sys2Proof.Machine

open Sys2Proof.Claims (Starts StartsBoth startFreq velocityVolume)

/-! ## Operands and the draw port -/

theorem velocityVolume_eq_fraction7 (velocity : BitVec 7) : velocityVolume velocity = fraction7 velocity := by
  have hscale : F32.ofNat 127 = Config.byteScale := by decide +kernel
  rw [velocityVolume, hscale, fraction7]

theorem startFreq_eq_detunedFreq (note : BitVec 7) (detune : F32) :
    startFreq note detune = detunedFreq note detune := by
  have hpitch : F32.ofNat 440 = Config.a4Hz := by decide +kernel
  rw [startFreq, hpitch]
  rfl

/-- Reading the draw port takes its first value, or counts one free value where none waits. -/
theorem State.dropDraw_frame (s : State) :
    s.dropDraw = { s with draws := s.draws.tail, fresh := s.dropDraw.fresh } := by
  cases s
  cases ‹List (BitVec 4)› <;> rfl

theorem State.draw_of_waiting {s : State} {d : BitVec 4} {ds : List (BitVec 4)} (h : s.draws = d :: ds) :
    s.draw = d := by
  rw [State.draw, h]
  rfl

/-! ## Starting an oscillator (45_voice.md R362, 47_engine.md R451) -/

/-- Nothing of the voice that is taken remains: each of its fields is set. -/
theorem Voice.noteOn_eq (v : Voice) (ref : OscRef) (o : Oscillator) (note : BitVec 7) (volume : F32)
    (draw : BitVec 4) :
    v.noteOn ref o note volume draw =
      { active := true, oscRef := ref, cachedType := o.waveType, phase := F32.ofNat draw.toNat
        freq := startFreq note o.detune, volume := volume, elapsed := 0#32, released := false, note := some note } := by
  rw [startFreq_eq_detunedFreq, ← v.noteOn_cachedType ref o note volume draw]
  rfl

theorem startOsc_starts (sel : Sel) (k : OscIndex) (note : BitVec 7) (volume : F32) (s : State) :
    Starts sel k note volume s (startOsc sel note volume k s) := by
  by_cases hwave : (s.osc ⟨sel, k⟩).waveType = .none
  · exact .inl ⟨hwave, startOsc_none _ _ _ _ _ hwave⟩
  · cases halloc : s.allocate with
    | none => exact .inr (.inl ⟨hwave, s.allocate_none.1 halloc, startOsc_full _ _ _ _ _ hwave halloc⟩)
    | some v =>
      obtain ⟨hinactive, hlower⟩ := s.allocate_some v halloc
      refine .inr (.inr ⟨hwave, v, s.draw, hinactive, hlower, fun _ _ => State.draw_of_waiting, ?_⟩)
      rw [startOsc_some _ _ _ _ _ v hwave halloc, Voice.noteOn_eq, State.dropDraw_frame]
      rfl

/-! ## The note operations -/

/-- Settles O13: a voice that holds the note is released where it plays, and left where it is released already. -/
theorem noteOffReleasesHeldVoices : Obligations.NoteOffReleasesHeldVoices := by
  intro note s
  refine ⟨engineNoteOff note s, rfl, rfl, fun v => ?_⟩
  rw [engineNoteOff_get]
  simp only [Bool.and_eq_true, beq_iff_eq]
  by_cases hholds : (s.voices[v]).active = true ∧ (s.voices[v]).note = some note
  · rw [if_pos hholds]
    obtain ⟨hactive, hnote⟩ := hholds
    cases hreleased : (s.voices[v]).released with
    | false =>
      rw [Voice.noteOff_of_playing hactive hreleased, if_pos ⟨hactive, hnote, rfl⟩]
      rfl
    | true => rw [Voice.noteOff_of_released hreleased, if_neg (by simp)]
  · rw [if_neg hholds, if_neg fun ⟨hactive, hnote, _⟩ => hholds ⟨hactive, hnote⟩]

theorem engineNoteOn_startsBoth (sel : Sel) (note : BitVec 7) {velocity : BitVec 7} (h : velocity ≠ 0) (s : State) :
    StartsBoth sel note (velocityVolume velocity) s (engineNoteOn sel note (fraction7 velocity) s) := by
  rw [velocityVolume_eq_fraction7, engineNoteOn_sounding _ _ h]
  exact ⟨_, startOsc_starts .., startOsc_starts ..⟩

/-- Settles O14: velocity 0 is below the tolerance and any other above it, where each oscillator is started. -/
theorem noteOnStartsVoices : Obligations.NoteOnStartsVoices := by
  refine fun note velocity s => ⟨?_, fun hvelocity => ⟨_, rfl, engineNoteOn_startsBoth .work note hvelocity s⟩⟩
  rintro rfl
  exact congrArg Host.Outcome.next (engineNoteOn_zero .work note s)

theorem exec_noteOnEx_of_sel {p : Byte} {sel : Sel} (h : noteOnSel p = some sel) (note velocity : BitVec 7)
    (s : State) : exec (.noteOnEx p note velocity) s = .next (engineNoteOn sel note (fraction7 velocity) s) := by
  simp only [exec, execNoteOnEx, h]

theorem exec_noteOnEx_of_no_sel {p : Byte} (h : noteOnSel p = none) (note velocity : BitVec 7) (s : State) :
    exec (.noteOnEx p note velocity) s = .next (s.event .patchIndexRange) := by
  simp only [exec, execNoteOnEx, h]

/-- Settles O15: the selector by the sign and the size of the index, and each then plays as NOTE_ON does. -/
theorem noteOnExSelectsPatch : Obligations.NoteOnExSelectsPatch := by
  intro p note velocity s
  refine ⟨fun hneg => exec_noteOnEx_of_sel (noteOnSel_neg p hneg) .., fun i hi => ?_,
    fun hrange => exec_noteOnEx_of_no_sel (noteOnSel_range p hrange) ..⟩
  rw [exec_noteOnEx_of_sel (noteOnSel_bank p i hi)]
  refine ⟨?_, fun hvelocity => ⟨_, rfl, engineNoteOn_startsBoth (.bank i) note hvelocity s⟩⟩
  rintro rfl
  rw [engineNoteOn_zero]
  rfl

end Sys2Proof.Machine
end

section
/-! Controllers, patch selection, pitch bend, STORE, and the input that performs nothing, against their rules
(47_engine.md R455 to R466, 60_exceptions.md R521, R522). -/

set_option autoImplicit false

namespace Sys2Proof.Machine

open Sys2Proof.Claims (RoundsTo)

/-! ## Events -/

/-- Settles O34: the code of each event, and the counter it is counted in. -/
theorem eventsCountAndMark : Obligations.EventsCountAndMark := fun _ =>
  ⟨rfl, rfl, rfl, rfl, rfl, rfl, rfl, rfl, rfl, rfl⟩

/-- Settles O21: each of the four rows is its event. -/
theorem ignoredInputOnlyCounts : Obligations.IgnoredInputOnlyCounts := fun _ _ _ => ⟨rfl, rfl, rfl, rfl⟩

/-! ## Controllers (47_engine.md R457, R458) -/

/-- A fraction of 20000 Hz is at most 20000 Hz. -/
theorem cutoffOf_le (value : BitVec 7) : F32.le (cutoffOf value) Config.cutoffCcMaxHz = true := by
  have htop : Claims.val Config.cutoffCcMaxHz = 20000 := by decide +kernel
  exact (F32.mul_inRangeF32_nonneg (b := Config.cutoffCcMaxHz) F32.finite_one (by decide) (by decide)
    (fraction7_inRangeF32 value) ⟨by decide, by decide⟩ (by norm_num [htop])).2

/-- Settles O19: the operands are the model's fractions, and a fraction of the greatest cutoff does not exceed it. -/
theorem controllersSetTheirRegister : Obligations.ControllersSetTheirRegister := by
  intro controller value s
  have hscale : F32.ofNat 127 = Config.byteScale := by decide +kernel
  have htop : F32.ofNat 20000 = Config.cutoffCcMaxHz := by decide +kernel
  rw [hscale, htop]
  exact ⟨rfl, cutoffOf_le value, rfl⟩

/-! ## Patches (47_engine.md R455, R456, R459, R466) -/

theorem selectPatch_index (i : Fin 32) (s : State) :
    selectPatch i.val s = { s with work := s.bank[i], cur := i } := by
  rw [selectPatch, patchIndex_lt i.val i.isLt]

theorem selectPatch_range {n : ℕ} (h : 32 ≤ n) (s : State) : selectPatch n s = s.event .patchIndexRange := by
  rw [selectPatch, patchIndex_ge n h]

theorem execStore_index {index : Byte} {i : Fin 32} (h : index.toNat = i.val) (s : State) :
    execStore index s = .next (s.setBank i s.work) := by
  rw [execStore, h, patchIndex_lt i.val i.isLt]

theorem execStore_range {index : Byte} (h : 32 ≤ index.toNat) (s : State) :
    execStore index s = .next (s.event .patchIndexRange) := by
  rw [execStore, patchIndex_ge _ h]

/-- Settles O20: by the index, the copy of one patch or the event. -/
theorem patchSelectionAndStore : Obligations.PatchSelectionAndStore := by
  refine ⟨fun index s => ⟨fun i hi => ?_, fun hrange => ?_⟩, fun index s => ⟨fun i hi => ?_, fun hrange => ?_⟩⟩
  · rw [exec, exec, execPatchSelect, execCcPatch, hi, selectPatch_index]
    exact ⟨rfl, rfl⟩
  · rw [exec, exec, execPatchSelect, execCcPatch, selectPatch_range hrange]
    exact ⟨rfl, rfl⟩
  · refine ⟨s.setBank i s.work, execStore_index hi s, rfl, ?_, fun j hj => ?_⟩
    · rw [State.setBank_get, if_pos rfl]
    · rw [State.setBank_get, if_neg (Ne.symm hj)]
  · exact execStore_range hrange s

/-! ## Pitch bend (47_engine.md R461) -/

theorem bendTargetOf_dead {bend : BitVec 14} (h : 8184 ≤ bend.toNat ∧ bend.toNat ≤ 8200) :
    bendTargetOf bend = F32.one := if_pos h

/-- Outside the dead zone the target is the power of two, correctly rounded. -/
theorem roundsTo_bendTargetOf {bend : BitVec 14} (h : ¬ (8184 ≤ bend.toNat ∧ bend.toNat ≤ 8200)) :
    RoundsTo (bendTargetOf bend) ((2 : ℝ) ^ ((2 * ((bend.toNat : ℝ) - 8192)) / (12 * 8192))) := by
  have hbend : bend.toNat < 16384 := bend.isLt
  have hsize : |2 * ((bend.toNat : ℤ) - 8192)| ≤ 100 * (12 * 8192 : ℕ) := by
    rw [abs_le]
    omega
  have hexponent : ((2 * ((bend.toNat : ℤ) - 8192) : ℤ) : ℝ) / (12 * 8192 : ℕ) =
      (2 * ((bend.toNat : ℝ) - 8192)) / (12 * 8192) := by norm_num
  rw [bendTargetOf, if_neg h, ← hexponent]
  exact Numerics.roundsTo_exp2Frac (by decide) hsize

/-- Settles O22: the dead zone with both ends, and the correctly rounded power of two outside it. -/
theorem pitchBendSetsTarget : Obligations.PitchBendSetsTarget := fun bend _ =>
  ⟨bendTargetOf bend, rfl, bendTargetOf_dead, roundsTo_bendTargetOf⟩

end Sys2Proof.Machine
end

section
/-! RESET and CFG_READ against the register map (10_state.md R48, 70_reset_and_hazards.md R560 to R562). -/

set_option autoImplicit false

namespace Sys2Proof.Machine

open Sys2Proof.Claims (globalWord resetWord defaultRecordByte)

/-! ## The voice banks of the register map -/

/-- A per-voice register is in the bank that starts at `base`. -/
theorem voiceIndex_of_inside {addr : Byte} {base : ℕ} {v : Fin 32} (h : addr.toNat = base + v.val) :
    voiceIndex addr base = some v := by
  rw [voiceIndex, dif_pos (by omega)]
  exact congrArg some (Fin.ext (by simp [h]))

theorem voiceIndex_of_outside {addr : Byte} {base : ℕ} (h : addr.toNat < base ∨ base + 32 ≤ addr.toNat) :
    voiceIndex addr base = none := dif_neg (by omega)

/-- Below 0x20 and from 0xC0 on there is no voice bank. -/
theorem readReg_global {addr : Byte} (h : addr.toNat < 0x20 ∨ 0xC0 ≤ addr.toNat) (s : State) :
    s.readReg addr = readGlobal addr s := by
  simp (disch := omega) only [State.readReg, voiceIndex_of_outside]

section
variable {addr : Byte} {v : Fin 32}

theorem readReg_status (h : addr.toNat = 0x20 + v.val) (s : State) : s.readReg addr = (s.voices[v]).status := by
  simp only [State.readReg, voiceIndex_of_inside h]

theorem readReg_wavePos (h : addr.toNat = 0x40 + v.val) (s : State) : s.readReg addr = (s.voices[v]).wavePos := by
  simp (disch := omega) only [State.readReg, voiceIndex_of_outside, voiceIndex_of_inside h]

theorem readReg_elapsed (h : addr.toNat = 0x60 + v.val) (s : State) : s.readReg addr = (s.voices[v]).elapsed := by
  simp (disch := omega) only [State.readReg, voiceIndex_of_outside, voiceIndex_of_inside h]

theorem readReg_freq (h : addr.toNat = 0x80 + v.val) (s : State) : s.readReg addr = (s.voices[v]).freq := by
  simp (disch := omega) only [State.readReg, voiceIndex_of_outside, voiceIndex_of_inside h]

theorem readReg_volume (h : addr.toNat = 0xA0 + v.val) (s : State) : s.readReg addr = (s.voices[v]).volume := by
  simp (disch := omega) only [State.readReg, voiceIndex_of_outside, voiceIndex_of_inside h]

end

/-! ## The global registers -/

/-- ACTIVE_VOICES counts the active voices, in whatever order (10_state.md R48). -/
theorem State.activeVoices_eq_card (s : State) :
    s.activeVoices = ((Finset.univ : Finset (Fin 32)).filter fun v => (s.voices[v]).active).card := by
  have hlist : s.voices.toList = (List.finRange 32).map fun v => s.voices[v] := by
    apply List.ext_getElem <;> simp
  rw [State.activeVoices, hlist, List.countP_map, List.countP_eq_length_filter]
  simp only [Finset.card, Finset.filter, Fin.univ_def, Multiset.filter_coe, Multiset.coe_card, Bool.decide_eq_true]
  rfl

theorem FilterKind.code_eq (k : FilterKind) : k.code = if k = .moog then 1 else 0 := by cases k <;> rfl

/-- The addresses of the global registers (10_state.md R48). -/
def globalAddresses : List Byte :=
  [0x00, 0x01, 0x02, 0x03, 0x04, 0x05, 0x06, 0x08, 0x09, 0x0A, 0x0B, 0x0C, 0x10, 0x11, 0x12, 0x13, 0x14]

theorem readGlobal_of_no_register {addr : Byte} (h : addr ∉ globalAddresses) (s : State) : readGlobal addr s = 0 := by
  simp only [globalAddresses, List.mem_cons, List.not_mem_nil, or_false, not_or] at h
  simp only [readGlobal, h, if_false]

theorem globalWord_of_no_register {addr : Byte} (h : addr ∉ globalAddresses) (s : State) :
    globalWord addr.toNat s = 0 := by
  simp only [globalAddresses, List.mem_cons, List.not_mem_nil, or_false, not_or, ← BitVec.toNat_inj,
    BitVec.reduceToNat] at h
  rw [globalWord] <;> simp only [h, imp_false, not_false_eq_true]

theorem readGlobal_eq_globalWord (addr : Byte) (s : State) : readGlobal addr s = globalWord addr.toNat s := by
  by_cases h : addr ∈ globalAddresses
  · rw [readGlobal, State.activeVoices_eq_card, FilterKind.code_eq]
    simp only [globalAddresses, List.mem_cons, List.not_mem_nil, or_false] at h
    obtain rfl | rfl | rfl | rfl | rfl | rfl | rfl | rfl | rfl | rfl | rfl | rfl | rfl | rfl | rfl | rfl | rfl := h <;>
      rfl
  · rw [readGlobal_of_no_register h, globalWord_of_no_register h]

theorem exec_cfgRead {addr : Byte} {s : State} {w : Word} (h : s.readReg addr = w) :
    exec (.cfgRead addr) s = .next { s with portD := some w } := by
  rw [exec, execCfgRead, h]
  rfl

/-- Settles O31: the banks by their voice, and every other address as a global register or as none. -/
theorem cfgReadDeliversRegister : Obligations.CfgReadDeliversRegister := fun addr s =>
  ⟨fun h => exec_cfgRead ((readReg_global h s).trans (readGlobal_eq_globalWord addr s)), fun _ =>
    ⟨fun h => exec_cfgRead (readReg_status h s), fun h => exec_cfgRead (readReg_wavePos h s),
      fun h => exec_cfgRead (readReg_elapsed h s), fun h => exec_cfgRead (readReg_freq h s),
      fun h => exec_cfgRead (readReg_volume h s)⟩⟩

/-! ## The state after reset (70_reset_and_hazards.md R560 to R562) -/

/-- Settles O9: RESET of the reset state gives it back, and RESET of any state leaves the ports as they are. -/
theorem resetEstablishesState : Obligations.ResetEstablishesState := by
  refine ⟨?_, fun s => ?_⟩
  · obtain ⟨t, ht, hstate⟩ := exec_reset_isResetState State.reset
    cases ht
    exact hstate
  · obtain ⟨t, ht, hstate⟩ := exec_reset_isResetState s
    refine ⟨t, ht, hstate, ?_⟩
    cases ht
    exact ⟨rfl, rfl, rfl⟩

/-- Settles O56: the memories, the patches, the registers and the voices, each in its range after reset. -/
theorem resetIsLegal : Obligations.ResetIsLegal where
  memory := fun _ => memoryCanonical_reset
  patches := State.reset.patchesLegal_iff.2 fun _ => patchesInRange_reset
  registers := State.reset.registersLegal_iff.2 fun _ => unitsLegal_reset
  voices := fun _ => voicesInRange_reset

theorem readReg_reset (addr : Byte) : State.reset.readReg addr = resetWord addr := by
  revert addr
  decide +kernel

theorem pack_default : Patch.default.pack = (List.range 154).map defaultRecordByte := by decide +kernel

/-- Settles O10: every register, and the 154 bytes of the default patch behind the header of a whole record. -/
theorem resetRegisterReads : Obligations.ResetRegisterReads := by
  refine ⟨fun addr => exec_cfgRead (readReg_reset addr), ?_⟩
  have hrecord : (Patch.default.pack.drop 0).take 154 = (List.range 154).map defaultRecordByte := by
    rw [List.drop_zero, ← pack_default]
    exact List.take_of_length_le Patch.default.pack_length.le
  refine ((bulkRequestReplies 0 154 State.reset).1 (by decide)).trans ?_
  rw [← hrecord]
  rfl

end Sys2Proof.Machine
end

section
/-! The decode event of every input, by the precedence of 60_exceptions.md R523. -/

set_option autoImplicit false

namespace Sys2Proof

open Machine (Event State exec toNat_append_eq_add)
open Claims (controlEvent hostEvent hostLeast inputEvent performsNothing ignored)

/-! ## Rows and their decode events -/

/-- The decode event of a row that performs nothing else (60_exceptions.md R523). -/
def Instr.decodeEvent : Instr → Option Event
  | .ccOther _ | .ctrlUnknown _ => some .msgUnknown
  | .msgTooShort _ => some .msgTooShort
  | .hostUnknown _ => some .hostFrameBad
  | .noteOff _ | .noteOn _ _ | .ccCutoff _ _ | .ccReverb _ | .ccPatch _ | .patchSelect _ | .pitchBend _
  | .bulkRequest _ _ | .bulkDeliver _ _ | .fill _ _ | .update _ | .store _ | .cfgWrite _ _ | .cfgRead _
  | .reset | .noteOnEx _ _ _ => none

theorem performsNothing_eq_isSome (i : Instr) : performsNothing i = i.decodeEvent.isSome := by cases i <;> rfl

theorem exec_of_decodeEvent {i : Instr} {e : Event} (h : i.decodeEvent = some e) (s : State) :
    exec i s = .next { s with diag := ignored e.code s.diag } := by
  cases i with
  | ccOther _ | ctrlUnknown _ | msgTooShort _ | hostUnknown _ =>
    cases h
    rfl
  | _ => cases h

/-! ## Control messages -/

theorem status_high (n c : BitVec 4) : (status n c).toNat / 16 = n.toNat := by
  have hc := c.isLt
  rw [status, toNat_append_eq_add]
  omega

/-- A status byte of 30_encoding.md R142 but 0xF0 is in none of the ranges R523 calls unassigned. -/
theorem status_bounds : ∀ n ∈ [0x8#4, 0x9#4, 0xB#4, 0xC#4, 0xE#4], ∀ c : BitVec 4,
    ¬ (status n c).toNat < 0x80 ∧ ¬ 0xF1 ≤ (status n c).toNat := by
  decide

theorem unassigned_of_isAssignedStatus : ∀ b : Byte, isAssignedStatus b = false →
    b.toNat < 0x80 ∨ b.toNat / 16 = 0xA ∨ b.toNat / 16 = 0xD ∨ 0xF1 ≤ b.toNat := by
  decide

theorem decodeEvent_unassigned {b : Byte} (h : isAssignedStatus b = false) (rest : List Byte) :
    (decodeControl (b :: rest)).decodeEvent = controlEvent (b :: rest) := by
  rw [decodeControl_unassigned h]
  simp only [controlEvent, List.getElem?_cons_zero, if_pos (unassigned_of_isAssignedStatus b h)]
  rfl

/-- NOTE_OFF and PATCH_SELECT take one data byte. -/
theorem decodeEvent_oneByte {n : BitVec 4} (hn : n = 0x8#4 ∨ n = 0xC#4) (c : BitVec 4) (rest : List Byte) :
    (decodeControl (status n c :: rest)).decodeEvent = controlEvent (status n c :: rest) := by
  obtain ⟨hlow, hhigh⟩ := status_bounds n (by obtain rfl | rfl := hn <;> decide) c
  cases rest <;> obtain rfl | rfl := hn <;>
    simp [decodeControl, Instr.decodeEvent, controlEvent, status_high, hlow, hhigh]

/-- NOTE_ON and PITCH_BEND take two data bytes. -/
theorem decodeEvent_twoBytes {n : BitVec 4} (hn : n = 0x9#4 ∨ n = 0xE#4) (c : BitVec 4) (rest : List Byte) :
    (decodeControl (status n c :: rest)).decodeEvent = controlEvent (status n c :: rest) := by
  obtain ⟨hlow, hhigh⟩ := status_bounds n (by obtain rfl | rfl := hn <;> decide) c
  match rest with
  | [] | [_] | _ :: _ :: rest =>
    obtain rfl | rfl := hn <;> simp [decodeControl, Instr.decodeEvent, controlEvent, status_high, hlow, hhigh]

theorem routedController_decodeEvent (c v : BitVec 7) : (routedController c v).decodeEvent = none := by
  unfold routedController
  split_ifs <;> rfl

/-- A CC message: the controller first, then the length. -/
theorem decodeEvent_controller (c : BitVec 4) (rest : List Byte) :
    (decodeControl (status 0xB#4 c :: rest)).decodeEvent = controlEvent (status 0xB#4 c :: rest) := by
  obtain ⟨hlow, hhigh⟩ := status_bounds 0xB#4 (by decide) c
  have hunrouted (b1 : Byte) : b1.toNat % 128 ∉ [1, 74, 91, 0] ↔ ¬ isRouted (data7 b1) = true := by
    rw [isRouted_data7_iff]
    simp [or_assoc]
  rw [decodeControl_controller]
  match rest with
  | [] => simp [decodeController, Instr.decodeEvent, controlEvent, status_high, hlow, hhigh]
  | b1 :: more =>
    cases hrouted : isRouted (data7 b1) with
    | false =>
      rw [decodeController_ignored _ hrouted]
      simp [-List.mem_cons, Instr.decodeEvent, controlEvent, status_high, hlow, hhigh, hunrouted, hrouted]
    | true =>
      match more with
      | [] =>
        rw [decodeController_short _ hrouted]
        simp [-List.mem_cons, Instr.decodeEvent, controlEvent, status_high, hlow, hhigh, hunrouted, hrouted]
      | b2 :: _ =>
        rw [decodeController_routed _ hrouted, routedController_decodeEvent]
        simp [-List.mem_cons, controlEvent, status_high, hlow, hhigh, hunrouted, hrouted]

/-- A BK message: the command first, then the length (30_encoding.md R145). -/
theorem decodeEvent_bulk (rest : List Byte) :
    (decodeControl (0xF0#8 :: rest)).decodeEvent = controlEvent (0xF0#8 :: rest) := by
  rw [decodeControl_bulk]
  match rest with
  | [] => rfl
  | c :: more =>
    have hunknown : (c.toNat ≠ 1 ∧ c.toNat ≠ 2) ↔ ¬ isBulkCommand c = true := by
      simp [isBulkCommand, ← BitVec.toNat_inj]
    cases hc : isBulkCommand c with
    | false =>
      rw [decodeBulk_unknown _ hc]
      simp only [controlEvent, List.getElem?_cons_zero, List.getElem?_cons_succ, hunknown, hc]
      rfl
    | true =>
      match more with
      | [] | [_] | [_, _] | [_, _, _] =>
        simp only [controlEvent, List.getElem?_cons_zero, List.getElem?_cons_succ, hunknown, hc, decodeBulk]
        rfl
      | a0 :: a1 :: s0 :: s1 :: payload =>
        have hsize : (data14 s0 s1).toNat = s0.toNat % 128 + 128 * (s1.toNat % 128) := by
          rw [data14_eq, BitVec.toNat_ofNat]
          omega
        obtain rfl | rfl : c = 0x01#8 ∨ c = 0x02#8 := by simpa [isBulkCommand] using hc
        · rw [decodeBulk_request]
          simp [Instr.decodeEvent, controlEvent]
        · by_cases hlen : payload.length < (data14 s0 s1).toNat
          · rw [decodeBulk_deliver_short _ _ _ hlen]
            simp [Instr.decodeEvent, controlEvent]
            omega
          · rw [decodeBulk_deliver _ _ _ (Nat.not_lt.1 hlen)]
            have hlong : ¬ payload.length + 6 < 6 + (s0.toNat % 128 + 128 * (s1.toNat % 128)) := by omega
            simp [Instr.decodeEvent, controlEvent, Nat.add_assoc, hlong]

theorem decodeControl_decodeEvent (msg : List Byte) : (decodeControl msg).decodeEvent = controlEvent msg := by
  cases msg with
  | nil => rfl
  | cons b rest =>
    cases statusClass b with
    | noteOff c => exact decodeEvent_oneByte (.inl rfl) c rest
    | noteOn c => exact decodeEvent_twoBytes (.inl rfl) c rest
    | controller c => exact decodeEvent_controller c rest
    | patchSelect c => exact decodeEvent_oneByte (.inr rfl) c rest
    | pitchBend c => exact decodeEvent_twoBytes (.inr rfl) c rest
    | bulk => exact decodeEvent_bulk rest
    | unassigned h => exact decodeEvent_unassigned h rest

/-! ## Host frames -/

theorem hostLeast_eq_hostMinLength : ∀ b0 : Byte, hostLeast b0.toNat = hostMinLength b0 := by decide

/-- A host frame has its event exactly where it is bad. -/
theorem hostEvent_eq (frame : List Byte) :
    hostEvent frame = if isBadFrame frame = true then some .hostFrameBad else none := by
  cases frame with
  | nil => rfl
  | cons b0 rest =>
    obtain ⟨least, hleast⟩ : ∃ least, hostMinLength b0 = least := ⟨_, rfl⟩
    simp only [hostEvent, List.getElem?_cons_zero, hostLeast_eq_hostMinLength, isBadFrame, hleast]
    cases least <;> simp

/-- A host frame performs its operation, or is kept as it is. -/
theorem decodeHost_cases (frame : List Byte) :
    decodeHost frame = .hostUnknown frame ∨ (decodeHost frame).decodeEvent = none := by
  unfold decodeHost
  repeat' split
  all_goals simp [Instr.decodeEvent]

theorem decodeHost_decodeEvent (frame : List Byte) : (decodeHost frame).decodeEvent = hostEvent frame := by
  rw [hostEvent_eq]
  cases hostReading frame with
  | bad hbad hdecode => rw [hdecode, if_pos hbad]; rfl
  | operation hbad hwf =>
    rw [if_neg (Bool.eq_false_iff.1 hbad)]
    refine (decodeHost_cases frame).resolve_left fun hdecode => ?_
    rw [hdecode] at hwf
    exact Bool.eq_false_iff.1 hbad hwf

/-- The decoder reads every input as the row of its decode event, or as an operation where it has none. -/
theorem decode_decodeEvent (m : Input) : (decode m).decodeEvent = inputEvent m := by
  cases m with
  | control msg => exact decodeControl_decodeEvent msg
  | host frame => exact decodeHost_decodeEvent frame

/-- Settles O6: the row that is decoded has the event of the input. -/
theorem decodePrecedence : Obligations.DecodePrecedence := by
  intro m
  rw [performsNothing_eq_isSome, decode_decodeEvent]
  refine ⟨fun e he => ⟨by rw [he]; rfl, ?_⟩, fun hnone => by rw [hnone]; rfl⟩
  exact exec_of_decodeEvent ((decode_decodeEvent m).trans he)

end Sys2Proof
end

section
/-! Which parts of the state an operation writes, and that the inputs that wait are none of them (47_engine.md R467,
R474, R475). -/

set_option autoImplicit false

namespace Sys2Proof.Machine

open Sys2Proof.Claims (Part mayWrite LegalFill)

/-! ## Writing some parts only -/

/-- Two states agree on every part but the listed ones. -/
structure WritesOnly (parts : List Part) (s t : State) : Prop where
  same : ∀ p : Part, p ∉ parts → p.same s t

theorem part_same_rfl (p : Part) (s : State) : p.same s s := by cases p <;> simp [Part.same]

theorem part_same_trans {p : Part} {s t u : State} (h : p.same s t) (h' : p.same t u) : p.same s u := by
  cases p <;> simp_all [Part.same]

theorem WritesOnly.refl (s : State) : WritesOnly [] s s := ⟨fun p _ => part_same_rfl p s⟩

theorem WritesOnly.mono {parts parts' : List Part} {s t : State} (h : WritesOnly parts s t) (hsub : parts ⊆ parts') :
    WritesOnly parts' s t := ⟨fun p hp => h.same p fun hmem => hp (hsub hmem)⟩

theorem WritesOnly.trans {parts : List Part} {s t u : State} (h : WritesOnly parts s t) (h' : WritesOnly parts t u) :
    WritesOnly parts s u := ⟨fun p hp => part_same_trans (h.same p hp) (h'.same p hp)⟩

/-! ## The shared operations -/

/-- The counter of an event (60_exceptions.md R522). -/
def Event.counter : Event → Part
  | .voicePoolExhausted => .dropCount
  | .unpackStopped => .unpackStopCount
  | .limiterSaturated => .clipCount
  | .msgTooShort | .msgUnknown | .patchIndexRange | .bulkRange | .cfgBadAddress | .cfgBadValue | .hostFrameBad =>
    .ignoredCount

theorem event_writesOnly (e : Event) (s : State) : WritesOnly [e.counter, .lastEvent] s (s.event e) := by
  refine ⟨fun p hp => ?_⟩
  cases p with
  | lastEvent => simp at hp
  | dropCount | ignoredCount | clipCount | unpackStopCount =>
    cases e <;> simp_all [Event.counter, Part.same, Diag.record]
  | _ => simp [Part.same]

/-- The operations on the state that write one part. -/
inductive PartWrite (s : State) : Part → State → Prop
  | bank (i : Fin 32) (w : Patch) : PartWrite s .bank (s.setBank i w)
  | work (w : Patch) : PartWrite s .work (s.setWork w)
  | cur (i : Fin 32) : PartWrite s .cur { s with cur := i }
  | masterVolume (y : F32) : PartWrite s .masterVolume { s with mixer := { s.mixer with masterVolume := y } }
  | bendTarget (y : F32) : PartWrite s .bendTarget { s with mixer := { s.mixer with bendTarget := y } }
  | filterKind (k : FilterKind) : PartWrite s .filterKind { s with filter := { s.filter with kind := k } }
  | cutoff (y : F32) : PartWrite s .cutoff { s with filter := { s.filter with cutoff := y } }
  | resonance (y : F32) : PartWrite s .resonance { s with filter := { s.filter with resonance := y } }
  | delayMs (y : F32) : PartWrite s .delayMs { s with reverb := { s.reverb with delayMs := y } }
  | decay (y : F32) : PartWrite s .decay { s with reverb := { s.reverb with decay := y } }
  | mix (y : F32) : PartWrite s .mix { s with reverb := { s.reverb with mix := y } }
  | portR (out : List Byte) : PartWrite s .portR (s.emitR out)
  | portD (w : Word) : PartWrite s .portD (s.emitD w)
  | draws : PartWrite s .draws s.dropDraw

/-- Every other part is a field, or a field of a field, that the write copies. -/
theorem PartWrite.writesOnly {s t : State} {p : Part} (h : PartWrite s p t) : WritesOnly [p] s t := by
  refine ⟨fun q hq => ?_⟩
  rw [List.mem_singleton] at hq
  cases h <;> cases q <;> simp [Part.same] at hq ⊢

/-- The parts of a voice. -/
def voiceParts : List Part := [.vActive, .vNote, .vReleased, .vElapsed, .vPhase, .vRest]

theorem setVoice_writesOnly (v : Fin 32) (x : Voice) (s : State) : WritesOnly voiceParts s (s.setVoice v x) := by
  refine ⟨fun p hp => ?_⟩
  cases p with
  | vActive | vNote | vReleased | vElapsed | vPhase | vRest => simp [voiceParts] at hp
  | _ => simp [Part.same]

/-! ## Registers -/

/-- The parts CFG_WRITE may write, but for its event. -/
def registerParts (addr : Byte) : List Part :=
  if addr = 0x00 then [.masterVolume]
  else if addr = 0x01 then [.filterKind]
  else if addr = 0x02 then [.cutoff]
  else if addr = 0x03 then [.resonance]
  else if addr = 0x04 then [.delayMs]
  else if addr = 0x05 then [.decay]
  else if addr = 0x06 then [.mix]
  else []

theorem mayWrite_cfgWrite (addr : Byte) (d : Word) :
    mayWrite (.cfgWrite addr d) = some (registerParts addr ++ [.ignoredCount, .lastEvent]) := rfl

theorem storeF32Reg_writesOnly {addr : Byte} {lo hi : F32} (h : writeRange addr = some (lo, hi)) (y : F32)
    (s : State) : WritesOnly (registerParts addr) s (storeF32Reg addr y s) := by
  obtain ⟨-, ⟨rfl, -⟩ | ⟨rfl, -⟩ | ⟨rfl, -⟩ | ⟨rfl, -⟩ | ⟨rfl, -⟩ | ⟨rfl, -⟩⟩ := writeRange_cases h
  · exact (PartWrite.masterVolume y).writesOnly
  · exact (PartWrite.cutoff y).writesOnly
  · exact (PartWrite.resonance y).writesOnly
  · exact (PartWrite.delayMs y).writesOnly
  · exact (PartWrite.decay y).writesOnly
  · exact (PartWrite.mix y).writesOnly

/-- A register write sets the register of its address, or counts its event. -/
theorem writeReg_outcome (addr : Byte) (d : Word) (s : State) :
    (addr = 0x01 ∧ ∃ k, s.writeReg addr d = { s with filter := { s.filter with kind := k } }) ∨
      (∃ lo hi y, writeRange addr = some (lo, hi) ∧ s.writeReg addr d = storeF32Reg addr y s) ∨
      ∃ e, (e = .cfgBadAddress ∨ e = .cfgBadValue) ∧ s.writeReg addr d = s.event e := by
  by_cases hkind : addr = 0x01
  · rw [hkind, writeReg_filterKind]
    split_ifs
    · exact .inl ⟨rfl, _, rfl⟩
    · exact .inl ⟨rfl, _, rfl⟩
    · exact .inr (.inr ⟨_, .inr rfl, rfl⟩)
  · cases hrange : writeRange addr with
    | none => exact .inr (.inr ⟨_, .inl rfl, writeReg_of_no_range hkind hrange d s⟩)
    | some range =>
      rw [writeReg_of_range hrange]
      split_ifs
      · exact .inr (.inl ⟨_, _, _, rfl, rfl⟩)
      · exact .inr (.inr ⟨_, .inr rfl, rfl⟩)

theorem writeReg_writesOnly (addr : Byte) (d : Word) (s : State) :
    WritesOnly (registerParts addr ++ [.ignoredCount, .lastEvent]) s (s.writeReg addr d) := by
  obtain ⟨rfl, k, h⟩ | ⟨lo, hi, y, hrange, h⟩ | ⟨e, rfl | rfl, h⟩ := writeReg_outcome addr d s <;> rw [h]
  · exact (PartWrite.filterKind k).writesOnly.mono (by simp [registerParts])
  · exact (storeF32Reg_writesOnly hrange y s).mono (by simp)
  · exact (event_writesOnly _ s).mono (by simp [Event.counter])
  · exact (event_writesOnly _ s).mono (by simp [Event.counter])

/-! ## Notes and voices -/

theorem engineNoteOff_writesOnly (note : BitVec 7) (s : State) :
    WritesOnly [.vReleased, .vElapsed] s (engineNoteOff note s) := by
  have hframe (v : Fin 32) :
      ∃ r x, (engineNoteOff note s).voices[v] = { s.voices[v] with released := r, elapsed := x } := by
    obtain h | ⟨-, -, -, h⟩ := engineNoteOff_get_cases note s v
    · exact ⟨_, _, h⟩
    · exact ⟨_, _, h⟩
  refine ⟨fun p hp => ?_⟩
  cases p with
  | vReleased | vElapsed => simp at hp
  | vActive | vNote | vPhase | vRest =>
    intro v
    obtain ⟨_, _, h⟩ := hframe v
    simp [h]
  | _ => simp [Part.same, engineNoteOff]

/-- The parts one oscillator of a note-on may write (47_engine.md R475). -/
def startParts : List Part := voiceParts ++ [.draws, .dropCount, .lastEvent]

theorem startOsc_writesOnly (sel : Sel) (note : BitVec 7) (volume : F32) (k : OscIndex) (s : State) :
    WritesOnly startParts s (startOsc sel note volume k s) := by
  by_cases hwave : (s.osc ⟨sel, k⟩).waveType = .none
  · rw [startOsc_none _ _ _ _ _ hwave]
    exact (WritesOnly.refl s).mono (by simp)
  · cases halloc : s.allocate with
    | none =>
      rw [startOsc_full _ _ _ _ _ hwave halloc]
      exact (event_writesOnly _ s).mono (by simp [Event.counter, startParts])
    | some v =>
      rw [startOsc_some _ _ _ _ _ v hwave halloc]
      exact (PartWrite.draws.writesOnly.mono (by simp [startParts])).trans
        ((setVoice_writesOnly _ _ _).mono (by simp [startParts]))

theorem engineNoteOn_writesOnly (sel : Sel) (note : BitVec 7) (volume : F32) (s : State) :
    WritesOnly startParts s (engineNoteOn sel note volume s) := by
  unfold engineNoteOn
  split
  · exact (engineNoteOff_writesOnly note s).mono (by simp [startParts, voiceParts])
  · exact (startOsc_writesOnly ..).trans (startOsc_writesOnly ..)

theorem update_writesOnly (release : Voice → F32) (s : State) :
    WritesOnly [.vActive, .vNote] s (s.mapVoices fun v => v.update (release v)) := by
  have hframe (v : Voice) : ∃ a n, v.update (release v) = { v with active := a, note := n } := by
    obtain h | ⟨-, -, -, h⟩ := v.update_cases (release v)
    · exact ⟨_, _, h⟩
    · exact ⟨_, _, h⟩
  refine ⟨fun p hp => ?_⟩
  cases p with
  | vActive | vNote => simp at hp
  | vReleased | vElapsed | vPhase | vRest =>
    intro v
    obtain ⟨_, _, h⟩ := hframe s.voices[v]
    simp only [State.mapVoices_get, h, and_self]
  | _ => simp [Part.same]

/-! ## FILL -/

theorem Filter.apply_kind (f : Filter) (sr : ℕ) (mix : List F32) : (f.apply sr mix).2.kind = f.kind := by
  unfold Filter.apply
  split
  · rw [onePoleRun_frame]
  · rw [ladderRun_frame]

/-- The parts a legal FILL may write (47_engine.md R475). -/
def fillParts : List Part :=
  [.vPhase, .vElapsed, .bendCur, .lfoPhase, .reverbBuf, .reverbWp, .filterState, .portA, .clipCount, .lastEvent]

theorem fillLegalBody_writesOnly (n sr : ℕ) (s : State) : WritesOnly fillParts s (fillLegalBody n sr s) := by
  have hframe (v : Fin 32) :
      ∃ ph x, (fillLegalBody n sr s).voices[v] = { s.voices[v] with phase := ph, elapsed := x } :=
    ⟨_, _, (fillLegalBody_get n sr s v).trans (advanceVoice_frame ..)⟩
  refine ⟨fun p hp => ?_⟩
  cases p with
  | vPhase | vElapsed | bendCur | lfoPhase | reverbBuf | reverbWp | filterState | portA | clipCount | lastEvent =>
    simp [fillParts] at hp
  | vActive | vNote | vReleased | vRest =>
    intro v
    obtain ⟨_, _, h⟩ := hframe v
    simp [h]
  | masterVolume | bendTarget => simp [Part.same, fillLegalBody_mixer, Mixer.advanceLfo, Mixer.smoothBend]
  | filterKind => exact (s.filter.apply_kind sr _).symm
  | cutoff => exact (s.filter.apply_registers sr _).1.symm
  | resonance => exact (s.filter.apply_registers sr _).2.symm
  | delayMs | decay | mix =>
    simp only [Part.same, fillLegalBody_reverb]
    rw [reverbRun_frame]
  | dropCount | ignoredCount | unpackStopCount =>
    simp only [Part.same, fillLegalBody]
    rw [convertEvents_frame]
  | arrivals => exact ⟨rfl, rfl⟩
  | _ => rfl

/-! ## Operations -/

theorem selectPatch_writesOnly (i : ℕ) (s : State) :
    WritesOnly [.work, .cur, .ignoredCount, .lastEvent] s (selectPatch i s) := by
  unfold selectPatch
  split
  case h_1 k _ =>
    refine WritesOnly.trans (t := s.setWork s.bank[k]) ?_ ?_
    · exact (PartWrite.work _).writesOnly.mono (by simp)
    · exact (PartWrite.cur k).writesOnly.mono (by simp)
  case h_2 => exact (event_writesOnly _ s).mono (by simp [Event.counter])

theorem unpackWork_writesOnly (pay : List Byte) (address size : ℕ) (s : State) :
    WritesOnly [.work, .unpackStopCount, .lastEvent] s (unpackWork pay address size s) := by
  have hwork : WritesOnly [.work, .unpackStopCount, .lastEvent] s (s.unpackBlocks pay address size) :=
    (PartWrite.work _).writesOnly.mono (by simp)
  obtain h | h := unpackWork_cases pay address size <;> rw [h]
  · exact hwork
  · exact hwork.trans ((event_writesOnly _ _).mono (by simp [Event.counter]))

/-- An operation writes the parts of its row, but for a RESET and a FILL out of range (47_engine.md R475). -/
theorem exec_writesOnly {i : Instr} {s t : State} {parts : List Part} (h : exec i s = .next t)
    (hparts : mayWrite i = some parts) (hfill : ∀ n sr, i = .fill n sr → LegalFill n sr) : WritesOnly parts s t := by
  cases i with
  | noteOff note =>
    cases h
    cases hparts
    exact engineNoteOff_writesOnly note s
  | noteOn note velocity =>
    cases h
    cases hparts
    exact engineNoteOn_writesOnly ..
  | noteOnEx p note velocity =>
    cases hparts
    simp only [exec, execNoteOnEx] at h
    split at h <;> cases h
    · exact (engineNoteOn_writesOnly ..).mono (by simp [startParts, voiceParts])
    · exact (event_writesOnly _ s).mono (by simp [Event.counter])
  | ccCutoff controller value =>
    cases h
    cases hparts
    exact (PartWrite.cutoff _).writesOnly
  | ccReverb value =>
    cases h
    cases hparts
    exact (PartWrite.mix _).writesOnly
  | pitchBend bend =>
    cases h
    cases hparts
    exact (PartWrite.bendTarget _).writesOnly
  | ccPatch index | patchSelect index =>
    cases h
    cases hparts
    exact selectPatch_writesOnly ..
  | bulkRequest addr size =>
    cases hparts
    simp only [exec, execBulkRequest] at h
    split at h <;> cases h
    · exact (PartWrite.portR _).writesOnly.mono (by simp)
    · exact (event_writesOnly _ s).mono (by simp [Event.counter])
  | bulkDeliver addr payload =>
    cases hparts
    simp only [exec, execBulkDeliver] at h
    split at h <;> cases h
    · exact (unpackWork_writesOnly ..).mono (by simp)
    · exact (event_writesOnly _ s).mono (by simp [Event.counter])
  | fill n sr =>
    cases hparts
    cases (exec_fill_legal (hfill n sr rfl) s).symm.trans h
    exact fillLegalBody_writesOnly ..
  | update deltaMs =>
    cases h
    cases hparts
    exact update_writesOnly _ s
  | store index =>
    cases hparts
    simp only [exec, execStore] at h
    split at h <;> cases h
    · exact (PartWrite.bank _ _).writesOnly.mono (by simp)
    · exact (event_writesOnly _ s).mono (by simp [Event.counter])
  | cfgWrite addr d =>
    cases h
    cases (mayWrite_cfgWrite addr d).symm.trans hparts
    exact writeReg_writesOnly addr d s
  | cfgRead addr =>
    cases h
    cases hparts
    exact (PartWrite.portD _).writesOnly
  | reset => cases hparts
  | ccOther _ | ctrlUnknown _ | msgTooShort _ | hostUnknown _ =>
    cases h
    cases hparts
    exact (event_writesOnly _ s).mono (by simp [Event.counter])

theorem legalFill_of_unfaulted {n : BitVec 16} {sr : Word} {s t : State} (h : exec (.fill n sr) s = .next t)
    (ht : t.fault = none) : LegalFill n sr := by
  by_contra hillegal
  cases (exec_fill_illegal hillegal s).symm.trans h
  cases ht

/-- Settles O33: a FILL that leaves the block unfaulted is legal, and every operation keeps to its parts. -/
theorem operationsWriteOnlyTheirParts : Obligations.OperationsWriteOnlyTheirParts := by
  intro i s t parts p h ht hparts
  refine (exec_writesOnly h hparts fun n sr hi => ?_).same p
  subst hi
  exact legalFill_of_unfaulted h ht

/-! ## The inputs that wait (47_engine.md R474) -/

/-- Every operation answers a next state. -/
theorem exec_next (i : Instr) (s : State) : ∃ t, exec i s = .next t := by
  cases i with
  | noteOnEx p note velocity =>
    simp only [exec, execNoteOnEx]
    split <;> exact ⟨_, rfl⟩
  | bulkRequest addr size =>
    simp only [exec, execBulkRequest]
    split <;> exact ⟨_, rfl⟩
  | bulkDeliver addr payload =>
    simp only [exec, execBulkDeliver]
    split <;> exact ⟨_, rfl⟩
  | fill n sr =>
    simp only [exec, execFill]
    split <;> exact ⟨_, rfl⟩
  | store index =>
    simp only [exec, execStore]
    split <;> exact ⟨_, rfl⟩
  | _ => exact ⟨_, rfl⟩

/-- No operation but RESET may write everything, and none of the others may write the arrival order. -/
theorem mayWrite_arrivals {i : Instr} (h : i ≠ .reset) : ∃ parts, mayWrite i = some parts ∧ Part.arrivals ∉ parts := by
  cases i with
  | reset => exact absurd rfl h
  | cfgWrite addr d =>
    refine ⟨_, mayWrite_cfgWrite addr d, ?_⟩
    unfold registerParts
    split_ifs <;> simp
  | _ => exact ⟨_, rfl, by simp⟩

theorem exec_arrivals (i : Instr) (s : State) :
    ∃ t, exec i s = .next t ∧ t.inbox = s.inbox ∧ t.position = s.position := by
  obtain ⟨t, h⟩ := exec_next i s
  refine ⟨t, h, ?_⟩
  by_cases hreset : i = .reset
  · subst hreset
    cases h
    exact ⟨rfl, rfl⟩
  by_cases hfill : ∀ n sr, i = .fill n sr → LegalFill n sr
  · obtain ⟨parts, hparts, harrivals⟩ := mayWrite_arrivals hreset
    obtain ⟨hinbox, hposition⟩ : Part.arrivals.same s t := (exec_writesOnly h hparts hfill).same _ harrivals
    exact ⟨hinbox.symm, hposition.symm⟩
  · push Not at hfill
    obtain ⟨n, sr, rfl, hillegal⟩ := hfill
    cases (exec_fill_illegal hillegal s).symm.trans h
    exact ⟨rfl, rfl⟩

/-- Settles O8: an input is taken from the list, and neither an operation nor a faulted block writes the rest. -/
theorem stepTakesInputsInOrder : Obligations.StepTakesInputsInOrder := by
  intro s m rest hinbox
  rw [step_input s m rest hinbox]
  split
  · exact exec_arrivals (decode m) (s.accept rest)
  · exact ⟨_, rfl, rfl, rfl⟩

end Sys2Proof.Machine
end

section
/-! How often an operation counts each event (60_exceptions.md R522, R524). -/

set_option autoImplicit false

namespace Sys2Proof.Machine

/-- What an operation can do to the diagnostic registers: nothing, one event, two dropped voices, or as many saturated
samples as a FILL has at most (60_exceptions.md R524). -/
inductive DiagStep (i : Instr) (d : Diag) : Diag → Prop
  | kept : DiagStep i d d
  | counted (e : Event) (h : e ≠ .limiterSaturated) : DiagStep i d (d.record e)
  | dropped : DiagStep i d ((d.record .voicePoolExhausted).record .voicePoolExhausted)
  | clipped (n : BitVec 16) (sr : Word) (k : ℕ) (h : i = .fill n sr) (hpos : k ≠ 0) (hk : k ≤ n.toNat) :
    DiagStep i d { d with clipCount := d.clipCount + BitVec.ofNat 32 k, lastEvent := 9 }

section
variable {i : Instr} (s : State)

theorem event_diagStep {e : Event} (h : e ≠ .limiterSaturated) : DiagStep i s.diag (s.event e).diag := .counted e h

theorem selectPatch_diagStep (index : ℕ) : DiagStep i s.diag (selectPatch index s).diag := by
  unfold selectPatch
  split
  · exact .kept
  · exact event_diagStep s (by decide)

theorem unpackWork_diagStep (pay : List Byte) (address size : ℕ) :
    DiagStep i s.diag (unpackWork pay address size s).diag := by
  obtain h | h := unpackWork_cases pay address size <;> rw [h]
  · exact .kept
  · exact .counted .unpackStopped (by decide)

theorem storeF32Reg_diag (addr : Byte) (y : F32) : (storeF32Reg addr y s).diag = s.diag := by
  unfold storeF32Reg
  split_ifs <;> rfl

theorem writeReg_diagStep (addr : Byte) (d : Word) : DiagStep i s.diag (s.writeReg addr d).diag := by
  obtain ⟨-, k, h⟩ | ⟨lo, hi, y, -, h⟩ | ⟨e, he, h⟩ := writeReg_outcome addr d s <;> rw [h]
  · exact .kept
  · rw [storeF32Reg_diag]
    exact .kept
  · exact event_diagStep s (by obtain rfl | rfl := he <;> decide)

/-- One oscillator of a note-on counts a drop or nothing (45_voice.md R368). -/
theorem startOsc_diag (sel : Sel) (note : BitVec 7) (volume : F32) (k : OscIndex) :
    (startOsc sel note volume k s).diag = s.diag ∨
      (startOsc sel note volume k s).diag = s.diag.record .voicePoolExhausted := by
  by_cases hwave : (s.osc ⟨sel, k⟩).waveType = .none
  · exact .inl (by rw [startOsc_none _ _ _ _ _ hwave])
  · cases halloc : s.allocate with
    | none => exact .inr (by rw [startOsc_full _ _ _ _ _ hwave halloc, State.event_diag])
    | some v => exact .inl (by rw [startOsc_some _ _ _ _ _ v hwave halloc, State.setVoice_diag, State.dropDraw_diag])

theorem engineNoteOn_diagStep (sel : Sel) (note : BitVec 7) (volume : F32) :
    DiagStep i s.diag (engineNoteOn sel note volume s).diag := by
  unfold engineNoteOn
  split
  · exact .kept
  · obtain h | h := startOsc_diag (startOsc sel note volume .osc0 s) sel note volume .osc1 <;> rw [h] <;>
      obtain h | h := startOsc_diag s sel note volume .osc0 <;> rw [h]
    · exact .kept
    · exact .counted .voicePoolExhausted (by decide)
    · exact .counted .voicePoolExhausted (by decide)
    · exact .dropped

/-- A FILL converts as many samples as it was asked for (46_mixer.md R421). -/
theorem fillLegalBody_diagStep (n : BitVec 16) (sr : Word) :
    DiagStep (.fill n sr) s.diag (fillLegalBody n.toNat sr.toNat s).diag := by
  have hlen : ((s.filter.apply sr.toNat
      (s.reverb.apply sr.toNat (fillMix n.toNat sr.toNat s)).1).1.map compress).length = n.toNat := by
    rw [List.length_map, Filter.apply_length, Reverb.apply, reverbRun_length, fillMix_length]
  simp only [fillLegalBody, convertEvents_count]
  split
  · exact .kept
  · exact .clipped n sr _ rfl ‹_› (List.countP_le_length.trans_eq hlen)

end

theorem exec_diagStep {i : Instr} {s t : State} (hreset : i ≠ .reset) (h : exec i s = .next t) (ht : t.fault = none) :
    DiagStep i s.diag t.diag := by
  cases i with
  | noteOn note velocity =>
    cases h
    exact engineNoteOn_diagStep ..
  | noteOnEx p note velocity =>
    simp only [exec, execNoteOnEx] at h
    split at h <;> cases h
    · exact engineNoteOn_diagStep ..
    · exact event_diagStep s (by decide)
  | ccPatch index | patchSelect index =>
    cases h
    exact selectPatch_diagStep ..
  | bulkRequest addr size =>
    simp only [exec, execBulkRequest] at h
    split at h <;> cases h
    · exact .kept
    · exact event_diagStep s (by decide)
  | bulkDeliver addr payload =>
    simp only [exec, execBulkDeliver] at h
    split at h <;> cases h
    · exact unpackWork_diagStep ..
    · exact event_diagStep s (by decide)
  | fill n sr =>
    cases (exec_fill_legal (legalFill_of_unfaulted h ht) s).symm.trans h
    exact fillLegalBody_diagStep ..
  | store index =>
    simp only [exec, execStore] at h
    split at h <;> cases h
    · exact .kept
    · exact event_diagStep s (by decide)
  | cfgWrite addr d =>
    cases h
    exact writeReg_diagStep ..
  | reset => exact absurd rfl hreset
  | noteOff _ | ccCutoff _ _ | ccReverb _ | pitchBend _ | update _ | cfgRead _ =>
    cases h
    exact .kept
  | ccOther _ | ctrlUnknown _ | msgTooShort _ | hostUnknown _ =>
    cases h
    exact event_diagStep s (by decide)

/-- Settles O35: the counts of each thing an operation can do to the diagnostic registers. -/
theorem eventsPerOperationAreBounded : Obligations.EventsPerOperationAreBounded := by
  intro i s t hreset h ht
  have hdiag := exec_diagStep hreset h ht
  generalize t.diag = d' at hdiag ⊢
  generalize s.diag = d at hdiag ⊢
  cases hdiag with
  | kept => exact ⟨0, 0, 0, 0, by simp⟩
  | counted e he =>
    cases e with
    | voicePoolExhausted => exact ⟨0, 1, 0, 0, by simp [Diag.record, Event.code]⟩
    | unpackStopped => exact ⟨0, 0, 0, 1, by simp [Diag.record, Event.code]⟩
    | limiterSaturated => exact absurd rfl he
    | _ => exact ⟨1, 0, 0, 0, by simp [Diag.record, Event.code]⟩
  | dropped => exact ⟨0, 2, 0, 0, by simp [Diag.record, Event.code, BitVec.add_assoc]⟩
  | clipped n sr k hi hpos hk =>
    subst hi
    exact ⟨0, 0, k, 0, by simpa [hpos] using hk⟩

end Sys2Proof.Machine
end
